-- ==== Sys2Proof/Word.lean ====
section
/-! DEFINITION. The words of the machine and their plainest arithmetic (00 R6, R7; 02 R37). -/

namespace Sys2Proof

/-- A byte of memory. -/
abbrev Byte := BitVec 8
/-- A 32-bit vector register value or instruction word. -/
abbrev Word := BitVec 32
/-- A 64-bit pair, address or k register. -/
abbrev DWord := BitVec 64
/-- A 6-bit register field v0-v63 (02 R54). -/
abbrev Reg := BitVec 6
/-- A 4-bit predicate field p0-p15 (02 R54). -/
abbrev PReg := BitVec 4

/-- The value of `n` bits taken as two's complement (01 R36 sext). -/
def sextN (n x : Nat) : Int :=
  if x % 2 ^ n < 2 ^ (n - 1) then (x % 2 ^ n : Nat) else (x % 2 ^ n : Nat) - (2 ^ n : Nat)

/-- Bits `h` down to `l` of a natural number (01 R36 bits). -/
def bitsN (x h l : Nat) : Nat := x / 2 ^ l % 2 ^ (h + 1 - l)

/-- The low `n` bits of an exact integer (01 R36 bits, R95: results wrap). -/
def wrapI (n : Nat) (x : Int) : BitVec n := BitVec.ofInt n x

/-- x clamped to lo ... hi (01 R36 sat). -/
def satI (x lo hi : Int) : Int := if x < lo then lo else if hi < x then hi else x

end Sys2Proof
end

