-- ==== Sys2Proof/Config.lean ====
section
/-! DEFINITION. What an implementation fixes, and the free values: constants with no body, so that nothing can be proved of
their values. -/

namespace Sys2Proof.Config

/-- A free value: what the spec leaves open, one for each value of the state's counter (log 18). -/
opaque freeWord : Nat → Word

/-- AES-256-GCM: the ciphertext and its tag under a key, a nonce and additional data (17 R326, 24 R405; log 10). -/
opaque gcmSeal : BitVec 256 → BitVec 96 → List Byte → List Byte → List Byte × List Byte

/-- AES-256-GCM: the plaintext, where the tag verifies (log 10). -/
opaque gcmOpen : BitVec 256 → BitVec 96 → List Byte → List Byte → List Byte → Option (List Byte)

/-- AES-256-XTS of a 64-byte unit under a data key of 64 bytes, its address as tweak (16 R316; log 10). -/
opaque xtsSeal : BitVec 512 → Nat → List Byte → List Byte

/-- The 64-bit MAC of a sealing unit under a MAC key, over its address, its key ID and its ciphertext (16 R316; log 10). -/
opaque unitMac : BitVec 256 → Nat → Nat → List Byte → List Byte

/-- The eight Reed-Solomon check symbols of the 72 bytes of a unit (16 R316; log 10). -/
opaque rsCheck : List Byte → List Byte

/-- HKDF-SHA-256 of a context secret to 64 bytes (24 R405; log 10). -/
opaque hkdf64 : BitVec 256 → String → BitVec 512

/-- SHA-256 (24 R407; log 10). -/
opaque sha256 : List Byte → BitVec 256

/-- HKDF-SHA-256 of a context secret with one of the labels of 24 R405 (log 10). -/
opaque hkdf : BitVec 256 → String → BitVec 256

/-- HMAC-SHA-256 (24 R409; log 10). -/
opaque hmac : List Byte → List Byte → BitVec 256

/-- The P-256 key pair derived from a secret: the private and the public key (24 R409; log 10). -/
opaque p256Key : BitVec 256 → BitVec 256 × List Byte

/-- An ECDSA P-256 signature, r then s, 64 bytes (14 R280, 24 R409; log 10). -/
opaque ecdsaSign : BitVec 256 → List Byte → List Byte

/-- The check of an ECDSA P-256 signature of bytes under a public key (24 R407; log 10). -/
opaque ecdsaVerify : List Byte → List Byte → List Byte → Bool

/-- Spemus's public key, whose hash is fused (24 R407). -/
opaque spemusKey : List Byte

/-- ECDHE on P-256: the shared secret of a private key and a peer's public key (24 R410; log 10). -/
opaque ecdh : BitVec 256 → List Byte → BitVec 256

/-- The Unique Device Secret, fused (24 R409). -/
opaque uds : BitVec 256

/-- The certificates of slot 0 that Spemus issued: the root and the DeviceID certificate (24 R409, R410). -/
opaque rootCerts : List Byte × List Byte

/-- The secret of the operator's keys at a boot, drawn at random (24 R405). -/
opaque bootDraw : Nat → BitVec 256

/-- The ephemeral secret of an SPDM session, drawn at random (24 R410; log 10). -/
opaque sessionDraw : Nat → BitVec 256

/-- A transcendental function of FUN where the interval method does not decide the rounding (09 R190; log 11). -/
opaque funTail : Nat → Int → Int → Bool

end Sys2Proof.Config
end

