-- ==== Sys2Proof/Machine/Cells.lean ====
section
/-! DEFINITION. Memories as sorted lists of (address, byte) pairs, the one canonical form of every store of bytes. A blank
byte of a memory reads 0 (log 5); a cache line's cells have no blank: an unlisted byte is not held. -/

namespace Sys2Proof.Machine

/-- A store of bytes: addresses strictly rising. -/
abbrev Cells := List Host.Cell

/-- The byte listed at an address. -/
def Cells.get : Cells → Nat → Option Byte
  | [], _ => none
  | (x, b) :: r, a => if x = a then some b else Cells.get r a

/-- Lists a byte at an address, keeping the order. -/
def Cells.put : Cells → Nat → Byte → Cells
  | [], a, b => [(a, b)]
  | (x, c) :: r, a, b =>
    if a < x then (a, b) :: (x, c) :: r
    else if a = x then (a, b) :: r
    else (x, c) :: Cells.put r a b

/-- Drops what is listed at an address. -/
def Cells.del : Cells → Nat → Cells
  | [], _ => []
  | (x, c) :: r, a => if x = a then Cells.del r a else (x, c) :: Cells.del r a

/-- The addresses rise strictly. -/
def Cells.sorted : Cells → Bool
  | [] => true
  | [_] => true
  | (x, _) :: (y, b) :: r => decide (x < y) && Cells.sorted ((y, b) :: r)

/-- A memory: cells none of which equals the blank byte. -/
abbrev Memory := Cells

/-- What an unlisted address of a memory reads as (log 5). -/
def Memory.blank : Byte := 0

/-- One byte of a memory. -/
def Memory.read (m : Memory) (a : Nat) : Byte := (Cells.get m a).getD Memory.blank

/-- Writes one byte, keeping the canonical form. -/
def Memory.write (m : Memory) (a : Nat) (b : Byte) : Memory :=
  if b = Memory.blank then Cells.del m a else Cells.put m a b

/-- The canonical form: addresses strictly rising and no entry equal to the blank. -/
def Memory.wf (m : Memory) : Bool := Cells.sorted m && m.all fun c => c.2 != Memory.blank

/-- Writes bytes at successive addresses. -/
def Memory.writeAll (m : Memory) (a : Nat) : List Byte → Memory
  | [] => m
  | b :: r => Memory.writeAll (Memory.write m a b) (a + 1) r

/-- Reads bytes at successive addresses. -/
def Memory.readAll (m : Memory) (a : Nat) : Nat → List Byte
  | 0 => []
  | n + 1 => Memory.read m a :: Memory.readAll m (a + 1) n

/-- Little-endian bytes of a number (00 R7). -/
def leBytes : Nat → Nat → List Byte
  | 0, _ => []
  | n + 1, x => BitVec.ofNat 8 x :: leBytes n (x / 256)

/-- The number little-endian bytes stand for (00 R7). -/
def leNat : List Byte → Nat
  | [] => 0
  | b :: r => b.toNat + 256 * leNat r

end Sys2Proof.Machine
end

