-- ==== Sys2Proof/Machine/Table.lean ====
section
/-! DEFINITION. Tables: finite maps from numbers, as lists sorted by key. -/

namespace Sys2Proof.Machine

/-- A finite map from numbers: keys strictly rising. -/
abbrev Table (α : Type) := List (Nat × α)

/-- The entry of a key. -/
def Table.find? {α : Type} : Table α → Nat → Option α
  | [], _ => none
  | (x, a) :: r, k => if x = k then some a else Table.find? r k

/-- The entry of a key, or a default. -/
def Table.getD {α : Type} (t : Table α) (k : Nat) (d : α) : α := (Table.find? t k).getD d

/-- Sets the entry of a key, keeping the order. -/
def Table.set {α : Type} : Table α → Nat → α → Table α
  | [], k, b => [(k, b)]
  | (x, a) :: r, k, b =>
    if k < x then (k, b) :: (x, a) :: r
    else if k = x then (k, b) :: r
    else (x, a) :: Table.set r k b

/-- Removes the entry of a key. -/
def Table.erase {α : Type} (t : Table α) (k : Nat) : Table α := t.filter fun e => e.1 != k

/-- Changes the entry of a key, if there is one. -/
def Table.modify {α : Type} (t : Table α) (k : Nat) (f : α → α) : Table α :=
  t.map fun e => if e.1 = k then (e.1, f e.2) else e

/-- The keys whose entry satisfies a test, ascending. -/
def Table.keysWhere {α : Type} (t : Table α) (p : Nat → α → Bool) : List Nat :=
  (t.filter fun e => p e.1 e.2).map Prod.fst

/-- The values, in key order. -/
def Table.vals {α : Type} (t : Table α) : List α := t.map Prod.snd

end Sys2Proof.Machine
end

