-- ==== Sys2Proof/Syntax.lean ====
section
/-! DEFINITION. The instructions of the Bexnar (02 R53, R59) and the events of its other agents: one constructor of Instr
for each row of spec/opcode_table.json. A word's first argument is its chain bit CH, except PB, whose CH must be 0. -/

namespace Sys2Proof

/-- IOP functions (04 R97). -/
inductive IopFn where
  | add | sub | mul | mulhs | mulhn | mins | minn | maxs | maxn | and | or | xor | andn | shl | shr | sar | rol | clz | popc
  | brev | abs | neg | addss | subss
  deriving DecidableEq, Repr

/-- SHI kinds (04 R100). -/
inductive ShKind where
  | shl | shr | sar | rol
  deriving DecidableEq, Repr

/-- Compare relations (04 R103). -/
inductive Cmp where
  | eq | ne | lt | le | gt | ge
  deriving DecidableEq, Repr

/-- Compare types (02 R53). -/
inductive ITy where
  | s32 | n32 | s64 | n64
  deriving DecidableEq, Repr

/-- Predicate functions (04 R104). -/
inductive PlopFn where
  | and | or | xor | andn | not | mov
  deriving DecidableEq, Repr

/-- Special values (01 R23). -/
inductive SpecialValue where
  | tidX | tidY | tidZ | lane | crew | teamX | teamY | teamZ | grid | core | cluster | die | peer | clock | seat | ctx | fdepth
  deriving DecidableEq, Repr

/-- FOP operations (09 R185). -/
inductive FopOp where
  | add | sub | mul | min | max
  deriving DecidableEq, Repr

/-- FOP and FCMP types (09 R185, R194). -/
inductive FTy where
  | f32 | f16x2 | bf16x2 | f64
  deriving DecidableEq, Repr

/-- Rounding modes (08 R168). -/
inductive Rm where
  | rne | rz | rdn | rup
  deriving DecidableEq, Repr

/-- FUN functions (09 R190). -/
inductive FunFn where
  | rcp | rsq | sqrt | ex2 | lg2 | sin | cos | tanh | class
  deriving DecidableEq, Repr

/-- FUN types (09 R190). -/
inductive FunTy where
  | f32 | f16x2 | bf16x2
  deriving DecidableEq, Repr

/-- FCMP relations (09 R194). -/
inductive FCmpRel where
  | eq | ne | lt | le | gt | ge | un
  deriving DecidableEq, Repr

/-- CVT types (09 R195). -/
inductive CvtTy where
  | s8 | s16 | s32 | s64 | n8 | n16 | n32 | n64 | f16 | bf16 | f32 | f64
  deriving DecidableEq, Repr

/-- SHFL kinds (04 R116). -/
inductive ShflKind where
  | idx | up | dn | xor
  deriving DecidableEq, Repr

/-- REDUX operations (04 R118). -/
inductive ReduxOp where
  | add | min | max
  deriving DecidableEq, Repr

/-- REDUX types (04 R118). -/
inductive ReduxTy where
  | s32 | n32 | f32
  deriving DecidableEq, Repr

/-- Scopes (02 R57). -/
inductive Scope where
  | cr | co | cl | di | pk | sy
  deriving DecidableEq, Repr

/-- Access widths (02 R53). -/
inductive Width where
  | w8 | w16 | w32 | w64 | w128
  deriving DecidableEq, Repr

/-- MWAIT conditions (05 R134). -/
inductive WaitCond where
  | ne | eq
  deriving DecidableEq, Repr

/-- FSTAT selectors (06 R156). -/
inductive ForkSel where
  | status | opened | commit | sqpred | sqmem | sqother | plain
  deriving DecidableEq, Repr

/-- PSTAT selectors (10 R219). -/
inductive PstatSel where
  | plate | dropped | nonfin | locks
  deriving DecidableEq, Repr

/-- Atomic operations (05 R127). -/
inductive AtomOp where
  | add32 | mins32 | minn32 | maxs32 | maxn32 | and32 | or32 | xor32 | xchg32 | incw32 | decw32 | faddf32 | add64 | mins64
  | minn64 | maxs64 | maxn64 | and64 | or64 | xor64 | xchg64 | incw64 | decw64 | faddbf16x2
  deriving DecidableEq, Repr

/-- What a completion repeats of its request: domain, receive mapping and transfer number of the tag (22 R387). -/
structure FabricReq where
  dom : Nat
  map : Nat
  xid : Nat
  deriving DecidableEq, Repr

/-- The incarnation numbers of a tag: SINC, the sender's, and DINC, the receiver's as the sender has recorded it. -/
structure FabricIncs where
  sinc : Nat
  dinc : Nat
  deriving DecidableEq, Repr

/-- The Ublen tag of a completion without its KIND (22 R387); src is the sending peer. -/
structure FabricTag where
  req  : FabricReq
  src  : Nat
  incs : FabricIncs
  deriving DecidableEq, Repr

/-- A request that arrives at a hub of this package: a transfer packet or a flag write, with its Ublen tag (22 R387). -/
structure FabricPacket where
  /-- KIND of the tag: 0 transfer packet, 1 flag write; others are refused kinds. -/
  kind : Nat
  /-- The sender's incarnation number. -/
  sinc : Nat
  /-- The target's incarnation number as the sender has recorded it. -/
  dinc : Nat
  /-- Sender peer ID. -/
  src  : Nat
  /-- Domain of the sending context. -/
  dom  : Nat
  /-- Receive mapping. -/
  map  : Nat
  /-- Transfer number. -/
  xid  : Nat
  /-- OFF of the transfer (13 R250). -/
  base : Nat
  /-- Offset of the packet in its transfer (13 R251). -/
  off  : Nat
  /-- Number of packets of the transfer. -/
  npkts : Nat
  /-- The packet's bytes. -/
  data : List Byte
  /-- F of the selector: the transfer carries a flag (13 R250). -/
  hasFlag : Bool
  /-- FOFF, the flag's offset in the mapping. -/
  flagOff : Nat
  /-- The flag value. -/
  flag : DWord
  deriving DecidableEq, Repr

/-- A remote atomic that arrives at a hub of this package (13 R256, 22 R387). -/
structure FabricAtomic where
  sinc : Nat
  dinc : Nat
  src  : Nat
  dom  : Nat
  map  : Nat
  xid  : Nat
  /-- Offset in the mapping. -/
  off  : Nat
  op   : AtomOp
  operand : DWord
  deriving DecidableEq, Repr

/-- A register of a hart's log (25 R433). -/
inductive HartLogReg where
  | base | size | tail | head
  deriving DecidableEq, Repr

/-- A write of a register of a hart's log. -/
structure LogWrite where
  reg   : HartLogReg
  value : DWord
  deriving DecidableEq, Repr

/-- A stage image in flash: its 128-byte header, and what follows (24 R407). -/
structure BootStage where
  header : List Byte
  image  : List Byte
  deriving DecidableEq, Repr

/-- What the boot chain finds (24 R407): the verdict on the fuses and the digest of the ROM, and the stage images of steps 2 to 6. -/
structure BootImages where
  romDigest : List Byte
  fusesOk   : Bool
  stages    : List BootStage
  deriving DecidableEq, Repr

/-- Every instruction word and every event of the opcode table. -/
inductive Instr where
  /-- PB (02 R48). -/
  | pb (p : PReg) (n : BitVec 3) (m : BitVec 8)
  /-- IOP (04 R97). -/
  | iop (ch : Bool) (d : Reg) (a : Reg) (b : Reg) (w64 : Bool) (f : IopFn)
  /-- ADDI (04 R99). -/
  | addi (ch : Bool) (d : Reg) (a : Reg) (i : BitVec 13)
  /-- ANDI (04 R99). -/
  | andi (ch : Bool) (d : Reg) (a : Reg) (i : BitVec 13)
  /-- ORI (04 R99). -/
  | ori (ch : Bool) (d : Reg) (a : Reg) (i : BitVec 13)
  /-- XORI (04 R99). -/
  | xori (ch : Bool) (d : Reg) (a : Reg) (i : BitVec 13)
  /-- SHI (04 R100). -/
  | shi (ch : Bool) (d : Reg) (a : Reg) (k : ShKind) (w64 : Bool) (amt : BitVec 6)
  /-- MOVI (04 R101). -/
  | movi (ch : Bool) (d : Reg) (i : BitVec 19)
  /-- MOVHI (04 R101). -/
  | movhi (ch : Bool) (d : Reg) (i : BitVec 19)
  /-- ICMP (04 R103). -/
  | icmp (ch : Bool) (p : PReg) (a : Reg) (b : Reg) (r : Cmp) (t : ITy)
  /-- ICMPI (04 R103). -/
  | icmpi (ch : Bool) (p : PReg) (a : Reg) (r : Cmp) (t : ITy) (i : BitVec 10)
  /-- PLOP (04 R104). -/
  | plop (ch : Bool) (d : PReg) (x : PReg) (y : PReg) (f : PlopFn)
  /-- SEL (04 R105). -/
  | sel (ch : Bool) (d : Reg) (a : Reg) (b : Reg) (p : PReg) (w64 : Bool)
  /-- XMOV_MOV (04 R106). -/
  | xmovMov (ch : Bool) (d : Reg) (a : Reg)
  /-- XMOV_RDS (04 R106). -/
  | xmovRds (ch : Bool) (d : Reg) (s : SpecialValue)
  /-- XMOV_RDK (04 R106). -/
  | xmovRdk (ch : Bool) (d : Reg) (k : BitVec 5)
  /-- XMOV_WRK (04 R106). -/
  | xmovWrk (ch : Bool) (a : Reg) (k : BitVec 5)
  /-- XMOV_RDP (04 R106). -/
  | xmovRdp (ch : Bool) (d : Reg)
  /-- XMOV_WRP (04 R106). -/
  | xmovWrp (ch : Bool) (a : Reg)
  /-- XMOV_SHAPE (04 R106). -/
  | xmovShape (ch : Bool) (d : Reg) (a : Reg)
  /-- XMOV_PREC (04 R106). -/
  | xmovPrec (ch : Bool) (d : Reg) (e : BitVec 3)
  /-- LEA (04 R102). -/
  | lea (ch : Bool) (d : Reg) (a : Reg) (b : Reg) (s : BitVec 3) (sg : Bool)
  /-- FOP (09 R185). -/
  | fop (ch : Bool) (d : Reg) (a : Reg) (b : Reg) (o : FopOp) (t : FTy) (rm : Rm)
  /-- FMA32 (09 R189). -/
  | fma32 (ch : Bool) (d : Reg) (a : Reg) (b : Reg) (e : Reg) (neg : Bool)
  /-- FMAH (09 R189). -/
  | fmah (ch : Bool) (d : Reg) (a : Reg) (b : Reg) (e : Reg) (neg : Bool)
  /-- FMAB (09 R189). -/
  | fmab (ch : Bool) (d : Reg) (a : Reg) (b : Reg) (e : Reg) (neg : Bool)
  /-- FMAD (09 R189). -/
  | fmad (ch : Bool) (d : Reg) (a : Reg) (b : Reg) (e : Reg) (neg : Bool)
  /-- FUN (09 R192). -/
  | funOp (ch : Bool) (d : Reg) (a : Reg) (f : FunFn) (t : FunTy)
  /-- FCMP (09 R194). -/
  | fcmp (ch : Bool) (p : PReg) (a : Reg) (b : Reg) (r : FCmpRel) (t : FTy)
  /-- CVT (09 R196). -/
  | cvt (ch : Bool) (d : Reg) (a : Reg) (dty : CvtTy) (sty : CvtTy) (rm : Rm) (sat : Bool)
  /-- SHFL (04 R116). -/
  | shfl (ch : Bool) (d : Reg) (a : Reg) (b : Reg) (k : ShflKind) (imm : Bool)
  /-- VOTE_ANY (04 R117). -/
  | voteAny (ch : Bool) (q : PReg) (p : PReg)
  /-- VOTE_ALL (04 R117). -/
  | voteAll (ch : Bool) (q : PReg) (p : PReg)
  /-- VOTE_BALLOT (04 R117). -/
  | voteBallot (ch : Bool) (d : Reg) (p : PReg)
  /-- VOTE_ELECT (04 R117). -/
  | voteElect (ch : Bool) (d : Reg) (q : PReg) (p : PReg)
  /-- REDUX (04 R118). -/
  | redux (ch : Bool) (d : Reg) (a : Reg) (o : ReduxOp) (t : ReduxTy)
  /-- DOT4 (09 R197). -/
  | dot4 (ch : Bool) (d : Reg) (a : Reg) (b : Reg) (e : Reg) (uns : Bool)
  /-- LD (05 R124). -/
  | ld (ch : Bool) (d : Reg) (ap : BitVec 5) (w : Width) (off : BitVec 11)
  /-- LDS (05 R124). -/
  | lds (ch : Bool) (d : Reg) (ap : BitVec 5) (w : Width) (off : BitVec 11)
  /-- ST (05 R124). -/
  | st (ch : Bool) (d : Reg) (ap : BitVec 5) (w : Width) (off : BitVec 11)
  /-- LDA (05 R126). -/
  | lda (ch : Bool) (d : Reg) (ap : BitVec 5) (sc : Scope) (w : Width)
  /-- STL (05 R126). -/
  | stl (ch : Bool) (d : Reg) (ap : BitVec 5) (sc : Scope) (w : Width)
  /-- ATOM (05 R127). -/
  | atom (ch : Bool) (d : Reg) (ap : BitVec 5) (b : Reg) (sc : Scope) (o : AtomOp)
  /-- CAS (05 R128). -/
  | cas (ch : Bool) (d : Reg) (ap : BitVec 5) (b : Reg) (sc : Scope) (w : Width)
  /-- FENCE_AR (05 R131). -/
  | fenceAr (ch : Bool) (sc : Scope)
  /-- FENCE_ACQ (05 R131). -/
  | fenceAcq (ch : Bool) (sc : Scope)
  /-- FENCE_REL (05 R131). -/
  | fenceRel (ch : Bool) (sc : Scope)
  /-- WAIT_CNT (05 R132). -/
  | waitCnt (ch : Bool) (ldc : BitVec 4) (stc : BitVec 4) (cpc : BitVec 4) (tlc : BitVec 4)
  /-- MWAIT (05 R134). -/
  | mwait (ch : Bool) (d : Reg) (ap : BitVec 5) (b : Reg) (sc : Scope) (cond : WaitCond) (w : Width)
  /-- LDFE_KEEP (05 R135). -/
  | ldfeKeep (ch : Bool) (d : Reg) (ap : BitVec 5) (sc : Scope) (w : Width)
  /-- LDFE_TAKE (05 R135). -/
  | ldfeTake (ch : Bool) (d : Reg) (ap : BitVec 5) (sc : Scope) (w : Width)
  /-- STFE_FILL (05 R135). -/
  | stfeFill (ch : Bool) (d : Reg) (ap : BitVec 5) (sc : Scope) (w : Width)
  /-- STFE_PUT (05 R135). -/
  | stfePut (ch : Bool) (d : Reg) (ap : BitVec 5) (sc : Scope) (w : Width)
  /-- CCTL_ISYNC (05 R137). -/
  | cctlIsync (ch : Bool)
  /-- CCTL_DWB (05 R136). -/
  | cctlDwb (ch : Bool) (ap : BitVec 5) (sc : Scope)
  /-- CCTL_DINV (05 R136). -/
  | cctlDinv (ch : Bool) (ap : BitVec 5) (sc : Scope)
  /-- CCTL_PFX (05 R136). -/
  | cctlPfx (ch : Bool) (ap : BitVec 5) (sc : Scope)
  /-- BRA (04 R107). -/
  | bra (ch : Bool) (p : PReg) (s : Bool) (disp : BitVec 20)
  /-- JMPR (04 R107). -/
  | jmpr (ch : Bool) (a : Reg)
  /-- CALL (04 R108). -/
  | call (ch : Bool) (disp : BitVec 25)
  /-- CALLR (04 R107). -/
  | callr (ch : Bool) (a : Reg)
  /-- FCALL (06 R141). -/
  | fcall (ch : Bool) (fd : BitVec 4) (disp : BitVec 21)
  /-- RET (04 R108). -/
  | ret (ch : Bool)
  /-- YIELD (04 R109). -/
  | yieldOp (ch : Bool)
  /-- EXIT (04 R110). -/
  | exitOp (ch : Bool)
  /-- BAR_SYNC (04 R111). -/
  | barSync (ch : Bool) (idx : BitVec 4)
  /-- BAR_ARRIVE (04 R111). -/
  | barArrive (ch : Bool) (idx : BitVec 4)
  /-- LAUNCH_GRID (04 R113). -/
  | launchGrid (ch : Bool) (d : Reg) (a : Reg)
  /-- CWAIT_ALL (04 R114). -/
  | cwaitAll (ch : Bool)
  /-- CWAIT_FGATE (06 R155). -/
  | cwaitFgate (ch : Bool)
  /-- CWAIT_FSTAT (06 R156). -/
  | cwaitFstat (ch : Bool) (d : Reg) (sel : ForkSel)
  /-- CWAIT_FSQ (06 R157). -/
  | cwaitFsq (ch : Bool)
  /-- TILE_PLOAD (10 R209). -/
  | tilePload (ch : Bool) (ap : BitVec 5) (sl : BitVec 3) (g : Reg)
  /-- TILE_PLOADW (10 R213). -/
  | tilePloadw (ch : Bool) (ap : BitVec 5) (sl : BitVec 3) (g : Reg)
  /-- TILE_EXPOSE (10 R210). -/
  | tileExpose (ch : Bool) (ap : BitVec 5) (sl : BitVec 3) (tp : BitVec 5) (g : Reg)
  /-- TILE_EXPOSEW (10 R213). -/
  | tileExposew (ch : Bool) (ap : BitVec 5) (sl : BitVec 3) (tp : BitVec 5) (g : Reg)
  /-- TILE_TCVT (10 R217). -/
  | tileTcvt (ch : Bool) (src : BitVec 5) (sl : BitVec 3) (dst : BitVec 5) (g : Reg)
  /-- TILE_TDCVT (10 R218). -/
  | tileTdcvt (ch : Bool) (src : BitVec 5) (sl : BitVec 3) (dst : BitVec 5) (g : Reg)
  /-- TILE_TRAYZ (10 R216). -/
  | tileTrayz (ch : Bool) (tp : BitVec 5) (g : Reg)
  /-- TILE_TRAYRD (10 R216). -/
  | tileTrayrd (ch : Bool) (tp : BitVec 5) (dst : BitVec 5) (g : Reg)
  /-- TILE_TRAYFL (10 R216). -/
  | tileTrayfl (ch : Bool) (tp : BitVec 5) (g : Reg)
  /-- TILE_PSTAT (10 R219). -/
  | tilePstat (ch : Bool) (d : Reg) (sel : PstatSel)
  /-- QACC_QRST (11 R227). -/
  | qaccQrst (ch : Bool) (q : BitVec 3) (a : Reg) (p : Reg)
  /-- QACC_QGEN (11 R229). -/
  | qaccQgen (ch : Bool) (q : BitVec 3) (d : Reg) (a : Reg)
  /-- QACC_QAPP (11 R230). -/
  | qaccQapp (ch : Bool) (q : BitVec 3) (a : Reg) (b : Reg)
  /-- QACC_QCNT (11 R228). -/
  | qaccQcnt (ch : Bool) (q : BitVec 3) (d : Reg)
  /-- QACC_QAPL_REG (11 R234). -/
  | qaccQaplReg (ch : Bool) (q : BitVec 3) (d : Reg) (a : Reg)
  /-- QACC_QAPLT_REG (11 R234). -/
  | qaccQapltReg (ch : Bool) (q : BitVec 3) (d : Reg) (a : Reg)
  /-- QACC_QAPR_REG (11 R234). -/
  | qaccQaprReg (ch : Bool) (q : BitVec 3) (d : Reg) (a : Reg)
  /-- QACC_QAPRT_REG (11 R234). -/
  | qaccQaprtReg (ch : Bool) (q : BitVec 3) (d : Reg) (a : Reg)
  /-- QACC_QAPL_TILE (11 R235). -/
  | qaccQaplTile (ch : Bool) (q : BitVec 3) (ap : BitVec 5) (g : Reg)
  /-- QACC_QAPLT_TILE (11 R235). -/
  | qaccQapltTile (ch : Bool) (q : BitVec 3) (ap : BitVec 5) (g : Reg)
  /-- QACC_QAPR_TILE (11 R235). -/
  | qaccQaprTile (ch : Bool) (q : BitVec 3) (ap : BitVec 5) (g : Reg)
  /-- QACC_QAPRT_TILE (11 R235). -/
  | qaccQaprtTile (ch : Bool) (q : BitVec 3) (ap : BitVec 5) (g : Reg)
  /-- QACC_QSAVE (11 R236). -/
  | qaccQsave (ch : Bool) (q : BitVec 3) (ap : BitVec 5)
  /-- QACC_QLOAD (11 R236). -/
  | qaccQload (ch : Bool) (q : BitVec 3) (ap : BitVec 5)
  /-- QACC_QSPILL (11 R232). -/
  | qaccQspill (ch : Bool) (q : BitVec 3)
  /-- QACC_QCLR (11 R227). -/
  | qaccQclr (ch : Bool) (q : BitVec 3)
  /-- XFER_COPY (13 R244). -/
  | xferCopy (ch : Bool) (d : Reg) (a : Reg) (b : Reg)
  /-- XFER_COPY2D (13 R244). -/
  | xferCopy2d (ch : Bool) (d : Reg) (a : Reg) (b : Reg)
  /-- XFER_HALO (13 R245). -/
  | xferHalo (ch : Bool) (d : Reg) (a : Reg) (b : Reg)
  /-- XFER_BXFER (13 R250). -/
  | xferBxfer (ch : Bool) (d : Reg) (a : Reg) (b : Reg)
  /-- XFER_BXFER_ONE (13 R250). -/
  | xferBxferOne (ch : Bool) (d : Reg) (a : Reg) (b : Reg)
  /-- XFER_BXMC (13 R253). -/
  | xferBxmc (ch : Bool) (d : Reg) (a : Reg) (b : Reg)
  /-- XFER_BXMC_ONE (13 R253). -/
  | xferBxmcOne (ch : Bool) (d : Reg) (a : Reg) (b : Reg)
  /-- XFER_RATOM (13 R256). -/
  | xferRatom (ch : Bool) (d : Reg) (ap : BitVec 5) (o : AtomOp)
  /-- XFER_ARMC (13 R254). -/
  | xferArmc (ch : Bool) (a : Reg) (b : Reg)
  /-- XFER_ARMC_Z (13 R254). -/
  | xferArmcZ (ch : Bool) (a : Reg) (b : Reg)
  /-- XFER_ACWAIT (13 R255). -/
  | xferAcwait (ch : Bool) (d : Reg) (a : Reg)
  /-- SYS_SEATQ (14 R262). -/
  | sysSeatq (ch : Bool) (d : Reg)
  /-- SYS_PLACE (14 R272). -/
  | sysPlace (ch : Bool) (d : Reg) (a : Reg) (b : Reg) (rp : Bool)
  /-- SYS_PLACE_RS (21 R380). -/
  | sysPlaceRs (ch : Bool) (d : Reg) (a : Reg) (b : Reg) (rp : Bool)
  /-- SYS_PREEMPT (14 R273). -/
  | sysPreempt (ch : Bool) (d : Reg) (a : Reg)
  /-- SYS_PREEMPT_AT (14 R273). -/
  | sysPreemptAt (ch : Bool) (d : Reg) (a : Reg) (b : Reg)
  /-- SYS_RESET (14 R274). -/
  | sysReset (ch : Bool) (d : Reg) (a : Reg)
  /-- SYS_CKPT (14 R276). -/
  | sysCkpt (ch : Bool) (d : Reg) (a : Reg) (b : Reg)
  /-- SYS_CKPT_RS (24 R413). -/
  | sysCkptRs (ch : Bool) (d : Reg) (a : Reg) (b : Reg)
  /-- SYS_SCRUB (14 R275). -/
  | sysScrub (ch : Bool) (d : Reg) (a : Reg) (b : Reg)
  /-- SYS_RCPT (14 R280). -/
  | sysRcpt (ch : Bool) (d : Reg) (a : Reg) (b : Reg) (l : Bool)
  /-- SYS_CTRRD (14 R278). -/
  | sysCtrrd (ch : Bool) (d : Reg) (a : Reg) (b : Reg)
  /-- SYS_CTXRD (14 R279). -/
  | sysCtxrd (ch : Bool) (d : Reg) (a : Reg) (b : Reg)
  /-- SYS_CSRR (14 R263). -/
  | sysCsrr (ch : Bool) (d : Reg) (idx : BitVec 12)
  /-- SYS_CSRW (14 R263). -/
  | sysCsrw (ch : Bool) (a : Reg) (idx : BitVec 12)
  /-- SYS_TRAP (14 R266). -/
  | sysTrap (ch : Bool) (tag : BitVec 12) (n : BitVec 4)
  /-- SYS_TRET (14 R269). -/
  | sysTret (ch : Bool)
  /-- SYS_BRK (14 R266). -/
  | sysBrk (ch : Bool) (tag : BitVec 16)
  /-- SYS_BPSET (14 R270). -/
  | sysBpset (ch : Bool) (n : BitVec 3) (a : Reg) (b : Reg)
  /-- SYS_BPCLR (14 R270). -/
  | sysBpclr (ch : Bool) (n : BitVec 3)
  /-- SYS_FEATQ (14 R262). -/
  | sysFeatq (ch : Bool) (d : Reg)
  /-- SYS_MGSET (14 R277). -/
  | sysMgset (ch : Bool) (a : Reg) (b : Reg)
  /-- ISSUE_CYCLE: Each cycle the gatherer chooses bundle 1 and bundle 2 of a partition and issues them. (17 R339) -/
  | issueCycle
  /-- STARVATION: A thread's wait count reaches 4,096 and it leads bundle choice. (17 R345) -/
  | starvation (thread : Nat)
  /-- YIELD_MARK_EXPIRE: A yield mark clears 64 cycles after its YIELD. (17 R340) -/
  | yieldMarkExpire (thread : Nat)
  /-- STALL_NOTICE: After 2^24 cycles with every live thread waiting the device raises a stall notice. (17 R347) -/
  | stallNotice (key : Nat)
  /-- LOAD_DATA_RETURN: A load's data returns and its destination is written, freeing its outstanding entry. (05 R124) -/
  | loadDataReturn (id : Nat)
  /-- MWAIT_WAKE: A write to the monitored bytes becomes visible and MWAIT re-reads and completes if satisfied. (05 R134) -/
  | mwaitWake (thread : Nat)
  /-- FULL_EMPTY_WAKE: A granule changes state and waiting LDFE or STFE threads are re-examined. (05 R135) -/
  | fullEmptyWake (thread : Nat)
  /-- TILE_WORD_COMPLETE: A TILE word completes, its writes perform and its range locks are released. (10 R207) -/
  | tileWordComplete (id : Nat)
  /-- QACC_WORD_COMPLETE: A QACC word with memory accesses completes and releases its locks. (11 R225) -/
  | qaccWordComplete (id : Nat)
  /-- TRAY_MERGE: An exposure partial arrives at its L2 slice and is added into the tray element. (10 R214) -/
  | trayMerge (id : Nat) (line : Nat)
  /-- COPY_SECTOR_COMPLETE: A copy sector's bytes are performed; after the last the status word is written. (13 R246) -/
  | copySectorComplete (id : Nat) (sector : Nat)
  /-- TRANSFER_PACKET_ARRIVAL: A transfer packet arrives at a target and is dropped, refused or written and counted. (13 R251) -/
  | transferPacketArrival (pkt : FabricPacket)
  /-- TRANSFER_REPLY: A positive or negative reply reaches the sender and the transfer completes. (13 R252)
  The parts of its tag stand apart; a positive reply is of KIND 3, a negative one of KIND 4 (22 R387). -/
  | transferReply (req : FabricReq) (src : Nat) (incs : FabricIncs) (positive : Bool) (cause : Nat) (bytes : Nat)
  /-- PACKET_WRITE_COMPLETION: A sent packet's write completion returns after a source-read failure. (13 R252)
  It is of KIND 1 for a packet that carries the flag, else of KIND 0. -/
  | packetWriteCompletion (tag : FabricTag) (flagWrite : Bool) (off : Nat) (written : Bool)
  /-- REPLY_BOUND_EXPIRE: A target passes the fabric reply bound and is recorded negative with reply-timeout. (13 R252) -/
  | replyBoundExpire (xid : Nat) (peer : Nat)
  /-- REMOTE_ATOMIC_ARRIVAL: A remote atomic arrives at a target and is refused or applied at the home tower. (13 R256) -/
  | remoteAtomicArrival (req : FabricAtomic)
  /-- RATOM_REPLY: A RATOM lane's reply returns; after all lanes, failed lanes trap. (13 R256) -/
  | ratomReply (tag : FabricTag) (positive : Bool) (cause : Nat) (value : DWord)
  /-- INCARNATION_ANNOUNCEMENT: A peer's announcement records its new incarnation and fails requests to the old one with
  peer-reset. (22 R389) -/
  | incarnationAnnouncement (src : Nat) (sinc : Nat)
  /-- UALINK_FLIT_RECEIVE: A flit arrives; a tag failure causes retry and three failures take the station down. (22 R384) -/
  | ualinkFlitReceive (station : Nat) (tagOk : Bool) (kindOk : Bool)
  /-- ETHERNET_FRAME_RECEIVE: A frame arrives and is checked by MACsec, dropped or passed to the service cores. (22 R393) -/
  | ethernetFrameReceive (port : Nat) (hart : Nat) (secTag : Bool) (checkOk : Bool) (frame : List Byte) (addr : Nat)
  /-- HOST_MEM_ACCESS: A host CXL.mem access reaches device memory under its stream's key ID. (22 R394) -/
  | hostMemAccess (port : Nat) (stream : Nat) (addr : Nat) (write : Bool) (data : List Byte)
  /-- REGISTER_WRITE: A host-port BAR0 write, of a width in bytes, to a register with no row of its own, ignored when refused. (22 R396) -/
  | registerWrite (off : Nat) (width : Nat) (value : DWord)
  /-- QUEUE_DOORBELL: A QTAIL write is held until earlier host writes perform, then the new commands are read. (22 R398) -/
  | queueDoorbell (q : Nat) (tail : Word)
  /-- QUEUE_RESTART: Writing QCTL RESTART clears STOPPED and resumes reading at QHEAD. (22 R397) -/
  | queueRestart (q : Nat)
  /-- COMMAND_NOP: A NOP command is taken from the ring. (17 R323) -/
  | commandNop (q : Nat)
  /-- COMMAND_GRID: A GRID command hands its launch record to the fixer for checking. (17 R324) -/
  | commandGrid (q : Nat)
  /-- COMMAND_FENCE: A FENCE command completes once every earlier command of the queue completes. (17 R324) -/
  | commandFence (q : Nat)
  /-- COMPLETION_RECORD_WRITE: A completed command's record is written in SEQ order, or dropped with a fault record. (17 R324) -/
  | completionRecordWrite (q : Nat)
  /-- TEAM_PLACEMENT: The fixer makes a waiting team resident when its resources are free. (17 R329) -/
  | teamPlacement (grid : Nat) (team : Nat) (cluster : Nat) (cores : List Nat)
  /-- TEAM_RELEASE: A team's residency is freed after its last EXIT once its XFER words complete. (17 R332) -/
  | teamRelease (team : Nat)
  /-- GRID_RETIRE: A grid retires when its teams exited and children retired, freeing its resources. (17 R332) -/
  | gridRetire (grid : Nat)
  /-- TEAM_PARK: A team whose live threads all wait in CWAIT.ALL is saved and its resources released. (17 R334) -/
  | teamPark (team : Nat)
  /-- PREEMPT_TARGET_REACHED: The context count reaches an armed PREEMPT.AT target and the grid stops. (21 R378) -/
  | preemptTargetReached (grid : Nat)
  /-- IMAGE_SEALED: A stopped grid's image is sealed, its residency freed and PREEMPT's result written. (14 R273) -/
  | imageSealed (grid : Nat)
  /-- HALT_HOLD_EXPIRE: A halted grid's hold ends and it retires with HALT. (20 R358) -/
  | haltHoldExpire (grid : Nat)
  /-- RESET_SCRUB_COMPLETE: A RESET's scrub is done, the key slot erased and its receipt handle written. (14 R274) -/
  | resetScrubComplete (id : Nat)
  /-- SCRUB_COMPLETE: A SCRUB's last unit is done and its receipt handle written. (14 R275) -/
  | scrubComplete (id : Nat)
  /-- CKPT_COMPLETE: A checkpoint stream or restore check ends and its result is written. (14 R276) -/
  | ckptComplete (id : Nat) (flashOk : Bool)
  /-- PAGE_FAULT_RESPONSE: A PFRESP write re-walks waiting accesses or makes the fault final. (20 R372) -/
  | pageFaultResponse (value : DWord)
  /-- PAGE_FAULT_BOUND_EXPIRE: A replayable fault waits longer than PFBOUND and becomes final. (20 R372) -/
  | pageFaultBoundExpire (id : Nat)
  /-- PAGE_FAULT_REPOST: A lost page-fault record is posted again after 1,024 cycles. (20 R375) -/
  | pageFaultRepost (id : Nat)
  /-- SHOOTDOWN_REQUEST: The IMSIC seteipnum write signals a shootdown request in the ring. (20 R373) -/
  | shootdownRequest (identity : Nat)
  /-- SHOOTDOWN_FINISH: After affected accesses perform the device writes DONE, advances SDRHEAD and sends the MSI. (20 R374) -/
  | shootdownFinish
  /-- RECEIVE_MAPPING_WRITE: A CSRW of RXBn or RXLn completes after packets judged against the old value are written. (13 R249) -/
  | receiveMappingWrite (id : Nat)
  /-- FAULT_LOG_RESET: A CSRW to FLOGBASE or FLOGSIZE resets the log tail and head. (20 R356) -/
  | faultLogReset (key : Nat) (isSize : Bool) (value : DWord)
  /-- FABRIC_ENABLE: FABCTL EN set to 1 increments the incarnation and sends announcements to every peer. (22 R389) -/
  | fabricEnable
  /-- DOMAIN_TABLE_WRITE: A domain table entry write, ignored if it duplicates a valid domain. (22 R386) -/
  | domainTableWrite (k : Nat) (value : Word)
  /-- HSEAT_WRITE: An M-mode write of hseat changes the hart's seat only if permitted. (22 R401) -/
  | hseatWrite (hart : Nat) (value : DWord)
  /-- REPLAY_EVENT_DELIVERY: In replay mode a hart reaching a logged INSTRET receives the logged event. (25 R436) -/
  | replayEventDelivery (hart : Nat)
  /-- MAILBOX_EXTEND: An MBCMD GO write extends measurement register 7-15 with MBDIG or sets ERR. (24 R408) -/
  | mailboxExtend (dig : BitVec 256) (cmd : Word)
  /-- FEATURE_LOCK: A FEATLOCK write computes the negotiated vector, extends MR6 and releases the service cores. (26 R440) -/
  | featureLock (value : Word)
  /-- FEATURE_LOCK_TIMEOUT: Without a lock within 2^30 cycles the device locks with the platform key record's request. (26 R440) -/
  | featureLockTimeout
  /-- DEVICE_RESET: At reset the security-core ROM runs the measured boot chain. (24 R407) -/
  | deviceReset (boot : BootImages)
  /-- RAILS_STABLE: Every rail has stood in its static band for 1 ms and the device leaves reset. (26 R443) -/
  | railsStable
  /-- FUNCTION_READY: A function finishes self-test and its readiness bit sets, releasing held work. (26 R438) -/
  | functionReady (isCore : Bool) (n : Nat)
  /-- GET_VERSION: SPDM GET_VERSION request. (24 R410) -/
  | getVersion (port : Nat)
  /-- GET_CAPABILITIES: SPDM GET_CAPABILITIES request. (24 R410) -/
  | getCapabilities (port : Nat)
  /-- NEGOTIATE_ALGORITHMS: SPDM NEGOTIATE_ALGORITHMS request for the single supported set. (24 R410) -/
  | negotiateAlgorithms (port : Nat) (supported : Bool)
  /-- GET_DIGESTS: SPDM GET_DIGESTS request. (24 R410) -/
  | getDigests (port : Nat)
  /-- GET_CERTIFICATE: SPDM GET_CERTIFICATE request for the slot 0 chain. (24 R410) -/
  | getCertificate (port : Nat) (slot : Nat)
  /-- CHALLENGE: SPDM CHALLENGE signed with the alias key. (24 R410) -/
  | challenge (port : Nat) (nonce : List Byte)
  /-- GET_MEASUREMENTS: SPDM GET_MEASUREMENTS returning MR0-MR15 as blocks 1-16. (24 R410) -/
  | getMeasurements (port : Nat) (block : Nat)
  /-- KEY_EXCHANGE: SPDM KEY_EXCHANGE opening a session. (24 R410) -/
  | keyExchange (port : Nat) (requesterKey : List Byte)
  /-- FINISH: SPDM FINISH completing a session. (24 R410) -/
  | finish (session : Nat) (mutualAuth : Bool)
  /-- KEY_UPDATE: SPDM KEY_UPDATE re-keying a session or link. (24 R404) -/
  | keyUpdate (session : Nat)
  /-- END_SESSION: SPDM END_SESSION. (24 R410) -/
  | endSession (session : Nat)
  /-- CREATE_CONTEXT: Vendor request creating a context in the lowest FREE key slot. (24 R406) -/
  | createContext (session : Nat) (cs : List Byte) (consent : Nat) (harts : Nat) (audkeys : List (List Byte))
  /-- CONTEXT_INFO: Vendor request returning a context record to its owner. (24 R410) -/
  | contextInfo (session : Nat) (key : Nat)
  /-- COUNT_REPORT: Vendor request returning an exact count-class value to the owner or an auditor. (24 R410) -/
  | countReport (session : Nat) (key : Nat) (index : Nat)
  /-- SEAL_RECORD: Vendor request sealing a launch record body under the context's record key. (24 R411) -/
  | sealRecord (session : Nat) (key : Nat) (header : List Byte) (body : List Byte)
  /-- BIND_STREAM: Vendor request binding a selective IDE stream to a context. (22 R395) -/
  | bindStream (session : Nat) (key : Nat) (port : Nat) (stream : Nat)
  /-- DEBUG_RESUME: DBGCMD RESUME releases the held crew at LOC. (25 R422) -/
  | debugResume (key : Nat) (loc : Nat)
  /-- DEBUG_STEP: DBGCMD STEP releases the crew for exactly one issue and holds it again. (25 R422) -/
  | debugStep (key : Nat) (loc : Nat)
  /-- DEBUG_RESUME_ALL: DBGCMD RESUME ALL releases every hold of the context. (25 R422) -/
  | debugResumeAll (key : Nat)
  /-- DEBUG_DETACH: Writing DBGCTL ATT = 0 releases every hold and clears STOPREQ. (25 R422) -/
  | debugDetach (key : Nat)
  /-- DEBUG_STOP_REQUEST: DBGCTL STOPREQ stops the context's queues and PLACEs from starting work. (25 R425) -/
  | debugStopRequest (key : Nat)
  /-- CSASSIGN_WRITE: Assigning a die's contact sheet discards its held records into CSLOST. (25 R426) -/
  | csassignWrite (die : Nat) (value : Word)
  /-- CONTACT_SHEET_SAMPLE: Each sample period a sample record of one partition's bundle 1 is taken. (25 R427) -/
  | contactSheetSample (die : Nat) (core : Nat)
  /-- CONTACT_SHEET_DRAIN: Buffered trace records leave for the context's ring, sealed, in order. (25 R428) -/
  | contactSheetDrain (die : Nat)
  /-- PATROL_SCRUB_STEP: The patrol reads a sealing unit, corrects, rewrites or poisons it and retires its page. (16 R319) -/
  | patrolScrubStep (tower : Nat)
  /-- GLITCH_DETECT: A voltage, clock or temperature glitch detector raises a level 3 alarm. (24 R414) -/
  | glitchDetect
  /-- TAMPER_DETECT: The package tamper sensor raises a level 3 alarm. (24 R414) -/
  | tamperDetect
  /-- UCIE_TAG_FAILURE: A UCIe tag failure raises a level 3 alarm. (24 R414) -/
  | ucieTagFailure
  /-- POWER_LIMIT_EXCEEDED: Module power averaged over 1 ms exceeds PWRLIM and a cap of one is forced on all clusters. (26 R444) -/
  | powerLimitExceeded
  /-- DIE_OVERTEMP: A die exceeds 105 degrees C and its cluster is forced to a cap of one. (26 R444) -/
  | dieOvertemp (die : Nat)
  /-- FORCED_CAP_LIFT: The forced cap is lifted 1 ms after its condition clears. (26 R444) -/
  | forcedCapLift (die : Option Nat)
  /-- STORE_COMPLETE: A store-class access of a bundle completes, lowering the thread's store count and freeing its
  outstanding-transaction entry. (05 R132) -/
  | storeComplete (id : Nat)
  /-- XFER_COMMAND_ACCEPT: An engine accepts an XFER command and the word's outstanding-transaction entry is freed. (05 R133) -/
  | xferCommandAccept (id : Nat)
  /-- STATION_UP_OR_DOWN: A UALink station's link comes up or goes down, joining or leaving the packet rotation and STATUP. (22 R385) -/
  | stationUpOrDown (station : Nat) (up : Bool)
  /-- HOST_PORT_UP_OR_DOWN: A host port's link comes up or goes down, changing which port carries host-memory pages. (22 R399)
  A port that comes up brings the base of device memory that the host's decoder gives (22 R392); none is a port that goes down. -/
  | hostPortUpOrDown (port : Nat) (up : Option DWord)
  /-- IDE_KEY_SETUP: IDE keys of a host-port stream are set up in an SPDM session, which ends any binding of that stream to a
  context. (22 R395) -/
  | ideKeySetup (session : Nat) (port : Nat) (stream : Nat)
  /-- SECURE_ASSOCIATION_INSTALL: An MKA-agreed secure association is installed on an Ethernet port, which then sends and
  receives frames. (22 R393) -/
  | secureAssociationInstall (port : Nat)
  /-- HREC_WRITE: An M-mode write of hrec sets a hart's record or replay mode. (25 R433) -/
  | hrecWrite (hart : Nat) (value : DWord)
  /-- HRLHEAD_WRITE: Software advances hrlhead, freeing log space and resuming delivery stopped by a full log. (25 R435) The other
  registers of the log (25 R433) are written in the same way. -/
  | hrlheadWrite (hart : Nat) (w : LogWrite)
  /-- TIME_OR_CYCLE_READ: A hart reads time or cycle, and in record mode the value is logged. (25 R435) -/
  | timeOrCycleRead (hart : Nat) (live : DWord)
  /-- NVME_COMPLETION: An NVMe completion arrives for a service-core hart, delivered and logged in record mode or dropped in
  replay mode. (25 R434) -/
  | nvmeCompletion (hart : Nat) (queue : Nat) (payload : List Byte) (addr : Nat)
  deriving DecidableEq, Repr

end Sys2Proof
end

