-- ==== Sys2Proof/Machine/State.lean ====
section
/-! DEFINITION. The state of the machine: everything the spec gives it, as plain data, and the state after reset. -/

namespace Sys2Proof.Machine

/-- Why the machine stops. -/
inductive Fault where
  /-- The power rails leave their bands: the spec promises no behaviour (26 R443). Raised by step. Safe. -/
  | railsOutOfBand
  deriving DecidableEq, Repr

/-- Why a step is refused. -/
inductive Refusal where
  /-- The instruction has no meaning in the model yet. Raised by an arm of exec. Safe. -/
  | notModelled (mnemonic : String)
  deriving DecidableEq, Repr

/-! ## Threads, crews, teams and grids -/

/-- A guard of a PB (02 R51). -/
structure Guard where
  active : Bool
  pval   : Bool
  count  : Nat
  index  : Nat
  mask   : BitVec 8
  deriving DecidableEq, Repr

/-- No guard. -/
def Guard.none : Guard := ⟨false, false, 0, 0, 0⟩

/-- A shape tag (01 R17). -/
inductive Tag where
  | u
  | a (base stride : Word)
  | g
  deriving DecidableEq, Repr

/-- The seats (01 R31). -/
inductive Seat where
  | operator | owner | auditor
  deriving DecidableEq, Repr

/-- The trap registers of a thread (14 R264). -/
structure TrapRegs where
  tvec   : DWord
  tepc   : DWord
  tcause : Word
  tval   : DWord
  /-- TSTAT bit 0. -/
  inh    : Bool
  /-- TSTAT bit 1. -/
  bps    : Bool
  /-- TSTAT bit 2. -/
  one    : Bool
  tguard : Guard
  tscr   : DWord
  deriving DecidableEq, Repr

/-- Where bytes are held (01 R24): the store and, beside it, the offset in it. -/
inductive Store where
  /-- The lane slice of a thread. -/
  | slice (thread : Nat)
  /-- The scratchpad share of a team on a core. -/
  | scratch (team core : Nat)
  /-- The die scratchpad allocation of a context on a die. -/
  | dieScratch (key die : Nat)
  /-- The arrival counters of a grid. -/
  | counters (grid : Nat)
  /-- Global memory: the offset is the physical address. -/
  | phys
  deriving DecidableEq, Repr

/-- A 128-byte line. -/
structure LineId where
  store : Store
  line  : Nat
  deriving DecidableEq, Repr

/-- A store held in the store buffer of a continuation (06 R146). -/
structure BufStore where
  store : Store
  off   : Nat
  bytes : List Byte
  /-- The generic address, for a shootdown of its page. -/
  addr  : DWord
  deriving DecidableEq, Repr

/-- What a thread slot holds when it runs an uncommitted continuation (06 R142-R146). -/
structure Cont where
  owner   : Nat
  /-- The crew slot whose lane it occupies (R142). -/
  slot    : Nat
  /-- The increments of plain held with it (R141). -/
  plain   : Word
  buf     : List BufStore
  tracked : List LineId
  frozen  : Bool
  deriving DecidableEq, Repr

/-- An open fork of a thread (06 R141, R148). -/
structure Fork where
  cont     : Nat
  fd       : Nat
  /-- The address of the FCALL, which the predictor is trained under (R145). -/
  pc       : DWord
  /-- Named registers and their predictions. -/
  preds    : List (Reg × Word)
  /-- The logical return-stack depth e. -/
  depth    : Nat
  /-- The next engine identifier when it opened: what is in flight below it belongs to the continuation too. -/
  born     : Nat
  written  : List LineId
  conflict : Bool
  deriving DecidableEq, Repr

/-- The fork state of a thread (06 R141). -/
structure ForkRegs where
  fdepth  : Word
  opened  : Word
  commit  : Word
  sqpred  : Word
  sqmem   : Word
  sqother : Word
  plain   : Word
  /-- Innermost first. -/
  recs    : List Fork
  deriving DecidableEq, Repr

/-- Why a thread is not in the ready set (17 R336). -/
inductive Wait where
  | ready
  /-- In BAR.SYNC (04 R111). -/
  | bar (idx : Nat)
  /-- In CWAIT.ALL (04 R114). -/
  | cwait
  /-- In MWAIT, LDFE, STFE, WAIT or ACWAIT: the word, what follows it, whether its chained second word has retired, and the
  registers it reads as its sources. -/
  | word (i : Instr) (after : DWord) (one : Bool) (v : Vector Word 64)
  /-- Stalled on a replayable translation fault (20 R371): the record, the cause and the address; the word, none for a fetch. -/
  | page (id : Nat) (cause : Nat) (addr : DWord) (i : Option Instr) (after : DWord) (one : Bool) (v : Vector Word 64)
  /-- At a CSRW of a receive mapping that has not completed (13 R249). -/
  | mapping (id : Nat)
  deriving DecidableEq, Repr

/-- A fault record (14 R282), both views. -/
structure FaultRec where
  cause    : Nat
  handled  : Bool
  halted   : Bool
  deferred : Bool
  /-- FLAGS bits 4, 5 and 6: NOTICE, ALARM, HELD (20 R357, 24 R414, 25 R421). -/
  notice   : Bool
  alarm    : Bool
  held     : Bool
  seat     : Nat
  key      : Nat
  queue    : Nat
  engine   : Nat
  seq      : Nat
  pc       : DWord
  val      : DWord
  core     : Nat
  part     : Nat
  slot     : Nat
  lane     : Nat
  grid     : Word
  team     : Nat
  thread   : Nat
  retired  : DWord
  deriving DecidableEq, Repr

/-- A failed TILE or QACC word that a thread has not taken yet (10 R208). -/
structure Deferred where
  cause : Nat
  val   : DWord
  /-- The word: the numbers rise in issue order. -/
  op    : Nat
  deriving DecidableEq, Repr

/-- A thread, or a continuation in a spare thread slot (01 R11). -/
structure Thread where
  crew     : Nat
  lane     : Nat
  /-- Team-linear index (01 R12). -/
  index    : Nat
  pc       : DWord
  /-- Return stack, oldest entry first: at most 16 (01 R13). -/
  stack    : List DWord
  spill    : Nat
  prec     : Nat
  precNext : Option Nat
  v        : Vector Word 64
  p        : BitVec 16
  fstat    : BitVec 5
  live     : Bool
  guard    : Guard
  trap     : TrapRegs
  /-- Its next issue takes the first word of a pair whose partner has retired (06 R149, 20 R362); after a TRET the ONE bit of
  TSTAT says so. -/
  alone    : Bool
  /-- A debugger has released it from a comparator: its next issue tests none (25 R422). -/
  pass     : Bool
  fork     : ForkRegs
  retired  : DWord
  wait     : Wait
  /-- The wait of the other word of its pair, and the address of that word: it follows (02 R44). -/
  wait2    : Option (Wait × DWord × Guard)
  /-- Wait count of R345, and whether it has reached 4,096. -/
  waitCnt  : Nat
  starving : Bool
  /-- Yield mark (17 R340): the cycle of the YIELD and the threads that have yet to issue. -/
  mark     : Option (Nat × List Nat)
  halted   : Bool
  lastRec  : Option FaultRec
  /-- The physical address of its last strong read of global memory, which a later FENCE.ACQ acquires (15 R287). -/
  strong   : Option Nat
  deferred : List Deferred
  /-- The next translation failure of a tray line is final (20 R372). -/
  trayFail : Bool
  cont     : Option Cont
  deriving DecidableEq, Repr

/-- A debugger hold of a crew (25 R420). -/
inductive Hold where
  | comparator | brk | all | step
  deriving DecidableEq, Repr

/-- The loop buffer of a crew (05 R137): the span of addresses and the words captured. -/
structure LoopBuf where
  lo    : Nat
  hi    : Nat
  words : Table Nat
  deriving DecidableEq, Repr

/-- A crew that is resident, or saved with a parked team (01 R14). -/
structure Crew where
  team     : Nat
  index    : Nat
  core     : Nat
  part     : Nat
  slot     : Nat
  resident : Bool
  age      : Nat
  tags     : Vector Tag 64
  /-- Thread handles in lane order. -/
  threads  : List Nat
  /-- The arrival set of a crew-wide word (04 R115), and the threads of it that are held. -/
  arrival  : Option (List Nat × List Nat)
  loop     : Option LoopBuf
  held     : Option Hold
  /-- A step released by the debugger is in progress (25 R422). -/
  stepping : Bool
  deriving DecidableEq, Repr

/-- A barrier (01 R14): arrival count, phase bit, and the number of phases completed since residency. -/
structure Barrier where
  count : Nat
  phase : Bool
  done  : Nat
  deriving DecidableEq, Repr

/-- An orthogonal accumulator (11 R221): V as columns, T as rows; an entry beyond a list is +0. -/
structure Acc where
  n     : Nat
  k     : Nat
  v     : List (List Word)
  t     : List (List Word)
  chain : DWord
  pc    : Nat
  base  : Nat
  pol   : Bool
  deriving DecidableEq, Repr

/-- An unset accumulator. -/
def Acc.unset : Acc := ⟨0, 0, [], [], 0, 0, 0, false⟩

/-- A plate (10 R199-R201, R209, R213): `k = 0` is empty; `col0` is the first column of the whole image it holds. -/
structure Plate where
  fmt      : Nat
  k        : Nat
  n        : Nat
  col0     : Nat
  codes    : List Byte
  scales   : List Byte
  supers   : List Word
  outliers : List (Nat × Word)
  wide     : Bool
  deriving DecidableEq, Repr

/-- An empty plate. -/
def Plate.empty : Plate := ⟨0, 0, 0, 0, [], [], [], [], false⟩

/-- An armed comparator (14 R270). -/
structure Comparator where
  addr : DWord
  cfg  : Word
  key  : Nat
  deriving DecidableEq, Repr

/-- What a team holds on one of its cores (17 R329). -/
structure CorePart where
  scratch : Memory
  /-- The granules that are full, ascending (01 R26). -/
  full    : List Nat
  accs    : Vector Acc 8
  plate   : Plate
  dropped : Word
  nonfin  : Word
  deriving DecidableEq, Repr

/-- A team's stage (17 R329-R334). -/
inductive TeamStatus where
  | resident | parked
  deriving DecidableEq, Repr

/-- A team that has become resident and has not gone (01 R14). -/
structure Team where
  grid    : Nat
  index   : Nat
  status  : TeamStatus
  cluster : Nat
  /-- Ascending core numbers. -/
  cores   : List Nat
  /-- Crew handles in crew order. -/
  crews   : List Nat
  /-- k0-k31 as the leader crew sees them, and as the other crews see them (01 R21). -/
  kLead   : Vector DWord 32
  kView   : Vector DWord 32
  bars    : Vector Barrier 16
  parts   : Table CorePart
  /-- Comparators to arm again, of a team that is not resident (20 R362). -/
  comps   : Table Comparator
  deriving DecidableEq, Repr

/-- A fork descriptor (06 R140): named registers, their mode (0 LAST, 1 STRIDE, 2 CONST) and constants. -/
structure ForkDesc where
  rets : List (Reg × Nat × Word)
  deriving DecidableEq, Repr

/-- A launch record as it was accepted (17 R325, R326). -/
structure LaunchRec where
  policy   : Nat
  regs     : Nat
  qacc     : Nat
  tx       : Nat
  ty       : Nat
  tz       : Nat
  ncores   : Nat
  scratch  : Nat
  slice    : Nat
  counters : Nat
  dsunits  : Nat
  gx       : Nat
  gy       : Nat
  gz       : Nat
  feat     : BitVec 128
  codebase : DWord
  entry    : DWord
  k        : Vector DWord 32
  slots    : Vector DWord 8
  barmask  : Nat
  trapen   : BitVec 5
  barcnt   : List Nat
  forks    : List ForkDesc
  deriving DecidableEq, Repr

/-- An arrival counter (13 R254). -/
structure Counter where
  value  : DWord
  target : DWord
  deriving DecidableEq, Repr

/-- What a grid does (20 R358, R360). -/
inductive GridStatus where
  | live
  /-- Stopped by PREEMPT: the SYS result that waits for its image. -/
  | stopping (op : Nat)
  /-- Halted, held until the cycle. -/
  | halted (till : Nat)
  /-- Pre-empted: saved in the image with the handle (21 R379). -/
  | preempted (img : Nat)
  deriving DecidableEq, Repr

/-- A grid that has been accepted and has not retired (01 R14). -/
structure Grid where
  id         : Word
  key        : Nat
  seat       : Seat
  aud        : Nat
  lr         : LaunchRec
  nest       : Nat
  /-- The team whose leader launched it, by handle, and that team's grid. -/
  parent     : Option (Nat × Nat)
  queue      : Nat
  seq        : Nat
  replay     : Bool
  clusters   : List Nat
  /-- None until the counters are granted (17 R329). -/
  counters   : Option (Table Counter)
  nextTeam   : Nat
  status     : GridStatus
  /-- The target and the SYS result of an armed PREEMPT.AT. -/
  armed      : Option (DWord × Nat)
  /-- The count had reached the target at an issue of a thread of the grid (21 R378). -/
  met        : Bool
  /-- A thread of it or of a descendant has halted. -/
  haltSeen   : Bool
  /-- Teams of a restored image that wait for residency. -/
  waiting    : List Nat
  /-- Dies on which a team of it has been placed. -/
  dies       : List Nat
  /-- A team of it or of a descendant has become resident since it was placed (25 R425). -/
  begun      : Bool
  deriving DecidableEq, Repr

/-! ## Cores and dies -/

/-- The state of an L1 line (16 R311); INV is a line that is not there. -/
inductive L1State where
  | clean | dcr | dco
  deriving DecidableEq, Repr

/-- A line of an L1 (16 R311). Device memory is tagged with the key it is sealed under; host memory, which no key seals, has one
tag (log 78). -/
structure L1Line where
  key    : Nat
  line   : Nat
  state  : L1State
  bytes  : Cells
  dirty  : List Nat
  deriving DecidableEq, Repr

/-- A line of an L2 (16 R314). -/
structure L2Line where
  key    : Nat
  line   : Nat
  bytes  : Cells
  dirty  : List Nat
  wcore  : Nat
  /-- The cores whose release at PK must perform it: those that have written its dirty bytes, and those that have acquired at CL or
  DI from one of these (15 R288, R290). -/
  owed   : List Nat
  cores  : List Nat
  /-- Held as a tray line (10 R216). -/
  held   : Bool
  deriving DecidableEq, Repr

/-- A TLB entry (20 R370): a valid leaf of an address space. -/
structure TlbEntry where
  key  : Nat
  root : Nat
  /-- First address of the page and the logarithm of its size. -/
  va   : Nat
  bits : Nat
  pa   : Nat
  r    : Bool
  w    : Bool
  x    : Bool
  d    : Bool
  deriving DecidableEq, Repr

/-- An entry of the range-lock table (10 R206): the word that holds it and the range, in one store or in pieces of memory. -/
structure Lock where
  op    : Nat
  store : Store
  /-- First offset and length of each piece. -/
  spans : List (Nat × Nat)
  deriving DecidableEq, Repr

/-- An entry of the fork predictor (06 R144). -/
structure PredEntry where
  tag  : Nat
  key  : Nat
  last : Vector Word 4
  prev : Vector Word 4
  deriving DecidableEq, Repr

/-- A partition's gatherer state (17 R339-R341). -/
structure Partition where
  /-- Threads of the previous bundle 1 and the key with which it issued. -/
  prev    : List Nat
  prevKey : Nat × Nat × Nat
  /-- A cap of one is in force in this cycle (17 R342), and a pair issued under it in the previous cycle. -/
  cap     : Bool
  skip    : Bool
  /-- The PC of the last bundle 1 and the class of its slot, as a sample gives it (25 R427). -/
  pc      : DWord
  cls     : Nat
  /-- Slots filled in this cycle, and the classes of slots 1 and 2 where they stay empty (25 R429). -/
  used    : Nat
  idle    : Nat × Nat
  /-- Slot 1 of the last cycle carried no bundle. -/
  empty   : Bool
  /-- What a sample of slot 1 shows of its bundle, or of the partition's oldest crew: key, crew slot, queue and SEQ (25 R427, R430). -/
  stamp   : Nat × Nat × Nat × Nat
  deriving DecidableEq, Repr

/-- A partition after reset. -/
def Partition.reset : Partition := ⟨[], (0, 0, 0), false, false, 0, 6, 0, (6, 6), true, (0, 0, 0xFFF, 0)⟩

/-- A core (16 R306-R314). -/
structure Core where
  ready  : Bool
  /-- The cycle at which it left reset. -/
  start  : Nat
  l1     : List L1Line
  tlb    : List TlbEntry
  /-- Instruction words by key and address (05 R137). -/
  icache : List (Nat × Nat × Nat)
  locks  : List Lock
  pred   : Table PredEntry
  comps  : Table Comparator
  parts  : Table Partition
  deriving DecidableEq, Repr

/-- A core after reset. -/
def Core.reset : Core := ⟨false, 0, [], [], [], [], [], [], []⟩

/-- The allocation of a context on a die's scratchpad (16 R310). -/
structure DieAlloc where
  /-- Units in the order in which they joined. -/
  units : List Nat
  mem   : Memory
  full  : List Nat
  deriving DecidableEq, Repr

/-- A trace record (25 R427). -/
structure TraceRec where
  type   : Nat
  die    : Nat
  engine : Nat
  queue  : Nat
  seq    : Nat
  info   : Nat
  clock  : Nat
  value  : DWord
  deriving DecidableEq, Repr

/-- A core die. -/
structure Die where
  l2     : List L2Line
  tlb    : List TlbEntry
  /-- Allocations by key. -/
  scratch : Table DieAlloc
  sheet  : List TraceRec
  /-- CSASSIGN (25 R426). -/
  csassign : Word
  /-- Sample periods that have begun, which gives the partition in the rotation. -/
  rotor  : Nat
  deriving DecidableEq, Repr

/-- A die after reset. -/
def Die.reset : Die := ⟨[], [], [], [], 0, 0⟩

/-! ## Memory -/

/-- Whose keys a sealing unit was last sealed under (24 R405): the operator's of a boot, or a context's. -/
inductive SealId where
  | operator (boot : Nat)
  | owner (key : Nat) (cs : BitVec 256)
  deriving DecidableEq, Repr

/-- Main memory and the towers (16 R315-R319). -/
structure MemSys where
  host    : Memory
  dev     : Memory
  /-- The keys of each sealing unit of device memory, by unit. -/
  seals   : Table SealId
  /-- Poisoned units (16 R318): unit numbers of device memory, or 2^40 plus the unit of a host physical address. -/
  poison  : List Nat
  /-- Symbols in error, by unit. -/
  symErr  : Table Nat
  /-- 64-byte units of host memory that answer with an error (22 R399). -/
  hostBad : List Nat
  /-- Retired 4 KiB pages of device memory, ascending; they survive reset. -/
  retired : List Nat
  /-- Pages in the retirement table of each tower (16 R319). -/
  retCount : Table Nat
  /-- The unit each tower's patrol reads next. -/
  patrol  : Table Nat
  /-- Lines the LLC layers hold. -/
  llc     : List Nat
  /-- Counter 4t + j of tower t: corrected, uncorrectable, integrity, retired (25 R432). -/
  ctr     : Table DWord
  deriving DecidableEq, Repr

/-! ## Engines in flight -/

/-- Register values that a lane receives later. -/
structure LaneWrite where
  thread : Nat
  regs   : List (Reg × Word)
  deriving DecidableEq, Repr

/-- What a held DWB or DINV does once the lock is released (05 R123). -/
structure HeldCctl where
  drop  : Bool
  scope : Scope
  line  : LineId
  deriving DecidableEq, Repr

/-- An entry of a partition's outstanding-transaction table (05 R133). -/
structure Txn where
  core   : Nat
  part   : Nat
  load   : Bool
  threads : List Nat
  writes : List LaneWrite
  held   : List HeldCctl
  /-- Threads whose access has yet to be performed: it stalls on a page-fault record, or its tower is not ready. -/
  stalls : List Nat
  deriving DecidableEq, Repr

/-- Bytes an engine writes when its word completes. -/
structure EngWrite where
  store : Store
  off   : Nat
  bytes : List Byte
  /-- Sets the full-empty bits of the granules. -/
  fill  : Bool
  /-- The generic address of a write of main memory. -/
  va    : Nat
  deriving DecidableEq, Repr

/-- Contributions of an exposure to one tray line (10 R210, R214): the physical line, its generic address, and the partials
by physical address. -/
structure TrayPart where
  line     : Nat
  va       : Nat
  partials : List (Nat × Word)
  deriving DecidableEq, Repr

/-- A TILE word, or a QACC word with memory accesses, in flight (10 R206-R208, 11 R225). -/
structure TileOp where
  qacc    : Bool
  /-- The first cycle in which its merges and its completion fall (log 12). -/
  ready   : Nat
  core    : Nat
  crew    : Nat
  /-- The thread whose registers and windows the word uses. -/
  leader  : Nat
  /-- Lines still to merge. -/
  trays   : List TrayPart
  /-- Writes of the word's ranges. -/
  writes  : List EngWrite
  /-- Writes at generic addresses: TAB words. -/
  gwrites : List (DWord × List Byte)
  /-- Lines to write back and let go of, generic address and physical line: TRAYFL (10 R216). -/
  flush   : List (Nat × Nat)
  /-- Lines to bring in and hold, generic and physical address: EXPOSE and EXPOSEW (10 R216). -/
  hold    : List (Nat × Nat)
  /-- Lines to read, generic and physical address, and the local place they are copied to: TRAYRD (10 R216). -/
  copyOut : Option (List (Nat × Nat) × Store × Nat)
  /-- Entries to append to an outlier list (08 R180): its base and the entries. -/
  append  : Option (DWord × List (Nat × Word))
  /-- The odd core that a wide form slaves. -/
  slaves  : Option Nat
  /-- The address of the first failing line. -/
  failed  : Option DWord
  /-- The accumulator and its state before the word, for a failed record write (11 R230). -/
  undo    : Option (Nat × Acc)
  deriving DecidableEq, Repr

/-- A copy in flight (13 R244-R247, 20 R364). -/
structure CopyOp where
  instr    : Instr
  core     : Nat
  crew     : Nat
  key      : Nat
  /-- The thread of a .ONE form. -/
  one      : Option Nat
  dreg     : Reg
  src      : DWord
  dst      : DWord
  width    : Nat
  rows     : Nat
  sstr     : Nat
  dstr     : Nat
  /-- HALO: the barrier and the number of phases that were complete at issue. -/
  halo     : Option (Nat × Nat)
  accepted : Bool
  /-- Sectors completed, and sectors started and not completed. -/
  done     : List Nat
  started  : Nat
  resume   : Nat
  /-- The lowest failed sector and its cause. -/
  failed   : Option (Nat × Nat)
  /-- Pending page-fault record, the cause and the address. -/
  pending  : Option (Nat × Nat × DWord)
  /-- Sectors that do not run until the pending fault is answered. -/
  stalled  : List Nat
  deriving DecidableEq, Repr

/-- A member of a transfer: its peer, its incarnation when sent, and its outcome. -/
structure Member where
  peer  : Nat
  inc   : Nat
  /-- Positive, cause, bytes written. -/
  reply : Option (Bool × Nat × Nat)
  deriving DecidableEq, Repr

/-- A transfer sent (13 R250-R253). -/
structure XferOp where
  mc       : Bool
  xid      : Nat
  core     : Nat
  crew     : Nat
  key      : Nat
  one      : Option Nat
  dreg     : Reg
  accepted : Bool
  src      : DWord
  off      : Nat
  len      : Nat
  sel      : Word
  foff     : Nat
  fval     : DWord
  list     : DWord
  members  : List Member
  started  : Nat
  /-- Packets sent. -/
  sent     : Nat
  srcFail  : Option Nat
  /-- Write completions of sent packets: peer, offset and whether it was written. -/
  acks     : List (Nat × Nat × Bool)
  /-- Page-fault record of the packet whose source waits, the cause and the address. -/
  pending  : Option (Nat × Nat × DWord)
  /-- Packets that a station carries and no completion has answered: peer, station and packet (22 R385). -/
  flying   : List (Nat × Nat × FabricPacket)
  deriving DecidableEq, Repr

/-- A transfer arriving at this package (13 R251, R252). -/
structure RecvOp where
  src    : Nat
  sinc   : Nat
  xid    : Nat
  dom    : Nat
  map    : Nat
  total  : Nat
  /-- OFF of the transfer. -/
  base   : Nat
  /-- Packets judged: offset, bytes, and the cause of a refusal. -/
  judged : List (Nat × Nat × Option Nat)
  /-- The flag it carries: offset and value. -/
  flag   : Option (Nat × DWord)
  /-- The key its packets are judged under. -/
  key    : Nat
  /-- The page-fault record on which its flag waits, and the cause; the cycle of the first such record. -/
  wait   : Option (Nat × Nat)
  first  : Option Nat
  /-- The cycle in which its first packet came. -/
  started : Nat
  /-- It has been answered: what is left of it tells repeated packets (22 R385). -/
  ended  : Bool
  deriving DecidableEq, Repr

/-- A judged packet whose write waits on a page-fault record (20 R371). -/
structure HeldPkt where
  id      : Nat
  pkt     : FabricPacket
  key     : Nat
  va      : Nat
  /-- The counter it counts into: grid and index. -/
  ctr     : Option (Nat × Nat)
  cause   : Nat
  /-- The cycle of the first page-fault record it has waited on. -/
  started : Option Nat
  deriving DecidableEq, Repr

/-- A lane of a RATOM in flight (13 R256). -/
structure RatomLane where
  thread  : Nat
  lane    : Nat
  xid     : Nat
  peer    : Nat
  inc     : Nat
  map     : Nat
  off     : Nat
  operand : DWord
  reply   : Option Nat
  deriving DecidableEq, Repr

/-- A RATOM in flight. -/
structure RatomOp where
  core    : Nat
  crew    : Nat
  key     : Nat
  op      : AtomOp
  dreg    : Reg
  pc      : DWord
  after   : DWord
  accepted : Bool
  started : Nat
  lanes   : List RatomLane
  deriving DecidableEq, Repr

/-- What a late SYS result waits for (14 R261). -/
inductive SysKind where
  | preempt (grid : Nat)
  | reset (key : Nat)
  | scrub (base len : Nat)
  | ckpt (handle ns : Nat)
  | ckptRs (version ns : Nat)
  deriving DecidableEq, Repr

/-- A SYS word whose result is written later. -/
structure SysOp where
  kind   : SysKind
  thread : Nat
  dreg   : Reg
  /-- The result, once known before its completion. -/
  result : Option DWord
  deriving DecidableEq, Repr

/-- A CSRW of a receive mapping that has not completed (13 R249). -/
structure RxWrite where
  key    : Nat
  n      : Nat
  isLen  : Bool
  value  : DWord
  grid   : Nat
  thread : Nat
  after  : DWord
  /-- The words that the thread's guard goes on by: both of a pair whose second word has retired. -/
  words  : Nat
  deriving DecidableEq, Repr

/-- Everything in flight, by identifier. -/
structure Engines where
  nextId  : Nat
  txns    : Table Txn
  tiles   : Table TileOp
  copies  : Table CopyOp
  xfers   : Table XferOp
  recvs   : List RecvOp
  heldPkts : List HeldPkt
  /-- Remote atomics that a locked range or a tower that is not ready holds: the key and the request (15 R303, 26 R439). -/
  heldAtoms : List (Nat × FabricAtomic)
  ratoms  : Table RatomOp
  sys     : Table SysOp
  rx      : Table RxWrite
  /-- Late results a thread no longer takes: item and thread (06 R151). -/
  muted   : List (Nat × Nat)
  /-- Issue slots of bundles that hold only continuations: the key, the continuations whose forks are open, and whether one has
  committed (25 R430). -/
  slots   : List (Nat × List Nat × Bool)
  /-- Crews' ACWAITs that a change of their counter has released: the waiting thread of lowest lane and the value (13 R254). -/
  woken   : List (Nat × DWord)
  deriving DecidableEq, Repr

/-! ## Contexts -/

/-- The registers of a log or ring (20 R355, R375). -/
structure LogRegs where
  base : DWord
  size : Word
  tail : Word
  head : Word
  lost : Word
  deriving DecidableEq, Repr

/-- An unset log. -/
def LogRegs.zero : LogRegs := ⟨0, 0, 0, 0, 0⟩

/-- A receive mapping (13 R248) and the grid whose thread last wrote its RXL. -/
structure RxMap where
  b    : DWord
  l    : DWord
  grid : Option Nat
  deriving DecidableEq, Repr

/-- A context: what a key slot that is not FREE holds (24 R405, R406). -/
structure Ctx where
  sealed    : SealId
  quarantined : Bool
  consent   : Nat
  harts     : Nat
  audkeys   : List (BitVec 256)
  ownkey    : BitVec 256
  ctxid     : BitVec 256
  imgNonce  : Nat
  recNonce  : Nat
  flog      : LogRegs
  suppflt   : DWord
  halthold  : Word
  integcnt  : Word
  /-- DBGCTL bits 0 to 2. -/
  att       : Bool
  allhold   : Bool
  stopreq   : Bool
  dbgsel    : DWord
  csctl     : Word
  cslog     : LogRegs
  rx        : Table RxMap
  /-- Counters 0xC00 + i (25 R431). -/
  ctr       : Table DWord
  /-- Cycles waited towards a stall, and the notice of 17 R347. -/
  stall     : Nat
  noticed   : Bool
  deriving DecidableEq, Repr

/-- A saved crew: its threads in lane order with their lane slices, and its copies beside it (20 R361-R365, log 14). -/
structure CrewImg where
  crew    : Crew
  threads : List Thread
  slices  : List Memory
  copies  : List CopyOp
  deriving DecidableEq, Repr

/-- A saved team: its crews in order beside it. -/
structure TeamImg where
  handle : Nat
  team   : Team
  crews  : List CrewImg
  deriving DecidableEq, Repr

/-- A saved grid with its handle, parents before children. -/
structure GridImg where
  handle : Nat
  grid   : Grid
  teams  : List TeamImg
  deriving DecidableEq, Repr

/-- A sealed image in the operator's pool. -/
structure Image where
  key    : Nat
  reason : Nat
  grids  : List GridImg
  ctxid  : BitVec 256
  /-- The keys and the nonce it is sealed with (24 R405). -/
  sealed : SealId
  nonce  : BitVec 96
  deriving DecidableEq, Repr

/-- A receipt (14 R280). -/
structure Receipt where
  kind    : Nat
  key     : Nat
  base    : DWord
  length  : DWord
  clean   : DWord
  corr    : DWord
  uncorr  : DWord
  skipped : DWord
  pages   : List Nat
  deriving DecidableEq, Repr

/-- What the fixer holds. -/
structure Fixer where
  placeCount : Nat
  nextGridId : Nat
  nextHandle : Nat
  images     : Table Image
  /-- The images of parked teams, by team (20 R361, REASON 1). -/
  parks      : Table Image
  receipts   : Table Receipt
  deriving DecidableEq, Repr

/-! ## Translation -/

/-- What waits on a page-fault record beside packets and flags. -/
inductive PageItem where
  | thread (t : Nat)
  | copy (id : Nat)
  | xfer (id : Nat)
  deriving DecidableEq, Repr

/-- A pending page-fault record (20 R371). -/
structure PageRec where
  key     : Nat
  page    : Nat
  reason  : Nat
  kind    : Nat
  engine  : Bool
  queue   : Nat
  engId   : Nat
  seq     : Nat
  started : Nat
  /-- Appended to the ring; a lost record is posted again. -/
  posted  : Bool
  lostAt  : Nat
  /-- Items that an earlier record has brought here, with the cycles of their first records (20 R372). -/
  own     : List (PageItem × Nat)
  deriving DecidableEq, Repr

/-- The host-port translation block and what stands behind it (20 R375). -/
structure Xlate where
  oflog   : LogRegs
  pfr     : LogRegs
  pfbound : Word
  sdr     : LogRegs
  roots   : Table DWord
  pages   : Table PageRec
  nextPf  : Nat
  /-- The shootdown being finished: the address of its request, whether it errs, and the next engine identifier when it began. -/
  shoot   : Option (Nat × Bool × Nat)
  /-- Identities pending in the IMSIC file. -/
  imsic   : List Nat
  deriving DecidableEq, Repr

/-! ## Queues -/

/-- A command taken from a ring and not yet recorded (17 R323, R324). -/
structure Cmd where
  seq   : Nat
  kind  : Nat
  ord   : Bool
  record : DWord
  done  : DWord
  clust : Nat
  /-- Whether it has started, its root grid by handle, and its identifier. -/
  started : Bool
  grid  : Option Nat
  /-- Completion: cause, HALT, grid identifier. -/
  result : Option (Nat × Bool × Word)
  deriving DecidableEq, Repr

/-- A command queue (17 R322, 22 R397). -/
structure Queue where
  base    : DWord
  size    : Word
  en      : Bool
  stopped : Bool
  key     : Nat
  tail    : Word
  head    : Word
  clust   : Word
  qseq    : DWord
  /-- Commands read and not yet recorded, in SEQ order. -/
  cmds    : List Cmd
  deriving DecidableEq, Repr

/-- A queue after reset. -/
def Queue.reset : Queue := ⟨0, 0, false, false, 0, 0, 0, 0, 0, []⟩

/-! ## Fabric -/

/-- A multicast group (14 R277). -/
structure Group where
  key     : Nat
  members : List Nat
  deriving DecidableEq, Repr

/-- An IDE stream of a host port (22 R395): the session that keyed it and the context it is bound to. -/
structure Stream where
  session : Nat
  bound   : Option Nat
  deriving DecidableEq, Repr

/-- The fabric, the network ports and the host ports (22). -/
structure Fabric where
  peerId  : Nat
  en      : Bool
  freply  : Word
  dmwin   : DWord
  /-- Stations that are up. -/
  up      : List Nat
  /-- Failed flits in the retry window, by station. -/
  fails   : Table Nat
  peerv   : List Nat
  incs    : Table Nat
  domains : Table Word
  groups  : Table Group
  nextXid : Nat
  /-- Ethernet ports with a secure association. -/
  secure  : List Nat
  /-- Host ports that are up. -/
  ports   : List Nat
  /-- Streams by 16 × port + stream. -/
  streams : Table Stream
  dropped : DWord
  stale   : DWord
  downs   : DWord
  ethDrop : DWord
  /-- The incarnation number has been incremented since the last reset (22 R389). -/
  joined  : Bool
  /-- CXL.mem accesses whose tower is not ready, and the QTAIL writes behind them, in order of arrival (22 R398, 26 R439). -/
  held    : List Instr
  deriving DecidableEq, Repr

/-! ## Trust, service cores and power -/

/-- An SPDM session (24 R410). -/
structure Session where
  port    : Nat
  reqKey  : List Byte
  secret  : BitVec 256
  /-- FINISH has been accepted, and with mutual authentication. -/
  finished : Bool
  mutualAuth : Bool
  /-- Key updates so far. -/
  epoch   : Nat
  deriving DecidableEq, Repr

/-- A checkpoint in an NVMe namespace (24 R413). -/
structure Ckpt where
  version : Nat
  image   : Image
  /-- Its own nonce (24 R413). -/
  nonce   : BitVec 96
  deriving DecidableEq, Repr

/-- The security core, the boot chain and the flash (24). -/
structure Trust where
  railsOk   : Bool
  /-- Rails have left their bands. -/
  railsBad  : Bool
  /-- The step of R407 reached, and the step that failed. -/
  stage     : Nat
  failed    : Option Nat
  boots     : Nat
  /-- The cycle of boot step 6. -/
  stage6    : Nat
  /-- The request held in the operator platform key record (26 R440). -/
  platform  : BitVec 128
  mr        : Table (BitVec 256)
  aliasKey  : BitVec 256 × List Byte
  sessions  : Table Session
  nextSess  : Nat
  /-- SPDM connection stage by port: 1 version, 2 capabilities, 3 algorithms. -/
  conn      : Table Nat
  /-- The incarnation number in the replay-protected block. -/
  inc       : Nat
  versions  : Table Nat
  nvme      : Table Ckpt
  mbcmd     : Word
  mbbusy    : Bool
  mberr     : Bool
  mbdig     : BitVec 256
  fogged    : Bool
  fogGrids  : Nat
  deriving DecidableEq, Repr

/-- A service-core hart (22 R400, R401, 25 R433). -/
structure Hart where
  hseat    : DWord
  released : Bool
  mode     : Nat
  ended    : Bool
  base     : DWord
  size     : DWord
  tail     : DWord
  head     : DWord
  minstret : DWord
  /-- Interrupt identities made pending. -/
  pending  : List Nat
  /-- Deliveries held back by a full log: kind, port, payload, address, value. -/
  backlog  : List (Nat × Nat × List Byte × Nat × DWord)
  /-- Live events dropped in replay mode. -/
  dropped  : DWord
  /-- The value a timer read last returned. -/
  timer    : DWord
  /-- The privilege mode: 3 M, 1 S, 0 U. -/
  prv      : Nat
  /-- The 16 PMP entries: configuration byte and address register, those that are not zero. -/
  pmp      : Table (Byte × DWord)
  deriving DecidableEq, Repr

/-- A hart after reset: in M-mode, with no PMP entry set (log 16). -/
def Hart.reset : Hart := ⟨0, false, 0, false, 0, 0, 0, 0, 0, [], [], 0, 0, 3, []⟩

/-- Device control registers and power (24 R414, 26 R438-R444). -/
structure Ctl where
  alarmPol : Word
  alarmCnt : Word
  fnReady  : DWord
  featReq  : BitVec 128
  locked   : Bool
  neg      : BitVec 128
  pwrcap   : Table Word
  pwrlim   : Word
  /-- Module power over the limit; dies over temperature. -/
  overLim  : Bool
  hot      : List Nat
  deriving DecidableEq, Repr

/-! ## The model's own fields -/

/-- A task stamp: queue, engine and command sequence number (25 R417). -/
structure Stamp where
  queue  : Nat
  engine : Nat
  seq    : Nat
  deriving DecidableEq, Repr

/-- What the device sends to the outside (log 15). -/
inductive Out where
  /-- A message-signalled interrupt. -/
  | msi (addr data : Nat)
  /-- A packet sent to a peer over a station. -/
  | packet (peer station : Nat) (tag : DWord) (p : FabricPacket)
  | atomic (peer : Nat) (tag : DWord) (a : FabricAtomic)
  /-- A reply to a peer's request. -/
  | reply (peer : Nat) (tag : DWord) (cause bytes : Nat)
  /-- An answer to a peer's remote atomic. -/
  | atomReply (peer : Nat) (tag : DWord) (cause : Nat) (value : DWord)
  /-- The write completion of a packet. -/
  | written (peer : Nat) (tag : DWord) (off : Nat) (ok : Bool)
  | announce (peer : Nat) (tag : DWord)
  /-- An SPDM response: its code and contents; an ERROR is code 0x7F. -/
  | spdm (port code : Nat) (body : List Byte)
  /-- Host read data, or none for poisoned data. -/
  | hostData (port : Nat) (data : Option (List Byte))
  /-- A frame, completion or interrupt delivered to a service core, with the stamp of its events (25 R418). -/
  | deliver (hart kind : Nat) (stamp : Stamp) (data : List Byte)
  /-- A timer value that a hart reads, with the stamp of its events. -/
  | hartValue (hart : Nat) (stamp : Stamp) (value : DWord)
  deriving DecidableEq, Repr

/-- A bundle waiting to issue, or issuing. -/
structure Bundle where
  core   : Nat
  part   : Nat
  pc     : DWord
  /-- Thread handles, in ascending lane order; none where the empty slots of the partition's cycle are charged. -/
  lanes  : List Nat
  /-- Bundle 1 of its cycle. -/
  lead   : Bool
  deriving DecidableEq, Repr

/-- The word in issue: what a meaning is applied to. -/
structure Cur where
  core   : Nat
  part   : Nat
  pc     : DWord
  /-- The address of the first word after the word or its pair. -/
  after  : DWord
  /-- The executing threads, in ascending lane order. -/
  lanes  : List Nat
  /-- The word is the first, or the second, of a chained pair. -/
  first  : Bool
  second : Bool
  /-- Threads as they stood before the pair: sources of its second word (02 R44). -/
  snap   : List (Nat × Thread)
  /-- k registers as they stood before the pair. -/
  snapK  : List (Nat × Vector DWord 32)
  /-- Shape tags of crews as they stood before the pair. -/
  snapT  : List (Nat × Vector Tag 64)
  /-- Only collect the faults detected at or before issue (02 R45). -/
  probe  : Bool
  /-- The faults collected: thread, cause, value. -/
  early  : List (Nat × Nat × DWord)
  /-- A word at which threads have waited is examined again: it has issued. -/
  again  : Bool
  /-- The second word of the pair acts before the first. -/
  rev    : Bool
  deriving DecidableEq, Repr

/-- No word in issue. -/
def Cur.none : Cur := ⟨0, 0, 0, 0, [], false, false, [], [], [], false, [], false, false⟩

/-- The model's own fields: no state of the spec (logs 7, 15, 18). -/
structure Model where
  /-- Events to come, first first. -/
  inbox  : List Instr
  /-- Bundles chosen and not yet issued. -/
  issueQ : List Bundle
  cur    : Cur
  out    : List Out
  /-- The counter of free values. -/
  free   : Nat
  /-- Hold records of the cycle, with the crews' keys, which are appended in ascending LOC when its bundles have issued (25 R421). -/
  holds  : List (Nat × FaultRec)
  /-- The step has reached a tower that is not ready, and what it has done does not stand (26 R439). -/
  unready : Bool
  /-- Events that wait for a tower to be ready, and threads whose words do. -/
  later  : List Instr
  waits  : List Nat
  deriving DecidableEq, Repr

/-- The state of the machine. -/
structure State where
  cycle   : Nat
  /-- The next handle of a thread, crew, team or grid, and the next crew age. -/
  handle  : Nat
  age     : Nat
  threads : Table Thread
  crews   : Table Crew
  teams   : Table Team
  grids   : Table Grid
  ctxs    : Table Ctx
  cores   : Table Core
  dies    : Table Die
  mem     : MemSys
  eng     : Engines
  fixer   : Fixer
  xl      : Xlate
  queues  : Table Queue
  fab     : Fabric
  trust   : Trust
  harts   : Table Hart
  ctl     : Ctl
  m       : Model
  deriving DecidableEq, Repr

/-! ## Values when things come into being -/

/-- Trap registers at launch (14 R264, log 4). -/
def TrapRegs.launch : TrapRegs := ⟨0, 0, 0, 0, false, false, false, Guard.none, 0⟩

/-- Fork registers at launch (06 R141). -/
def ForkRegs.launch : ForkRegs := ⟨0, 0, 0, 0, 0, 0, 0, []⟩

/-- A thread at launch (01 R11). -/
def Thread.launch (crew lane index : Nat) (pc : DWord) : Thread where
  crew := crew
  lane := lane
  index := index
  pc := pc
  stack := []
  spill := 0
  prec := 4
  precNext := none
  v := Vector.replicate 64 0
  p := 1
  fstat := 0
  live := true
  guard := Guard.none
  trap := TrapRegs.launch
  alone := false
  pass := false
  fork := ForkRegs.launch
  retired := 0
  wait := .ready
  wait2 := none
  waitCnt := 0
  starving := false
  mark := none
  halted := false
  lastRec := none
  strong := none
  deferred := []
  trayFail := false
  cont := none

/-- What a handle that names no thread stands for. -/
def Thread.absent : Thread := { Thread.launch 0 0 0 0 with live := false }

/-- A crew at residency (01 R18). -/
def Crew.launch (team index core part slot age : Nat) (threads : List Nat) : Crew where
  team := team
  index := index
  core := core
  part := part
  slot := slot
  resident := true
  age := age
  tags := Vector.replicate 64 .u
  threads := threads
  arrival := none
  loop := none
  held := none
  stepping := false

/-- What a handle that names no crew stands for. -/
def Crew.absent : Crew := { Crew.launch 0 0 0 0 0 0 [] with resident := false }

/-- A core part at residency: scratchpad zero and empty, accumulators unset, plate empty (17 R330, 10 R200, 11 R221). -/
def CorePart.launch : CorePart := ⟨[], [], Vector.replicate 8 Acc.unset, Plate.empty, 0, 0⟩

/-- What a handle that names no team stands for. -/
def Team.absent : Team where
  grid := 0
  index := 0
  status := .parked
  cluster := 0
  cores := []
  crews := []
  kLead := Vector.replicate 32 0
  kView := Vector.replicate 32 0
  bars := Vector.replicate 16 ⟨0, false, 0⟩
  parts := []
  comps := []

/-- A launch record with nothing in it. -/
def LaunchRec.empty : LaunchRec where
  policy := 0
  regs := 16
  qacc := 0
  tx := 1
  ty := 1
  tz := 1
  ncores := 1
  scratch := 0
  slice := 0
  counters := 0
  dsunits := 0
  gx := 1
  gy := 1
  gz := 1
  feat := 1
  codebase := 0
  entry := 0
  k := Vector.replicate 32 0
  slots := Vector.replicate 8 0
  barmask := 0
  trapen := 0
  barcnt := []
  forks := []

/-- What a handle that names no grid stands for. -/
def Grid.absent : Grid where
  id := 0
  key := 0
  seat := .operator
  aud := 0
  lr := LaunchRec.empty
  nest := 1
  parent := none
  queue := 0xFFF
  seq := 0
  replay := false
  clusters := []
  counters := none
  nextTeam := 0
  status := .live
  armed := none
  met := false
  haltSeen := false
  waiting := []
  dies := []
  begun := false

/-- A context at its creation (24 R405, R406; 20 R355; 25 R419, R426, R431; log 4). -/
def Ctx.create (sealed : SealId) (consent harts : Nat) (audkeys : List (BitVec 256)) (ownkey ctxid : BitVec 256) : Ctx where
  sealed := sealed
  quarantined := false
  consent := consent
  harts := harts
  audkeys := audkeys
  ownkey := ownkey
  ctxid := ctxid
  imgNonce := 0
  recNonce := 0
  flog := LogRegs.zero
  suppflt := 0
  halthold := 0
  integcnt := 0
  att := false
  allhold := false
  stopreq := false
  dbgsel := 0
  csctl := 0
  cslog := LogRegs.zero
  rx := []
  ctr := []
  stall := 0
  noticed := false

/-- The operator's context of a boot, key 0: no consent word, its CONSENT reads 3 (14 R265). -/
def Ctx.operator (boot : Nat) : Ctx := Ctx.create (.operator boot) 3 0 [] 0 (BitVec.ofNat 256 boot)

/-- Main memory with nothing listed (log 5). -/
def MemSys.reset : MemSys := ⟨[], [], [], [], [], [], [], [], [], [], []⟩

/-- Nothing in flight. -/
def Engines.reset : Engines := ⟨1, [], [], [], [], [], [], [], [], [], [], [], [], []⟩

/-- The fixer after reset: the PLACE count is 1 (25 R418). -/
def Fixer.reset : Fixer := ⟨1, 1, 1, [], [], []⟩

/-- The translation block after reset: every register zero (20 R375). -/
def Xlate.reset : Xlate := ⟨LogRegs.zero, LogRegs.zero, 0, LogRegs.zero, [], [], 1, none, []⟩

/-- The fabric after reset (log 1). -/
def Fabric.reset : Fabric where
  peerId := 0
  en := false
  freply := 1
  dmwin := 0
  up := []
  fails := []
  peerv := []
  incs := []
  domains := []
  groups := []
  nextXid := 0
  secure := []
  ports := []
  streams := []
  dropped := 0
  stale := 0
  downs := 0
  ethDrop := 0
  joined := false
  held := []

/-- The security core after reset: all measurement registers zero (24 R407). -/
def Trust.reset : Trust where
  railsOk := false
  railsBad := false
  stage := 0
  failed := none
  boots := 0
  stage6 := 0
  platform := 0
  mr := []
  aliasKey := (0, [])
  sessions := []
  nextSess := 1
  conn := []
  inc := 0
  versions := []
  nvme := []
  mbcmd := 0
  mbbusy := false
  mberr := false
  mbdig := 0
  fogged := false
  fogGrids := 0

/-- The control registers after reset: PWRLIM 2400, PWRCAP 0 (26 R444; log 1). -/
def Ctl.reset : Ctl where
  alarmPol := 0
  alarmCnt := 0
  fnReady := 0
  featReq := 0
  locked := false
  neg := 0
  pwrcap := []
  pwrlim := 2400
  overLim := false
  hot := []

/-- The model's own fields after reset. -/
def Model.reset : Model := ⟨[], [], Cur.none, [], 0, [], false, [], []⟩

/-- The machine right after reset: nothing runs, nothing is negotiated, key slot 0 is LIVE. -/
def State.reset : State where
  cycle := 0
  handle := 1
  age := 0
  threads := []
  crews := []
  teams := []
  grids := []
  ctxs := [(0, Ctx.operator 0)]
  cores := []
  dies := []
  mem := MemSys.reset
  eng := Engines.reset
  fixer := Fixer.reset
  xl := Xlate.reset
  queues := []
  fab := Fabric.reset
  trust := Trust.reset
  harts := []
  ctl := Ctl.reset
  m := Model.reset

end Sys2Proof.Machine
end

