-- ==== Sys2Proof/WellFormed.lean ====
section
/-! DEFINITION. Which instructions are well formed: the reserved-field and nonzero-reserved constraints of a word that its
field types do not carry (02 R54, R60, R61 steps 5 and 6), and the ranges of an event's fields. -/

namespace Sys2Proof

/-- The control-register indices with a defined register (01 R29, R30; 08 R176; 14 R264, R265; 16 R308; 17 R335; 20 R355;
22 R392; 24 R414; 25 R419, R426, R431, R432; 26 R438, R440, R444; 13 R248). -/
def csrDefined (i : Nat) : Bool :=
  (i ≤ 0x005) || (0x010 ≤ i && i ≤ 0x017) || (0x020 ≤ i && i ≤ 0x026) || (0x100 ≤ i && i ≤ 0x103) ||
  (0x200 ≤ i && i ≤ 0x203) || (i == 0x400) || (0x410 ≤ i && i ≤ 0x417) || (0x420 ≤ i && i ≤ 0x429) ||
  (0x7C0 ≤ i && i ≤ 0x7FF) || (0x800 ≤ i && i ≤ 0x804) || (0x820 ≤ i && i ≤ 0x821) || (0x830 ≤ i && i ≤ 0x853) ||
  (0x860 ≤ i && i ≤ 0x867) || (0x880 ≤ i && i ≤ 0x888) || (0x8A0 ≤ i && i ≤ 0x8B8) || (0xC00 ≤ i && i ≤ 0xC0A) ||
  (0xC10 ≤ i && i ≤ 0xC19)

/-- The functions of IOP that take no B (04 R98). -/
def IopFn.unary : IopFn → Bool
  | .clz | .popc | .brev | .abs | .neg => true
  | _ => false

/-- The integer types of CVT (09 R195). -/
def CvtTy.isInt : CvtTy → Bool
  | .s8 | .s16 | .s32 | .s64 | .n8 | .n16 | .n32 | .n64 => true
  | _ => false

/-- The combinations of CVT that are no reserved field (09 R195). -/
def cvtFieldsOk (dt st : CvtTy) (rm : Rm) (sat : Bool) : Bool :=
  let both := dt.isInt && st.isInt
  !(both && dt == st) && (!sat || both) && (rm == .rne || !both)

/-- Step 5 of R61 (02): no field of the word holds a reserved value. -/
def Instr.fieldsOk : Instr → Bool
  | .shi _ _ _ _ w64 amt => w64 || amt.toNat < 32                                   -- 04 R100
  | .fop _ _ _ _ o _ rm => rm == .rne || !(o == .min || o == .max)                  -- 09 R185
  | .cvt _ _ _ dty sty rm sat => cvtFieldsOk dty sty rm sat                             -- 09 R195
  | .lds _ _ _ w _ => w == .w8 || w == .w16                                         -- 05 R124
  | .lda _ _ _ _ w => !(w == .w128)                                                 -- 05 R126
  | .stl _ _ _ _ w => !(w == .w128)
  | .cas _ _ _ _ _ w => w == .w32 || w == .w64                                      -- 05 R128
  | .mwait _ _ _ _ _ _ w => w == .w32 || w == .w64                                  -- 05 R134
  | .qaccQgen _ _ d a => d != 0 && a != 0                                           -- 11 R222
  | .qaccQapp _ _ a _ => a != 0
  | .qaccQaplReg _ _ d a => d != 0 && a != 0
  | .qaccQapltReg _ _ d a => d != 0 && a != 0
  | .qaccQaprReg _ _ d a => d != 0 && a != 0
  | .qaccQaprtReg _ _ d a => d != 0 && a != 0
  | .sysCsrr _ _ idx => csrDefined idx.toNat                                        -- 01 R29
  | .sysCsrw _ _ idx => csrDefined idx.toNat
  | _ => true

/-- Step 6 of R61 (02): no field that the word does not use is non-zero. -/
def Instr.zerosOk : Instr → Bool
  | .iop _ _ _ b _ f => !f.unary || b == 0                                          -- 04 R98
  | .plop _ _ _ y f => !(f == .not || f == .mov) || y == 0                          -- 04 R104
  | .pb _ n mask => mask.toNat < 2 ^ (n.toNat + 1)                                  -- 02 R47
  | _ => true

/-- The fields of a tag in the widths of 22 R387. -/
def FabricTag.inRange (t : FabricTag) : Bool :=
  t.incs.sinc < 256 && t.incs.dinc < 256 && t.src < 1024 && t.req.dom < 2 ^ 16 && t.req.map < 32 && t.req.xid < 2 ^ 14

/-- The ranges of the fields of an event (the numbers of stations, ports, harts, clusters, queues and peers: 00 R3; 17
R322; 22 R393, R397, R400). -/
def Instr.eventOk : Instr → Bool
  | .ualinkFlitReceive s _ _ => s < 48
  | .stationUpOrDown s _ => s < 48
  | .ethernetFrameReceive p h _ _ f _ => p < 32 && h < 16 && f.length ≤ 9216
  | .secureAssociationInstall p => p < 32
  | .hostMemAccess p str _ _ _ => p < 2 && str < 16
  | .transferPacketArrival p => p.kind < 8 && p.sinc < 256 && p.dinc < 256 && p.src < 1024 && p.dom < 2 ^ 16 && p.map < 32 &&
    p.xid < 2 ^ 14
  | .remoteAtomicArrival a => a.sinc < 256 && a.dinc < 256 && a.src < 1024 && a.dom < 2 ^ 16 && a.map < 32 && a.xid < 2 ^ 14
  | .hostPortUpOrDown p up => p < 2 && up.all fun base => base.toNat % 4096 == 0
  | .transferReply r src i _ c _ => (FabricTag.mk r src i).inRange && c < 2 ^ 9
  | .packetWriteCompletion t _ _ _ => t.inRange
  | .ratomReply t _ c _ => t.inRange && c < 2 ^ 9
  | .ideKeySetup _ p str => p < 2 && str < 16
  | .bindStream _ _ p str => p < 2 && str < 16
  | .queueDoorbell q _ | .queueRestart q | .commandNop q | .commandGrid q | .commandFence q
  | .completionRecordWrite q => q < 4095
  | .domainTableWrite k _ => k < 2048
  | .hseatWrite h _ | .hrecWrite h _ | .hrlheadWrite h _ | .timeOrCycleRead h _ | .replayEventDelivery h => h < 16
  | .nvmeCompletion h _ _ _ => h < 16
  | .csassignWrite d _ | .contactSheetDrain d | .dieOvertemp d => d < 8
  | .contactSheetSample d c => d < 8 && c < 192
  | .patrolScrubStep t => t < 8
  | .functionReady isCore n => if isCore then n < 192 else n < 36
  | .incarnationAnnouncement p sinc => p < 1024 && sinc < 256
  | .registerWrite off width _ => off < 2 ^ 20 && (width == 1 || width == 2 || width == 4 || width == 8)
  | _ => true

/-- An instruction that a word may encode, or an event that may happen. -/
def Instr.wellFormed (i : Instr) : Bool := i.fieldsOk && i.zerosOk && i.eventOk

end Sys2Proof
end

