-- ==== Sys2Proof/Machine/Base.lean ====
section
/-! DEFINITION. Access to the parts of the state: threads and their registers, crews, teams, grids, contexts, cores and
dies, and the cause codes (14 R284). -/

namespace Sys2Proof.Machine

/-! ## Cause codes (14 R284) -/

namespace Cause
def malformedPacket : Nat := 0x000
def illegalWord : Nat := 0x001
def reservedOpcode : Nat := 0x002
def featureAbsent : Nat := 0x003
def reservedField : Nat := 0x004
def nonzeroReserved : Nat := 0x005
def chainPrefix : Nat := 0x010
def chainClass : Nat := 0x011
def chainHazard : Nat := 0x012
def guardCover : Nat := 0x013
def partialCrew : Nat := 0x014
def unallocatedRegister : Nat := 0x020
def misalignedRegister : Nat := 0x021
def unallocatedAccumulator : Nat := 0x022
def kWriter : Nat := 0x023
def stackOverflow : Nat := 0x030
def returnUnderflow : Nat := 0x031
def forkDescriptor : Nat := 0x032
def launchLeader : Nat := 0x033
def nestingDepth : Nat := 0x034
def fpException : Nat := 0x040
def formatRole : Nat := 0x048
def slotUndeclared : Nat := 0x049
def tileGeometry : Nat := 0x04A
def outlierOverflow : Nat := 0x04B
def outlierOrder : Nat := 0x04C
def outlierLimit : Nat := 0x04D
def tileWindow : Nat := 0x0C0
def plateUnheld : Nat := 0x0C1
def plateEmpty : Nat := 0x0C2
def twinOdd : Nat := 0x0C3
def twinAbsent : Nat := 0x0C4
def twinMismatch : Nat := 0x0C5
def tileFailed : Nat := 0x0C6
def accumulatorUnset : Nat := 0x0C8
def accumulatorLanes : Nat := 0x0C9
def accumulatorGeometry : Nat := 0x0CA
def accumulatorRange : Nat := 0x0CB
def accumulatorFull : Nat := 0x0CC
def panelLimit : Nat := 0x0CD
def imageInvalid : Nat := 0x0CE
def accumulatorFailed : Nat := 0x0CF
def copyGeometry : Nat := 0x0D0
def transferWindow : Nat := 0x0D1
def haloShare : Nat := 0x0D2
def mappingDenied : Nat := 0x0D8
def mappingBound : Nat := 0x0D9
def counterAbsent : Nat := 0x0DA
def replyTimeout : Nat := 0x0DB
def peerReset : Nat := 0x0DC
def groupDenied : Nat := 0x0DD
def linkIntegrity : Nat := 0x0DE
def seatDenied : Nat := 0x100
def consentRefused : Nat := 0x101
def contextAbsent : Nat := 0x102
def contextBusy : Nat := 0x103
def imageSeal : Nat := 0x108
def checkpointVersion : Nat := 0x109
def flashFailure : Nat := 0x10A
def receiptAbsent : Nat := 0x10B
def quarantined : Nat := 0x110
def fogged : Nat := 0x111
def breakpoint : Nat := 0x140
def softwareBreakpoint : Nat := 0x141
def tretOutside : Nat := 0x142
def comparatorBusy : Nat := 0x143
def softwareTrap : Nat := 0x150
/-- Launch rejection r (17 R327). -/
def launch (r : Nat) : Nat := 0x160 + r
end Cause

/-- The kind of an access (05 R120). -/
inductive Kind where
  | load | store | atomic | fetch
  deriving DecidableEq, Repr

/-- Detail bits 5:4 of a class 2 cause. -/
def Kind.code : Kind → Nat
  | .load => 0
  | .store => 1
  | .atomic => 2
  | .fetch => 3

/-- Why an access fails: a reason of class 2, or a class 4 cause (14 R284). -/
inductive Why where
  | reservedWindow | windowBound | nonCanonical | misaligned | pageAbsent | pagePermission | walkError | rangeLock
  | counterAccess | fullEmptyWindow | uncorrectable | integrity | poisoned | hostPort
  | quarantined | fogged
  deriving DecidableEq, Repr

/-- The cause code of a failure of an access of a kind. -/
def Why.cause (k : Kind) : Why → Nat
  | .reservedWindow => 0x80 + 16 * k.code
  | .windowBound => 0x81 + 16 * k.code
  | .nonCanonical => 0x82 + 16 * k.code
  | .misaligned => 0x83 + 16 * k.code
  | .pageAbsent => 0x84 + 16 * k.code
  | .pagePermission => 0x85 + 16 * k.code
  | .walkError => 0x86 + 16 * k.code
  | .rangeLock => 0x87 + 16 * k.code
  | .counterAccess => 0x88 + 16 * k.code
  | .fullEmptyWindow => 0x89 + 16 * k.code
  | .uncorrectable => 0x8A + 16 * k.code
  | .integrity => 0x8B + 16 * k.code
  | .poisoned => 0x8C + 16 * k.code
  | .hostPort => 0x8D + 16 * k.code
  | .quarantined => Cause.quarantined
  | .fogged => Cause.fogged

/-! ## Registers of a thread -/

/-- vn; v0 reads as zero (01 R16). -/
def Thread.rv (th : Thread) (r : Reg) : Word := if r = 0 then 0 else th.v[r.toNat]'r.isLt

/-- Writes vn; a write to v0 is discarded (01 R16). -/
def Thread.setV (th : Thread) (r : Reg) (w : Word) : Thread :=
  if r = 0 then th else { th with v := th.v.set r.toNat w r.isLt }

/-- xn; x0 reads as zero (01 R16). -/
def Thread.rx (th : Thread) (r : Reg) : DWord :=
  if r = 0 then 0 else th.rv (r + 1) ++ th.rv r

/-- yn as its four words; y0 reads as zero (01 R16). -/
def Thread.ry (th : Thread) (r : Reg) : List Word :=
  if r = 0 then [0, 0, 0, 0] else [th.rv r, th.rv (r + 1), th.rv (r + 2), th.rv (r + 3)]

/-- The writes of a 64-bit result to a pair; x0 is discarded as a whole (01 R16). -/
def pairWrites (r : Reg) (x : DWord) : List (Reg × Word) :=
  if r = 0 then [] else [(r, x.setWidth 32), (r + 1, (x >>> 32).setWidth 32)]

/-- The writes of a single register. -/
def regWrites (r : Reg) (w : Word) : List (Reg × Word) := if r = 0 then [] else [(r, w)]

/-- The writes of a quad; y0 is discarded as a whole (01 R16). -/
def quadWrites (r : Reg) (w0 w1 w2 w3 : Word) : List (Reg × Word) :=
  if r = 0 then [] else [(r, w0), (r + 1, w1), (r + 2, w2), (r + 3, w3)]

/-- Performs register writes. -/
def Thread.writeAll (th : Thread) : List (Reg × Word) → Thread
  | [] => th
  | (r, w) :: l => Thread.writeAll (th.setV r w) l

/-- pn; p0 reads as true (01 R20). -/
def Thread.rp (th : Thread) (p : PReg) : Bool := if p = 0 then true else th.p.getLsbD p.toNat

/-- Writes pn; a write to p0 is discarded (01 R20). -/
def Thread.setP (th : Thread) (p : PReg) (b : Bool) : Thread :=
  if p = 0 then th
  else if b then { th with p := th.p ||| (1#16 <<< p.toNat) }
  else { th with p := th.p &&& ~~~(1#16 <<< p.toNat) }

/-- Performs predicate writes. -/
def Thread.setPs (th : Thread) : List (PReg × Bool) → Thread
  | [] => th
  | (p, b) :: l => Thread.setPs (th.setP p b) l

/-- The pair a field of formats M and MS names (02 R53): x(2 × AP). -/
def pairOf (ap : BitVec 5) : Reg := (ap.setWidth 6) <<< 1

/-! ## Parts of the state -/

def State.thread (s : State) (t : Nat) : Thread := Table.getD s.threads t Thread.absent
def State.setThread (s : State) (t : Nat) (th : Thread) : State := { s with threads := Table.set s.threads t th }
def State.modThread (s : State) (t : Nat) (f : Thread → Thread) : State := s.setThread t (f (s.thread t))
def State.crew (s : State) (c : Nat) : Crew := Table.getD s.crews c Crew.absent
def State.setCrew (s : State) (c : Nat) (x : Crew) : State := { s with crews := Table.set s.crews c x }
def State.modCrew (s : State) (c : Nat) (f : Crew → Crew) : State := s.setCrew c (f (s.crew c))
def State.team (s : State) (t : Nat) : Team := Table.getD s.teams t Team.absent
def State.setTeam (s : State) (t : Nat) (x : Team) : State := { s with teams := Table.set s.teams t x }
def State.modTeam (s : State) (t : Nat) (f : Team → Team) : State := s.setTeam t (f (s.team t))
def State.grid (s : State) (g : Nat) : Grid := Table.getD s.grids g Grid.absent
def State.setGrid (s : State) (g : Nat) (x : Grid) : State := { s with grids := Table.set s.grids g x }
def State.modGrid (s : State) (g : Nat) (f : Grid → Grid) : State := s.setGrid g (f (s.grid g))
def State.core (s : State) (c : Nat) : Core := Table.getD s.cores c Core.reset
def State.setCore (s : State) (c : Nat) (x : Core) : State := { s with cores := Table.set s.cores c x }
def State.modCore (s : State) (c : Nat) (f : Core → Core) : State := s.setCore c (f (s.core c))
def State.die (s : State) (d : Nat) : Die := Table.getD s.dies d Die.reset
def State.setDie (s : State) (d : Nat) (x : Die) : State := { s with dies := Table.set s.dies d x }
def State.modDie (s : State) (d : Nat) (f : Die → Die) : State := s.setDie d (f (s.die d))
def State.ctx? (s : State) (k : Nat) : Option Ctx := Table.find? s.ctxs k
def State.modCtx (s : State) (k : Nat) (f : Ctx → Ctx) : State := { s with ctxs := Table.modify s.ctxs k f }
def State.hart (s : State) (h : Nat) : Hart := Table.getD s.harts h Hart.reset
def State.setHart (s : State) (h : Nat) (x : Hart) : State := { s with harts := Table.set s.harts h x }
def State.queue (s : State) (q : Nat) : Queue := Table.getD s.queues q Queue.reset
def State.setQueue (s : State) (q : Nat) (x : Queue) : State := { s with queues := Table.set s.queues q x }
def State.modEng (s : State) (f : Engines → Engines) : State := { s with eng := f s.eng }
def State.modM (s : State) (f : Model → Model) : State := { s with m := f s.m }
def State.modCur (s : State) (f : Cur → Cur) : State := s.modM fun m => { m with cur := f m.cur }
def State.setCur (s : State) (c : Cur) : State := s.modCur fun _ => c
def State.emit (s : State) (o : Out) : State := s.modM fun m => { m with out := m.out ++ [o] }

/-- The die of a core (01 R23). -/
def dieOf (core : Nat) : Nat := core / 24
/-- The cluster of a core, 0-23 (01 R23). -/
def clusterOf (core : Nat) : Nat := core / 8

/-- The crew of a thread; a continuation stands in its owner's crew. -/
def State.crewOf (s : State) (t : Nat) : Crew := s.crew (s.thread t).crew
def State.teamOf (s : State) (t : Nat) : Team := s.team (s.crewOf t).team
def State.gridOf (s : State) (t : Nat) : Grid := s.grid (s.teamOf t).grid

def State.part (s : State) (core part : Nat) : Partition := Table.getD (s.core core).parts part Partition.reset
def State.setPart (s : State) (core part : Nat) (p : Partition) : State :=
  s.modCore core fun c => { c with parts := Table.set c.parts part p }

/-! ## Reset (24 R407, 26 R443) -/

/-- The device has left reset: the boot chain has passed step 6. Before the rails are stable, before the boot and after a failed check every
function is in reset. -/
def State.awake (s : State) : Bool := decide (6 ≤ s.trust.stage)

/-! ## Engine IDs (25 R417) -/

/-- The threads of core c have the ID c; the engines of a core, the atomic engine of a tower, the fabric engine and enlarger of a hub, the
fixer, a service-core hart. -/
def tileEngine (core : Nat) : Nat := 0x100 + core
def copyEngine (core : Nat) : Nat := 0x200 + core
def atomicEngine (tower : Nat) : Nat := 0x300 + tower
def fabricEngine (hub : Nat) : Nat := 0x310 + hub
def fixerEngine : Nat := 0x320
def hartEngine (hart : Nat) : Nat := 0x330 + hart

/-- The stamp of every event of a service-core hart: it names no grid (25 R418). -/
def hartStamp (hart : Nat) : Stamp := ⟨0xFFF, hartEngine hart, 0⟩

/-- The key a grid's global accesses use: key 0 for a seat crew (05 R119, 20 R368). -/
def Grid.accessKey (g : Grid) : Nat := if g.seat = .owner then g.key else 0

/-- The code of a seat (01 R23). -/
def Seat.code : Seat → Nat
  | .operator => 0
  | .owner => 1
  | .auditor => 2

/-- The threads of a crew that are live. -/
def State.liveOf (s : State) (c : Nat) : List Nat := (s.crew c).threads.filter fun t => (s.thread t).live

/-- The live threads of a team. -/
def State.teamLive (s : State) (tm : Nat) : List Nat := (s.team tm).crews.flatMap s.liveOf

/-- A thread slot runs an uncommitted continuation. -/
def Thread.isCont (th : Thread) : Bool := th.cont.isSome

/-- What a team holds on a core. -/
def Team.part (tm : Team) (core : Nat) : CorePart := Table.getD tm.parts core CorePart.launch

def State.modPart (s : State) (tm core : Nat) (f : CorePart → CorePart) : State :=
  s.modTeam tm fun x => { x with parts := Table.set x.parts core (f (x.part core)) }

/-- A fresh identifier of an engine item. -/
def State.newId (s : State) : Nat × State := (s.eng.nextId, s.modEng fun e => { e with nextId := e.nextId + 1 })

/-- The retired-instruction count of a context (21 R377). -/
def State.retiredCount (s : State) (key : Nat) : DWord :=
  match s.ctx? key with
  | some c => Table.getD c.ctr 0 0
  | none => 0

/-- The next free value (log 18). -/
def State.freeWord (s : State) : Word × State := (Config.freeWord s.m.free, s.modM fun m => { m with free := m.free + 1 })

/-- A counter of a context (25 R431) rises by an amount; it wraps. -/
def Ctx.bump (c : Ctx) (i n : Nat) : Ctx :=
  { c with ctr := Table.set c.ctr i (Table.getD c.ctr i 0 + BitVec.ofNat 64 n) }

def State.count (s : State) (key i n : Nat) : State := s.modCtx key fun c => c.bump i n

/-- Saturating count of a 32-bit register. -/
def satInc (w : Word) (n : Nat) : Word := BitVec.ofNat 32 (min (w.toNat + n) (2 ^ 32 - 1))

/-! ## Sources of the word in issue (02 R44) -/

/-- The thread whose registers a word in issue reads: as it stood before its pair, for the pair's second word. -/
def State.src (s : State) (t : Nat) : Thread :=
  match s.m.cur.snap.find? fun e => e.1 == t with
  | some e => e.2
  | none => s.thread t

/-- The value of kn a thread sees (01 R21): the leader crew its own writes, other crews the last published. -/
def State.kReg (s : State) (t : Nat) (n : BitVec 5) : DWord :=
  let c := s.crewOf t
  let tm := s.team c.team
  if c.index = 0 then
    match s.m.cur.snapK.find? fun e => e.1 == c.team with
    | some e => e.2[n.toNat]'n.isLt
    | none => tm.kLead[n.toNat]'n.isLt
  else tm.kView[n.toNat]'n.isLt

/-- The tag of a source register of a crew; v0 is always U (01 R18). -/
def State.srcTag (s : State) (c : Nat) (r : Reg) : Tag :=
  if r = 0 then .u
  else match s.m.cur.snapT.find? fun e => e.1 == c with
    | some e => e.2[r.toNat]'r.isLt
    | none => (s.crew c).tags[r.toNat]'r.isLt

/-- The registers of a pair as sources: x0 has none. -/
def pairSrc (r : Reg) : List Reg := if r = 0 then [] else [r, r + 1]

end Sys2Proof.Machine
end

