-- ==== Sys2Proof/Machine/Info.lean ====
section
/-! DEFINITION. What the opcode tables of the spec say of each word besides its effect: register operands (02 R61 step 9),
rights rows (01 R32), pipe class (02 R41, R59), crew-wide words (04 R115), words that freeze in an uncommitted continuation
(06 R146), and the registers a word reads and writes (17 R344, 02 R43). An event has none of these. -/

namespace Sys2Proof

open Sys2Proof.Machine

/-- A register operand: a single register, an even pair or an aligned quad (01 R16). -/
inductive Opd where
  | v (r : Reg)
  | x (r : Reg)
  | y (r : Reg)
  deriving DecidableEq, Repr

/-- The registers an operand names. -/
def Opd.regs : Opd → List Nat
  | .v r => [r.toNat]
  | .x r => [r.toNat, r.toNat + 1]
  | .y r => [r.toNat, r.toNat + 1, r.toNat + 2, r.toNat + 3]

/-- An operand is misaligned (01 R16). -/
def Opd.misaligned : Opd → Bool
  | .v _ => false
  | .x r => r.toNat % 2 != 0
  | .y r => r.toNat % 4 != 0

/-- A single register or a pair, by a width bit. -/
def Opd.wide (w : Bool) (r : Reg) : Opd := if w then .x r else .v r

/-- The data operand of an access width (05 R124). -/
def Opd.ofWidth (w : Width) (r : Reg) : Opd :=
  match w with
  | .w64 => .x r
  | .w128 => .y r
  | _ => .v r

/-- The operand of a floating type: F64 is a pair (09 R185). -/
def Opd.ofFTy (t : FTy) (r : Reg) : Opd := if t = .f64 then .x r else .v r

/-- The operand of a conversion type: S64, N64 and F64 are pairs (09 R196). -/
def Opd.ofCvt (t : CvtTy) (r : Reg) : Opd :=
  match t with
  | .s64 | .n64 | .f64 => .x r
  | _ => .v r

/-- An atomic operation on 64 bits (05 R127). -/
def AtomOp.is64 : AtomOp → Bool
  | .add64 | .mins64 | .minn64 | .maxs64 | .maxn64 | .and64 | .or64 | .xor64 | .xchg64 | .incw64 | .decw64 => true
  | _ => false

/-- The operand of a compare type (02 R53). -/
def Opd.ofITy (t : ITy) (r : Reg) : Opd :=
  match t with
  | .s64 | .n64 => .x r
  | _ => .v r

/-- The width of a control register in the spec's tables is 64 bits (01 R29, R30; 14 R264; 20 R355; 25; 26). -/
def csrIs64 (i : Nat) : Bool :=
  i == 0x005 || (0x010 ≤ i && i ≤ 0x017) || i == 0x020 || i == 0x021 || i == 0x023 || i == 0x026 || i == 0x103 ||
  i == 0x410 || i == 0x415 || i == 0x422 || i == 0x423 || i == 0x425 || (0x7C0 ≤ i && i ≤ 0x7FF) ||
  i == 0x803 || i == 0x804 || (0x830 ≤ i && i ≤ 0x853) || (0x880 ≤ i && i ≤ 0x887) || (0xC00 ≤ i && i ≤ 0xFFF)

/-- IOP functions that shift take a single register B (04 R98). -/
def IopFn.shift : IopFn → Bool
  | .shl | .shr | .sar | .rol => true
  | _ => false

/-- The register operands of a word, from high bit to low (02 R61 step 9). -/
def Instr.opds : Instr → List Opd
  | .iop _ d a b w f =>
    [Opd.wide w d, Opd.wide w a] ++ (if f.unary then [] else [if f.shift then .v b else Opd.wide w b])
  | .addi _ d a _ | .andi _ d a _ | .ori _ d a _ | .xori _ d a _ => [.v d, .v a]
  | .shi _ d a _ w _ => [Opd.wide w d, Opd.wide w a]
  | .movi _ d _ | .movhi _ d _ => [.v d]
  | .icmp _ _ a b _ t => [Opd.ofITy t a, Opd.ofITy t b]
  | .icmpi _ _ a _ t _ => [Opd.ofITy t a]
  | .sel _ d a b _ w => [Opd.wide w d, Opd.wide w a, Opd.wide w b]
  | .xmovMov _ d a => [.v d, .v a]
  | .xmovRds _ d sp => [Opd.wide (sp == .clock) d]
  | .xmovRdk _ d _ => [.x d]
  | .xmovWrk _ a _ => [.x a]
  | .xmovRdp _ d => [.v d]
  | .xmovWrp _ a => [.v a]
  | .xmovShape _ d a => [.v d, .v a]
  | .xmovPrec _ d _ => [.v d]
  | .lea _ d a b _ _ => [.x d, .x a, .v b]
  | .fop _ d a b _ t _ => [Opd.ofFTy t d, Opd.ofFTy t a, Opd.ofFTy t b]
  | .fma32 _ d a b e _ | .fmah _ d a b e _ | .fmab _ d a b e _ | .dot4 _ d a b e _ => [.v d, .v a, .v b, .v e]
  | .fmad _ d a b e _ => [.x d, .x a, .x b, .x e]
  | .funOp _ d a _ _ => [.v d, .v a]
  | .fcmp _ _ a b _ t => [Opd.ofFTy t a, Opd.ofFTy t b]
  | .cvt _ d a dt sty _ _ => [Opd.ofCvt dt d, Opd.ofCvt sty a]
  | .shfl _ d a b _ imm => [.v d, .v a] ++ (if imm then [] else [.v b])
  | .voteBallot _ d _ => [.v d]
  | .voteElect _ d _ _ => [.v d]
  | .redux _ d a _ _ => [.v d, .v a]
  | .ld _ d ap w _ | .st _ d ap w _ => [Opd.ofWidth w d, .x (pairOf ap)]
  | .lds _ d ap _ _ => [.v d, .x (pairOf ap)]
  | .lda _ d ap _ w | .stl _ d ap _ w => [Opd.ofWidth w d, .x (pairOf ap)]
  | .atom _ d ap b _ o => [Opd.wide o.is64 d, .x (pairOf ap), Opd.wide o.is64 b]
  | .cas _ d ap b _ w | .mwait _ d ap b _ _ w => [Opd.ofWidth w d, .x (pairOf ap), Opd.ofWidth w b]
  | .ldfeKeep _ d ap _ w | .ldfeTake _ d ap _ w | .stfeFill _ d ap _ w | .stfePut _ d ap _ w =>
    [Opd.ofWidth w d, .x (pairOf ap)]
  | .cctlDwb _ ap _ | .cctlDinv _ ap _ | .cctlPfx _ ap _ => [.x (pairOf ap)]
  | .jmpr _ a | .callr _ a => [.x a]
  | .launchGrid _ d a => [.v d, .x a]
  | .cwaitFstat _ d _ => [.v d]
  | .tilePload _ ap _ g | .tilePloadw _ ap _ g => [.x (pairOf ap), .v g]
  | .tileExpose _ ap _ tp g | .tileExposew _ ap _ tp g => [.x (pairOf ap), .x (pairOf tp), .v g]
  | .tileTcvt _ sa _ da g | .tileTdcvt _ sa _ da g => [.x (pairOf sa), .x (pairOf da), .v g]
  | .tileTrayz _ tp g | .tileTrayfl _ tp g => [.x (pairOf tp), .v g]
  | .tileTrayrd _ tp da g => [.x (pairOf tp), .x (pairOf da), .v g]
  | .tilePstat _ d _ => [.v d]
  | .qaccQrst _ _ a p => [.v a, .x p]
  | .qaccQgen _ _ d a => [.v d, .v a]
  | .qaccQapp _ _ a b => [.v a, .v b]
  | .qaccQcnt _ _ d => [.v d]
  | .qaccQaplReg _ _ d a | .qaccQapltReg _ _ d a | .qaccQaprReg _ _ d a | .qaccQaprtReg _ _ d a => [.v d, .v a]
  | .qaccQaplTile _ _ ap g | .qaccQapltTile _ _ ap g | .qaccQaprTile _ _ ap g | .qaccQaprtTile _ _ ap g =>
    [.x (pairOf ap), .v g]
  | .qaccQsave _ _ ap | .qaccQload _ _ ap => [.x (pairOf ap)]
  | .xferCopy _ d a b => [.x d, .y a, .v b]
  | .xferCopy2d _ d a b | .xferHalo _ d a b | .xferBxfer _ d a b | .xferBxferOne _ d a b | .xferBxmc _ d a b
  | .xferBxmcOne _ d a b => [.x d, .y a, .y b]
  | .xferRatom _ d ap o => [Opd.wide o.is64 d, .x (pairOf ap)]
  | .xferArmc _ a b | .xferArmcZ _ a b => [.x a, .x b]
  | .xferAcwait _ d a => [.x d, .x a]
  | .sysSeatq _ d => [.v d]
  | .sysPlace _ d a b _ | .sysPlaceRs _ d a b _ => [.x d, .x a, .v b]
  | .sysPreempt _ d a => [.x d, .x a]
  | .sysPreemptAt _ d a b => [.x d, .x a, .x b]
  | .sysReset _ d a => [.x d, .v a]
  | .sysCkpt _ d a b | .sysCkptRs _ d a b => [.x d, .v a, .v b]
  | .sysScrub _ d a b => [.x d, .x a, .x b]
  | .sysRcpt _ d a b _ => [.v d, .x a, .v b]
  | .sysCtrrd _ d a b => [.x d, .v a, .v b]
  | .sysCtxrd _ d a b => [.x d, .x a, .x b]
  | .sysCsrr _ d i => [Opd.wide (csrIs64 i.toNat) d]
  | .sysCsrw _ a i => [Opd.wide (csrIs64 i.toNat) a]
  | .sysBpset _ _ a b => [.x a, .v b]
  | .sysFeatq _ d => [.y d]
  | .sysMgset _ a b => [.v a, .x b]
  | _ => []

/-- Crew-wide words (04 R115, 13 R240). -/
def Instr.crewWide : Instr → Bool
  | .shfl .. | .voteAny .. | .voteAll .. | .voteBallot .. | .voteElect .. | .redux ..
  | .tilePload .. | .tilePloadw .. | .tileExpose .. | .tileExposew .. | .tileTcvt .. | .tileTdcvt .. | .tileTrayz ..
  | .tileTrayrd .. | .tileTrayfl .. | .tilePstat ..
  | .qaccQrst .. | .qaccQgen .. | .qaccQapp .. | .qaccQcnt .. | .qaccQaplReg .. | .qaccQapltReg .. | .qaccQaprReg ..
  | .qaccQaprtReg .. | .qaccQaplTile .. | .qaccQapltTile .. | .qaccQaprTile .. | .qaccQaprtTile .. | .qaccQsave ..
  | .qaccQload .. | .qaccQspill .. | .qaccQclr ..
  | .xferCopy .. | .xferCopy2d .. | .xferHalo .. | .xferBxfer .. | .xferBxmc .. | .xferRatom .. | .xferArmc ..
  | .xferArmcZ .. | .xferAcwait .. => true
  | _ => false

/-- The `.ONE` forms, which issue in a bundle of one thread (13 R240). -/
def Instr.oneForm : Instr → Bool
  | .xferBxferOne .. | .xferBxmcOne .. => true
  | _ => false

/-- TILE words. -/
def Instr.isTile : Instr → Bool
  | .tilePload .. | .tilePloadw .. | .tileExpose .. | .tileExposew .. | .tileTcvt .. | .tileTdcvt .. | .tileTrayz ..
  | .tileTrayrd .. | .tileTrayfl .. | .tilePstat .. => true
  | _ => false

/-- QACC words. -/
def Instr.isQacc : Instr → Bool
  | .qaccQrst .. | .qaccQgen .. | .qaccQapp .. | .qaccQcnt .. | .qaccQaplReg .. | .qaccQapltReg .. | .qaccQaprReg ..
  | .qaccQaprtReg .. | .qaccQaplTile .. | .qaccQapltTile .. | .qaccQaprTile .. | .qaccQaprtTile .. | .qaccQsave ..
  | .qaccQload .. | .qaccQspill .. | .qaccQclr .. => true
  | _ => false

/-- XFER words. -/
def Instr.isXfer : Instr → Bool
  | .xferCopy .. | .xferCopy2d .. | .xferHalo .. | .xferBxfer .. | .xferBxferOne .. | .xferBxmc .. | .xferBxmcOne ..
  | .xferRatom .. | .xferArmc .. | .xferArmcZ .. | .xferAcwait .. => true
  | _ => false

/-- SYS words. -/
def Instr.isSys : Instr → Bool
  | .sysSeatq .. | .sysPlace .. | .sysPlaceRs .. | .sysPreempt .. | .sysPreemptAt .. | .sysReset .. | .sysCkpt ..
  | .sysCkptRs .. | .sysScrub .. | .sysRcpt .. | .sysCtrrd .. | .sysCtxrd .. | .sysCsrr .. | .sysCsrw .. | .sysTrap ..
  | .sysTret .. | .sysBrk .. | .sysBpset .. | .sysBpclr .. | .sysFeatq .. | .sysMgset .. => true
  | _ => false

/-- Words whose row denies a seat (04 R96, 13 R239, 14 R260). -/
def Instr.allowed (i : Instr) (seat : Machine.Seat) : Bool :=
  match i with
  | .launchGrid .. | .cwaitAll .. | .xferBxfer .. | .xferBxferOne .. | .xferBxmc .. | .xferBxmcOne .. | .xferRatom ..
  | .sysCtxrd .. | .sysRcpt .. | .sysBpset .. | .sysBpclr .. => seat != .auditor
  | .sysPlace .. | .sysPlaceRs .. | .sysPreempt .. | .sysPreemptAt .. | .sysReset .. | .sysCkpt .. | .sysCkptRs ..
  | .sysScrub .. | .sysMgset .. => seat == .operator
  | _ => true

/-- A word that moves the whole state of its thread, or takes a snapshot of it: it acts after the other word of its pair. -/
def Instr.movesThread : Instr → Bool
  | .fcall .. | .ret .. | .exitOp .. | .sysTrap .. | .sysBrk .. | .sysTret .. => true
  | _ => false

/-- Words at which an uncommitted continuation freezes whatever its operands (06 R146). -/
def Instr.freezes : Instr → Bool
  | .lda _ d _ _ _ => d != 0
  | .stl .. | .atom .. | .cas .. | .fenceAr .. | .fenceAcq .. | .fenceRel .. | .mwait .. | .ldfeKeep .. | .ldfeTake ..
  | .stfeFill .. | .stfePut .. | .cctlIsync .. | .cctlDwb .. | .cctlDinv .. | .barSync .. | .barArrive ..
  | .launchGrid .. | .cwaitAll .. | .cwaitFgate .. | .exitOp .. | .xmovWrk .. | .xmovShape .. => true
  | .cwaitFstat _ _ sl => sl != .status
  | .xferBxferOne .. | .xferBxmcOne .. => true
  | i => i.crewWide || i.isSys

/-- Pipe classes (02 R41). -/
inductive Pipe where
  | i | f | m | x | prefixWord | event
  deriving DecidableEq, Repr

/-- The pipe of a word (02 R59). -/
def Instr.pipe : Instr → Pipe
  | .pb .. => .prefixWord
  | .iop .. | .addi .. | .andi .. | .ori .. | .xori .. | .shi .. | .movi .. | .movhi .. | .icmp .. | .icmpi .. | .plop ..
  | .sel .. | .xmovMov .. | .xmovRds .. | .xmovRdk .. | .xmovWrk .. | .xmovRdp .. | .xmovWrp .. | .xmovShape ..
  | .xmovPrec .. | .lea .. => .i
  | .fop .. | .fma32 .. | .fmah .. | .fmab .. | .fmad .. | .funOp .. | .fcmp .. | .cvt .. | .shfl .. | .voteAny ..
  | .voteAll .. | .voteBallot .. | .voteElect .. | .redux .. | .dot4 .. => .f
  | .ld .. | .lds .. | .st .. | .lda .. | .stl .. | .atom .. | .cas .. | .fenceAr .. | .fenceAcq .. | .fenceRel ..
  | .waitCnt .. | .mwait .. | .ldfeKeep .. | .ldfeTake .. | .stfeFill .. | .stfePut .. | .cctlIsync .. | .cctlDwb ..
  | .cctlDinv .. | .cctlPfx .. => .m
  | .bra .. | .jmpr .. | .call .. | .callr .. | .fcall .. | .ret .. | .yieldOp .. | .exitOp .. | .barSync ..
  | .barArrive .. | .launchGrid .. | .cwaitAll .. | .cwaitFgate .. | .cwaitFstat .. | .cwaitFsq .. => .x
  | i => if i.isXfer then .m else if i.isTile || i.isQacc || i.isSys then .x else .event

/-- The operands a word writes. -/
def Instr.dsts : Instr → List Opd
  | .iop _ d _ _ w _ => [Opd.wide w d]
  | .addi _ d _ _ | .andi _ d _ _ | .ori _ d _ _ | .xori _ d _ _ | .movi _ d _ | .movhi _ d _ => [.v d]
  | .shi _ d _ _ w _ => [Opd.wide w d]
  | .sel _ d _ _ _ w => [Opd.wide w d]
  | .xmovMov _ d _ | .xmovRdp _ d | .xmovShape _ d _ | .xmovPrec _ d _ => [.v d]
  | .xmovRds _ d sp => [Opd.wide (sp == .clock) d]
  | .xmovRdk _ d _ => [.x d]
  | .lea _ d _ _ _ _ => [.x d]
  | .fop _ d _ _ _ t _ => [Opd.ofFTy t d]
  | .fma32 _ d _ _ _ _ | .fmah _ d _ _ _ _ | .fmab _ d _ _ _ _ | .dot4 _ d _ _ _ _ | .funOp _ d _ _ _ => [.v d]
  | .fmad _ d _ _ _ _ => [.x d]
  | .cvt _ d _ dt _ _ _ => [Opd.ofCvt dt d]
  | .shfl _ d _ _ _ _ | .voteBallot _ d _ | .voteElect _ d _ _ | .redux _ d _ _ _ => [.v d]
  | .ld _ d _ w _ | .lda _ d _ _ w | .ldfeKeep _ d _ _ w | .ldfeTake _ d _ _ w => [Opd.ofWidth w d]
  | .cas _ d _ _ _ w | .mwait _ d _ _ _ _ w => [Opd.ofWidth w d]
  | .lds _ d _ _ _ => [.v d]
  | .atom _ d _ _ _ o | .xferRatom _ d _ o => [Opd.wide o.is64 d]
  | .launchGrid _ d _ | .cwaitFstat _ d _ | .tilePstat _ d _ | .qaccQcnt _ _ d | .sysSeatq _ d | .sysRcpt _ d _ _ _ =>
    [.v d]
  | .xferCopy _ d _ _ | .xferCopy2d _ d _ _ | .xferHalo _ d _ _ | .xferBxfer _ d _ _ | .xferBxferOne _ d _ _
  | .xferBxmc _ d _ _ | .xferBxmcOne _ d _ _ | .xferAcwait _ d _ => [.x d]
  | .sysPlace _ d _ _ _ | .sysPlaceRs _ d _ _ _ | .sysPreempt _ d _ | .sysPreemptAt _ d _ _ | .sysReset _ d _
  | .sysCkpt _ d _ _ | .sysCkptRs _ d _ _ | .sysScrub _ d _ _ | .sysCtrrd _ d _ _ | .sysCtxrd _ d _ _ => [.x d]
  | .sysCsrr _ d i => [Opd.wide (csrIs64 i.toNat) d]
  | .sysFeatq _ d => [.y d]
  | _ => []

/-- The predicates a word writes; XMOV.WRP writes all. -/
def Instr.dstPreds : Instr → List Nat
  | .icmp _ p _ _ _ _ | .icmpi _ p _ _ _ _ | .plop _ p _ _ _ | .fcmp _ p _ _ _ _ => [p.toNat]
  | .voteAny _ q _ | .voteAll _ q _ => [q.toNat]
  | .voteElect _ _ q _ => [q.toNat]
  | .xmovWrp _ _ => (List.range 16).filter (· != 0)
  | _ => []

/-- The k register a word writes. -/
def Instr.dstK : Instr → List Nat
  | .xmovWrk _ _ k => [k.toNat]
  | _ => []

/-- The vector registers a word writes; v0, x0 and y0 never count (02 R43). -/
def Instr.dstRegs (i : Instr) : List Nat :=
  (i.dsts.flatMap fun o => match o with
    | .v r => if r = 0 then [] else o.regs
    | .x r => if r = 0 then [] else o.regs
    | .y r => if r = 0 then [] else o.regs)

/-- The vector registers a word reads or writes, for the scoreboard (17 R344); SHAPE does not read its A (04 R106). -/
def Instr.usedRegs : Instr → List Nat
  | .xmovShape _ d _ => [d.toNat]
  | i => i.opds.flatMap Opd.regs

/-- Loads and stores take an entry of the outstanding-transaction table (05 R132, R133), and so does an XFER word. -/
def Instr.takesEntry (i : Instr) : Bool :=
  match i with
  | .ld .. | .lds .. | .st .. | .lda .. | .stl .. | .atom .. | .cas .. | .mwait .. | .ldfeKeep .. | .ldfeTake .. | .stfeFill ..
  | .stfePut .. | .cctlDwb .. | .cctlDinv .. | .cctlPfx .. => true
  | i => i.isXfer

/-- The register operands a word reads. -/
def Instr.srcOpds (i : Instr) : List Opd :=
  match i with
  | .cas .. => i.opds
  | i => (i.opds.drop i.dsts.length)

end Sys2Proof
end

