-- ==== Sys2Proof/Machine/Mem.lean ====
section
/-! DEFINITION. Main memory, the towers, and the caches: sealing units, ECC and poison (16 R315-R320), L2 slices and L1
lines (16 R311-R314), release and acquire (16 R312) and remote-scope promotion (15 R296). An address here is physical. -/

namespace Sys2Proof.Machine

/-! ## Physical addresses -/

/-- Where the model puts the slice region, which 16 R309 gives no address: beyond every physical address (log 77). -/
def sliceBase : Nat := 2 ^ 57

/-- The offset in device memory of a physical address in the device-memory window (20 R368, 22 R394), and that of an address of the
slice region (16 R309). -/
def State.devOff (s : State) (pa : Nat) : Option Nat :=
  if sliceBase ≤ pa then some pa
  else if s.fab.dmwin.toNat ≤ pa ∧ pa < s.fab.dmwin.toNat + 2 ^ 39 then some (pa - s.fab.dmwin.toNat) else none

/-- The sealing unit of a physical address: a unit number of device memory, or 2^40 plus one of host memory. -/
def State.unitOf (s : State) (pa : Nat) : Nat :=
  match s.devOff pa with
  | some o => o / 64
  | none => 2 ^ 40 + pa / 64

/-- The tower that homes a device address (16 R315). -/
def towerOf (off : Nat) : Nat := bitsN off 10 8 ^^^ bitsN off 13 11 ^^^ bitsN off 16 14

/-- The L2 slice of a die that owns the line of a physical address (16 R314). -/
def sliceOf (pa : Nat) : Nat := bitsN pa 11 7 ^^^ bitsN pa 16 12

/-- A readiness bit (26 R438). -/
def State.fnReady (s : State) (b : Nat) : Bool := s.ctl.fnReady.getLsbD b

/-- The host port that carries a page: even pages port 0, odd pages port 1, or the one that is up (22 R399). -/
def State.portFor (s : State) (pa : Nat) : Option Nat :=
  let p := pa / 4096 % 2
  if s.fab.ports.contains p then some p
  else if s.fab.ports.contains (1 - p) then some (1 - p) else none

/-- The tag of cached lines of host memory, which no key seals. -/
def hostTag : Nat := 2048

/-- The tag of the cached line of an address under a key (log 78). -/
def State.tagOf (s : State) (key pa : Nat) : Nat := if (s.devOff pa).isSome then key else hostTag

/-- The addresses of a thread's lane slice in the slice region (16 R309): 64 KiB to a thread, 2^31 to a team, 2^63 to a grid. -/
def State.sliceAt (s : State) (t off : Nat) : Nat :=
  let tm := s.teamOf t
  sliceBase + tm.grid * 2 ^ 63 + tm.index * 2 ^ 31 + (s.thread t).index * 2 ^ 16 + off

/-- An address of the slice region of a grid. -/
def inSlices (grid a : Nat) : Bool := decide (sliceBase + grid * 2 ^ 63 ≤ a) && decide (a < sliceBase + (grid + 1) * 2 ^ 63)

/-- The identity of the keys an access under a key ID uses (24 R405). -/
def State.sealIdOf (s : State) (key : Nat) : Option SealId := (s.ctx? key).map (·.sealed)

/-- The plaintext byte at a physical address, wherever memory stands. -/
def State.physByte (s : State) (pa : Nat) : Byte :=
  match s.devOff pa with
  | some o => s.mem.dev.read o
  | none => s.mem.host.read pa

/-- Writes a plaintext byte to main memory. -/
def State.setPhysByte (s : State) (pa : Nat) (b : Byte) : State :=
  match s.devOff pa with
  | some o => { s with mem := { s.mem with dev := s.mem.dev.write o b } }
  | none => { s with mem := { s.mem with host := s.mem.host.write pa b } }

/-- Writes plaintext bytes to main memory. -/
def State.setPhys (s : State) (pa : Nat) : List Byte → State
  | [] => s
  | b :: r => State.setPhys (s.setPhysByte pa b) (pa + 1) r

/-- Reads plaintext bytes of main memory. -/
def State.physBytes (s : State) (pa : Nat) : Nat → List Byte
  | 0 => []
  | n + 1 => s.physByte pa :: State.physBytes s (pa + 1) n

/-! ## Forks: tracked lines (06 R146-R148) -/

/-- A write by an agent reaches a line, for the threads of the cores it had not reached: forks whose tracked set holds the line
conflict, and a callee's open forks record it. The writer is a thread, or none for any other agent. -/
def State.noteFrom (s : State) (writer : Option Nat) (far : Nat → Bool) (ln : LineId) : State :=
  if s.threads.all fun e => e.2.fork.recs.isEmpty then s
  else { s with threads := s.threads.map fun e =>
      if e.2.fork.recs.isEmpty ∨ far (s.crew e.2.crew).core = false then e
      else
        let upd (f : Fork) : Fork :=
          let tr := match (s.thread f.cont).cont with
            | some c => c.tracked.contains ln
            | none => false
          let f := if tr then { f with conflict := true } else f
          if writer = some e.1 ∧ ¬ f.written.contains ln then
            if 128 ≤ f.written.length then { f with conflict := true } else { f with written := f.written ++ [ln] }
          else f
        (e.1, { e.2 with fork := { e.2.fork with recs := e.2.fork.recs.map upd } }) }

/-- A write by an agent reaches a line, for every thread. -/
def State.noteWrite (s : State) (writer : Option Nat) (ln : LineId) : State := s.noteFrom writer (fun _ => true) ln

/-- The 128-byte lines of a range. -/
def linesOf (st : Store) (off n : Nat) : List LineId :=
  (List.range ((off + n - 1) / 128 - off / 128 + 1)).map fun i => ⟨st, off / 128 + i⟩

/-- Notes every line a write covers. -/
def State.noteWrites (s : State) (writer : Option Nat) (st : Store) (off n : Nat) : State :=
  (linesOf st off n).foldl (fun s l => s.noteWrite writer l) s

/-! ## Fault logs and alarms that lie in host memory -/

/-- The 64 bytes of a fault record (14 R282). `owner` chooses the view. -/
def FaultRec.bytes (r : FaultRec) (owner : Bool) : List Byte :=
  let b (x : Bool) (n : Nat) : Nat := if x then n else 0
  if owner then
    leBytes 2 r.cause
      ++ leBytes 1 (1 + b r.handled 2 + b r.halted 4 + b r.deferred 8 + b r.notice 16 + b r.alarm 32 + b r.held 64)
      ++ leBytes 1 r.seat ++ leBytes 2 r.key ++ leBytes 2 0 ++ leBytes 2 r.queue ++ leBytes 2 r.engine ++ leBytes 4 0
      ++ leBytes 8 r.seq ++ leBytes 8 r.pc.toNat ++ leBytes 8 r.val.toNat
      ++ leBytes 4 (r.core + 2 ^ 8 * r.part + 2 ^ 11 * r.slot + 2 ^ 15 * r.lane)
      ++ leBytes 4 r.grid.toNat ++ leBytes 4 r.team ++ leBytes 2 r.thread ++ leBytes 2 0 ++ leBytes 8 r.retired.toNat
  else
    leBytes 2 (r.cause / 64 * 64) ++ leBytes 1 (b r.notice 16 + b r.alarm 32) ++ leBytes 1 0
      ++ leBytes 2 r.key ++ leBytes 2 0 ++ leBytes 2 r.queue ++ leBytes 2 r.engine ++ leBytes 4 0
      ++ leBytes 8 r.seq ++ leBytes 40 0

/-- A record with nothing but its context (20 R357, 24 R414). -/
def FaultRec.event (key : Nat) (notice alarm : Bool) : FaultRec where
  cause := 0
  handled := false
  halted := false
  deferred := false
  notice := notice
  alarm := alarm
  held := false
  seat := 0
  key := key
  queue := 0
  engine := 0
  seq := 0
  pc := 0
  val := 0
  core := 0
  part := 0
  slot := 0
  lane := 0
  grid := 0
  team := 0
  thread := 0
  retired := 0

/-- A log has room for a record (20 R356). -/
def LogRegs.room (l : LogRegs) : Bool := l.base != 0 && l.size != 0 && (l.tail - l.head).toNat < l.size.toNat

/-- The address of the next record of `n` bytes (20 R356). -/
def LogRegs.slot (l : LogRegs) (n : Nat) : Nat := l.base.toNat + n * (l.tail.toNat % l.size.toNat)

/-- A record appended, and a record lost (20 R355). -/
def LogRegs.appended (l : LogRegs) : LogRegs := { l with tail := l.tail + 1 }
def LogRegs.dropped (l : LogRegs) : LogRegs := { l with lost := satInc l.lost 1 }

/-- A write of host memory through a port fails (22 R399). -/
def State.hostBlocked (s : State) (pa : Nat) : Bool :=
  (s.portFor pa).isNone || s.mem.hostBad.contains (pa / 64)

/-- The home of a line can be reached: the tower is ready, or a host port is up (26 R439, 22 R399). -/
def State.homeReady (s : State) (pa : Nat) : Bool :=
  match s.devOff pa with
  | some o => s.fnReady (towerOf o)
  | none => true

/-- The step has met a tower that is not ready: it does not stand, and is taken again when the tower is (26 R439). -/
def State.notReady (s : State) : State := s.modM fun m => { m with unready := true }

/-- An access meets its home. -/
def State.needHome (s : State) (pa : Nat) : State := if s.homeReady pa then s else s.notReady

/-- Appends bytes to the operator's fault log, which lies in host memory (20 R354, R356, R375). -/
def State.appendOp (s : State) (bytes : List Byte) : State :=
  let l := s.xl.oflog
  let ok := l.room && !(s.hostBlocked (l.slot 64))
  let s := if ok then ((s.needHome (l.slot 64)).setPhys (l.slot 64) bytes).noteWrites none .phys (l.slot 64) 64 else s
  { s with xl := { s.xl with oflog := if ok then l.appended else l.dropped } }

/-- Raises an alarm: the count and the operator's record, with the context, if any (24 R414). -/
def State.alarm (s : State) (key : Option Nat) : State :=
  let s := { s with ctl := { s.ctl with alarmCnt := satInc s.ctl.alarmCnt 1 } }
  s.appendOp ((FaultRec.event (key.getD 0) false true).bytes false)

/-! ## Towers -/

/-- Counts in a tower's counter: 0 corrected, 1 uncorrectable, 2 integrity, 3 pages retired (25 R432). -/
def State.towerCount (s : State) (t j : Nat) : State :=
  let i := 4 * t + j
  { s with mem := { s.mem with ctr := Table.set s.mem.ctr i (Table.getD s.mem.ctr i 0 + 1) } }

/-- Inserts a number into an ascending list without repeats. -/
def insertNat : List Nat → Nat → List Nat
  | [], a => [a]
  | x :: r, a => if a < x then a :: x :: r else if a = x then x :: r else x :: insertNat r a

/-- Poisons a unit (16 R318). -/
def State.setPoison (s : State) (u : Nat) : State :=
  { s with mem := { s.mem with poison := insertNat s.mem.poison u } }

/-- Clears the poison of a unit. -/
def State.clearPoison (s : State) (u : Nat) : State :=
  { s with mem := { s.mem with poison := s.mem.poison.filter (· != u) } }

/-- Enters a page of device memory in a tower's retirement table, which holds 8,192 pages (16 R319). -/
def State.retirePage (s : State) (tower page : Nat) : State :=
  let n := Table.getD s.mem.retCount tower 0
  if s.mem.retired.contains page ∨ 8192 ≤ n then s
  else { s with mem := { s.mem with retired := insertNat s.mem.retired page,
                                    retCount := Table.set s.mem.retCount tower (n + 1) } }.towerCount tower 3

/-- An integrity failure under a key (16 R317, 24 R414, R415): the counts, the alarm, and the quarantine at QTH. -/
def State.integrityFailure (s : State) (key tower : Nat) : State :=
  let s := (s.towerCount tower 2).alarm (some key)
  let s := s.modCtx key fun c => { c with integcnt := satInc c.integcnt 1 }
  let qth := s.ctl.alarmPol.toNat % 2 ^ 16
  s.modCtx key fun c =>
    if qth != 0 && c.integcnt.toNat == qth then { c with quarantined := true } else c

/-- The MAC of a unit matches under the keys that a reader uses. A unit of the slice region is sealed under the context key from the
start (16 R309). -/
def State.macPasses (s : State) (id : Option SealId) (u : Nat) : Bool :=
  match Table.find? s.mem.seals u with
  | some i => id == some i
  | none => decide (sliceBase ≤ 64 * u)

/-- What the ECC step finds in a unit (16 R316, R317): no error, a corrected one, more errors than it can correct, or something else than
was written, which it takes for a unit with no error or corrects to another one. -/
inductive Ecc where
  | clean
  | corrected
  | uncorrectable
  | wrong (fixed : Bool)
  deriving DecidableEq, Repr

/-- The ECC step counts as a correction. -/
def Ecc.fixes : Ecc → Bool
  | .corrected | .wrong true => true
  | _ => false

/-- The ECC step leaves what was written. -/
def Ecc.right : Ecc → Bool
  | .clean | .corrected => true
  | _ => false

/-- The ECC step on a unit: errors in up to 3 symbols are corrected, and in up to 5 found; what it makes of more is not stated, and is a
free value (16 R316, log 84). -/
def State.ecc (s : State) (u : Nat) : Ecc × State :=
  let errs := Table.getD s.mem.symErr u 0
  if errs = 0 then (.clean, s)
  else if errs ≤ 3 then (.corrected, s)
  else if errs ≤ 5 then (.uncorrectable, s)
  else
    let (w, s) := s.freeWord
    (if w.getLsbD 0 then .uncorrectable else .wrong (w.getLsbD 1), s)

/-- A tower reads a unit that is not poisoned through the three steps (16 R317): ECC, then the MAC, which passes or fails as `pass`
says on what was written and fails on anything else, then decryption; `key` is the key ID an integrity failure is reported under. The
failure, if any. -/
def State.unitRead (s : State) (key u : Nat) (pass : Bool) : State × Option Why :=
  let t := towerOf (64 * u)
  let (o, s) := s.ecc u
  if o = .uncorrectable then (((s.setPoison u).towerCount t 1), some .uncorrectable)
  else
    let s := if o.fixes then s.towerCount t 0 else s
    if pass && o.right then ({ s with mem := { s.mem with symErr := Table.erase s.mem.symErr u } }, none)
    else ((s.setPoison u).integrityFailure key t, some .integrity)

/-- A tower reads a unit under a key (16 R317-R319); the failure, if any. -/
def State.towerRead (s : State) (key u : Nat) : State × Option Why :=
  if s.mem.retired.contains (u / 64) || s.mem.poison.contains u then (s, some .poisoned)
  else s.unitRead key u (s.macPasses (s.sealIdOf key) u)

/-- Whether an access under a key is refused whatever its address (24 R415, R416). -/
def State.keyBlocked (s : State) (key : Nat) : Option Why :=
  if s.trust.fogged then some .fogged
  else match s.ctx? key with
    | some c => if c.quarantined then some .quarantined else none
    | none => some .quarantined

/-- The secret and the key ID behind a seal (24 R405). -/
def SealId.secret : SealId → BitVec 256
  | .operator boot => Config.bootDraw boot
  | .owner _ cs => cs
def SealId.keyId : SealId → Nat
  | .operator _ => 0
  | .owner k _ => k

/-- What the DRAM layers store for a sealing unit: ciphertext, MAC and check symbols; none where it was never sealed (16 R316).
The model keeps a unit as its plaintext, its seal, its poison and its symbols in error (log 10), from which this follows. -/
def State.unitStored (s : State) (u : Nat) : Option (List Byte) :=
  (Table.find? s.mem.seals u).map fun i =>
    let c := Config.xtsSeal (Config.hkdf64 i.secret "ublen-mem") (64 * u) (s.mem.dev.readAll (64 * u) 64)
    let m := Config.unitMac (Config.hkdf i.secret "ublen-mac") (64 * u) i.keyId c
    c ++ m ++ Config.rsCheck (c ++ m)

/-- An address lies in a retired page (16 R319). -/
def State.pageRetired (s : State) (pa : Nat) : Bool :=
  match s.devOff pa with
  | some o => s.mem.retired.contains (o / 4096)
  | none => false

/-- Lines of one tower that its LLC layer holds: 1 GiB of 128-byte lines (00 R3, 16 R315). -/
def llcLines : Nat := 2 ^ 23

/-- A line enters the LLC layer of its tower, the oldest leaving a full one (16 R315; log 9). -/
def llcPut (l : List Nat) (line : Nat) : List Nat :=
  if l.contains line then l
  else
    let mine (x : Nat) : Bool := towerOf (128 * x) == towerOf (128 * line)
    (if llcLines ≤ (l.filter mine).length then l.eraseP mine else l) ++ [line]

/-- Reads bytes that lie in one unit at their home (16 R315, 22 R399). -/
def State.homeRead (s : State) (key pa n : Nat) : State × Except Why (List Byte) :=
  let s := s.needHome pa
  match s.devOff pa with
  | some o =>
    match s.towerRead key (o / 64) with
    | (s, some w) => (s, .error w)
    | (s, none) =>
      let hit := s.mem.llc.contains (o / 128)
      let s := s.count key (if hit then 0x14 else 0x15) 1
      ({ s with mem := { s.mem with llc := llcPut s.mem.llc (o / 128) } }, .ok (s.physBytes pa n))
  | none => if s.hostBlocked pa then (s, .error .hostPort) else (s, .ok (s.physBytes pa n))

/-- The record of a write-back that a quarantined key refuses: no thread waits for it (24 R415; log 35). -/
def State.refuseWriteBack (s : State) (key : Nat) : State :=
  (s.modCtx key fun c => { c with flog := c.flog.dropped }).appendOp
    ({ FaultRec.event key false false with cause := Why.cause .store .quarantined }.bytes false)

/-- Writes bytes that lie in one unit at their home (16 R316, R318): fewer than 64 bytes are a read, a merge and a rewrite, whose check
symbols are in error no more. `strict` is a write that a failing read stops, and one of a whole unit clears its poison; a write-back
goes on and carries the poison of the line it writes back. -/
def State.homeWrite (s : State) (key pa : Nat) (bytes : List Byte) (strict : Bool) : State × Option Why :=
  let s := s.needHome pa
  match s.devOff pa with
  | some o =>
    let u := o / 64
    let whole := bytes.length == 64
    if s.mem.retired.contains (u / 64) then (s, some .poisoned)
    else
      let poisonedNow := s.mem.poison.contains u
      let r := if whole || poisonedNow then (s, none) else s.towerRead key u
      match r with
      | (s, some w) =>
        if strict then (s, some w) else (s.setPhys pa bytes, none)
      | (s, none) =>
        let s := s.setPhys pa bytes
        let s := if whole && strict then s.clearPoison u else s
        let s := { s with mem := { s.mem with symErr := Table.erase s.mem.symErr u } }
        match s.sealIdOf key with
        | some i => ({ s with mem := { s.mem with seals := Table.set s.mem.seals u i } }, none)
        | none => (s, none)
  | none => if s.hostBlocked pa then (s, some .hostPort) else (s.setPhys pa bytes, none)

/-! ## L2 slices -/

/-- The line of a key in an L2. -/
def Die.line (d : Die) (key line : Nat) : Option L2Line := d.l2.find? fun l => l.key == key && l.line == line

/-- Puts a line into an L2 in place of the one it replaces. -/
def Die.putLine (d : Die) (l : L2Line) : Die :=
  { d with l2 := if (d.line l.key l.line).isSome then d.l2.map fun x => if x.key == l.key && x.line == l.line then l else x
                 else d.l2 ++ [l] }

/-- The line of a key, or a fresh one that holds nothing. -/
def Die.lineD (d : Die) (key line : Nat) : L2Line :=
  (d.line key line).getD ⟨key, line, [], [], 0, [], [], false⟩

/-- Runs of consecutive addresses within one unit: the writes a write-back makes (16 R313). -/
def dirtyRuns (bytes : Cells) : List Nat → List (Nat × List Byte)
  | [] => []
  | a :: r =>
    let b := (bytes.get a).getD 0
    match dirtyRuns bytes r with
    | (x, l) :: q => if x = a + 1 ∧ a / 64 = x / 64 then (a, b :: l) :: q else (a, [b]) :: (x, l) :: q
    | [] => [(a, [b])]

/-- Writes runs to the home, without stopping. -/
def State.homeWriteRuns (s : State) (key : Nat) : List (Nat × List Byte) → State
  | [] => s
  | (a, l) :: r => State.homeWriteRuns (s.homeWrite key a l false).1 key r

/-- The lines of keys with a physical line number that a die holds. -/
def Die.linesAt (d : Die) (line : Nat) : List L2Line := d.l2.filter fun l => l.line == line

/-- A key's accesses are refused for its quarantine (24 R415). -/
def State.isQuarantined (s : State) (key : Nat) : Bool := (s.ctx? key).any Ctx.quarantined

/-- The dirty bytes of an L2 line reach its home, and with it the cores of other dies (16 R313, 06 R148); those of a quarantined key
are lost (24 R415). -/
def State.l2Flush (s : State) (d : Nat) (l : L2Line) : State :=
  if l.dirty.isEmpty then s
  else if s.isQuarantined l.key then s.refuseWriteBack l.key
  else (s.homeWriteRuns l.key (dirtyRuns l.bytes l.dirty)).noteFrom none (fun c => dieOf c != d) ⟨.phys, l.line⟩

/-- Writes the dirty bytes of an L2 line to its home; the line is then clean. -/
def State.l2Clean (s : State) (d key line : Nat) : State :=
  match (s.die d).line key line with
  | some l => (s.l2Flush d l).modDie d fun x => x.putLine { l with dirty := [], owed := [] }
  | none => s

/-- A physical line, whatever its key, leaves the L2 of a die, its dirty bytes written to the home first. The record of the cores
whose L1 may hold it stays (16 R314). -/
def State.l2Drop (s : State) (d line : Nat) : State :=
  let s := ((s.die d).linesAt line).foldl (fun s l => s.l2Flush d l) s
  s.modDie d fun x => { x with l2 := (x.l2.filter fun l => l.line != line || !l.cores.isEmpty).map fun l =>
    if l.line == line then { l with bytes := [], dirty := [], owed := [], held := false } else l }

/-- The directory invalidates a line in every other die's L2 before a write at the tower (16 R315). Dirty bytes that leave another
L2 are such a write too: of the die's own copy only its dirty bytes stay. -/
def State.invalidateOthers (s : State) (d line : Nat) : State :=
  let others := (List.range 8).filter (· != d)
  let wrote := others.any fun e => ((s.die e).linesAt line).any fun l => !l.dirty.isEmpty
  let s := others.foldl (fun s e => s.l2Drop e line) s
  if wrote then s.modDie d fun x => { x with l2 := x.l2.map fun l =>
      if l.line == line then { l with bytes := l.bytes.filter fun e => l.dirty.contains e.1 } else l }
  else s

/-- A write-back of an L2 line reaches the tower: other dies' copies go first (16 R315). -/
def State.l2WriteBack (s : State) (d key line : Nat) : State := (s.invalidateOthers d line).l2Clean d key line

/-- A write at the home by an agent of no die: every L2 loses the line first (16 R315). -/
def State.dropEverywhere (s : State) (line : Nat) : State := (List.range 8).foldl (fun s d => s.l2Drop d line) s

/-- Cells put over those a line holds. -/
def Cells.over (c : Cells) : List Host.Cell → Cells
  | [] => c
  | (a, b) :: r => Cells.over (Cells.put c a b) r

/-- Cells added where a line holds none. -/
def Cells.under (c : Cells) : List Host.Cell → Cells
  | [] => c
  | (a, b) :: r => Cells.under (if (Cells.get c a).isSome then c else Cells.put c a b) r

/-- Bytes as cells from an address on. -/
def cellsAt (a : Nat) : List Byte → List Host.Cell
  | [] => []
  | b :: r => (a, b) :: cellsAt (a + 1) r

/-- The bytes held at an address range, where all are. -/
def Cells.getAll (c : Cells) (a : Nat) : Nat → Option (List Byte)
  | 0 => some []
  | n + 1 => match Cells.get c a, Cells.getAll c (a + 1) n with
    | some b, some l => some (b :: l)
    | _, _ => none

/-! ## L1 -/

/-- The line of a key in an L1. -/
def Core.line (c : Core) (key line : Nat) : Option L1Line := c.l1.find? fun l => l.key == key && l.line == line

/-- Puts a line into an L1 in place of the one it replaces. -/
def Core.putLine (c : Core) (l : L1Line) : Core :=
  { c with l1 := if (c.line l.key l.line).isSome then c.l1.map fun x => if x.key == l.key && x.line == l.line then l else x
                 else c.l1 ++ [l] }

/-- Removes a line from an L1. -/
def Core.dropLine (c : Core) (key line : Nat) : Core :=
  { c with l1 := c.l1.filter fun l => !(l.key == key && l.line == line) }

/-- The line of a key, or a fresh clean one that holds nothing. -/
def Core.lineD (c : Core) (key line : Nat) : L1Line := (c.line key line).getD ⟨key, line, .clean, [], []⟩

/-- The dirty bytes of an L1 line reach its L2 line, recording WCORE, and with it the other cores of the die (16 R312, R313,
06 R148). -/
def State.l1Push (s : State) (core key line : Nat) : State :=
  match (s.core core).line key line with
  | some l =>
    if l.dirty.isEmpty then s
    else
      let d := dieOf core
      let l2 := (s.die d).lineD key line
      let cells := l.dirty.map fun a => (a, (l.bytes.get a).getD 0)
      let s := s.modDie d fun x => x.putLine
        { l2 with bytes := l2.bytes.over cells, dirty := l.dirty.foldl insertNat l2.dirty, wcore := core, owed := insertNat l2.owed core }
      let s := s.modCore core fun c => c.putLine { l with state := .clean, dirty := [] }
      s.noteFrom none (fun c => c != core) ⟨.phys, line⟩
  | none => s

/-- The byte that a read past the L1 of a core would give now. -/
def State.byteBelow (s : State) (d key a : Nat) : Byte :=
  (((s.die d).line key (a / 128)).bind fun l => l.bytes.get a).getD (s.physByte a)

/-- A copy leaves an L1, or is updated in place: where its bytes are no longer those below it, the write that changed them reaches the
core with that (06 R148, R153). -/
def State.noteLoss (s : State) (core : Nat) (l : L1Line) : State :=
  if s.threads.all fun e => e.2.fork.recs.isEmpty then s
  else if l.bytes.all fun e => l.dirty.contains e.1 || e.2 == s.byteBelow (dieOf core) l.key e.1 then s
  else s.noteFrom none (fun c => c == core) ⟨.phys, l.line⟩

/-- A line leaves the L1 of a core, its dirty bytes having left before. -/
def State.l1Drop (s : State) (core key line : Nat) : State :=
  match (s.core core).line key line with
  | some l => (s.noteLoss core l).modCore core fun c => c.dropLine key line
  | none => s

/-- A line leaves the L2 of a die: what the L1s of the die hold of it is written back and leaves them, then its own dirty bytes
(16 R313, R314; log 9). -/
def State.l2Evict (s : State) (d : Nat) (v : L2Line) : State :=
  let s := v.cores.foldl (fun s c => (s.l1Push c v.key v.line).l1Drop c v.key v.line) s
  let s := s.l2WriteBack d v.key v.line
  s.modDie d fun x => { x with l2 := x.l2.filter fun l => !(l.key == v.key && l.line == v.line) }

/-- Lines a slice of 2 MiB holds: 32 slices of a die's 64 MiB (16 R314). -/
def sliceLines : Nat := 2 ^ 14

/-- A slice that has taken one line too many lets its oldest line go that is neither held as a tray line nor the one it has just
taken (16 R314; log 9). -/
def State.l2Trim (s : State) (d line : Nat) : State :=
  let mine := (s.die d).l2.filter fun l => sliceOf (128 * l.line) == sliceOf (128 * line)
  if mine.length ≤ sliceLines then s
  else match mine.find? fun l => !l.held && l.line != line with
    | some v => s.l2Evict d v
    | none => s

/-- Brings the sector of an address into the L2 of a die (16 R311): the failure, if any. -/
def State.l2Fill (s : State) (d key pa : Nat) : State × Option Why :=
  let sec := pa / 32 * 32
  let k := s.tagOf key pa
  let l := (s.die d).lineD k (pa / 128)
  if (l.bytes.getAll sec 32).isSome then (s.count key 0x12 1, none)
  else
    let s := s.count key 0x13 1
    match s.homeRead key sec 32 with
    | (s, .error w) => (s, some w)
    | (s, .ok bs) =>
      let l := (s.die d).lineD k (pa / 128)
      ((s.modDie d fun x => x.putLine { l with bytes := l.bytes.under (cellsAt sec bs) }).l2Trim d (pa / 128), none)

/-- Notes that a core's L1 may hold a line (16 R314). -/
def State.l2Note (s : State) (d key line core : Nat) : State :=
  (s.modDie d fun x => let l := x.lineD key line; x.putLine { l with cores := insertNat l.cores core }).l2Trim d line

/-- Writes the dirty bytes of an L1 line to the owning L2 slice (16 R312, R313). -/
def State.l1WriteBack (s : State) (core key line : Nat) : State := (s.l1Push core key line).l2Trim (dieOf core) line

/-- The teams resident on a core. -/
def State.teamsOn (s : State) (core : Nat) : List Team :=
  (s.teams.filter fun e => e.2.status == .resident && e.2.cores.contains core).map Prod.snd

/-- Scratchpad blocks of a core that teams hold (16 R306). -/
def State.blocksUsed (s : State) (core : Nat) : Nat :=
  (s.teamsOn core).foldl (fun n t => n + (s.grid t.grid).lr.scratch) 0

/-- Lines the L1 of a core has room for: 64 to a block of 8 KiB, in the blocks no team holds (16 R306). -/
def State.l1Lines (s : State) (core : Nat) : Nat := 64 * (40 - s.blocksUsed core)

/-- The oldest lines beyond the capacity leave the L1 of a core: dirty bytes are written to the L2, clean lines are dropped
(16 R307; log 9). -/
def State.l1Trim (s : State) (core : Nat) : State :=
  ((s.core core).l1.take ((s.core core).l1.length - s.l1Lines core)).foldl (fun s l =>
    (s.l1WriteBack core l.key l.line).l1Drop core l.key l.line) s

/-- A poisoned unit, or one of a retired page, answers no load, atomic or fetch, whatever cache holds it (16 R318, R319). -/
def State.unitPoisoned (s : State) (pa : Nat) : Bool := s.mem.poison.contains (s.unitOf pa) || s.pageRetired pa

/-- A read through the L1 of a core (16 R311): plain, CR and CO reads. The bytes lie in one sector. -/
def State.l1Read (s : State) (core key pa n : Nat) : State × Except Why (List Byte) :=
  if s.unitPoisoned pa then (s, .error .poisoned)
  else
    let k := s.tagOf key pa
    let l := (s.core core).lineD k (pa / 128)
    match l.bytes.getAll pa n with
    | some bs => (s.count key 0x10 1, .ok bs)
    | none =>
      let d := dieOf core
      let s := s.count key 0x11 1
      match s.l2Fill d key pa with
      | (s, some w) => (s, .error w)
      | (s, none) =>
        let sec := pa / 32 * 32
        let bs := (((s.die d).lineD k (pa / 128)).bytes.getAll sec 32).getD []
        let l := (s.core core).lineD k (pa / 128)
        let l := { l with bytes := l.bytes.under (cellsAt sec bs) }
        let s := ((s.modCore core fun c => c.putLine l).l2Note d k (pa / 128) core).l1Trim core
        (s, .ok ((l.bytes.getAll pa n).getD []))

/-- A write into the L1 of a core, recorded at CR or CO (16 R311). -/
def State.l1Write (s : State) (core key pa : Nat) (bytes : List Byte) (co : Bool) : State :=
  let k := s.tagOf key pa
  let l := (s.core core).lineD k (pa / 128)
  let cells := cellsAt pa bytes
  let l := { l with bytes := l.bytes.over cells, dirty := cells.foldl (fun d c => insertNat d c.1) l.dirty,
                    state := if co then .dco else .dcr }
  ((s.modCore core fun c => c.putLine l).l2Note (dieOf core) k (pa / 128) core).l1Trim core

/-- An L1 copy is updated in place by an access of its own core performed further out (16 R311). -/
def State.l1Update (s : State) (core key pa : Nat) (bytes : List Byte) : State :=
  match (s.core core).line (s.tagOf key pa) (pa / 128) with
  | some l =>
    let hit : L1Line := { l with bytes := l.bytes.filter fun e => decide (pa ≤ e.1 ∧ e.1 < pa + bytes.length) }
    (s.noteLoss core hit).modCore core fun c => c.putLine { l with bytes := l.bytes.over (cellsAt pa bytes) }
  | none => s

/-- Own dirty bytes of a line leave the L1 before an access is performed further out (05 R122; log 8). -/
def State.pushL1 (s : State) (core key pa : Nat) : State := s.l1WriteBack core (s.tagOf key pa) (pa / 128)

/-- A read performed at the L2 slice: CL and DI (16 R311). -/
def State.l2Read (s : State) (core key pa n : Nat) : State × Except Why (List Byte) :=
  if s.unitPoisoned pa then (s, .error .poisoned)
  else
    let s := s.pushL1 core key pa
    match s.l2Fill (dieOf core) key pa with
    | (s, some w) => (s, .error w)
    | (s, none) =>
      let bs := (((s.die (dieOf core)).lineD (s.tagOf key pa) (pa / 128)).bytes.getAll pa n).getD []
      (s.l1Update core key pa bs, .ok bs)

/-- A write covers whole poisoned units, whose poison it clears (16 R318). -/
def State.clearsPoison (s : State) (pa n : Nat) : Bool :=
  pa % 64 == 0 && n % 64 == 0 && (List.range (n / 64)).any fun i => s.mem.poison.contains (s.unitOf (pa + 64 * i))

/-- Clears the poison of the units a write covers. -/
def State.clearPoisons (s : State) (pa n : Nat) : State :=
  (List.range (n / 64)).foldl (fun s i => s.clearPoison (s.unitOf (pa + 64 * i))) s

/-- A write performed at the L2 slice: CL and DI (16 R311). One that clears poison goes on to the home at once. -/
def State.l2Write (s : State) (core key pa : Nat) (bytes : List Byte) : State :=
  let s := s.pushL1 core key pa
  let d := dieOf core
  let k := s.tagOf key pa
  let l := (s.die d).lineD k (pa / 128)
  let cells := cellsAt pa bytes
  let s := s.modDie d fun x => x.putLine
    { l with bytes := l.bytes.over cells, dirty := cells.foldl (fun q c => insertNat q c.1) l.dirty, wcore := core
             owed := insertNat l.owed core }
  let s := (s.l2Trim d (pa / 128)).l1Update core key pa bytes
  if s.clearsPoison pa bytes.length then (s.clearPoisons pa bytes.length).l2WriteBack d k (pa / 128) else s

/-- Own dirty bytes of a line leave the L1 and the L2 before an access at the home. -/
def State.pushHome (s : State) (core key pa : Nat) : State :=
  (s.pushL1 core key pa).l2WriteBack (dieOf core) (s.tagOf key pa) (pa / 128)

/-- A read performed at the home: PK and SY (16 R311, 15 R299). -/
def State.homeLoad (s : State) (core key pa n : Nat) : State × Except Why (List Byte) :=
  match (s.pushHome core key pa).homeRead key pa n with
  | (s, .error w) => (s, .error w)
  | (s, .ok bs) =>
    let d := dieOf core
    let s := match (s.die d).line (s.tagOf key pa) (pa / 128) with
      | some l => s.modDie d fun x => x.putLine { l with bytes := l.bytes.over (cellsAt pa bs) }
      | none => s
    (s.l1Update core key pa bs, .ok bs)

/-- A write performed at the home: PK and SY. Every other die's L2 loses the line first (16 R315). -/
def State.homeStore (s : State) (core key pa : Nat) (bytes : List Byte) : State × Option Why :=
  let d := dieOf core
  let s := (s.pushHome core key pa).invalidateOthers d (pa / 128)
  match s.homeWrite key pa bytes true with
  | (s, some w) => (s, some w)
  | (s, none) =>
    let s := match (s.die d).line (s.tagOf key pa) (pa / 128) with
      | some l => s.modDie d fun x => x.putLine { l with bytes := l.bytes.over (cellsAt pa bytes) }
      | none => s
    (s.l1Update core key pa bytes, none)

/-! ## Scopes, release and acquire -/

/-- How wide a scope is (02 R57). -/
def scopeRank : Scope → Nat
  | .cr => 0
  | .co => 1
  | .cl => 2
  | .di => 3
  | .pk => 4
  | .sy => 5

/-- A release by a thread of a core at a scope (16 R312). At PK and wider it writes back the dirty lines of the die's L2 whose WCORE is
the core, and those that hold what happens-before the release by another core's hand (15 R288, R290; log 67). Slice lines stay, for no
release acts on them (16 R309). -/
def State.release (s : State) (core : Nat) (sc : Scope) : State :=
  let r := scopeRank sc
  let s := if 1 ≤ r then s.modCore core fun c =>
      { c with l1 := c.l1.map fun l => if l.state = .dcr then { l with state := .dco } else l } else s
  let s := if 2 ≤ r then (s.core core).l1.foldl (fun s l => s.l1WriteBack core l.key l.line) s else s
  if 4 ≤ r then
    (s.die (dieOf core)).l2.foldl (fun s l =>
      if l.dirty.isEmpty || decide (sliceBase ≤ 128 * l.line) || !(l.wcore == core || l.owed.contains core) then s
      else s.l2WriteBack (dieOf core) l.key l.line) s
  else s

/-- A scope wider than CO reaches from a core to another (15 R286). -/
def inScope (core : Nat) (sc : Scope) (c : Nat) : Bool :=
  match scopeRank sc with
  | 0 => false
  | 1 => c == core
  | 2 => clusterOf c == clusterOf core
  | 3 => dieOf c == dieOf core
  | _ => true

/-- The cores that the L2 of a die records for a physical line and whose L1 holds it recorded at CR or CO (15 R296, 16 R314). -/
def State.holders (s : State) (d line : Nat) : List Nat :=
  (((s.die d).linesAt line).foldl (fun l x => x.cores.foldl insertNat l) []).filter fun c =>
    (s.core c).l1.any fun l => l.line == line && l.state != .clean

/-- Remote-scope promotion (15 R296): every other core in the scope that holds the line of the acquired location recorded at
CR or CO performs its writes at PK, and the line leaves its L1. The slices' core vectors say which cores to ask (16 R314). -/
def State.promote (s : State) (core pa : Nat) (sc : Scope) : State :=
  let ask := ((List.range 8).flatMap fun d => s.holders d (pa / 128)).filter fun c => c != core && inScope core sc c
  ask.foldl (fun s c =>
    let s := s.release c .pk
    ((s.core c).l1.filter fun l => l.line == pa / 128).foldl (fun s l => s.l1Drop c l.key l.line) s) s

/-- An acquire by a thread of a core at a scope (16 R312): at CL and wider every clean line leaves the L1, and the bytes of a
dirty line that are not dirty. What cores in the scope owe a release at PK, the core owes too (15 R290; log 67). -/
def State.acquire (s : State) (core : Nat) (sc : Scope) : State :=
  if 2 ≤ scopeRank sc then
    let s := (s.core core).l1.foldl (fun s l => s.noteLoss core l) s
    let s := s.modCore core fun c => { c with l1 := (c.l1.filter fun l => l.state != .clean).map fun l =>
      { l with bytes := l.bytes.filter fun e => l.dirty.contains e.1 } }
    let owe (l : L2Line) : L2Line := if l.owed.any (inScope core sc) then { l with owed := insertNat l.owed core } else l
    s.modDie (dieOf core) fun d => { d with l2 := d.l2.map owe }
  else s

/-- What a command's start makes visible on a core (15 R300): of the copies in its L1, and of host memory in the L2 of its die, the
bytes that are no longer those of memory go, and the others stay (19 R351). -/
def State.freshen (s : State) (core : Nat) : State :=
  let d := dieOf core
  let s := s.modDie d fun x => { x with l2 := x.l2.map fun l =>
    if l.key == hostTag then { l with bytes := l.bytes.filter fun e => l.dirty.contains e.1 || e.2 == s.physByte e.1 } else l }
  let s := (s.core core).l1.foldl (fun s l => s.noteLoss core l) s
  s.modCore core fun c => { c with l1 := c.l1.map fun l =>
    { l with bytes := l.bytes.filter fun e => l.dirty.contains e.1 || e.2 == s.byteBelow d l.key e.1 } }

/-- The scope at which an access is performed: one of a slice line passes no L1 (16 R309). -/
def levelOf (pa : Nat) (sc : Scope) : Nat := if sliceBase ≤ pa then max 2 (scopeRank sc) else scopeRank sc

/-- A read of global memory performed at a scope; a plain access is performed as at CR (16 R311). -/
def State.globalRead (s : State) (core key pa n : Nat) (sc : Scope) : State × Except Why (List Byte) :=
  match s.keyBlocked key with
  | some w => (s, .error w)
  | none =>
    match levelOf pa sc with
    | 0 | 1 => s.l1Read core key pa n
    | 2 | 3 => s.l2Read core key pa n
    | _ => s.homeLoad core key pa n

/-- A write of global memory performed at a scope. -/
def State.globalWrite (s : State) (core key pa : Nat) (bytes : List Byte) (sc : Scope) : State × Option Why :=
  match s.keyBlocked key with
  | some w => (s, some w)
  | none =>
    if s.pageRetired pa then (s, some .poisoned)
    else match levelOf pa sc with
    | 0 => (s.l1Write core key pa bytes false, none)
    | 1 => (s.l1Write core key pa bytes true, none)
    | 2 | 3 => (s.l2Write core key pa bytes, none)
    | _ => s.homeStore core key pa bytes

end Sys2Proof.Machine
end

