-- ==== Sys2Proof/Machine/Xlate.lean ====
section
/-! DEFINITION. Generic addresses (01 R24, R25) and the translation of global addresses (20 R368-R372). -/

namespace Sys2Proof.Machine

/-! ## Translation -/

/-- A page-table entry is read at SY through the host port, or at PK at the home tower under key 0 (20 R370). -/
def State.readPte (s : State) (pa : Nat) : State × Option Nat :=
  match s.homeRead 0 (pa / 8 * 8) 8 with
  | (s, .ok bs) => (s, some (leNat bs))
  | (s, .error _) => (s, none)

/-- The result of a walk: a leaf, or the reason it fails. -/
abbrev Leaf := Except Why TlbEntry

/-- A leaf PTE at a level serves an access (20 R369). -/
def leafOf (key root va pte lvl : Nat) : Leaf :=
  let bits := 12 + 9 * lvl
  let ppn := bitsN pte 53 10
  if ppn % 2 ^ (9 * lvl) ≠ 0 then .error .walkError
  else if pte.testBit 4 = false then .error .pagePermission
  else if pte.testBit 6 = false then .error .pageAbsent
  else .ok { key := key, root := root, va := va / 2 ^ bits * 2 ^ bits, bits := bits, pa := ppn * 4096,
             r := pte.testBit 1, w := pte.testBit 2, x := pte.testBit 3, d := pte.testBit 7 }

/-- The walk of Sv57 from a table at a level down (20 R369); the levels are the fuel. -/
def State.walk (s : State) (key root va : Nat) : Nat → Nat → State × Leaf
  | lvl, table =>
    match s.readPte (table * 4096 + 8 * (va / 2 ^ (12 + 9 * lvl) % 512)) with
    | (s, none) => (s, .error .walkError)
    | (s, some pte) =>
      if pte.testBit 0 = false then (s, .error .pageAbsent)
      else if pte / 2 ^ 54 ≠ 0 ∨ (pte.testBit 2 ∧ ¬ pte.testBit 1) then (s, .error .walkError)
      else if pte.testBit 1 ∨ pte.testBit 3 then (s, leafOf key root va pte lvl)
      else if pte.testBit 7 ∨ pte.testBit 6 ∨ pte.testBit 4 then (s, .error .walkError)
      else match lvl with
        | 0 => (s, .error .walkError)
        | l + 1 => State.walk s key root va l (bitsN pte 53 10)

/-- A leaf allows an access of a kind (20 R369). -/
def TlbEntry.allows (e : TlbEntry) : Kind → Bool
  | .load => e.r
  | .fetch => e.x
  | .store | .atomic => e.w && e.d

/-- The entry of a TLB that translates an address (20 R370). -/
def tlbFind (l : List TlbEntry) (key root va : Nat) : Option TlbEntry :=
  l.find? fun e => e.key == key && e.root == root && e.va == va / 2 ^ e.bits * 2 ^ e.bits

/-- Puts an entry at the head of a TLB of a capacity. -/
def tlbPut (l : List TlbEntry) (e : TlbEntry) (cap : Nat) : List TlbEntry :=
  (e :: l.filter fun x => !(x.key == e.key && x.root == e.root && x.va == e.va && x.bits == e.bits)).take cap

/-- CTXROOT of a key (20 R375). -/
def State.root (s : State) (key : Nat) : DWord := Table.getD s.xl.roots key 0

/-- Walks for an access and keeps a valid leaf in both TLBs. -/
def State.walkFor (s : State) (core key va : Nat) (k : Kind) : State × Except Why Nat :=
  let root := (s.root key).toNat
  if root / 2 ^ 60 ≠ 10 then (s, .error .walkError)
  else
    match s.walk key root va 4 (root % 2 ^ 44) with
    | (s, .error w) => (s, .error w)
    | (s, .ok e) =>
      if e.allows k then
        let s := s.modCore core fun c => { c with tlb := tlbPut c.tlb e 512 }
        let s := s.modDie (dieOf core) fun d => { d with tlb := tlbPut d.tlb e 16384 }
        (s, .ok (e.pa + va % 2 ^ e.bits))
      else (s, .error .pagePermission)

/-- Translates a canonical global address for an access from a core under a key (20 R368-R370): the core's TLB, then the
die's, then the walk; an entry that does not allow the access is walked anew. -/
def State.translate (s : State) (core key va : Nat) (k : Kind) : State × Except Why Nat :=
  let root := (s.root key).toNat
  let va := va % 2 ^ 57
  match tlbFind (s.core core).tlb key root va with
  | some e => if e.allows k then (s, .ok (e.pa + va % 2 ^ e.bits)) else s.walkFor core key va k
  | none =>
    match tlbFind (s.die (dieOf core)).tlb key root va with
    | some e =>
      if e.allows k then
        (s.modCore core fun c => { c with tlb := tlbPut c.tlb e 512 }, .ok (e.pa + va % 2 ^ e.bits))
      else s.walkFor core key va k
    | none => s.walkFor core key va k

/-! ## Generic addresses -/

/-- Where a generic address leads once the checks of R25 that need no translation have passed. -/
inductive Place where
  | here (store : Store) (off : Nat)
  | global (va : Nat)
  deriving DecidableEq, Repr

/-- The window of a 0xD address (01 R24), or none for a global address. -/
def windowOf (a : DWord) : Option Nat :=
  if a.toNat / 2 ^ 60 = 0xD then some (a.toNat / 2 ^ 56 % 16) else none

/-- A global address is canonical (01 R25). -/
def canonical (a : DWord) : Bool := bitsN a.toNat 63 56 == 0 || bitsN a.toNat 63 56 == 0xFF

/-- Bytes of a context's allocation on a die (16 R310). -/
def State.dieBytes (s : State) (key die : Nat) : Nat :=
  2 ^ 20 * (Table.getD (s.die die).scratch key ⟨[], [], []⟩).units.length

/-- The thread whose lane slice a thread names: a continuation names its owner's. -/
def State.ownerOf (s : State) (t : Nat) : Nat :=
  match (s.thread t).cont with
  | some c => c.owner
  | none => t

/-- The local window an address names for a thread: its store, offset and bound (01 R24), or the failing check. -/
def State.window (s : State) (t core : Nat) (a : DWord) (w : Nat) : Except Why (Store × Nat × Nat) :=
  let off := a.toNat % 2 ^ 56
  let g := s.gridOf t
  let c := s.crewOf t
  match w with
  | 0 => .ok (.slice (s.ownerOf t), off, g.lr.slice)
  | 1 => .ok (.scratch c.team core, off, g.lr.scratch * 8192)
  | 2 =>
    let n := off / 2 ^ 20 % 16
    let target := clusterOf core * 8 + n
    if off / 2 ^ 24 ≠ 0 ∨ 8 ≤ n ∨ ¬ (s.team c.team).cores.contains target then .error .windowBound
    else .ok (.scratch c.team target, off % 2 ^ 20, g.lr.scratch * 8192)
  | 3 => .ok (.dieScratch g.key (dieOf core), off, s.dieBytes g.key (dieOf core))
  | 4 => .ok (.counters (s.team c.team).grid, off, 8 * g.lr.counters)
  | _ => .error .reservedWindow

/-- Checks 1 to 4 of R25 on a range of bytes (01): window, bound, canonical form, alignment; then that the range ends where its
first byte's checks would pass too (log 72). -/
def State.place (s : State) (t core : Nat) (a : DWord) (size align : Nat) : Except Why Place :=
  match windowOf a with
  | some w =>
    match s.window t core a w with
    | .error e => .error e
    | .ok (st, off, bound) =>
      if bound ≤ off then .error .windowBound
      else if a.toNat % align ≠ 0 then .error .misaligned
      else if bound < off + size then .error .windowBound
      else .ok (.here st off)
  | none =>
    if canonical a = false then .error .nonCanonical
    else if a.toNat % align ≠ 0 then .error .misaligned
    else if canonical (a + BitVec.ofNat 64 (size - 1)) = false then .error .nonCanonical
    else .ok (.global a.toNat)

/-! ## Local stores -/

/-- The memory behind a local store; that of a lane slice is the slice region of main memory (16 R309). -/
def State.localMem (s : State) : Store → Memory
  | .slice _ => []
  | .scratch tm c => ((s.team tm).part c).scratch
  | .dieScratch k d => (Table.getD (s.die d).scratch k ⟨[], [], []⟩).mem
  | .counters _ => []
  | .phys => []

/-- Changes the memory behind a local store. -/
def State.setLocalMem (s : State) (st : Store) (m : Memory) : State :=
  match st with
  | .slice _ => s
  | .scratch tm c => s.modPart tm c fun p => { p with scratch := m }
  | .dieScratch k d => s.modDie d fun x => { x with scratch := Table.modify x.scratch k fun a => { a with mem := m } }
  | .counters _ => s
  | .phys => s

/-- Where the bytes of a store lie: those of a lane slice in the slice region (16 R309). -/
def State.storeAt (s : State) (st : Store) (off : Nat) : Store × Nat :=
  match st with
  | .slice t => (.phys, s.sliceAt t off)
  | st => (st, off)

/-- Bytes of a local store. -/
def State.localRead (s : State) (st : Store) (off n : Nat) : List Byte := (s.localMem st).readAll off n

/-- Writes bytes of a local store. -/
def State.localWrite (s : State) (st : Store) (off : Nat) (bytes : List Byte) : State :=
  s.setLocalMem st ((s.localMem st).writeAll off bytes)

/-- The full granules of a local store (01 R26). -/
def State.fullSet (s : State) : Store → List Nat
  | .scratch tm c => ((s.team tm).part c).full
  | .dieScratch k d => (Table.getD (s.die d).scratch k ⟨[], [], []⟩).full
  | _ => []

/-- Changes the full-empty bit of a granule (01 R26). -/
def State.setFull (s : State) (st : Store) (g : Nat) (full : Bool) : State :=
  let f (l : List Nat) : List Nat := if full then insertNat l g else l.filter (· != g)
  match st with
  | .scratch tm c => s.modPart tm c fun p => { p with full := f p.full }
  | .dieScratch k d => s.modDie d fun x =>
      { x with scratch := Table.modify x.scratch k fun a => { a with full := f a.full } }
  | _ => s

/-- The bytes of a local range overlap a locked range, or a global one does (05 R123, 10 R206): the locks of every core. -/
def State.lockedAt (s : State) (st : Store) (off n : Nat) : Bool :=
  s.cores.any fun e => e.2.locks.any fun l =>
    l.store == st && l.spans.any fun p => decide (p.1 < off + n) && decide (off < p.1 + p.2)

end Sys2Proof.Machine
end

