-- ==== Sys2Proof/Machine/Ops.lean ====
section
/-! DEFINITION. The shared operations: device accesses to memory, fault records and their delivery, squashing forks, taking
an exception and returning from one (14 R267-R269), the advance of a thread past a word, register writes with their shape
tags (01 R18), and the run of a word over the lanes of its bundle. -/

namespace Sys2Proof.Machine

/-! ## Accesses of the device itself -/

/-- Translates an address for a device agent that is no core thread: the walk, with no TLB. -/
def State.deviceTranslate (s : State) (key va : Nat) (k : Kind) : State × Except Why Nat :=
  let root := (s.root key).toNat
  if canonical (BitVec.ofNat 64 va) = false then (s, .error .nonCanonical)
  else if root / 2 ^ 60 ≠ 10 then (s, .error .walkError)
  else
    match s.walk key root (va % 2 ^ 57) 4 (root % 2 ^ 44) with
    | (s, .error w) => (s, .error w)
    | (s, .ok e) => if e.allows k then (s, .ok (e.pa + va % 2 ^ 57 % 2 ^ e.bits)) else (s, .error .pagePermission)

/-- Writes bytes at SY on behalf of an agent that is no core thread: every L2 loses the line first (16 R315), tracked lines
conflict (06 R148). The bytes lie in one sealing unit. -/
def State.agentWrite (s : State) (key pa : Nat) (bytes : List Byte) : State × Option Why :=
  match s.keyBlocked key with
  | some w => (s, some w)
  | none =>
    let s := s.dropEverywhere (pa / 128)
    match s.homeWrite key pa bytes true with
    | (s, some w) => (s, some w)
    | (s, none) => (s.noteWrites none .phys pa bytes.length, none)

/-- Reads bytes of one sealing unit on behalf of an agent that is no core thread. -/
def State.agentRead (s : State) (key pa n : Nat) : State × Except Why (List Byte) :=
  match s.keyBlocked key with
  | some w => (s, .error w)
  | none => s.homeRead key pa n

/-- Reads `n` bytes at a global address for the device, unit by unit; `fuel` bounds the units. -/
def State.deviceRead (s : State) (key va : Nat) : Nat → Nat → State × Except Why (List Byte)
  | 0, _ => (s, .ok [])
  | fuel + 1, n =>
    if n = 0 then (s, .ok [])
    else
      let m := min n (64 - va % 64)
      match s.deviceTranslate key va .load with
      | (s, .error w) => (s, .error w)
      | (s, .ok pa) =>
        match s.agentRead key pa m with
        | (s, .error w) => (s, .error w)
        | (s, .ok bs) =>
          match State.deviceRead s key (va + m) fuel (n - m) with
          | (s, .error w) => (s, .error w)
          | (s, .ok r) => (s, .ok (bs ++ r))

/-- Writes bytes at a global address for the device: they lie in one unit. -/
def State.deviceWrite (s : State) (key va : Nat) (bytes : List Byte) : State × Option Why :=
  match s.deviceTranslate key va .store with
  | (s, .error w) => (s, some w)
  | (s, .ok pa) => s.agentWrite key pa bytes

/-! ## Delivery of fault records (20 R354-R357) -/

/-- Appends bytes to the fault log of a context, or counts them lost (20 R356). -/
def State.appendOwner (s : State) (key : Nat) (bytes : List Byte) : State :=
  match s.ctx? key with
  | none => s
  | some c =>
    if c.flog.room = false then s.modCtx key fun c => { c with flog := c.flog.dropped }
    else
      match s.deviceWrite key (c.flog.slot 64) bytes with
      | (s, some _) => s.modCtx key fun c => { c with flog := c.flog.dropped }
      | (s, none) => s.modCtx key fun c => { c with flog := c.flog.appended }

/-- Events a context's sheet keeps: the bit of CSCTL of a record type (25 R426, R427). -/
def traceBit : Nat → Nat
  | 0 => 0
  | 1 | 2 => 1
  | 3 => 2
  | 4 => 3
  | _ => 4

/-- The context a die records for: the one CSASSIGN names with V = 1 (25 R426). -/
def Die.assign (d : Die) : Option Nat := if d.csassign.getLsbD 31 then some (d.csassign.toNat % 2048) else none

/-- A trace record enters a die's buffer of 4 MiB, or is dropped and counted (25 R426-R428). -/
def State.trace (s : State) (die type key engine queue seq info : Nat) (value : DWord) : State :=
  match s.ctx? key with
  | none => s
  | some c =>
    if (s.die die).assign ≠ some key ∨ c.csctl.getLsbD (traceBit type) = false then s
    else if 2 ^ 17 ≤ (s.die die).sheet.length then
      s.modCtx key fun c => { c with cslog := c.cslog.dropped }
    else s.modDie die fun d =>
      { d with sheet := d.sheet ++ [⟨type, die, engine, queue, seq, info, s.cycle, value⟩] }

/-- The record of a fault of a thread, without its cause and flags (14 R282). -/
def State.recordOf (s : State) (t : Nat) : FaultRec :=
  let th := s.thread t
  let c := s.crewOf t
  let g := s.gridOf t
  { FaultRec.event g.key false false with
    seat := g.seat.code, queue := g.queue, engine := c.core, seq := g.seq, core := c.core, part := c.part, slot := c.slot,
    lane := th.lane, grid := g.id, team := (s.teamOf t).index, thread := th.index, retired := th.retired }

/-- Delivers a thread's record: its owner view to its own seat's log, its operator view to the operator's log, and it stays
the thread's last record (14 R283, 20 R354). -/
def State.deliver (s : State) (t : Nat) (r : FaultRec) : State :=
  let g := s.gridOf t
  let s := match g.seat with
    | .owner => s.appendOwner g.key (r.bytes true)
    | .operator => s.appendOp (r.bytes true)
    | .auditor => s
  let s := s.appendOp (r.bytes false)
  let s := s.trace (dieOf r.core) 3 g.key r.core g.queue g.seq r.cause r.pc
  s.modThread t fun th => { th with lastRec := some r }

/-- A record of an access of the fixer, both views to the operator's log (17 R323, R324). -/
def State.fixerRecord (s : State) (cause key queue seq : Nat) (val : DWord) : State :=
  let r := { FaultRec.event key false false with cause := cause, queue := queue, engine := fixerEngine, seq := seq, val := val }
  (s.appendOp (r.bytes true)).appendOp (r.bytes false)

/-! ## Forks: squash (06 R150) -/

/-- Which counter a squash raises (06 R150). -/
inductive SquashWhy where
  | pred | memory | other
  deriving DecidableEq, Repr

def ForkRegs.count (f : ForkRegs) : SquashWhy → ForkRegs
  | .pred => { f with sqpred := f.sqpred + 1 }
  | .memory => { f with sqmem := f.sqmem + 1 }
  | .other => { f with sqother := f.sqother + 1 }

/-- Charges an issue slot to a context: class `i` of the tree, 2 retired, 3 squashed, 5 to 10 not issued (25 R429-R431). -/
def State.chargeSlot (s : State) (key i : Nat) : State :=
  let s := (s.count key 1 1).count key i 1
  if 5 ≤ i then s.count key 4 1 else s

/-- The fork of a continuation has closed: the slots that held only continuations are charged once all their forks have
(25 R430). -/
def State.closeSlots (s : State) (c : Nat) (committed : Bool) : State :=
  let upd := s.eng.slots.map fun e =>
    if e.2.1.contains c then (e.1, e.2.1.filter (· != c), e.2.2 || committed) else e
  let done := upd.filter fun e => e.2.1.isEmpty
  let s := s.modEng fun x => { x with slots := upd.filter fun e => !e.2.1.isEmpty }
  done.foldl (fun s e => s.chargeSlot e.1 (if e.2.2 then 2 else 3)) s

/-- Discards the continuation of the innermost fork of a thread. -/
def State.squashInner (s : State) (t : Nat) (why : SquashWhy) : State :=
  match (s.thread t).fork.recs with
  | [] => s
  | f :: r =>
    let s := { s with threads := Table.erase s.threads f.cont }.closeSlots f.cont false
    s.modThread t fun th => { th with fork := ({ th.fork with recs := r, fdepth := th.fork.fdepth - 1 }).count why }

/-- Discards every open fork of a thread (06 R158). -/
def State.squashAll (s : State) (t : Nat) : State :=
  let n := (s.thread t).fork.recs.length
  (List.range n).foldl (fun s _ => s.squashInner t .other) s

/-- The continuations of the forks of a thread that opened after the one a slot runs read one open fork less. -/
def State.lowerInner (s : State) (c : Nat) (recs : List Fork) : State :=
  (recs.takeWhile fun f => f.cont != c).foldl (fun s f =>
    s.modThread f.cont fun th => { th with fork := { th.fork with fdepth := th.fork.fdepth - 1 } }) s

/-- Discards the fork whose continuation a thread slot runs (06 R157, R142). -/
def State.squashCont (s : State) (c : Nat) (why : SquashWhy) : State :=
  match (s.thread c).cont with
  | none => s
  | some k =>
    let s := s.lowerInner c (s.thread k.owner).fork.recs
    let s := { s with threads := Table.erase s.threads c }.closeSlots c false
    s.modThread k.owner fun th =>
      { th with fork := ({ th.fork with recs := th.fork.recs.filter (fun f => f.cont != c),
                                        fdepth := th.fork.fdepth - 1 }).count why }

/-! ## Halts (20 R358) -/

/-- The grids that descend from a grid, itself included; the number of grids bounds the depth. -/
def State.descendants (s : State) (g : Nat) : Nat → List Nat
  | 0 => [g]
  | n + 1 =>
    let ds := State.descendants s g n
    s.grids.foldl (fun acc e => match e.2.parent with
      | some (_, p) => if acc.contains p && !acc.contains e.1 then acc ++ [e.1] else acc
      | none => acc) ds

/-- The ancestors of a grid, itself included. -/
def State.ancestors (s : State) (g : Nat) : Nat → List Nat
  | 0 => [g]
  | n + 1 => match (s.grid g).parent with
    | some (_, p) => g :: State.ancestors s p n
    | none => [g]

/-- The threads of a grid that are live. -/
def State.gridThreads (s : State) (g : Nat) : List Nat :=
  (s.teams.filter fun e => e.2.grid == g).flatMap fun e => s.teamLive e.1

/-! ## A stop (20 R360) -/

/-- The crews of a grid. -/
def State.gridCrews (s : State) (h : Nat) : List Nat := s.crews.keysWhere fun _ c => (s.team c.team).grid == h

/-- Stream length and number of sectors. -/
def CopyOp.len (o : CopyOp) : Nat := o.width * o.rows
def CopyOp.sectors (o : CopyOp) : Nat := (o.len + 511) / 512

/-- An identifier that no page-fault record has: of the pending fault of a copy that was stopped (20 R364, R376), and of a packet that
waits for something else. -/
def noPage : Nat := 2 ^ 32

/-- Something waits on a page-fault record. -/
def State.pageUsed (s : State) (id : Nat) : Bool :=
  (s.threads.any fun e => match e.2.wait with
    | .page p _ _ _ _ _ _ => p == id
    | _ => false) ||
  (s.eng.copies.any fun e => (e.2.pending.map Prod.fst) == some id) ||
  (s.eng.xfers.any fun e => (e.2.pending.map Prod.fst) == some id) || (s.eng.heldPkts.any fun h => h.id == id) ||
  s.eng.recvs.any fun r => (r.wait.map Prod.fst) == some id

/-- Page-fault records on which nothing waits are withdrawn (20 R374). -/
def State.withdraw (s : State) : State := { s with xl := { s.xl with pages := s.xl.pages.filter fun e => s.pageUsed e.1 } }

/-- A thread that is saved stands at its word: one stalled on a page-fault record issues its lane again (20 R360). -/
def Thread.stand (th : Thread) : Thread :=
  let th := { th with pass := false }
  match th.wait with
  | .page _ _ _ (some i) after one v => { th with wait := .word i after one v }
  | .page _ _ _ none _ _ _ => { th with wait := .ready }
  | _ => th

/-- A copy that is stopped keeps its pending fault, which a restore posts again (20 R364, R376). -/
def CopyOp.stop (o : CopyOp) : CopyOp := { o with pending := o.pending.map fun p => (noPage, p.2) }

/-- A copy as it is saved: it resumes at the lowest sector not completed (20 R376). -/
def CopyOp.saved (o : CopyOp) : CopyOp :=
  let n := ((List.range o.sectors).find? fun k => !(decide (k < o.resume) || o.done.contains k)).getD o.sectors
  { o.stop with resume := n, done := [], started := n, stalled := [] }

/-- Every sector of a copy that has started has completed or failed, but for those that stall on a page fault (13 R257, 20 R376). -/
def CopyOp.settled (o : CopyOp) : Bool :=
  let n := match o.failed with
    | some (f, _) => min f o.started
    | none => o.started
  (List.range n).all fun k => decide (k < o.resume) || o.done.contains k || o.stalled.contains k

/-- Threads no longer stall at accesses of the outstanding-transaction table (05 R133). -/
def State.unstall (s : State) (ts : List Nat) : State :=
  s.modEng fun e => { e with txns := e.txns.map fun x => (x.1, { x.2 with stalls := x.2.stalls.filter fun q => !ts.contains q }) }

/-- The threads and copies of crews stop (20 R360). -/
def State.stopCrews (s : State) (cs : List Nat) : State :=
  let ts := s.threads.keysWhere fun _ th => cs.contains th.crew && !th.isCont
  let s := ts.foldl State.squashAll s
  let s := (ts.foldl (fun s t => s.modThread t Thread.stand) s).unstall ts
  let s := cs.foldl (fun s c => s.modCrew c fun x => { x with arrival := none, held := none, stepping := false }) s
  let s := s.modEng fun e =>
    { e with copies := e.copies.map fun x => if cs.contains x.2.crew then (x.1, x.2.stop) else x
             woken := e.woken.filter fun w => !ts.contains w.1 }
  s.withdraw

/-- A grid halts, with every descendant: each stops as for pre-emption, and is held for HALTHOLD units of 1,024 cycles (20 R358). -/
def State.haltGrid (s : State) (g : Nat) : State :=
  let ds := s.descendants g s.grids.length
  let till := match s.ctx? (s.grid g).key with
    | some c => s.cycle + c.halthold.toNat * 1024
    | none => s.cycle
  let s := ds.foldl (fun s d =>
    match (s.grid d).status with
    | .live => (s.modGrid d fun x => { x with status := .halted till }).stopCrews (s.gridCrews d)
    | _ => s) s
  (s.ancestors g s.grids.length).foldl (fun s d => s.modGrid d fun x => { x with haltSeen := true }) s

/-! ## Waits of the two words of a pair (02 R44, R45) -/

/-- A wait at a word that has yet to act or to be examined again, and not one that another event ends. -/
def Wait.active : Wait → Bool
  | .ready | .bar _ | .cwait => false
  | _ => true

/-- A thread waits at a word of address `pc`, which its guard `g` covers; where the other word of its pair waits too, both waits are
kept, the active one first. -/
def Thread.addWait (th : Thread) (w : Wait) (pc : DWord) (g : Guard) : Thread :=
  match th.wait with
  | .ready => if w.active then { th with wait := w, pc := pc, guard := g } else { th with wait := w }
  | old => if old.active then { th with wait2 := some (w, pc, g) }
           else { th with wait := w, pc := pc, guard := g, wait2 := some (old, th.pc, th.guard) }

/-- A wait of a thread is over: the wait of the other word of its pair follows. -/
def Thread.release (th : Thread) : Thread :=
  match th.wait2 with
  | none => { th with wait := .ready }
  | some (w, pc, g) =>
    if w.active then { th with wait := w, wait2 := none, pc := pc, guard := g } else { th with wait := w, wait2 := none }

/-- A wait that another event ends is over, whichever word of the pair it is. -/
def Thread.endWait (th : Thread) (w : Wait) : Thread :=
  if th.wait = w then th.release
  else match th.wait2 with
    | some (x, _) => if x = w then { th with wait2 := none } else th
    | none => th

/-- A thread waits in a place that another event ends. -/
def Thread.waitsIn (th : Thread) (w : Wait) : Bool := th.wait == w || (th.wait2.map Prod.fst) == some w

/-- The wait left to a thread that takes a trap: one that another event ends; a word that has yet to act issues again with the
pair. -/
def Thread.trapWait (th : Thread) : Wait :=
  match th.wait2 with
  | some (w, _) => if w.active then .ready else w
  | none => if th.wait.active then .ready else th.wait

/-- The other word of the thread's pair has yet to act. -/
def Thread.halfDone (th : Thread) : Bool := (th.wait2.map fun w => w.1.active) == some true

/-! ## Taking an exception and returning from one (14 R267-R269) -/

/-- A fault of a thread enters the trap: the record is written, and the thread goes to its handler, or halts with its grid.
`recPc` and `resume` are those of the table of R268. -/
def State.trap (s : State) (t cause : Nat) (val recPc resume : DWord) (one deferred : Bool) : State :=
  let th := s.thread t
  let one := one && !th.halfDone
  let handled := th.trap.tvec != 0 && !th.trap.inh
  let r := { s.recordOf t with cause := cause, handled := handled, halted := !handled, deferred := deferred,
                               pc := recPc, val := val }
  let s := s.deliver t r
  if handled then
    s.modThread t fun th =>
      { th with pc := th.trap.tvec, guard := Guard.none, wait := th.trapWait, wait2 := none
                trap := { th.trap with tepc := resume, tcause := BitVec.ofNat 32 (cause + (if deferred then 512 else 0)),
                                       tval := val, tguard := th.guard, inh := true, one := one,
                                       bps := cause == Cause.breakpoint } }
  else
    let s := s.modThread t fun th => { th with halted := true, wait := .ready, wait2 := none, pc := resume }
    s.haltGrid (s.teamOf t).grid

/-- The next issue takes the word without its chained partner: the thread left its handler with ONE set, or stands at a word
whose partner has retired. -/
def Thread.unchained (th : Thread) : Bool := th.alone || (th.trap.one && !th.trap.inh)

/-- The next issue tests no comparator: the thread left its handler with BPS set, or a debugger has released it (14 R269, 25 R422). -/
def Thread.passes (th : Thread) : Bool := th.pass || (th.trap.bps && !th.trap.inh)

/-- The thread issues: outside its handler ONE and BPS clear (14 R269). -/
def Thread.resumed (th : Thread) : Thread :=
  let th := { th with alone := false, pass := false }
  if th.trap.inh then th else { th with trap := { th.trap with one := false, bps := false } }

/-- The return from a trap (14 R269), in a thread whose INH is set. -/
def Thread.trapReturn (th : Thread) : Thread :=
  { th with pc := th.trap.tepc, guard := th.trap.tguard, trap := { th.trap with inh := false } }

/-! ## Page-fault records (20 R371, R375) -/

/-- The 32 bytes of a page-fault record. -/
def PageRec.bytes (id : Nat) (r : PageRec) : List Byte :=
  leBytes 2 r.key ++ leBytes 1 (r.kind + (if r.engine then 4 else 0)) ++ leBytes 1 r.reason ++ leBytes 4 id
    ++ leBytes 8 (r.page * 4096) ++ leBytes 2 r.queue ++ leBytes 2 r.engId ++ leBytes 4 0 ++ leBytes 8 r.seq

/-- One attempt to append a pending record to the ring; a record that is not appended is counted and tried again 1,024 cycles
later (20 R375). -/
def State.tryPost (s : State) (id : Nat) (r : PageRec) : State :=
  let l := s.xl.pfr
  let ok := l.room && !(s.hostBlocked (l.slot 32))
  let s := if ok then ((s.needHome (l.slot 32)).setPhys (l.slot 32) (r.bytes id)).noteWrites none .phys (l.slot 32) 32 else s
  let r' := if ok then { r with posted := true } else { r with posted := false, lostAt := s.cycle }
  { s with xl := { s.xl with pfr := if ok then l.appended else l.dropped, pages := Table.set s.xl.pages id r' } }

/-- A replayable fault posts a record, or joins the pending one of the same key, page and reason; none where PFBOUND is 0 and
the fault is final at once (20 R372). `started` is the cycle of the access's first record. -/
def State.postPage (s : State) (key page reason kind : Nat) (engine : Bool) (queue engId seq started : Nat) :
    State × Option Nat :=
  if s.xl.pfbound = 0 then (s, none)
  else
    match List.find? (fun e => e.2.key == key && e.2.page == page && e.2.reason == reason) s.xl.pages with
    | some e => (s, some e.1)
    | none =>
      let id := s.xl.nextPf
      let s := { s with xl := { s.xl with nextPf := (id + 1) % 2 ^ 32 } }
      (s.tryPost id ⟨key, page, reason, kind, engine, queue, engId, seq, started, false, s.cycle, []⟩, some id)

/-- The cycle of the first record of what waits on a record. -/
def PageRec.startOf (r : PageRec) (x : PageItem) : Nat := ((r.own.find? fun e => e.1 == x).map Prod.snd).getD r.started

/-- An item that comes to a record from an earlier one keeps the start of its bound (20 R372). -/
def State.keepStart (s : State) (id : Nat) (x : PageItem) (start : Nat) : State :=
  let keep (e : Nat × PageRec) : Nat × PageRec :=
    if e.1 = id ∧ e.2.started ≠ start then (e.1, { e.2 with own := e.2.own ++ [(x, start)] }) else e
  { s with xl := { s.xl with pages := s.xl.pages.map keep } }

/-! ## Past a word -/

/-- The guard after it has covered a number of words (02 R48). -/
def Guard.step (g : Guard) (n : Nat) : Guard :=
  if g.active then
    if g.index + n < g.count then { g with index := g.index + n } else Guard.none
  else g

/-- The other word of the pair in issue waits in the thread. -/
def State.pairWaits (s : State) (t : Nat) : Bool := (s.m.cur.first || s.m.cur.second) && (s.thread t).wait.active

/-- A word counts as retired in a thread, and in its context where the thread sits in the owner seat (01 R30, 21 R377). A
continuation's count is kept apart (06 R146). -/
def State.retire (s : State) (t : Nat) : State :=
  let s' := s.modThread t fun th => { th with retired := th.retired + 1 }
  let g := s.gridOf t
  if (s.thread t).isCont || g.seat != .owner then s' else s'.count g.key 0 1

/-- A thread as it stood before the pair in issue. -/
def Cur.before (c : Cur) (t : Nat) : Option Thread :=
  if c.first || c.second then ((c.snap.find? fun e => e.1 == t).map fun e => e.2) else Option.none

/-- The guard as it covers the word in issue in a thread (02 R51): that of the thread before its pair, one word on for the second. -/
def State.wordGuard (s : State) (t : Nat) : Guard :=
  match s.m.cur.before t with
  | some th => if s.m.cur.second then th.guard.step 1 else th.guard
  | none => (s.thread t).guard

/-- The guard after the word in issue. The first word of a pair that acts last finds it used up by both; a first word that issues, or
is examined, without its partner takes it past both words. -/
def Cur.used (c : Cur) (t : Nat) (g : Guard) : Guard :=
  if c.rev && c.first then g else if c.first && (c.again || (c.before t).isNone) then g.step 2 else g.step 1

/-- The thread has taken a trap in the pair in issue: the trap's transfer stands. -/
def State.pairTrapped (s : State) (t : Nat) : Bool :=
  let th := s.thread t
  (s.m.cur.first || s.m.cur.second) && match s.m.cur.snap.find? fun e => e.1 == t with
    | some (_, o) => th.halted || (th.trap.inh && !o.trap.inh)
    | none => false

/-- A continuation that is frozen. -/
def Thread.frozen (th : Thread) : Bool := (th.cont.map Cont.frozen) == some true

/-- The thread has trapped, or its continuation has frozen, at the other word of the pair in issue: it stays where that has put it. -/
def State.pairStopped (s : State) (t : Nat) : Bool :=
  s.pairTrapped t || ((s.m.cur.first || s.m.cur.second) && (s.thread t).frozen)

/-- A thread goes on after the word in issue: the next word, the guard used up by one word, the word retired. The second word
of a pair leaves the PC to the first, and the guard too where the first waits. -/
def State.advance (s : State) (t : Nat) : State :=
  let cur := s.m.cur
  let stays := s.pairStopped t
  let keeps := stays || s.pairWaits t
  let s := s.modThread t fun th =>
    { th with pc := if cur.second || stays then th.pc else cur.after, guard := if keeps then th.guard else cur.used t th.guard
              trayFail := false }
  s.retire t

/-- A crew leaves its loop buffer when it transfers outside the span (05 R137). -/
def State.leaveLoop (s : State) (t : Nat) (target : DWord) : State :=
  match (s.crewOf t).loop with
  | none => s
  | some l =>
    if l.lo ≤ target.toNat ∧ target.toNat ≤ l.hi then s
    else s.modCrew (s.thread t).crew fun c => { c with loop := none }

/-- What follows a word at which a thread waits. -/
def Wait.goingTo (w : Wait) (target : DWord) : Wait :=
  match w with
  | .word i _ one v => .word i target one v
  | .page id c a i _ one v => .page id c a i target one v
  | w => w

/-- A thread takes a transfer: its guard ends (02 R49). Where the other word of its pair waits, the transfer follows; where it has
trapped or frozen, it stays there. -/
def State.jump (s : State) (t : Nat) (target : DWord) : State :=
  let s := s.leaveLoop t target
  if s.pairStopped t then s.retire t
  else if s.pairWaits t then
    (s.modThread t fun th => { th with wait := th.wait.goingTo target, guard := Guard.none }).retire t
  else (s.modThread t fun th => { th with pc := target, guard := Guard.none }).retire t

/-- The address of the first word of the pair in issue, or of the word. -/
def Cur.firstPc (c : Cur) : DWord := if c.second then c.pc - 4 else c.pc

/-- A continuation freezes at the word in issue (06 R146). Where both words of a pair freeze it, it stands at the first, and the pair
issues again. -/
def State.freeze (s : State) (t : Nat) (one : Bool) : State :=
  let twice := s.pairStopped t
  let g := s.wordGuard t
  let first := (s.m.cur.before t).map Thread.guard
  s.modThread t fun th =>
    { th with pc := if twice then s.m.cur.firstPc else s.m.cur.pc, alone := one && !twice
              guard := if twice then first.getD th.guard else g
              cont := th.cont.map fun c => { c with frozen := true } }

/-- The code a probe notes where a continuation would freeze: no cause. -/
def freezeCode : Nat := 0x200

/-- Added to the cause of a replayable translation fault found before a word issues: the thread stalls at the word. -/
def stallCode : Nat := 0x400

/-- Added to the cause of a replayable translation fault of a tray line: the thread stalls at the word, and a final fault fails
the word (10 R208, 20 R372). -/
def trayCode : Nat := 0x800

/-- The code of a tray line whose translation fault is final: the word issues and completes as failed. -/
def trayFailCode : Nat := 0x600

/-- The code of a word that waits before it issues: nothing happens, and it is chosen again. -/
def holdCode : Nat := 0x300

/-- A thread stalls before a word or a pair issues (20 R371), or the fault is final. A tray line is an item of the tile engine of its core
(25 R417). -/
def State.stallBefore (s : State) (t cause : Nat) (val pc : DWord) : State :=
  let g := s.gridOf t
  let reason := if cause % 16 = 4 then 4 else 5
  let core := (s.crewOf t).core
  let tray := decide (trayCode ≤ cause)
  match s.postPage g.accessKey (val.toNat % 2 ^ 57 / 4096) reason (cause / 16 % 4) tray g.queue
      (if tray then tileEngine core else core) g.seq s.cycle with
  | (s, some id) => s.modThread t fun th => { th with wait := .page id cause val none 0 false th.v, pc := pc }
  | (s, none) => s.trap t cause val pc pc false false

/-- VAL of a fault of an access: its address, but zero where the cause is of class 4 (14 R282). -/
def valOf (cause : Nat) (val : DWord) : DWord := if cause = Cause.quarantined ∨ cause = Cause.fogged then 0 else val

/-- A word of a pair has trapped after issue, and the other one faults, or does not come to its end, either: the fault taken stands, and
trap return re-issues the pair (02 R44, R45, 14 R268). -/
def State.bothFault (s : State) (t : Nat) : State :=
  let pc := s.m.cur.firstPc
  let g := (s.m.cur.before t).map Thread.guard
  s.modThread t fun th =>
    if th.halted then { th with pc := pc }
    else { th with trap := { th.trap with tepc := pc, one := false, tguard := g.getD th.trap.tguard } }

/-- A fault that arises after issue: the word only (02 R45). The word has issued, and it counts (21 R377, log 13). -/
def State.late (s : State) (t cause : Nat) (val : DWord) : State :=
  let cur := s.m.cur
  if (s.thread t).isCont then s.freeze t cur.first
  else
    let s := s.retire t
    if s.pairTrapped t then s.bothFault t
    else
      let g := s.wordGuard t
      (s.modThread t fun th => { th with guard := g }).trap t cause (valOf cause val) cur.pc cur.pc cur.first false

/-- A fault detected at or before issue (02 R45): no effect, the whole pair is cancelled. A word examined again has issued, and
faults alone. -/
def State.early (s : State) (t cause : Nat) (val : DWord) : State :=
  let cur := s.m.cur
  if cur.probe then s.modCur fun c => { c with early := c.early ++ [(t, cause, val)] }
  else if cause = holdCode then s
  else if cur.again then s.late t cause val
  else if (s.thread t).isCont then s.freeze t false
  else if trayCode ≤ cause then s.stallBefore t cause val cur.pc
  else if stallCode ≤ cause then s.stallBefore t (cause - stallCode) val cur.pc
  else s.trap t cause val cur.pc cur.pc false false

/-! ## Register writes with their shape tags (01 R18) -/

/-- The tag of a register of a crew after a write by lanes `w` (01 R18): `old` and the registers before the write, the
producer tag, the live lanes, and the values written. -/
def newTag (s0 s1 : State) (c : Nat) (w : List Nat) (r : Reg) (prod : Tag) : Tag :=
  let cr := s0.crew c
  let live := s0.liveOf c
  let rest := live.filter fun t => !w.contains t
  if rest.isEmpty then prod
  else
    match cr.tags[r.toNat]'r.isLt with
    | .u => if w.all fun t => rest.all fun q => (s1.thread t).rv r == (s0.thread q).rv r then .u else .g
    | .a b st => if w.all fun t => (s1.thread t).rv r == b + BitVec.ofNat 32 (s0.thread t).lane * st then .a b st else .g
    | .g => .g

/-- Sets the tags of the registers that lanes of a crew have written. -/
def State.retagCrew (s0 s1 : State) (ws : List LaneWrite) (c : Nat) (prod : Nat → Reg → Tag) : State :=
  let mine := ws.filter fun w => (s0.thread w.thread).crew == c && !(s0.thread w.thread).isCont
  let regs := (mine.flatMap fun w => w.regs.map Prod.fst).eraseDups.filter (· != 0)
  regs.foldl (fun s r =>
    let w := (mine.filter fun x => x.regs.any fun e => e.1 == r).map (·.thread)
    s.modCrew c fun cr => { cr with tags := cr.tags.set r.toNat (newTag s0 s1 c w r (prod c r)) r.isLt }) s1

/-- Writes registers of lanes, with the tags of each crew the write covers; `prod` gives the producer tag. -/
def State.writeLanes (s : State) (ws : List LaneWrite) (prod : Nat → Reg → Tag) : State :=
  let s1 := ws.foldl (fun s w => s.modThread w.thread fun th => th.writeAll w.regs) s
  let crews := (ws.map fun w => (s.thread w.thread).crew).eraseDups
  crews.foldl (fun q c => State.retagCrew s q ws c prod) s1

/-- The producer tag of loads, crew-wide results and everything else (01 R18). -/
def prodG : Nat → Reg → Tag := fun _ _ => .g

/-- The producer tag of a result computed from registers: U where all are U (01 R18). -/
def State.prodOf (s : State) (srcs : List Reg) : Nat → Reg → Tag := fun c _ =>
  if srcs.all fun r => s.srcTag c r == .u then .u else .g

/-! ## The checks at issue and the run over the lanes -/

/-- The accumulator a word names by its vector operands, and how many registers a vector spans (11 R222). -/
def State.qaccOf (s : State) (t : Nat) (q : BitVec 3) : Acc :=
  (((s.teamOf t).part (s.crewOf t).core).accs)[q.toNat]'q.isLt

/-- The registers a vector operand spans: S = ⌈n / 32⌉ (11 R222). -/
def spanOf (n : Nat) (r : Reg) (extra : Nat) : List Nat := (List.range ((n + 31) / 32 + extra)).map (r.toNat + ·)

/-- Vector registers that a QACC word names beyond its operand fields (11 R222, R229). -/
def State.qaccRegs (s : State) (i : Instr) (t : Nat) : List Nat :=
  match i with
  | .qaccQgen _ q d a => spanOf (s.qaccOf t q).n d 2 ++ spanOf (s.qaccOf t q).n a 0
  | .qaccQapp _ q a _ => spanOf (s.qaccOf t q).n a 0
  | .qaccQaplReg _ q d a | .qaccQapltReg _ q d a | .qaccQaprReg _ q d a | .qaccQaprtReg _ q d a =>
    spanOf (s.qaccOf t q).n d 0 ++ spanOf (s.qaccOf t q).n a 0
  | _ => []

/-- Steps 8 to 10 of R61 in a thread (02): guard-cover, unallocated registers, misaligned registers, the rights row. -/
def State.issueCheck (s : State) (i : Instr) (t : Nat) : Option Nat :=
  let g := s.gridOf t
  let guarded := (s.wordGuard t).active
  if guarded && (i.crewWide || i.pipe == .prefixWord) then some Cause.guardCover
  else if (i.opds.any fun o => o.regs.any fun r => g.lr.regs ≤ r) || (s.qaccRegs i t).any fun r => g.lr.regs ≤ r then
    some Cause.unallocatedRegister
  else if i.opds.any Opd.misaligned then some Cause.misalignedRegister
  else if i.allowed g.seat = false then some Cause.seatDenied
  else none

/-- A word stops in a thread before it acts: a check at issue, or a continuation that freezes at it. -/
def State.stops (s : State) (i : Instr) (t : Nat) : Bool := (s.issueCheck i t).isSome || ((s.thread t).isCont && i.freezes)

/-- What a word does in one lane. -/
inductive LaneRes where
  /-- Performed: the thread goes on after the word. -/
  | done (s : State)
  /-- Performed, and the thread transfers. -/
  | goto (s : State) (pc : DWord)
  /-- Performed; the thread's PC, guard and count are already set. -/
  | placed (s : State)
  /-- A fault detected at or before issue. -/
  | early (cause : Nat) (val : DWord)
  /-- A fault that arises after issue; the state holds what had happened. -/
  | late (s : State) (cause : Nat) (val : DWord)
  /-- The thread leaves the ready set at the word. -/
  | block (s : State)
  /-- The thread stalls on a page-fault record. -/
  | stall (s : State) (id cause : Nat) (addr : DWord)
  /-- A continuation freezes. -/
  | freeze

/-- The address a thread goes on at after the word in issue, as far as it is known: the first word's transfer for the second word
of a pair that acts after it. -/
def State.afterOf (s : State) (t : Nat) : DWord :=
  let cur := s.m.cur
  if cur.second && !cur.rev && !s.pairWaits t then (s.thread t).pc else cur.after

/-- The word blocks in a thread: it leaves the ready set, the word counted as issued, the PC at the word (20 R360). -/
def State.blockAt (s : State) (i : Instr) (t : Nat) : State :=
  let cur := s.m.cur
  let after := s.afterOf t
  let g := s.wordGuard t
  (s.retire t).modThread t fun th => th.addWait (.word i after cur.first (s.src t).v) cur.pc g

/-- The word stalls in a thread on a page-fault record (20 R371). -/
def State.stallAt (s : State) (i : Instr) (t id cause : Nat) (addr : DWord) : State :=
  let cur := s.m.cur
  let after := s.afterOf t
  let g := s.wordGuard t
  (s.retire t).modThread t fun th => th.addWait (.page id cause addr (some i) after cur.first (s.src t).v) cur.pc g

/-- A SYS word is the second of a pair whose first word has not come to its end (09 R184, 14 R261), or the word moves the thread: it
waits behind a first word that waits. -/
def waitsBehind (i : Instr) : Bool := i.movesThread || i.isSys

/-- One lane of a word: the checks at issue, the freeze of a continuation, the effect; a continuation that another lane has
squashed is gone. A word whose partner waits in the thread waits behind it where it would fault, stall or wait, moves the thread or
asks for what is complete. A word that would wait where its partner has trapped has not come to its end. A lane that would stall on
a page after another has halted the grid stands at its word, as at a stop (20 R358, R360). -/
def State.runLane (s : State) (i : Instr) (f : State → Nat → LaneRes) (t : Nat) : State :=
  let behind := s.pairWaits t
  if (Table.find? s.threads t).isNone then s
  else match s.issueCheck i t with
  | some c => s.early t c 0
  | none =>
    if (s.thread t).isCont && i.freezes then s.early t freezeCode 0
    else if behind && waitsBehind i && !s.m.cur.probe then s.blockAt i t
    else
      match f s t with
      | .early c v => s.early t c v
      | .freeze => s.early t freezeCode 0
      | r =>
        if s.m.cur.probe then s
        else match r with
          | .done s => s.advance t
          | .goto s pc => s.jump t pc
          | .placed s => s
          | .late r c v => if behind then s.blockAt i t else (if (s.thread t).isCont || s.pairTrapped t then s else r).late t c v
          | .block r => if behind then s.blockAt i t else if s.pairTrapped t then s.bothFault t else r.blockAt i t
          | .stall r id c a =>
            if s.pairTrapped t then s.bothFault t
            else if behind || (s.gridOf t).status != .live then s.blockAt i t else r.stallAt i t id c a
          | _ => s

/-- What a crew-wide word does, once for its crew. -/
inductive CrewRes where
  | done (s : State)
  /-- A fault at issue, which every live thread takes. -/
  | early (cause : Nat) (val : DWord)

/-- Runs a word over the executing lanes in ascending order (01 R36, 05 R121). -/
def State.runLanes (s : State) (i : Instr) (f : State → Nat → LaneRes) : State :=
  s.m.cur.lanes.foldl (fun s t => s.runLane i f t) s

/-- Runs a crew-wide word that acts once for its crew, with the operands of its lowest live lane (10 R203). -/
def State.runCrew (s : State) (i : Instr) (f : State → Nat → CrewRes) : State :=
  match s.m.cur.lanes with
  | [] => s
  | t :: _ =>
    if s.stops i t then s.runLanes i fun s _ => .done s
    else match f s t with
      | .early c v => s.runLanes i fun _ _ => .early c v
      | .done s' => if s.m.cur.probe then s else s'.runLanes i fun s _ => .done s

/-- What a register word computes in a lane. -/
structure RegOut where
  regs  : List (Reg × Word)
  preds : List (PReg × Bool)
  flags : BitVec 5

/-- A result with no predicate and no flag. -/
def RegOut.ofRegs (l : List (Reg × Word)) : RegOut := ⟨l, [], 0⟩

/-- A predicate result. -/
def RegOut.ofPred (p : PReg) (b : Bool) : RegOut := ⟨[], [(p, b)], 0⟩

/-- The floating-point exception cause of flags under an enable mask: the first enabled one, NV first (01 R28). -/
def fpCause (flags en : BitVec 5) : Nat :=
  let e := flags &&& en
  if e.getLsbD 4 then 0x040 else if e.getLsbD 3 then 0x041 else if e.getLsbD 2 then 0x042
  else if e.getLsbD 1 then 0x043 else 0x044

/-- The trap-enable mask of a thread (01 R28). -/
def State.trapen (s : State) (t : Nat) : BitVec 5 := (s.gridOf t).lr.trapen

/-- A register word performs in a thread: no check at issue stops it and no enabled flag is raised. -/
def State.performs (s : State) (i : Instr) (t : Nat) (o : RegOut) : Bool :=
  (s.issueCheck i t).isNone && !((s.thread t).isCont && i.freezes) && (o.flags &&& s.trapen t) == 0

/-- The lane effect of a register word beside its register writes: predicates and flags, or the floating-point trap. -/
def regLane (outs : List (Nat × RegOut)) (s : State) (t : Nat) : LaneRes :=
  match outs.find? fun e => e.1 == t with
  | none => .done s
  | some (_, o) =>
    let s' := s.modThread t fun th => { th with fstat := th.fstat ||| o.flags }
    if (o.flags &&& s.trapen t) != 0 then
      .late s' (fpCause o.flags (s.trapen t)) (BitVec.ofNat 64 o.flags.toNat)
    else .done (s'.modThread t fun th => th.setPs o.preds)

/-- A word that reads and writes registers of each lane: every source is read before any destination is written (01 R36), the
tags by R18, the flags by R27 and R28. -/
def State.runRegs (s : State) (i : Instr) (prod : Nat → Reg → Tag) (f : State → Nat → RegOut) : State :=
  let outs := s.m.cur.lanes.map fun t => (t, f s t)
  if s.m.cur.probe then s.runLanes i (regLane outs)
  else
    let ws := (outs.filter fun e => s.performs i e.1 e.2).map fun e => (⟨e.1, e.2.regs⟩ : LaneWrite)
    (s.writeLanes ws prod).runLanes i (regLane outs)

/-- The outcome of a meaning. -/
abbrev Res := Host.Outcome State Fault Refusal

end Sys2Proof.Machine
end

