-- ==== Sys2Proof/Machine/Pending.lean ====
section
/-! DEFINITION. Registers that words in flight have yet to write (17 R344), and the delivery of late results. -/

namespace Sys2Proof.Machine

/-- The pair a destination names. -/
def pairNats (r : Reg) : List Nat := if r = 0 then [] else [r.toNat, r.toNat + 1]

/-- A word of a crew, or of one thread of it, writes its result in a thread. -/
def State.opCovers (s : State) (crew : Nat) (one : Option Nat) (t : Nat) : Bool :=
  match one with
  | some q => q == t
  | none => (s.thread t).crew == crew && !(s.thread t).isCont

/-- The registers a thread's own words below an identifier have yet to write. -/
def State.pendingOwn (s : State) (t bound : Nat) : List Nat :=
  let ok (id : Nat) : Bool := decide (id < bound) && !s.eng.muted.contains (id, t)
  let loads := s.eng.txns.flatMap fun e =>
    if ok e.1 then (e.2.writes.filter (·.thread == t)).flatMap fun w => w.regs.map fun r => r.1.toNat else []
  let copies := s.eng.copies.flatMap fun e =>
    if ok e.1 && s.opCovers e.2.crew e.2.one t then pairNats e.2.dreg else []
  let xfers := s.eng.xfers.flatMap fun e =>
    if ok e.1 && s.opCovers e.2.crew e.2.one t then pairNats e.2.dreg else []
  let ratoms := s.eng.ratoms.flatMap fun e =>
    if ok e.1 && e.2.lanes.any (fun l => l.thread == t && l.reply != some 0) then
      (if e.2.op.is64 then pairNats e.2.dreg else [e.2.dreg.toNat]) else []
  let sys := s.eng.sys.flatMap fun e => if ok e.1 && e.2.thread == t then pairNats e.2.dreg else []
  loads ++ copies ++ xfers ++ ratoms ++ sys

/-- The registers that earlier words of a thread have yet to write; a continuation waits for those of its thread that were in
flight at the fork, but for its predicted returns (06 R141, R149). -/
def State.pending (s : State) (t : Nat) : List Nat :=
  let own := s.pendingOwn t s.eng.nextId
  match (s.thread t).cont with
  | none => own
  | some c =>
    match (s.thread c.owner).fork.recs.find? fun f => f.cont == t with
    | none => own
    | some f => own ++ (s.pendingOwn c.owner f.born).filter fun r => f.preds.all fun p => p.1.toNat != r

/-- Register writes that also reach the continuations whose forks opened after the item was issued. -/
def State.withConts (s : State) (id : Nat) (ws : List LaneWrite) : List LaneWrite :=
  ws ++ ws.flatMap fun w =>
    ((s.thread w.thread).fork.recs.filter fun f => decide (id < f.born)).map fun f =>
      ⟨f.cont, w.regs.filter fun r => f.preds.all fun p => p.1 != r.1⟩

/-- A late result reaches the registers of the lanes that still take it (tag G). -/
def State.lateWrites (s : State) (id : Nat) (ws : List LaneWrite) : State :=
  let live := ws.filter fun w => !s.eng.muted.contains (id, w.thread) && (Table.find? s.threads w.thread).isSome
  let s := s.writeLanes (s.withConts id live) prodG
  s.modEng fun e => { e with muted := e.muted.filter fun m => m.1 != id }

/-- A thread no longer takes the late results of its own items from an identifier on (06 R149, R151). -/
def State.muteFrom (s : State) (t born : Nat) : State :=
  let ids := s.eng.txns.keysWhere (fun _ x => x.threads.contains t) ++ s.eng.copies.keysWhere (fun _ _ => true) ++
    s.eng.xfers.keysWhere (fun _ _ => true) ++ s.eng.ratoms.keysWhere (fun _ _ => true) ++
    s.eng.sys.keysWhere (fun _ _ => true)
  s.modEng fun e => { e with muted := e.muted ++ (ids.filter (born ≤ ·)).map fun i => (i, t) }

/-- What a continuation has in flight becomes its thread's (06 R149). -/
def State.renameTxns (s : State) (c t : Nat) : State :=
  s.modEng fun e => { e with txns := e.txns.map fun x =>
    (x.1, { x.2 with threads := x.2.threads.map fun q => if q = c then t else q
                     stalls := x.2.stalls.map fun q => if q = c then t else q
                     writes := x.2.writes.map fun w => if w.thread = c then { w with thread := t } else w }) }

end Sys2Proof.Machine
end

