-- ==== Sys2Proof/Machine/Access.lean ====
section
/-! DEFINITION. The accesses of threads to memory: reaching an address (01 R25), page-fault records (20 R371), loads, stores
and atomics at their homes (05 R129), what a continuation reads and buffers (06 R146), and the outstanding-transaction table
(05 R133). -/

namespace Sys2Proof.Machine

/-! ## Reaching an address -/

/-- A reason that a page service can mend (20 R371). -/
def Why.replayable : Why → Bool
  | .pageAbsent | .pagePermission => true
  | _ => false

/-- The reason code of a page-fault record. -/
def Why.pageReason : Why → Nat
  | .pageAbsent => 4
  | _ => 5

/-- Where an access of a thread leads. -/
inductive Reach where
  | here (st : Store) (off : Nat)
  /-- A failing check of R25 before translation. -/
  | bad (w : Why)
  /-- A failing translation. -/
  | unmapped (w : Why)
  /-- The walk has reached a tower that is not ready: nothing has happened (26 R439). -/
  | wait
  deriving DecidableEq, Repr

/-- The checks of R25 and the translation of an access of `n` bytes (01). -/
def State.reach (s : State) (t : Nat) (a : DWord) (n : Nat) (k : Kind) : State × Reach :=
  let core := (s.crewOf t).core
  match s.place t core a n n with
  | .error w => (s, .bad w)
  | .ok (.here st off) => (s, .here (s.storeAt st off).1 (s.storeAt st off).2)
  | .ok (.global va) =>
    let (u, r) := s.translate core (s.gridOf t).accessKey va k
    if u.m.unready then (s, .wait)
    else match r with
      | .error w => (u, .unmapped w)
      | .ok pa => (u, .here .phys pa)

/-- A window 4 store. -/
def Store.isCounter : Store → Bool
  | .counters _ => true
  | _ => false

/-- A translation failure of a thread: it stalls on a record, or takes the fault; a continuation freezes (20 R371, 06 R146). -/
def State.pageFail (s : State) (t : Nat) (a : DWord) (k : Kind) (w : Why) : LaneRes :=
  let g := s.gridOf t
  if w.replayable && !(s.thread t).isCont then
    match s.postPage g.accessKey (a.toNat % 2 ^ 57 / 4096) w.pageReason k.code false g.queue (s.crewOf t).core g.seq s.cycle with
    | (s, some id) => .stall s id (w.cause k) a
    | (s, none) => .late s (w.cause k) a
  else .late s (w.cause k) a

/-! ## Bytes -/

/-- The value of an arrival counter. -/
def State.counter (s : State) (g idx : Nat) : Counter :=
  match (s.grid g).counters with
  | some c => Table.getD c idx ⟨0, 0⟩
  | none => ⟨0, 0⟩

/-- A counter is reached (13 R254). -/
def Counter.reached (c : Counter) : Bool := decide (c.target.toNat ≤ c.value.toNat)

/-- The thread of a crew that waits at an ACWAIT with the crew's operands, and the address. -/
def State.acwaitOf (s : State) (c : Nat) : Option (Nat × DWord) :=
  (s.liveOf c).findSome? fun t => match (s.thread t).wait with
    | .word (.xferAcwait _ _ a) _ _ v => some (t, { s.thread t with v := v }.rx a)
    | _ => none

/-- The crew waits at an ACWAIT on a counter: the thread of lowest lane. -/
def State.acwaitsOn (s : State) (g idx c : Nat) : Option Nat :=
  match s.acwaitOf c with
  | none => none
  | some (t, a) => match s.place t (s.crew c).core a 8 8 with
    | .ok (.here (.counters h) off) => if h = g ∧ off / 8 = idx then some t else none
    | _ => none

/-- Changes a counter; a change that leaves it reached releases every ACWAIT that waits on it, with the value (13 R254). -/
def State.setCounter (s : State) (g idx : Nat) (c : Counter) : State :=
  let s := s.modGrid g fun x => { x with counters := x.counters.map fun l => Table.set l idx c }
  let ts := if c.reached then (s.crews.map Prod.fst).filterMap (s.acwaitsOn g idx) else []
  if ts.isEmpty then s
  else s.modEng fun e =>
    { e with woken := e.woken ++ (ts.filter fun t => (Table.find? e.woken t).isNone).map fun t => (t, c.value) }

/-- Reads bytes for a thread at a scope. -/
def State.readAt (s : State) (t : Nat) (st : Store) (off n : Nat) (sc : Scope) : State × Except Why (List Byte) :=
  match st with
  | .phys => s.globalRead (s.crewOf t).core (s.gridOf t).accessKey off n sc
  | .counters g => (s, .ok (leBytes 8 (s.counter g (off / 8)).value.toNat))
  | st => (s, .ok (s.localRead st off n))

/-- Writes bytes for a thread at a scope. -/
def State.writeAt (s : State) (t : Nat) (st : Store) (off : Nat) (bytes : List Byte) (sc : Scope) : State × Option Why :=
  match st with
  | .phys =>
    match s.globalWrite (s.crewOf t).core (s.gridOf t).accessKey off bytes sc with
    | (s, none) => (s.noteWrites (some t) st off bytes.length, none)
    | r => r
  | .counters _ => (s, none)
  | st => ((s.localWrite st off bytes).noteWrites (some t) st off bytes.length, none)

/-- Before an acquire wider than CO reads a global location, the cores that hold its line at CR or CO are promoted (15 R296). -/
def State.promoteFor (s : State) (t : Nat) (st : Store) (off : Nat) (sc : Scope) : State :=
  if st = .phys ∧ 2 ≤ scopeRank sc then s.promote (s.crewOf t).core off sc else s

/-- Bytes of an access width. -/
def widthBytes : Width → Nat
  | .w8 => 1
  | .w16 => 2
  | .w32 => 4
  | .w64 => 8
  | .w128 => 16

/-- The writes of a loaded value, zero-extended (05 R124). -/
def loadWrites (w : Width) (d : Reg) (bs : List Byte) : List (Reg × Word) :=
  let x := leNat bs
  match w with
  | .w64 => pairWrites d (BitVec.ofNat 64 x)
  | .w128 => quadWrites d (BitVec.ofNat 32 x) (BitVec.ofNat 32 (x / 2 ^ 32)) (BitVec.ofNat 32 (x / 2 ^ 64))
      (BitVec.ofNat 32 (x / 2 ^ 96))
  | _ => regWrites d (BitVec.ofNat 32 x)

/-- The writes of LDS: sign-extended (05 R124). -/
def loadSigned (w : Width) (d : Reg) (bs : List Byte) : List (Reg × Word) :=
  regWrites d (BitVec.ofInt 32 (sextN (8 * widthBytes w) (leNat bs)))

/-- The bytes a store takes from its source (05 R124). -/
def storeBytes (th : Thread) (w : Width) (d : Reg) : List Byte :=
  match w with
  | .w64 => leBytes 8 (th.rx d).toNat
  | .w128 => (th.ry d).flatMap fun x => leBytes 4 x.toNat
  | w => leBytes (widthBytes w) (th.rv d).toNat

/-! ## The outstanding-transaction table (05 R132, R133) -/

/-- The entry of a bundle's word, or a fresh one. -/
def State.txnOf (s : State) (id : Nat) (load : Bool) (t : Nat) : Txn :=
  (Table.find? s.eng.txns id).getD ⟨(s.crewOf t).core, (s.crewOf t).part, load, [], [], [], []⟩

/-- The entry of a bundle's word takes a lane. -/
def State.txnAdd (s : State) (id : Nat) (load : Bool) (t : Nat) (ws : List (Reg × Word)) (held : List HeldCctl) : State :=
  let x := s.txnOf id load t
  let y : Txn := { x with threads := x.threads ++ [t], held := x.held ++ held,
                          writes := if ws.isEmpty then x.writes else x.writes ++ [⟨t, ws⟩] }
  s.modEng fun e => { e with txns := Table.set e.txns id y }

/-- The entry of a bundle's word is not freed before a lane that stalls at its access has performed it. -/
def State.txnStall (s : State) (id : Nat) (load : Bool) (t : Nat) : State :=
  let x := s.txnOf id load t
  s.modEng fun e => { e with txns := Table.set e.txns id { x with stalls := x.stalls ++ [t] } }

/-- The entry at which a thread stalls. -/
def State.stalledEntry (s : State) (t : Nat) : Option Nat :=
  (List.find? (fun e => e.2.stalls.contains t) s.eng.txns).map Prod.fst

/-- The entry of the word in issue: a fresh one, or that at which the thread stalled whose word is examined again. -/
def State.entryId (s : State) : Nat × State :=
  match (if s.m.cur.again then s.stalledEntry (s.m.cur.lanes.headD 0) else none) with
  | some id => (id, s.unstall s.m.cur.lanes)
  | none => s.newId

/-- A memory word takes its entry and runs over its lanes. -/
def State.runMem (s : State) (i : Instr) (f : Nat → State → Nat → LaneRes) : State :=
  let (id, s) := s.entryId
  s.runLanes i (f id)

/-- Entries in use of a partition's outstanding-transaction table. -/
def State.entriesUsed (s : State) (core part : Nat) : Nat :=
  let here (c : Nat) : Bool := (s.crew c).core == core && (s.crew c).part == part
  (s.eng.txns.filter fun e => e.2.core == core && e.2.part == part).length +
    (s.eng.copies.filter fun e => !e.2.accepted && here e.2.crew).length +
    (s.eng.xfers.filter fun e => !e.2.accepted && here e.2.crew).length +
    (s.eng.ratoms.filter fun e => !e.2.accepted && here e.2.crew).length

/-- Every access of an entry has been performed. -/
def State.txnDone (s : State) (x : Txn) : Bool := x.stalls.all fun t => !(s.thread t).wait.active

/-- A locked range stops an access of a word at issue (05 R123); a word examined again waits for its release. -/
def State.lockTrap (s : State) (k : Kind) (a : DWord) : LaneRes :=
  if s.m.cur.again then .block s else .early (Why.cause k .rangeLock) a

/-- Reaches an address for an access that any fault stops, with the checks of R130 and R123, and goes on at its place; `id` is the
word's entry. The range-lock trap is taken at issue: a word examined again waits for the lock to be released. -/
def withReach (s : State) (id t : Nat) (a : DWord) (n : Nat) (k : Kind) (counterOk : Bool)
    (f : State → Store → Nat → LaneRes) : LaneRes :=
  match s.reach t a n k with
  | (_, .bad w) => .early (w.cause k) a
  | (s, .wait) => .block (s.txnStall id (k != .store) t)
  | (s, .unmapped w) =>
    match s.pageFail t a k w with
    | .stall s p c a => .stall (s.txnStall id (k != .store) t) p c a
    | r => r
  | (s, .here st off) =>
    if st.isCounter && !counterOk then .early (Why.cause k .counterAccess) a
    else if s.lockedAt st off n then
      (if s.m.cur.again then s.txnStall id (k != .store) t else s).lockTrap k a
    else if st == .phys && !(s.homeReady off) then .block (s.txnStall id (k != .store) t)
    else f s st off

/-! ## What a continuation reads and buffers (06 R146, R147) -/

/-- Bytes with those of a buffered store over them. -/
def overlay (off : Nat) (bs : List Byte) (b : BufStore) (st : Store) : List Byte :=
  if b.store == st then
    bs.mapIdx fun i x =>
      let p := off + i
      if decide (b.off ≤ p) && decide (p - b.off < b.bytes.length) then b.bytes.getD (p - b.off) 0 else x
  else bs

/-- A continuation's load tracks its lines, and conflicts where its thread has written one (06 R146, R148); none where a 129th
line would be needed. -/
def State.contTrack (s : State) (t : Nat) (k : Cont) (st : Store) (off n : Nat) : Option State :=
  let fresh := (linesOf st off n).filter fun l => !k.tracked.contains l
  if 128 < k.tracked.length + fresh.length then none
  else
    let s := s.modThread t fun th => { th with cont := th.cont.map fun c => { c with tracked := c.tracked ++ fresh } }
    let mark (f : Fork) : Fork :=
      if f.cont = t ∧ (f.written.any fun l => fresh.contains l) then { f with conflict := true } else f
    some (s.modThread k.owner fun th => { th with fork := { th.fork with recs := th.fork.recs.map mark } })

/-- A plain load in a lane (05 R124, 06 R146). -/
def State.plainLoad (s : State) (id t : Nat) (st : Store) (off n : Nat) (a : DWord)
    (ws : List Byte → List (Reg × Word)) : LaneRes :=
  match (s.thread t).cont with
  | none =>
    match s.readAt t st off n .cr with
    | (s, .error w) => .late s (w.cause .load) a
    | (s, .ok bs) => .done (s.txnAdd id true t (ws bs) [])
  | some k =>
    if st.isCounter then .freeze
    else match s.contTrack t k st off n with
      | none => .freeze
      | some s =>
        match s.readAt t st off n .cr with
        | (s, .error w) => .late s (w.cause .load) a
        | (s, .ok bs) => .done (s.txnAdd id true t (ws (k.buf.foldl (fun l b => overlay off l b st) bs)) [])

/-- A plain store in a lane: a continuation buffers it; a full buffer holds the continuation (05 R124, 06 R146). Its entry counts in
the store class until it is in the buffer, where it counts no more (log 69). -/
def State.plainStore (s : State) (id t : Nat) (st : Store) (off : Nat) (bytes : List Byte) (a : DWord) : LaneRes :=
  match (s.thread t).cont with
  | none =>
    match s.writeAt t st off bytes .cr with
    | (s, some w) => .late s (w.cause .store) a
    | (s, none) => .done (s.txnAdd id false t [] [])
  | some k =>
    if 64 ≤ k.buf.length then .freeze
    else .done ((s.modThread t fun th =>
      { th with cont := th.cont.map fun c => { c with buf := c.buf ++ [⟨st, off, bytes, a⟩] } }).txnAdd id false t [] [])

/-! ## Prefetch-touch (05 R125) -/

/-- Counts a suppressed fault of a thread in its context. -/
def State.suppress (s : State) (t : Nat) : State :=
  s.modCtx (s.gridOf t).key fun c => { c with suppflt := c.suppflt + 1 }

/-- The sectors of the line of an address. -/
def sectorsOf (pa : Nat) : List Nat := (List.range 4).map fun i => pa / 128 * 128 + 32 * i

/-- Brings the line of a physical address into a level: L1, L2 or LLC (05 R125, R136); the failure of the sector addressed. -/
def State.prefetch (s : State) (core key pa : Nat) (sc : Scope) : State × Option Why :=
  match s.keyBlocked key with
  | some w => (s, some w)
  | none =>
    (sectorsOf pa).foldl (fun r x =>
      let q := match scopeRank sc with
        | 0 | 1 => r.1.l1Read core key x 32
        | 2 | 3 => r.1.l2Read core key x 32
        | _ => r.1.homeRead key x 32
      (q.1, match q.2 with
        | .error w => if x = pa / 32 * 32 then some w else r.2
        | .ok _ => r.2)) (s, none)

/-- A touch of an address: faults are suppressed and counted, a locked line is left alone. -/
def State.touch (s : State) (t : Nat) (a : DWord) (n : Nat) (counterOk : Bool) (sc : Scope) : State :=
  match s.reach t a n .load with
  | (s, .bad _) | (s, .unmapped _) => s.suppress t
  | (s, .wait) => s
  | (s, .here st off) =>
    if st.isCounter then (if counterOk then s else s.suppress t)
    else if st == .phys && decide (off < sliceBase) then
      if s.lockedAt .phys (off / 128 * 128) 128 || !(s.homeReady off) then s
      else match s.prefetch (s.crewOf t).core (s.gridOf t).accessKey off sc with
        | (s, some _) => s.suppress t
        | (s, none) => s
    else s

end Sys2Proof.Machine
end

