-- ==== Sys2Proof/Machine/Operands.lean ====
section
/-! DEFINITION. The operand forms and the results of the integer and predicate words (04 R95-R118), on bit vectors: every
result wraps unless the entry names saturation. -/

namespace Sys2Proof.Machine

/-- Leading zeros of a value of width `w`, from bit `n - 1` down (04 R97 CLZ). -/
def clzFrom {w : Nat} (x : BitVec w) : Nat → Nat
  | 0 => 0
  | n + 1 => if x.getLsbD n then 0 else 1 + clzFrom x n

/-- Number of one bits among the low `n` (04 R97 POPC). -/
def popcFrom {w : Nat} (x : BitVec w) : Nat → Nat
  | 0 => 0
  | n + 1 => (if x.getLsbD n then 1 else 0) + popcFrom x n

/-- Bit i of the low `n` moved to bit w − 1 − i (04 R97 BREV). -/
def brevFrom {w : Nat} (x : BitVec w) : Nat → Nat
  | 0 => 0
  | n + 1 => (if x.getLsbD n then 2 ^ (w - 1 - n) else 0) + brevFrom x n

/-- The results of IOP at width `w` (04 R97): `a` and `b` the operands, `s` the shift amount. -/
def iopResult {w : Nat} (f : IopFn) (a b : BitVec w) (s : Nat) : BitVec w :=
  match f with
  | .add => a + b
  | .sub => a - b
  | .mul => a * b
  | .mulhs => BitVec.ofInt w (a.toInt * b.toInt / 2 ^ w)
  | .mulhn => BitVec.ofNat w (a.toNat * b.toNat / 2 ^ w)
  | .mins => if a.toInt ≤ b.toInt then a else b
  | .minn => if a.toNat ≤ b.toNat then a else b
  | .maxs => if a.toInt ≤ b.toInt then b else a
  | .maxn => if a.toNat ≤ b.toNat then b else a
  | .and => a &&& b
  | .or => a ||| b
  | .xor => a ^^^ b
  | .andn => a &&& ~~~b
  | .shl => a <<< s
  | .shr => a >>> s
  | .sar => a.sshiftRight s
  | .rol => a.rotateLeft s
  | .clz => BitVec.ofNat w (clzFrom a w)
  | .popc => BitVec.ofNat w (popcFrom a w)
  | .brev => BitVec.ofNat w (brevFrom a w)
  | .abs => if a.toInt < 0 then -a else a
  | .neg => -a
  | .addss => BitVec.ofInt w (satI (a.toInt + b.toInt) (-(2 ^ (w - 1))) (2 ^ (w - 1) - 1))
  | .subss => BitVec.ofInt w (satI (a.toInt - b.toInt) (-(2 ^ (w - 1))) (2 ^ (w - 1) - 1))

/-- The IOP function of a SHI kind (04 R100). -/
def shKindFn : ShKind → IopFn
  | .shl => .shl
  | .shr => .shr
  | .sar => .sar
  | .rol => .rol

/-- The result of IOP in a thread (04 R98). -/
def iopLane (th : Thread) (d a b : Reg) (w64 : Bool) (f : IopFn) : List (Reg × Word) :=
  if w64 then
    let s := (th.rv b).toNat % 64
    pairWrites d (iopResult f (th.rx a) (th.rx b) s)
  else regWrites d (iopResult f (th.rv a) (th.rv b) ((th.rv b).toNat % 32))

/-- A relation on integers (04 R103). -/
def cmpInt (r : Cmp) (x y : Int) : Bool :=
  match r with
  | .eq => x == y
  | .ne => x != y
  | .lt => decide (x < y)
  | .le => decide (x ≤ y)
  | .gt => decide (y < x)
  | .ge => decide (y ≤ x)

/-- A compare operand as an integer by its type (04 R103). -/
def cmpOperand (th : Thread) (t : ITy) (r : Reg) : Int :=
  match t with
  | .s32 => (th.rv r).toInt
  | .n32 => (th.rv r).toNat
  | .s64 => (th.rx r).toInt
  | .n64 => (th.rx r).toNat

/-- The immediate of ICMPI: sign-extended for the signed types, zero-extended for the others (02 R53). -/
def cmpImm (t : ITy) (i : BitVec 10) : Int :=
  match t with
  | .s32 | .s64 => i.toInt
  | .n32 | .n64 => i.toNat

/-- Predicate functions (04 R104). -/
def plopResult (f : PlopFn) (x y : Bool) : Bool :=
  match f with
  | .and => x && y
  | .or => x || y
  | .xor => x ^^ y
  | .andn => x && !y
  | .not => !x
  | .mov => x

/-- LEA (04 R102). -/
def leaResult (base : DWord) (idx : Word) (sh : Nat) (sg : Bool) : DWord :=
  base + ((if sg then idx.signExtend 64 else idx.setWidth 64) <<< sh)

/-- The executing thread of a crew that stands at a lane and is live (04 R116). -/
def State.laneOf (s : State) (c lane : Nat) : Option Nat :=
  (s.liveOf c).find? fun t => (s.thread t).lane == lane

/-- The source lane of SHFL (04 R116). -/
def shflLane (k : ShflKind) (t : Nat) (c : Nat) : Int :=
  match k with
  | .idx => (c % 32 : Nat)
  | .up => (t : Int) - c
  | .dn => (t : Int) + c
  | .xor => ((t ^^^ (c % 32) : Nat) : Int)

/-- One level of the reduction tree: neighbours are combined where both are present (04 R118). -/
def treeLevel {α : Type} (op : α → α → α) : List (Option α) → List (Option α)
  | x :: y :: r =>
    (match x, y with
      | some a, some b => some (op a b)
      | some a, none => some a
      | none, some b => some b
      | none, none => none) :: treeLevel op r
  | l => l

/-- The five levels of the tree (04 R118). -/
def treeReduce {α : Type} (op : α → α → α) (l : List (Option α)) : Option α :=
  match treeLevel op (treeLevel op (treeLevel op (treeLevel op (treeLevel op l)))) with
  | x :: _ => x
  | [] => none

end Sys2Proof.Machine
end

