-- ==== Sys2Proof/Machine/Control.lean ====
section
/-! DEFINITION. The meanings of PB and of the words that transfer control, synchronise a team and combine values across a
crew (02 R47-R52, 04 R107-R117). -/

namespace Sys2Proof.Machine

/-- PB: each thread takes a guard (02 R48). -/
def execPb (p : PReg) (n : BitVec 3) (mask : BitVec 8) (s : State) : Res :=
  .next (s.runLanes (.pb p n mask) fun s t =>
    let pv := (s.src t).rp p
    let cur := s.m.cur
    .placed ((s.modThread t fun th =>
      { th with pc := cur.after, guard := ⟨true, pv, n.toNat + 1, 0, mask⟩ }).retire t))

/-- The target of a displacement of `n` bits (02 R56). -/
def target (pc : DWord) {n : Nat} (disp : BitVec n) : DWord := pc + 4 + (disp.signExtend 64 <<< 2)

/-- A backward branch within 48 words puts the crew into its loop buffer (05 R137). -/
def State.enterLoop (s : State) (t : Nat) (pc tg : DWord) : State :=
  if tg.toNat ≤ pc.toNat ∧ pc.toNat - tg.toNat ≤ 4 * 48 ∧ ¬ (s.thread t).isCont then
    s.modCrew (s.thread t).crew fun c =>
      match c.loop with
      | some l => if l.lo = tg.toNat ∧ l.hi = pc.toNat then c else { c with loop := some ⟨tg.toNat, pc.toNat, []⟩ }
      | none => { c with loop := some ⟨tg.toNat, pc.toNat, []⟩ }
  else s

/-- BRA (04 R107). -/
def execBra (ch : Bool) (p : PReg) (sense : Bool) (disp : BitVec 20) (s : State) : Res :=
  .next (s.runLanes (.bra ch p sense disp) fun s t =>
    if (s.src t).rp p == sense then
      let tg := target s.m.cur.pc disp
      .goto (s.enterLoop t s.m.cur.pc tg) tg
    else .done s)

/-- An indirect target must be a multiple of 4 (02 R39). -/
def fetchMisaligned : Nat := Why.cause .fetch .misaligned

/-- JMPR (04 R107). -/
def execJmpr (ch : Bool) (a : Reg) (s : State) : Res :=
  .next (s.runLanes (.jmpr ch a) fun s t =>
    let tg := (s.src t).rx a
    if tg.toNat % 4 ≠ 0 then .early fetchMisaligned tg else .goto s tg)

/-- What a push does (04 R108). -/
inductive PushRes where
  | ok (s : State)
  | overflow
  | freeze

/-- Pushes a return address (04 R108); a continuation freezes where the push would spill (06 R146). -/
def State.push (s : State) (t : Nat) (a : DWord) : PushRes :=
  let th := s.thread t
  if th.stack.length < 16 then .ok (s.modThread t fun th => { th with stack := th.stack ++ [a] })
  else if th.isCont then .freeze
  else
    let top := (s.gridOf t).lr.slice
    if top < 8 * (th.spill + 1) then .overflow
    else
      let at' := s.sliceAt t (top - 8 * (th.spill + 1))
      let old := leBytes 8 (th.stack.headD 0).toNat
      let s := (s.globalWrite (s.crewOf t).core (s.gridOf t).accessKey at' old .cr).1.noteWrites (some t) .phys at' 8
      .ok (s.modThread t fun th => { th with stack := th.stack.drop 1 ++ [a], spill := th.spill + 1 })

/-- Refills an entry from the spill area: a slice access that takes no fault (04 R108); what a poisoned unit gives is not stated
(log 77). -/
def State.refill (s : State) (t off : Nat) : DWord × State :=
  match s.globalRead (s.crewOf t).core (s.gridOf t).accessKey (s.sliceAt t off) 8 .cr with
  | (s, .ok bs) => (BitVec.ofNat 64 (leNat bs), s)
  | (s, .error _) =>
    let (lo, s) := s.freeWord
    let (hi, s) := s.freeWord
    (hi ++ lo, s)

/-- The return address a pop gives, and the thread after it; none where the stack is empty (04 R108). -/
def State.pop (s : State) (t : Nat) : Option (DWord × State) :=
  let th := s.thread t
  match th.stack.getLast? with
  | none => none
  | some a =>
    if 0 < th.spill then
      let top := (s.gridOf t).lr.slice
      let (back, s) := s.refill t (top - 8 * th.spill)
      some (a, s.modThread t fun th => { th with stack := back :: th.stack.dropLast, spill := th.spill - 1 })
    else some (a, s.modThread t fun th => { th with stack := th.stack.dropLast })

/-- A call: the push, then the transfer (04 R107). -/
def callLane (s : State) (t : Nat) (tg : DWord) : LaneRes :=
  match s.push t s.m.cur.after with
  | .overflow => .early Cause.stackOverflow 0
  | .freeze => .freeze
  | .ok s => .goto s tg

/-- CALL (04 R107). -/
def execCall (ch : Bool) (disp : BitVec 25) (s : State) : Res :=
  .next (s.runLanes (.call ch disp) fun s t => callLane s t (target s.m.cur.pc disp))

/-- CALLR (04 R107): a misaligned target faults and the push has not happened. -/
def execCallr (ch : Bool) (a : Reg) (s : State) : Res :=
  .next (s.runLanes (.callr ch a) fun s t =>
    let tg := (s.src t).rx a
    if tg.toNat % 4 ≠ 0 then .early fetchMisaligned tg else callLane s t tg)

/-- A thread of the resident crews of a partition could issue but for its next word: it is live, waits for nothing, and
neither a debugger nor a halt holds it (17 R336). -/
def State.basicReady (s : State) (t : Nat) : Bool :=
  let th := s.thread t
  let c := s.crewOf t
  th.live && th.wait == .ready && !th.halted && c.resident && c.held.isNone && (s.gridOf t).status == .live &&
    (match th.cont with
      | some k => !k.frozen
      | none => true)

/-- The threads and continuations of a partition. -/
def State.partThreads (s : State) (core part : Nat) : List Nat :=
  s.threads.keysWhere fun _ th => (s.crew th.crew).core == core && (s.crew th.crew).part == part && th.live

/-! ## Barriers (04 R111, R112) -/

/-- The target of a barrier of a team: the declared count, or its live threads. -/
def State.barTarget (s : State) (tm idx : Nat) : Nat :=
  let g := s.grid (s.team tm).grid
  if g.lr.barmask.testBit idx then g.lr.barcnt.getD idx 0 else (s.teamLive tm).length

/-- Completes the phase of a barrier if its count has reached the target: the count returns to zero, the phase flips, every
waiter returns to the ready set with an acquire at CL, and the k writes of the leader crew are published (01 R21). -/
def State.barCheck (s : State) (tm : Nat) (idx : Fin 16) : State :=
  let live := s.teamLive tm
  let b := (s.team tm).bars[idx]
  if live.isEmpty || b.count == 0 || b.count < s.barTarget tm idx then s
  else
    let s := s.modTeam tm fun x =>
      { x with bars := x.bars.set idx ⟨0, !b.phase, b.done + 1⟩, kView := x.kLead }
    let g := s.grid (s.team tm).grid
    let core := (s.team tm).cores.headD 0
    let s := s.trace (dieOf core) 5 g.key core g.queue g.seq idx.val (BitVec.ofNat 64 (s.team tm).index)
    live.foldl (fun s t =>
      if (s.thread t).waitsIn (.bar idx) then
        (s.modThread t fun th => th.endWait (.bar idx)).acquire (s.crewOf t).core .cl
      else s) s

/-- One arrival (04 R111, R112): a release at CL, the count, the completion. -/
def State.barArrive (s : State) (t : Nat) (idx : Fin 16) : State :=
  let c := s.crewOf t
  let s := s.release c.core .cl
  let s := s.modTeam c.team fun x =>
    { x with bars := x.bars.set idx { x.bars[idx] with count := x.bars[idx].count + 1 } }
  s.barCheck c.team idx

/-- The barrier a 4-bit field names. -/
def barIdx (i : BitVec 4) : Fin 16 := ⟨i.toNat, i.isLt⟩

/-- BAR.SYNC (04 R111): the thread waits at the next word until the phase its arrival counts in completes. -/
def execBarSync (ch : Bool) (idx : BitVec 4) (s : State) : Res :=
  .next (s.runLanes (.barSync ch idx) fun s t =>
    let s := s.advance t
    let s := s.modThread t fun th => th.addWait (.bar idx.toNat) 0 th.guard
    .placed (s.barArrive t (barIdx idx)))

/-- BAR.ARRIVE (04 R111): the thread goes on at once. -/
def execBarArrive (ch : Bool) (idx : BitVec 4) (s : State) : Res :=
  .next (s.runLanes (.barArrive ch idx) fun s t => .done (s.barArrive t (barIdx idx)))

/-! ## EXIT -/

/-- The crew's TILE and QACC words in flight. -/
def State.tilesOf (s : State) (c : Nat) : List Nat := s.eng.tiles.keysWhere fun _ o => o.crew == c

/-- Reports the oldest failed TILE or QACC word of a thread (10 R208); the trap's places are given. -/
def State.reportDeferred (s : State) (t : Nat) (recPc resume : DWord) : State :=
  match (s.thread t).deferred with
  | [] => s
  | d :: r =>
    let s := s.modThread t fun th => { th with deferred := r }
    s.trap t d.cause d.val recPc resume false true

/-- Every held thread of a crew faults with the partial-crew cause, each at its own word (04 R115). -/
def State.breakArrival (s : State) (c : Nat) : State :=
  match (s.crew c).arrival with
  | none => s
  | some (_, held) =>
    let s := s.modCrew c fun x => { x with arrival := none }
    held.foldl (fun s t => s.trap t Cause.partialCrew 0 (s.thread t).pc (s.thread t).pc false false) s

/-- The thread leaves: its live bit clears, its forks are squashed, every barrier is judged anew, and an arrival set it
belongs to breaks (04 R110, R111, R115; 06 R158). -/
def State.exitThread (s : State) (t : Nat) : State :=
  let c := (s.thread t).crew
  let tm := (s.crew c).team
  let s := s.squashAll t
  let s := s.modThread t fun th => { th with live := false, guard := Guard.none }
  let s := (List.finRange 16).foldl (fun s i => s.barCheck tm i) s
  match (s.crew c).arrival with
  | some (set, _) => if set.contains t then s.breakArrival c else s
  | none => s

/-- EXIT in a lane (04 R110, 10 R208). -/
def exitLane (s : State) (t : Nat) : LaneRes :=
  let c := (s.thread t).crew
  if !(s.thread t).deferred.isEmpty then
    .placed (s.reportDeferred t s.m.cur.pc s.m.cur.pc)
  else if s.liveOf c = [t] ∧ s.tilesOf c ≠ [] then .block s
  else .placed ((s.advance t).exitThread t)

/-- EXIT (04 R110). -/
def execExitOp (ch : Bool) (s : State) : Res := .next (s.runLanes (.exitOp ch) exitLane)

/-! ## CWAIT.ALL -/

/-- The child grids of a team that have not retired (04 R114). -/
def State.childrenOf (s : State) (tm : Nat) : List Nat :=
  s.grids.keysWhere fun _ g => match g.parent with
    | some (p, _) => p == tm
    | none => false

/-- CWAIT.ALL (04 R114): a team with no such child goes on at once; the release is an acquire at PK. -/
def execCwaitAll (ch : Bool) (s : State) : Res :=
  .next (s.runLanes (.cwaitAll ch) fun s t =>
    let c := s.crewOf t
    if (s.childrenOf c.team).isEmpty then .done (s.acquire c.core .pk)
    else .placed ((s.advance t).modThread t fun th => th.addWait .cwait 0 th.guard))

/-! ## Crew-wide words (04 R115-R117) -/

/-- SHFL (04 R116): every read before any write; a source lane that is not live leaves the lane's own value. -/
def execShfl (ch : Bool) (d a b : Reg) (k : ShflKind) (imm : Bool) (s : State) : Res :=
  .next (s.runRegs (.shfl ch d a b k imm) prodG fun s t =>
    let th := s.src t
    let c := if imm then b.toNat else (th.rv b).toNat
    let j := shflLane k th.lane c
    let q := if 0 ≤ j ∧ j ≤ 31 then (s.laneOf th.crew j.toNat).getD t else t
    .ofRegs (regWrites d ((s.src q).rv a)))

/-- The live threads of a thread's crew in which a predicate is true. -/
def State.voters (s : State) (t : Nat) (p : PReg) : List Nat :=
  (s.liveOf (s.thread t).crew).filter fun q => (s.src q).rp p

/-- VOTE.ANY (04 R117). -/
def execVoteAny (ch : Bool) (q p : PReg) (s : State) : Res :=
  .next (s.runRegs (.voteAny ch q p) prodG fun s t => .ofPred q (!(s.voters t p).isEmpty))

/-- VOTE.ALL (04 R117). -/
def execVoteAll (ch : Bool) (q p : PReg) (s : State) : Res :=
  .next (s.runRegs (.voteAll ch q p) prodG fun s t => .ofPred q (s.voters t p == s.liveOf (s.thread t).crew))

/-- VOTE.BALLOT (04 R117). -/
def execVoteBallot (ch : Bool) (d : Reg) (p : PReg) (s : State) : Res :=
  .next (s.runRegs (.voteBallot ch d p) prodG fun s t =>
    .ofRegs (regWrites d (BitVec.ofNat 32 ((s.voters t p).foldl (fun n q => n + 2 ^ (s.thread q).lane) 0))))

/-- VOTE.ELECT (04 R117): the lowest lane, or 32. -/
def execVoteElect (ch : Bool) (d : Reg) (q p : PReg) (s : State) : Res :=
  .next (s.runRegs (.voteElect ch d q p) prodG fun s t =>
    let m := match s.voters t p with
      | [] => 32
      | v :: _ => (s.thread v).lane
    ⟨regWrites d (BitVec.ofNat 32 m), [(q, (s.thread t).lane == m)], 0⟩)

end Sys2Proof.Machine
end

