-- ==== Sys2Proof/Machine/Flags.lean ====
section
/-! DEFINITION. Number formats (08 R161-R171) and every flag computation of the device (01 R27): decoding a code, rounding an
exact value, the sums, products and comparisons of floating values. Values are exact: a number is m × 2^e. -/

namespace Sys2Proof.Machine

/-- A floating format (08 R161): mantissa and exponent widths, bias, and whether it has infinities and NaNs. -/
structure Fmt where
  p     : Nat
  eb    : Nat
  bias  : Nat
  ieee  : Bool
  deriving DecidableEq, Repr

def Fmt.f64 : Fmt := ⟨52, 11, 1023, true⟩
def Fmt.f32 : Fmt := ⟨23, 8, 127, true⟩
def Fmt.f16 : Fmt := ⟨10, 5, 15, true⟩
def Fmt.bf16 : Fmt := ⟨7, 8, 127, true⟩
def Fmt.e4 : Fmt := ⟨3, 4, 8, false⟩
def Fmt.e5 : Fmt := ⟨2, 5, 15, true⟩

/-- Width of a code. -/
def Fmt.w (f : Fmt) : Nat := 1 + f.eb + f.p

/-- The value a code stands for (08 R162): a NaN, signalling or not; an infinity; a number m × 2^e with its sign. -/
inductive FVal where
  | nan (signalling : Bool)
  | inf (neg : Bool)
  | num (neg : Bool) (m : Nat) (e : Int)
  deriving DecidableEq, Repr

/-- +0. -/
def FVal.zero : FVal := .num false 0 0

/-- The value of a code (08 R162, R163): E5 NaNs are quiet. -/
def Fmt.decode (f : Fmt) (c : Nat) : FVal :=
  let neg := c.testBit (f.w - 1)
  let e := c / 2 ^ f.p % 2 ^ f.eb
  let m := c % 2 ^ f.p
  if f.ieee && e == 2 ^ f.eb - 1 then
    if m = 0 then .inf neg else .nan (f != Fmt.e5 && !(m.testBit (f.p - 1)))
  else if e = 0 then .num neg m (1 - (f.bias : Int) - f.p)
  else .num neg (2 ^ f.p + m) ((e : Int) - f.bias - f.p)

/-- The code of an infinity, the largest finite code, the canonical NaN (08 R161, R163), and a zero. -/
def Fmt.sign (f : Fmt) (neg : Bool) : Nat := if neg then 2 ^ (f.eb + f.p) else 0
def Fmt.infCode (f : Fmt) (neg : Bool) : Nat := f.sign neg + (2 ^ f.eb - 1) * 2 ^ f.p
def Fmt.maxCode (f : Fmt) (neg : Bool) : Nat := f.sign neg + (if f.ieee then (2 ^ f.eb - 1) * 2 ^ f.p - 1 else 2 ^ (f.eb + f.p) - 1)
def Fmt.nanCode (f : Fmt) : Nat := (2 ^ f.eb - 1) * 2 ^ f.p + 2 ^ (f.p - 1)

/-! ## Flags (01 R27) -/

def flagNone : BitVec 5 := 0
def flagNX : BitVec 5 := 1
def flagUF : BitVec 5 := 2
def flagOF : BitVec 5 := 4
def flagDZ : BitVec 5 := 8
def flagNV : BitVec 5 := 16

/-- NV where a test holds. -/
def nvIf (b : Bool) : BitVec 5 := if b then flagNV else 0

/-- A value is a signalling NaN. -/
def FVal.snan : FVal → Bool
  | .nan b => b
  | _ => false

def FVal.isNan : FVal → Bool
  | .nan _ => true
  | _ => false

/-- A rounded value: its code, its flags, and whether it overflowed (08 R169, R170). -/
structure Rounded where
  code  : Nat
  flags : BitVec 5
  ovf   : Bool
  deriving DecidableEq, Repr

/-- The integer nearest to q + r / 2^k under a mode; `sticky` says that the exact value lies a little above (08 R169). -/
def roundInt (rm : Rm) (neg : Bool) (q r k : Nat) (sticky : Bool) : Nat :=
  let inexact := r != 0 || sticky
  match rm with
  | .rne =>
    let half := 2 ^ k / 2
    if k = 0 then q
    else if half < r || (r == half && (sticky || q % 2 == 1)) then q + 1 else q
  | .rz => q
  | .rdn => if neg && inexact then q + 1 else q
  | .rup => if !neg && inexact then q + 1 else q

/-- The result of an overflow (08 R170). -/
def Fmt.overflow (f : Fmt) (rm : Rm) (neg : Bool) : Nat :=
  let toInf := match rm with
    | .rne => true
    | .rz => false
    | .rdn => neg
    | .rup => !neg
  if toInf && f.ieee then f.infCode neg else f.maxCode neg

/-- round(x, F, rm) of 08 R169 for |x| = m × 2^e, or a little above it where `sticky` (then m has bits to spare). -/
def Fmt.round (f : Fmt) (rm : Rm) (neg : Bool) (m : Nat) (e : Int) (sticky : Bool) : Rounded :=
  if m = 0 then ⟨f.sign neg, 0, false⟩
  else
    let emin : Int := 1 - (f.bias : Int)
    let top : Int := (Nat.log2 m : Int) + e
    let ex := max top emin
    let ue := ex - f.p
    let sh := (ue - e).toNat
    let up := (e - ue).toNat
    let q := m * 2 ^ up / 2 ^ sh
    let r := m * 2 ^ up % 2 ^ sh
    let n := roundInt rm neg q r sh sticky
    let (n, ue) := if 2 ^ (f.p + 1) ≤ n then (n / 2, ue + 1) else (n, ue)
    let be := if n < 2 ^ f.p then 0 else (ue + f.p + f.bias).toNat
    let inexact := r != 0 || sticky
    let limit := if f.ieee then 2 ^ f.eb - 1 else 2 ^ f.eb
    if limit ≤ be then ⟨f.overflow rm neg, flagOF ||| flagNX, true⟩
    else
      let code := f.sign neg + (if n < 2 ^ f.p then n else be * 2 ^ f.p + (n - 2 ^ f.p))
      let fl := if inexact then (if top < emin then flagNX ||| flagUF else flagNX) else 0
      ⟨code, fl, false⟩

/-- round() of a quotient n / d × 2^e, d not 0. -/
def Fmt.roundQ (f : Fmt) (rm : Rm) (neg : Bool) (n d : Nat) (e : Int) : Rounded :=
  let k := f.p + 4 + Nat.log2 d
  f.round rm neg (n * 2 ^ k / d) (e - k) (n * 2 ^ k % d != 0)

/-- A code and its flags. -/
abbrev Code := Nat × BitVec 5

def Rounded.out (r : Rounded) : Code := (r.code, r.flags)

/-- A signed exact value of a number. -/
def signedInt (neg : Bool) (m : Nat) : Int := if neg then -(m : Int) else m

/-- An exact value s × 2^e rounded; an exact zero takes the sign given. -/
def Fmt.roundZ (f : Fmt) (rm : Rm) (s : Int) (e : Int) (zeroNeg : Bool) : Code :=
  if s = 0 then (f.sign zeroNeg, 0) else (f.round rm (decide (s < 0)) s.natAbs e false).out

/-- The exact sum of two numbers: the value at the lower exponent. -/
def sumZ (n1 : Bool) (m1 : Nat) (e1 : Int) (n2 : Bool) (m2 : Nat) (e2 : Int) : Int × Int :=
  let e := min e1 e2
  (signedInt n1 m1 * 2 ^ (e1 - e).toNat + signedInt n2 m2 * 2 ^ (e2 - e).toNat, e)

/-- The negation of a value. -/
def FVal.negate : FVal → FVal
  | .nan s => .nan s
  | .inf n => .inf (!n)
  | .num n m e => .num (!n) m e

/-- Addition (09 R186). -/
def Fmt.add (f : Fmt) (rm : Rm) (a b : FVal) : Code :=
  let nv := nvIf (a.snan || b.snan)
  match a, b with
  | .nan _, _ => (f.nanCode, nv)
  | _, .nan _ => (f.nanCode, nv)
  | .inf x, .inf y => if x = y then (f.infCode x, 0) else (f.nanCode, flagNV)
  | .inf x, _ => (f.infCode x, 0)
  | _, .inf y => (f.infCode y, 0)
  | .num n1 m1 e1, .num n2 m2 e2 =>
    let (s, e) := sumZ n1 m1 e1 n2 m2 e2
    let zn := if m1 = 0 ∧ m2 = 0 ∧ n1 = n2 then n1 else rm == .rdn
    f.roundZ rm s e zn

/-- Multiplication (09 R186). -/
def Fmt.mul (f : Fmt) (rm : Rm) (a b : FVal) : Code :=
  let nv := nvIf (a.snan || b.snan)
  match a, b with
  | .nan _, _ => (f.nanCode, nv)
  | _, .nan _ => (f.nanCode, nv)
  | .inf x, .inf y => (f.infCode (x != y), 0)
  | .inf x, .num n m _ => if m = 0 then (f.nanCode, flagNV) else (f.infCode (x != n), 0)
  | .num n m _, .inf y => if m = 0 then (f.nanCode, flagNV) else (f.infCode (n != y), 0)
  | .num n1 m1 e1, .num n2 m2 e2 => (f.round rm (n1 != n2) (m1 * m2) (e1 + e2) false).out

/-- One of two values is a zero and the other an infinity. -/
def zeroTimesInf : FVal → FVal → Bool
  | .inf _, .num _ m _ => m == 0
  | .num _ m _, .inf _ => m == 0
  | _, _ => false

/-- Fused multiply-add (09 R189). -/
def Fmt.fma (f : Fmt) (neg : Bool) (a b c : FVal) : Code :=
  let nv := nvIf (a.snan || b.snan || c.snan || zeroTimesInf a b)
  if a.isNan || b.isNan || c.isNan then (f.nanCode, nv)
  else if zeroTimesInf a b then (f.nanCode, flagNV)
  else
    let p : FVal := match a, b with
      | .num n1 m1 e1, .num n2 m2 e2 => .num (n1 != n2) (m1 * m2) (e1 + e2)
      | .inf x, .inf y => .inf (x != y)
      | .inf x, .num n _ _ => .inf (x != n)
      | .num n _ _, .inf y => .inf (n != y)
      | x, _ => x
    let p := if neg then p.negate else p
    match p, c with
    | .inf x, .inf y => if x = y then (f.infCode x, 0) else (f.nanCode, flagNV)
    | .inf x, _ => (f.infCode x, 0)
    | _, .inf y => (f.infCode y, 0)
    | .num n1 m1 e1, .num n2 m2 e2 =>
      let (s, e) := sumZ n1 m1 e1 n2 m2 e2
      f.roundZ .rne s e (m1 == 0 && m2 == 0 && n1 && n2)
    | _, _ => (f.nanCode, nv)

/-- Compares two numbers, infinities included; none where one is a NaN. -/
def FVal.cmp (a b : FVal) : Option Ordering :=
  match a, b with
  | .nan _, _ => none
  | _, .nan _ => none
  | .inf x, .inf y => some (if x = y then .eq else if x then .lt else .gt)
  | .inf x, _ => some (if x then .lt else .gt)
  | _, .inf y => some (if y then .gt else .lt)
  | .num n1 m1 e1, .num n2 m2 e2 => some (compare (sumZ n1 m1 e1 (!n2) m2 e2).1 0)

/-- MIN and MAX (09 R187) of two codes: −0 stands below +0. -/
def Fmt.pick (f : Fmt) (wantMax : Bool) (x y : Nat) : Code :=
  let a := f.decode x
  let b := f.decode y
  let nv := nvIf (a.snan || b.snan)
  match a.cmp b with
  | some .eq => (if (x < 2 ^ (f.w - 1)) = wantMax then x else y, 0)
  | some .lt => (if wantMax then y else x, 0)
  | some .gt => (if wantMax then x else y, 0)
  | none => (if a.isNan then (if b.isNan then f.nanCode else y) else x, nv)

/-- FCMP (09 R194). -/
def fcmpResult (r : FCmpRel) (a b : FVal) : Bool × BitVec 5 :=
  let c := a.cmp b
  let v := match r, c with
    | .eq, some .eq => true
    | .ne, some .eq => false
    | .ne, _ => true
    | .lt, some .lt => true
    | .le, some .lt | .le, some .eq => true
    | .gt, some .gt => true
    | .ge, some .gt | .ge, some .eq => true
    | .un, none => true
    | _, _ => false
  let signalling := match r with
    | .eq | .ne | .un => a.snan || b.snan
    | _ => a.isNan || b.isNan
  (v, nvIf signalling)

/-- A number rounded to an integer by a mode, and whether that changed it (08 R171, 09 R196). -/
def toIntegral (rm : Rm) (neg : Bool) (m : Nat) (e : Int) : Nat × Bool :=
  let sh := (-e).toNat
  let up := e.toNat
  let q := m * 2 ^ up / 2 ^ sh
  let r := m * 2 ^ up % 2 ^ sh
  (roundInt rm neg q r sh false, r != 0)

end Sys2Proof.Machine
end

