-- ==== Sys2Proof/Machine/Memory.lean ====
section
/-! DEFINITION. The meanings of the memory, atomic and synchronisation words (05). Each word's effect in a lane is a function
of its own, so that a thread that waited at it can be examined again. -/

namespace Sys2Proof.Machine

/-! ## Addresses (02 R55) -/

/-- A format M address. -/
def addrM (th : Thread) (ap : BitVec 5) (w : Width) (off : BitVec 11) : DWord :=
  th.rx (pairOf ap) + BitVec.ofInt 64 (off.toInt * widthBytes w)

/-- A format MS address. -/
def addrMS (th : Thread) (ap : BitVec 5) : DWord := th.rx (pairOf ap)

/-! ## LD, LDS, ST (05 R124, R125) -/

/-- LD in a lane; a counter is read at its home at SY, in 64 bits only (R130). -/
def ldLane (d : Reg) (ap : BitVec 5) (w : Width) (off : BitVec 11) (id : Nat) (s : State) (t : Nat) : LaneRes :=
  let a := addrM (s.src t) ap w off
  if d = 0 then .done ((s.touch t a (widthBytes w) (w == .w64) .cr).txnAdd id true t [] [])
  else withReach s id t a (widthBytes w) .load (w == .w64) fun s st o =>
    s.plainLoad id t st o (widthBytes w) a (loadWrites w d)

/-- LDS in a lane. -/
def ldsLane (d : Reg) (ap : BitVec 5) (w : Width) (off : BitVec 11) (id : Nat) (s : State) (t : Nat) : LaneRes :=
  let a := addrM (s.src t) ap w off
  if d = 0 then .done ((s.touch t a (widthBytes w) false .cr).txnAdd id true t [] [])
  else withReach s id t a (widthBytes w) .load false fun s st o =>
    s.plainLoad id t st o (widthBytes w) a (loadSigned w d)

/-- ST in a lane; a continuation freezes at a window 4 address (06 R146). -/
def stLane (d : Reg) (ap : BitVec 5) (w : Width) (off : BitVec 11) (id : Nat) (s : State) (t : Nat) : LaneRes :=
  let a := addrM (s.src t) ap w off
  withReach s id t a (widthBytes w) .store false fun s st o => s.plainStore id t st o (storeBytes (s.src t) w d) a

/-! ## Strong accesses: LDA, STL, ATOM, CAS -/

/-- A strong read of global memory is what a later FENCE.ACQ acquires (15 R287). -/
def State.noteStrong (s : State) (t : Nat) (st : Store) (off : Nat) : State :=
  if st = .phys ∧ off < sliceBase then s.modThread t fun th => { th with strong := some off } else s

/-- LDA in a lane (05 R126): a load at the scope, then an acquire; a counter is read at SY (R130). -/
def ldaLane (d : Reg) (ap : BitVec 5) (sc : Scope) (w : Width) (id : Nat) (s : State) (t : Nat) : LaneRes :=
  let a := addrMS (s.src t) ap
  if d = 0 then .done ((s.touch t a (widthBytes w) (w == .w64) .cr).txnAdd id true t [] [])
  else withReach s id t a (widthBytes w) .load (w == .w64) fun s st o =>
    let sc := if st.isCounter then .sy else sc
    match (s.promoteFor t st o sc).readAt t st o (widthBytes w) sc with
    | (s, .error e) => .late s (e.cause .load) a
    | (s, .ok bs) =>
      .done (((s.noteStrong t st o).acquire (s.crewOf t).core sc).txnAdd id true t (loadWrites w d bs) [])

/-- STL in a lane (05 R126): a release at the scope, then the store. -/
def stlLane (d : Reg) (ap : BitVec 5) (sc : Scope) (w : Width) (id : Nat) (s : State) (t : Nat) : LaneRes :=
  let a := addrMS (s.src t) ap
  withReach s id t a (widthBytes w) .store false fun s st o =>
    match (s.release (s.crewOf t).core sc).writeAt t st o (storeBytes (s.src t) w d) sc with
    | (s, some e) => .late s (e.cause .store) a
    | (s, none) => .done (s.txnAdd id false t [] [])

/-- A width of the atomic table as an access width. -/
def atomWidth (o : AtomOp) : Width := if o.is64 then .w64 else .w32

/-- The integer operations of the atomic table at width `w` (05 R127). -/
def atomInt (w : Nat) (o : AtomOp) (m b : Nat) : Nat :=
  let lt (x y : Nat) : Bool := decide (sextN w x < sextN w y)
  match o with
  | .add32 | .add64 => (m + b) % 2 ^ w
  | .mins32 | .mins64 => if lt b m then b else m
  | .minn32 | .minn64 => min m b
  | .maxs32 | .maxs64 => if lt m b then b else m
  | .maxn32 | .maxn64 => max m b
  | .and32 | .and64 => m &&& b
  | .or32 | .or64 => m ||| b
  | .xor32 | .xor64 => m ^^^ b
  | .xchg32 | .xchg64 => b
  | .incw32 | .incw64 => if b ≤ m then 0 else m + 1
  | .decw32 | .decw64 => if m = 0 ∨ b < m then b else m - 1
  | .faddf32 => (Fmt.f32.add .rne (Fmt.f32.decode m) (Fmt.f32.decode b)).1
  | .faddbf16x2 =>
    (Fmt.bf16.add .rne (Fmt.bf16.decode (m % 2 ^ 16)) (Fmt.bf16.decode (b % 2 ^ 16))).1
      + 2 ^ 16 * (Fmt.bf16.add .rne (Fmt.bf16.decode (m / 2 ^ 16)) (Fmt.bf16.decode (b / 2 ^ 16))).1

/-- The new value of an atomic (05 R127). -/
def atomResult (o : AtomOp) (m b : Nat) : Nat := atomInt (if o.is64 then 64 else 32) o m b

/-- An operand of an atomic. -/
def atomOperand (th : Thread) (is64 : Bool) (r : Reg) : Nat := if is64 then (th.rx r).toNat else (th.rv r).toNat

/-- Adds to an arrival counter; it wraps (13 R254). -/
def State.counterAdd (s : State) (g idx : Nat) (x : DWord) : State :=
  let c := s.counter g idx
  s.setCounter g idx { c with value := c.value + x }

/-- Reads, computes and writes at the home of a location, indivisibly (05 R129): the old value. -/
def State.atomicAt (s : State) (t : Nat) (st : Store) (off n : Nat) (sc : Scope) (f : Nat → Option Nat) :
    State × Except Why Nat :=
  match s.readAt t st off n sc with
  | (s, .error w) => (s, .error w)
  | (s, .ok bs) =>
    let m := leNat bs
    match f m with
    | none => (s, .ok m)
    | some x => match s.writeAt t st off (leBytes n x) sc with
      | (s, some w) => (s, .error w)
      | (s, none) => (s, .ok m)

/-- ATOM in a lane (05 R127, R130). -/
def atomLane (d : Reg) (ap : BitVec 5) (b : Reg) (sc : Scope) (o : AtomOp) (id : Nat) (s : State) (t : Nat) : LaneRes :=
  let a := addrMS (s.src t) ap
  let n := widthBytes (atomWidth o)
  let x := atomOperand (s.src t) o.is64 b
  withReach s id t a n .atomic (o == .add64) fun s st off =>
    match st with
    | .counters g =>
      let m := (s.counter g (off / 8)).value
      .done ((s.counterAdd g (off / 8) (BitVec.ofNat 64 x)).txnAdd id true t (pairWrites d m) [])
    | st =>
      match s.atomicAt t st off n sc (fun m => some (atomResult o m x)) with
      | (s, .error e) => .late s (e.cause .atomic) a
      | (s, .ok m) => .done ((s.noteStrong t st off).txnAdd id true t (loadWrites (atomWidth o) d (leBytes n m)) [])

/-- CAS in a lane (05 R128): with D = 0 the compare value is zero. -/
def casLane (d : Reg) (ap : BitVec 5) (b : Reg) (sc : Scope) (w : Width) (id : Nat) (s : State) (t : Nat) : LaneRes :=
  let th := s.src t
  let a := addrMS th ap
  let n := widthBytes w
  let old := atomOperand th (w == .w64) d
  let new := atomOperand th (w == .w64) b
  withReach s id t a n .atomic false fun s st off =>
    match s.atomicAt t st off n sc (fun m => if m = old then some new else none) with
    | (s, .error e) => .late s (e.cause .atomic) a
    | (s, .ok m) => .done ((s.noteStrong t st off).txnAdd id true t (loadWrites w d (leBytes n m)) [])

/-! ## MWAIT, LDFE, STFE -/

/-- The condition of an MWAIT (05 R134). -/
def waitHolds (c : WaitCond) (m b : Nat) : Bool :=
  match c with
  | .ne => m != b
  | .eq => m == b

/-- MWAIT in a lane (05 R134). -/
def mwaitLane (d : Reg) (ap : BitVec 5) (b : Reg) (sc : Scope) (c : WaitCond) (w : Width) (id : Nat) (s : State) (t : Nat) :
    LaneRes :=
  let a := addrMS (s.src t) ap
  let n := widthBytes w
  let x := atomOperand (s.src t) (w == .w64) b
  withReach s id t a n .load false fun s st off =>
    match (s.promoteFor t st off sc).readAt t st off n sc with
    | (s, .error e) => .late s (e.cause .load) a
    | (s, .ok bs) =>
      if waitHolds c (leNat bs) x then
        .done (((s.noteStrong t st off).acquire (s.crewOf t).core sc).txnAdd id true t (loadWrites w d bs) [])
      else .block s

/-- The checks of LDFE and STFE, then the granule (05 R135): the windows first, then R25. -/
def withGranule (s : State) (t : Nat) (a : DWord) (n : Nat) (k : Kind) (f : State → Store → Nat → LaneRes) : LaneRes :=
  match windowOf a with
  | some 4 => .early (Why.cause k .counterAccess) a
  | some 1 | some 2 | some 3 =>
    match s.place t (s.crewOf t).core a n n with
    | .ok (.here st off) =>
      if s.lockedAt st off n then s.lockTrap k a else f s st off
    | .ok (.global _) => .early (Why.cause k .fullEmptyWindow) a
    | .error w => .early (w.cause k) a
  | _ => .early (Why.cause k .fullEmptyWindow) a

/-- A granule is full. -/
def State.isFull (s : State) (st : Store) (off : Nat) : Bool := (s.fullSet st).contains (off / 16)

/-- LDFE in a lane: it waits until the granule is full; TAKE empties it (05 R135). -/
def ldfeLane (take : Bool) (d : Reg) (ap : BitVec 5) (sc : Scope) (w : Width) (id : Nat) (s : State) (t : Nat) : LaneRes :=
  let a := addrMS (s.src t) ap
  withGranule s t a (widthBytes w) .load fun s st off =>
    if s.isFull st off then
      let bs := s.localRead st off (widthBytes w)
      let s := if take then s.setFull st (off / 16) false else s
      .done ((s.acquire (s.crewOf t).core sc).txnAdd id true t (loadWrites w d bs) [])
    else .block s

/-- STFE in a lane: PUT waits until the granule is empty (05 R135). -/
def stfeLane (put : Bool) (d : Reg) (ap : BitVec 5) (sc : Scope) (w : Width) (id : Nat) (s : State) (t : Nat) : LaneRes :=
  let a := addrMS (s.src t) ap
  withGranule s t a (widthBytes w) .store fun s st off =>
    if put && s.isFull st off then .block s
    else
      let s := s.release (s.crewOf t).core sc
      let s := (s.writeAt t st off (storeBytes (s.src t) w d) sc).1
      .done ((s.setFull st (off / 16) true).txnAdd id false t [] [])

/-! ## CCTL (05 R136, R137) -/

/-- What DWB and DINV do to a line of a core's path (05 R136). -/
def State.cctlLine (s : State) (core key line : Nat) (drop : Bool) (sc : Scope) : State :=
  let d := dieOf core
  let r := scopeRank sc
  let k := s.tagOf key (128 * line)
  let s := if 2 ≤ r then s.l1WriteBack core k line else s
  let s := if 4 ≤ r then s.l2WriteBack d k line else s
  let s := if drop && decide (2 ≤ r) then s.l1Drop core k line else s
  if drop && decide (4 ≤ r) then
    s.modDie d fun x => { x with l2 := (x.l2.filter fun l => !(l.key == k && l.line == line && l.cores.all (· == core))).map fun l =>
      if l.key == k && l.line == line then { l with bytes := [], held := false } else l }
  else s

/-- DWB and DINV in a lane: a line that overlaps a locked range is held (05 R123). -/
def cctlLane (drop : Bool) (ap : BitVec 5) (sc : Scope) (id : Nat) (s : State) (t : Nat) : LaneRes :=
  let a := addrMS (s.src t) ap
  match s.reach t a 1 .store with
  | (_, .bad w) => .early (w.cause .store) a
  | (s, .wait) => .block (s.txnStall id false t)
  | (s, .unmapped w) =>
    match s.pageFail t a .store w with
    | .stall s p c a => .stall (s.txnStall id false t) p c a
    | r => r
  | (s, .here st off) =>
    if st.isCounter then .early (Why.cause .store .counterAccess) a
    else if st = .phys ∧ off < sliceBase then
      let line := off / 128
      if !s.homeReady off then .block (s.txnStall id false t)
      else if s.lockedAt .phys (line * 128) 128 then .done (s.txnAdd id false t [] [⟨drop, sc, ⟨.phys, line⟩⟩])
      else .done ((s.cctlLine (s.crewOf t).core (s.gridOf t).accessKey line drop sc).txnAdd id false t [] [])
    else .done (s.txnAdd id false t [] [])

/-- PFX in a lane (05 R136): nothing on a local window, and every fault suppressed. -/
def pfxLane (ap : BitVec 5) (sc : Scope) (id : Nat) (s : State) (t : Nat) : LaneRes :=
  .done ((s.touch t (addrMS (s.src t) ap) 1 false sc).txnAdd id false t [] [])

/-! ## WAIT (05 R132) -/

/-- Words of a class of a thread that have not completed. -/
def State.txnCount (s : State) (t : Nat) (load : Bool) : Nat :=
  (s.eng.txns.filter fun e => e.2.load == load && e.2.threads.contains t).length

/-- XFER words of a crew that have not completed (13). -/
def State.copyCount (s : State) (c : Nat) : Nat :=
  (s.eng.copies.filter fun e => e.2.crew == c).length + (s.eng.xfers.filter fun e => e.2.crew == c).length +
    (s.eng.ratoms.filter fun e => e.2.crew == c).length

/-- A class count is within a limit; 15 is no limit. -/
def within (limit : BitVec 4) (n : Nat) : Bool := limit == 15 || decide (n ≤ limit.toNat)

/-- WAIT in a lane: it goes on when every count is within its limit; a limit on the copy or tile class acquires what the
engines wrote (10 R207, 13 R247), and a failed tile word is reported (10 R208). -/
def waitLane (ldc stc cpc tlc : BitVec 4) (_id : Nat) (s : State) (t : Nat) : LaneRes :=
  let c := (s.thread t).crew
  if within ldc (s.txnCount t true) && within stc (s.txnCount t false) && within cpc (s.copyCount c) &&
      within tlc (s.tilesOf c).length then
    let s := if tlc = 15 ∧ cpc = 15 then s else s.acquire (s.crewOf t).core .pk
    match (s.thread t).deferred with
    | [] => .done s
    | _ =>
      if tlc = 15 then .done s else
      let s' := s.advance t
      .placed (s'.reportDeferred t s.m.cur.pc (s'.thread t).pc)
  else .block s

/-! ## The meanings -/

/-- LD. -/
def execLd (ch : Bool) (d : Reg) (ap : BitVec 5) (w : Width) (off : BitVec 11) (s : State) : Res :=
  .next (s.runMem (.ld ch d ap w off) (ldLane d ap w off))

/-- LDS. -/
def execLds (ch : Bool) (d : Reg) (ap : BitVec 5) (w : Width) (off : BitVec 11) (s : State) : Res :=
  .next (s.runMem (.lds ch d ap w off) (ldsLane d ap w off))

/-- ST. -/
def execSt (ch : Bool) (d : Reg) (ap : BitVec 5) (w : Width) (off : BitVec 11) (s : State) : Res :=
  .next (s.runMem (.st ch d ap w off) (stLane d ap w off))

/-- LDA. -/
def execLda (ch : Bool) (d : Reg) (ap : BitVec 5) (sc : Scope) (w : Width) (s : State) : Res :=
  .next (s.runMem (.lda ch d ap sc w) (ldaLane d ap sc w))

/-- STL. -/
def execStl (ch : Bool) (d : Reg) (ap : BitVec 5) (sc : Scope) (w : Width) (s : State) : Res :=
  .next (s.runMem (.stl ch d ap sc w) (stlLane d ap sc w))

/-- ATOM. -/
def execAtom (ch : Bool) (d : Reg) (ap : BitVec 5) (b : Reg) (sc : Scope) (o : AtomOp) (s : State) : Res :=
  .next (s.runMem (.atom ch d ap b sc o) (atomLane d ap b sc o))

/-- CAS. -/
def execCas (ch : Bool) (d : Reg) (ap : BitVec 5) (b : Reg) (sc : Scope) (w : Width) (s : State) : Res :=
  .next (s.runMem (.cas ch d ap b sc w) (casLane d ap b sc w))

/-- The acquire of a fence wider than CO promotes the location of the last strong read before it (15 R287, R296). -/
def State.fenceAcquire (s : State) (t : Nat) (sc : Scope) : State :=
  let s := match (s.thread t).strong with
    | some pa => s.promoteFor t .phys pa sc
    | none => s
  s.acquire (s.crewOf t).core sc

/-- FENCE.AR (05 R131). -/
def execFenceAr (ch : Bool) (sc : Scope) (s : State) : Res :=
  .next (s.runLanes (.fenceAr ch sc) fun s t => .done ((s.release (s.crewOf t).core sc).fenceAcquire t sc))

/-- FENCE.ACQ (05 R131). -/
def execFenceAcq (ch : Bool) (sc : Scope) (s : State) : Res :=
  .next (s.runLanes (.fenceAcq ch sc) fun s t => .done (s.fenceAcquire t sc))

/-- FENCE.REL (05 R131). -/
def execFenceRel (ch : Bool) (sc : Scope) (s : State) : Res :=
  .next (s.runLanes (.fenceRel ch sc) fun s t => .done (s.release (s.crewOf t).core sc))

/-- WAIT.CNT (05 R132). -/
def execWaitCnt (ch : Bool) (ldc stc cpc tlc : BitVec 4) (s : State) : Res :=
  .next (s.runLanes (.waitCnt ch ldc stc cpc tlc) (waitLane ldc stc cpc tlc 0))

/-- MWAIT. -/
def execMwait (ch : Bool) (d : Reg) (ap : BitVec 5) (b : Reg) (sc : Scope) (c : WaitCond) (w : Width) (s : State) : Res :=
  .next (s.runMem (.mwait ch d ap b sc c w) (mwaitLane d ap b sc c w))

/-- LDFE.KEEP. -/
def execLdfeKeep (ch : Bool) (d : Reg) (ap : BitVec 5) (sc : Scope) (w : Width) (s : State) : Res :=
  .next (s.runMem (.ldfeKeep ch d ap sc w) (ldfeLane false d ap sc w))

/-- LDFE.TAKE. -/
def execLdfeTake (ch : Bool) (d : Reg) (ap : BitVec 5) (sc : Scope) (w : Width) (s : State) : Res :=
  .next (s.runMem (.ldfeTake ch d ap sc w) (ldfeLane true d ap sc w))

/-- STFE.FILL. -/
def execStfeFill (ch : Bool) (d : Reg) (ap : BitVec 5) (sc : Scope) (w : Width) (s : State) : Res :=
  .next (s.runMem (.stfeFill ch d ap sc w) (stfeLane false d ap sc w))

/-- STFE.PUT. -/
def execStfePut (ch : Bool) (d : Reg) (ap : BitVec 5) (sc : Scope) (w : Width) (s : State) : Res :=
  .next (s.runMem (.stfePut ch d ap sc w) (stfeLane true d ap sc w))

/-- CCTL.ISYNC (05 R137): the core's instruction cache and the crew's loop buffer are dropped. -/
def execCctlIsync (ch : Bool) (s : State) : Res :=
  .next (s.runLanes (.cctlIsync ch) fun s t =>
    let c := (s.thread t).crew
    .done ((s.modCore (s.crew c).core fun x => { x with icache := [] }).modCrew c fun x => { x with loop := none }))

/-- CCTL.DWB. -/
def execCctlDwb (ch : Bool) (ap : BitVec 5) (sc : Scope) (s : State) : Res :=
  .next (s.runMem (.cctlDwb ch ap sc) (cctlLane false ap sc))

/-- CCTL.DINV. -/
def execCctlDinv (ch : Bool) (ap : BitVec 5) (sc : Scope) (s : State) : Res :=
  .next (s.runMem (.cctlDinv ch ap sc) (cctlLane true ap sc))

/-- CCTL.PFX. -/
def execCctlPfx (ch : Bool) (ap : BitVec 5) (sc : Scope) (s : State) : Res :=
  .next (s.runMem (.cctlPfx ch ap sc) (pfxLane ap sc))

end Sys2Proof.Machine
end

