-- ==== Sys2Proof/Machine/Fabric.lean ====
section
/-! DEFINITION. The hubs (13 R248-R253, 22 R384-R392): peers, domains and incarnations, sending packets and remote atomics,
judging what arrives, and replies. A request to this package itself becomes an event to come; one to another peer leaves
through the outbox (log 15). -/

namespace Sys2Proof.Machine

/-! ## Peers, domains and incarnations (22 R386-R389) -/

/-- An event to come. -/
def State.later (s : State) (i : Instr) : State := s.modM fun m => { m with inbox := m.inbox ++ [i] }

/-- Changes the fabric. -/
def State.modFab (s : State) (f : Fabric → Fabric) : State := { s with fab := f s.fab }

/-- The own incarnation number. -/
def State.ownInc (s : State) : Nat := s.trust.inc % 256

/-- The incarnation recorded of a peer; this package knows its own. -/
def State.incOf (s : State) (p : Nat) : Nat := if p = s.fab.peerId then s.ownInc else Table.getD s.fab.incs p 0

/-- The domain of a key: a valid entry of the table (22 R386). -/
def State.domainOf (s : State) (key : Nat) : Option Nat :=
  let e := Table.getD s.fab.domains key 0
  if e.getLsbD 31 then some (e.toNat % 2 ^ 16) else none

/-- The live context that holds a domain. -/
def State.keyOfDomain (s : State) (dom : Nat) : Option Nat :=
  (List.find? (fun e => e.2.getLsbD 31 && e.2.toNat % 2 ^ 16 == dom && (s.ctx? e.1).isSome) s.fab.domains).map Prod.fst

/-- Station for packet `j` of a transfer: the first that is up from (XID + j) mod 48 on (22 R385). -/
def State.stationFor (s : State) (n : Nat) : Option Nat :=
  ((List.range 48).map fun i => (n + i) % 48).find? fun x => s.fab.up.contains x

/-- A transfer number unique among the outstanding ones (22 R387). -/
def State.newXid (s : State) : Nat × State :=
  let used := s.eng.xfers.map (fun e => e.2.xid) ++ s.eng.ratoms.flatMap fun e => e.2.lanes.map fun l => l.xid
  let x := (((List.range 16384).map fun i => (s.fab.nextXid + i) % 16384).find? fun x => !used.contains x).getD 0
  (x, s.modFab fun f => { f with nextXid := (x + 1) % 16384 })

/-- Why nothing can be sent to a peer: EN = 0, no valid domain, or no station that is up (22 R385, R386, R392). -/
def State.sendBlocked (s : State) (key peer : Nat) : Option Nat :=
  if s.fab.en = false then some Cause.replyTimeout
  else if (s.domainOf key).isNone then some Cause.mappingDenied
  else if peer != s.fab.peerId && (s.stationFor 0).isNone then some Cause.replyTimeout
  else none

/-- The 64-bit tag of a request or completion (22 R387): KIND 0 transfer packet, 1 flag write, 2 remote atomic, 3 positive reply,
4 negative reply, 5 incarnation announcement. -/
def fabricTag (kind sinc dinc src dom map xid : Nat) : DWord :=
  BitVec.ofNat 64 (kind * 2 ^ 61 + sinc * 2 ^ 53 + dinc * 2 ^ 45 + src * 2 ^ 35 + dom * 2 ^ 19 + map * 2 ^ 14 + xid)

/-- The tags of requests. -/
def packetTag (p : FabricPacket) : DWord := fabricTag p.kind p.sinc p.dinc p.src p.dom p.map p.xid
def atomicTag (a : FabricAtomic) : DWord := fabricTag 2 a.sinc a.dinc a.src a.dom a.map a.xid

/-- The tag of a completion to a peer: it goes back with the request's domain, mapping and transfer number (log 15). -/
def State.backOf (s : State) (src : Nat) (req : FabricReq) : FabricTag := ⟨req, s.fab.peerId, ⟨s.ownInc, s.incOf src⟩⟩

/-- The 64 bits of that tag. -/
def State.backTag (s : State) (kind src dom map xid : Nat) : DWord :=
  fabricTag kind s.ownInc (s.incOf src) s.fab.peerId dom map xid

/-- Sends a packet: to this package through the hub's loopback, else over a station. -/
def State.sendPacket (s : State) (peer j : Nat) (p : FabricPacket) : State :=
  if peer = s.fab.peerId then s.later (.transferPacketArrival p)
  else match s.stationFor (p.xid + j) with
    | some st => s.emit (.packet peer st (packetTag p) p)
    | none => s

/-- Sends a remote atomic. -/
def State.sendAtomic (s : State) (peer : Nat) (a : FabricAtomic) : State :=
  if peer = s.fab.peerId then s.later (.remoteAtomicArrival a) else s.emit (.atomic peer (atomicTag a) a)

/-- FABCTL EN is written (22 R389, R392): a change to 1 announces the incarnation, which the first change after a reset
increments and stores. -/
def State.setFabEn (s : State) (en : Bool) : State :=
  if en && !s.fab.en then
    let inc := if s.fab.joined then s.trust.inc else (s.trust.inc + 1) % 256
    let s := { s with trust := { s.trust with inc := inc } }
    let s := s.modFab fun f => { f with en := true, joined := true }
    s.fab.peerv.foldl (fun s p =>
      if p = s.fab.peerId then s else s.emit (.announce p (fabricTag 5 inc (s.incOf p) s.fab.peerId 0 0 0))) s
  else s.modFab fun f => { f with en := en }

/-- A write of a domain-table entry (22 R386): its other bits ignore writes (00 R8), and a duplicate is ignored. -/
def State.setDomain (s : State) (k : Nat) (v : Word) : State :=
  let v := v &&& 0x8000FFFF
  let dup := v.getLsbD 31 && s.fab.domains.any fun e => e.1 != k && e.2.getLsbD 31 && e.2.toNat % 2 ^ 16 == v.toNat % 2 ^ 16
  if 2048 ≤ k ∨ dup then s
  else s.modFab fun f => { f with domains := Table.set f.domains k v }

/-- A register write of the hosts that the hub holds: writes that come after it are held too, for they take effect in the order in which they
arrive (22 R396, R398). -/
def heldWrite : Instr → Bool
  | .hostMemAccess .. => false
  | _ => true

/-- A register write of a host arrives: nothing in reset, held behind a write that is held, else it takes effect. -/
def State.hostWrites (s : State) (i : Instr) (f : State → State) : State :=
  if s.awake = false then s
  else if s.fab.held.any heldWrite then s.modFab fun x => { x with held := x.held ++ [i] }
  else f s

/-! ## Judging arrivals (13 R248-R252, 22 R388) -/

/-- A receive mapping of a context (13 R248). -/
def State.rxMap (s : State) (key n : Nat) : RxMap :=
  match s.ctx? key with
  | some c => Table.getD c.rx n ⟨0, 0, none⟩
  | none => ⟨0, 0, none⟩

def RxMap.v (m : RxMap) : Bool := m.b.getLsbD 0
def RxMap.wr (m : RxMap) : Bool := m.b.getLsbD 1
def RxMap.at' (m : RxMap) : Bool := m.b.getLsbD 2
def RxMap.base (m : RxMap) : Nat := m.b.toNat / 4096 * 4096
def RxMap.bytes (m : RxMap) : Nat := 4096 * bitsN m.l.toNat 31 12
def RxMap.ce (m : RxMap) : Bool := m.l.getLsbD 44
def RxMap.ctr (m : RxMap) : Nat := bitsN m.l.toNat 43 32

/-- The counter a mapping counts into, where a live grid holds it (13 R251): the grid and the index. -/
def State.rxCounter (s : State) (m : RxMap) : Option (Nat × Nat) :=
  match m.grid with
  | some g =>
    match Table.find? s.grids g with
    | some x => if x.counters.isSome && decide (m.ctr < x.lr.counters) then some (g, m.ctr) else none
    | none => none
  | none => none

/-- Counts dropped and stale requests. -/
def State.dropReq (s : State) : State := s.modFab fun f => { f with dropped := f.dropped + 1 }
def State.staleReq (s : State) : State := s.modFab fun f => { f with stale := f.stale + 1 }

/-- What the receiving hub finds of a request before judging it (22 R388, R392). -/
inductive Admit where
  | drop (s : State)
  | refuse
  | judge (key : Nat)

/-- The checks of R388 on a request. -/
def State.peerCheck (s : State) (kindOk : Bool) (sinc dinc src dom : Nat) : Admit :=
  if s.fab.en = false then .drop s
  else if kindOk = false then .drop s.dropReq
  else if dinc ≠ s.ownInc then .drop s.staleReq
  else if sinc ≠ s.incOf src then .drop s.staleReq
  else if s.fab.peerv.contains src = false then .drop s.dropReq
  else match s.keyOfDomain dom with
    | none => .refuse
    | some k => .judge k

/-- Replies to the sender of a transfer (13 R252). -/
def State.reply (s : State) (r : RecvOp) (cause bytes : Nat) : State :=
  if r.src = s.fab.peerId then
    let t := s.backOf r.src ⟨r.dom, r.map, r.xid⟩
    s.later (.transferReply t.req t.src t.incs (cause == 0) cause bytes)
  else s.emit (.reply r.src (s.backTag (if cause = 0 then 3 else 4) r.src r.dom r.map r.xid) cause bytes)

/-- Splits bytes at the boundaries of sealing units: runs that lie in one unit. -/
def unitRuns (a : Nat) : List Byte → List (Nat × List Byte)
  | [] => []
  | b :: r =>
    match unitRuns (a + 1) r with
    | (x, l) :: q => if a / 64 = x / 64 then (a, b :: l) :: q else (a, [b]) :: (x, l) :: q
    | [] => [(a, [b])]

/-- What a write of `n` bytes of one unit meets at its home before it writes: a refused key, a page that is retired, a port that
is down, or the failing read with which a write of part of a unit begins (16 R316-R319). -/
def State.homeCheck (s : State) (key pa n : Nat) : State × Option Why :=
  match s.keyBlocked key with
  | some w => (s, some w)
  | none =>
    match s.devOff pa with
    | some o =>
      if s.mem.retired.contains (o / 4096) then (s, some .poisoned)
      else if n = 64 ∨ s.mem.poison.contains (o / 64) then (s, none)
      else s.towerRead key (o / 64)
    | none => (s, if s.hostBlocked pa then some .hostPort else none)

/-- Writes runs of bytes, each in one unit, for an agent, all or nothing: each is checked before the first is written. -/
def State.agentWrites (s : State) (key : Nat) (l : List (Nat × List Byte)) : State × Option Why :=
  let c := l.foldl (fun (x : State × Option Why) p =>
    match x.2 with
    | some _ => x
    | none =>
      (x.1.dropEverywhere (p.1 / 128)).homeCheck key p.1 p.2.length) (s, none)
  match c with
  | (s, some w) => (s, some w)
  | (s, none) => (l.foldl (fun s p => (s.agentWrite key p.1 p.2).1) s, none)

/-- Translates every unit of a range of bytes that an agent writes: the writes, or the failure and its address. -/
def State.agentPlaces (s : State) (key va : Nat) (bytes : List Byte) : State × Except (Why × Nat) (List (Nat × List Byte)) :=
  (unitRuns va bytes).foldl (fun (x : State × Except (Why × Nat) (List (Nat × List Byte))) r =>
    match x.2 with
    | .error _ => x
    | .ok l => match x.1.deviceTranslate key r.1 .store with
      | (s, .error w) => (s, .error (w, r.1))
      | (s, .ok pa) => (s, .ok (l ++ [(pa, r.2)]))) (s, .ok [])

/-- Writes bytes at a global address of a context for an agent, all or nothing: every unit is translated first. -/
def State.agentStore (s : State) (key va : Nat) (bytes : List Byte) : State × Option Why :=
  match s.agentPlaces key va bytes with
  | (s, .error w) => (s, some w.1)
  | (s, .ok l) => s.agentWrites key l

/-- What a write of a transfer engine comes to. -/
inductive AgentRes where
  | done (s : State)
  | failed (s : State) (w : Why) (va : Nat)
  /-- A locked range, or a tower that is not ready, holds it (15 R303, 26 R439). -/
  | held

/-- A transfer engine may not write a range of physical memory yet. -/
def State.engineHeld (s : State) (pa n : Nat) : Bool := s.lockedAt .phys pa n || !s.homeReady pa

/-- Writes bytes at a global address of a context for a transfer engine, all or nothing. -/
def State.agentPut (s : State) (key va : Nat) (bytes : List Byte) : AgentRes :=
  match s.agentPlaces key va bytes with
  | (s, .error w) => .failed s w.1 w.2
  | (s, .ok l) =>
    if l.any fun p => s.engineHeld p.1 p.2.length then .held
    else match s.agentWrites key l with
      | (s, some w) => .failed s w va
      | (s, none) => .done s

/-- A replayable reason of a page-fault record (20 R371). -/
def pageReasonOf : Why → Option Nat
  | .pageAbsent => some 4
  | .pagePermission => some 5
  | _ => none

/-- A transfer engine's write has failed at an address: the record it waits on, or none where the fault is final (20 R371). -/
def State.agentFault (s : State) (key va : Nat) (w : Why) (started hub : Nat) : State × Option Nat :=
  match pageReasonOf w with
  | none => (s, none)
  | some r => s.postPage key (va % 2 ^ 57 / 4096) r Kind.store.code true 0xFFF (fabricEngine hub) 0 started

/-- The cycle in which a pending record was first posted. -/
def State.pageStart (s : State) (id : Nat) : Nat := ((Table.find? s.xl.pages id).map PageRec.started).getD s.cycle

/-- The hub at which packet `j` of a transfer arrives: that of the station it leaves on, for station s of every peer is on switch s
(22 R385, 25 R417). -/
def State.hubOf (s : State) (xid j : Nat) : Nat := ((s.stationFor (xid + j)).getD 0) / 24

/-! ## Transfers that arrive (13 R251, R252; 22 R385) -/

/-- A record of a transfer that arrives. -/
def RecvOp.isOf (r : RecvOp) (src sinc xid : Nat) : Bool := r.src == src && r.sinc == sinc && r.xid == xid

/-- A packet belongs to the transfer of a record: one of another shape is of a new transfer that has taken its number again. -/
def RecvOp.fits (r : RecvOp) (p : FabricPacket) : Bool :=
  r.isOf p.src p.sinc p.xid && r.dom == p.dom && r.map == p.map && r.total == p.npkts && r.base == p.base

/-- The transfer a packet belongs to, or a fresh one. -/
def State.recvOf (s : State) (key : Nat) (p : FabricPacket) : RecvOp :=
  (s.eng.recvs.find? fun r => r.fits p && !r.ended).getD
    ⟨p.src, p.sinc, p.xid, p.dom, p.map, p.npkts, p.base, [], none, key, none, none, s.cycle, false⟩

/-- Puts a record of a transfer that arrives in its place. -/
def State.setRecv (s : State) (r : RecvOp) : State :=
  s.modEng fun e =>
    { e with recvs := if e.recvs.any fun x => x.isOf r.src r.sinc r.xid then
        e.recvs.map fun x => if x.isOf r.src r.sinc r.xid then r else x else e.recvs ++ [r] }

/-- A transfer has been answered; the hub remembers it, to discard repeated packets. -/
def State.endRecv (s : State) (r : RecvOp) : State := s.setRecv { r with ended := true, wait := none }

/-- An answered transfer can have no packet on its way any more: its sender has had its reply bound, or has gone on by half its transfer
numbers, as the number of a request that arrives shows (log 70). -/
def State.outlived (s : State) (src xid : Nat) (r : RecvOp) : Bool :=
  r.ended && (decide (r.started + s.fab.freply.toNat * 1024 < s.cycle) ||
    (r.src == src && decide (8192 ≤ (xid + 16384 - r.xid % 16384) % 16384)))

/-- The hub forgets the transfers that have no packet on their way. -/
def State.forgetRecvs (s : State) (src xid : Nat) : State :=
  s.modEng fun e => { e with recvs := e.recvs.filter fun r => !s.outlived src xid r }

/-- The refusal at the lowest offset. -/
def RecvOp.refusal (r : RecvOp) : Option Nat :=
  let bad := r.judged.filter fun j => j.2.2.isSome
  match bad with
  | [] => none
  | j :: q => (q.foldl (fun (b : Nat × Nat × Option Nat) x => if x.1 < b.1 then x else b) j).2.2

/-- Bytes written of a transfer. -/
def RecvOp.written (r : RecvOp) : Nat :=
  r.judged.foldl (fun n j => if j.2.2.isNone then n + j.2.1 else n) 0

/-- The transfer is answered. -/
def State.answerRecv (s : State) (r : RecvOp) (cause : Nat) : State := (s.endRecv r).reply r cause r.written

/-- The end of a transfer whose packets have all been judged (13 R252): the flag, then the reply. A flag that meets a replayable
fault waits on a record like the packet it came with, and one that meets a locked range waits for it. -/
def State.finishRecv (s : State) (r : RecvOp) : State :=
  match r.refusal, r.flag with
  | some c, _ => s.answerRecv r c
  | none, none => s.answerRecv r 0
  | none, some (off, v) =>
    let m := s.rxMap r.key r.map
    if m.v = false ∨ m.wr = false then s.answerRecv r Cause.mappingDenied
    else if m.bytes < off + 8 then s.answerRecv r Cause.mappingBound
    else match s.agentPut r.key (m.base + off) (leBytes 8 v.toNat) with
      | .done s => s.answerRecv r 0
      | .held => s.setRecv { r with wait := none }
      | .failed s w a =>
        match s.agentFault r.key a w (r.first.getD s.cycle) (s.hubOf r.xid (r.total - 1)) with
        | (s, none) => s.answerRecv r (w.cause .store)
        | (s, some id) => s.setRecv { r with wait := some (id, w.cause .store), first := some (r.first.getD (s.pageStart id)) }

/-- Every packet of a transfer has been judged, and its flag is to be written. -/
def RecvOp.due (r : RecvOp) : Bool := !r.ended && r.wait.isNone && decide (r.total ≤ r.judged.length)

/-- Notes the judgement of a packet: a refusal counts at the context, the completion goes back, and the last one ends the
transfer (13 R251, R252). -/
def State.noteJudged (s : State) (key : Nat) (p : FabricPacket) (refused : Option Nat) : State :=
  let r := s.recvOf key p
  let r := { r with judged := r.judged ++ [(p.off, p.data.length, refused)]
                    flag := if p.hasFlag then some (p.flagOff, p.flag) else r.flag }
  let s := if refused.isSome then s.count key 0x18 1 else s.count key 0x17 p.data.length
  let s :=
    if p.src = s.fab.peerId then
      s.later (.packetWriteCompletion (s.backOf p.src ⟨p.dom, p.map, p.xid⟩) (p.kind == 1) p.off refused.isNone)
    else s.emit (.written p.src (s.backTag p.kind p.src p.dom p.map p.xid) p.off refused.isNone)
  if r.total ≤ r.judged.length then s.finishRecv r else s.setRecv r

/-- Writes a judged packet, then counts it (13 R251); a replayable fault holds it on a record of the page of its first byte that
faults (20 R371), and a locked range holds it (15 R303). -/
def State.landPacket (s : State) (h : HeldPkt) : State :=
  match s.agentPut h.key h.va h.pkt.data with
  | .done s =>
    let s := match h.ctr with
      | some (g, i) => s.counterAdd g i (BitVec.ofNat 64 h.pkt.data.length)
      | none => s
    s.noteJudged h.key h.pkt none
  | .held => s.modEng fun e => { e with heldPkts := e.heldPkts ++ [{ h with id := noPage, cause := 0 }] }
  | .failed s w a =>
    match s.agentFault h.key a w (h.started.getD s.cycle) (s.hubOf h.pkt.xid (h.pkt.off / 256)) with
    | (s, none) => s.noteJudged h.key h.pkt (some (w.cause .store))
    | (s, some id) =>
      let h := { h with id := id, cause := w.cause .store, started := some (h.started.getD (s.pageStart id)) }
      s.modEng fun e => { e with heldPkts := e.heldPkts ++ [h] }

/-- Judges an admitted packet against its mapping as it stands (13 R249, R251). -/
def State.judgePacket (s : State) (key : Nat) (p : FabricPacket) : State :=
  let m := s.rxMap key p.map
  let ctr := s.rxCounter m
  if m.v = false ∨ m.wr = false then s.noteJudged key p (some Cause.mappingDenied)
  else if m.bytes < p.base + p.off + p.data.length then s.noteJudged key p (some Cause.mappingBound)
  else if m.ce ∧ ctr.isNone then s.noteJudged key p (some Cause.counterAbsent)
  else s.landPacket ⟨0, p, key, m.base + p.base + p.off, if m.ce then ctr else none, 0, none⟩

/-- A repeated packet with the same transfer number and offset is discarded (22 R385). -/
def State.isRepeat (s : State) (p : FabricPacket) : Bool :=
  (s.eng.recvs.any fun r => r.fits p && !s.outlived p.src p.xid r && r.judged.any fun j => j.1 == p.off) ||
    s.eng.heldPkts.any fun h => h.pkt.src == p.src && h.pkt.sinc == p.sinc && h.pkt.xid == p.xid && h.pkt.off == p.off

/-- A request the stations accept (22 R384): a packet or flag write of at most 256 bytes. -/
def packetOk (p : FabricPacket) : Bool := decide (p.kind ≤ 1) && decide (p.data.length ≤ 256)

/-- TRANSFER_PACKET_ARRIVAL (13 R251, 22 R388). A packet whose domain is bound to no entry is refused with mapping-denied. -/
def State.packetArrives (s : State) (p : FabricPacket) : State :=
  match s.peerCheck (packetOk p) p.sinc p.dinc p.src p.dom with
  | .drop s => s
  | .refuse =>
    if s.isRepeat p then s else (s.forgetRecvs p.src p.xid).noteJudged 2048 p (some Cause.mappingDenied)
  | .judge k => if s.isRepeat p then s else (s.forgetRecvs p.src p.xid).judgePacket k p

/-- Answers a remote atomic. -/
def State.atomReply (s : State) (a : FabricAtomic) (cause : Nat) (v : DWord) : State :=
  if a.src = s.fab.peerId then s.later (.ratomReply (s.backOf a.src ⟨a.dom, a.map, a.xid⟩) (cause == 0) cause v)
  else s.emit (.atomReply a.src (s.backTag (if cause = 0 then 3 else 4) a.src a.dom a.map a.xid) cause v)

/-- Applies a remote atomic at the home of its address, at SY (13 R256); a locked range holds it (15 R303). -/
def State.applyAtomic (s : State) (key : Nat) (a : FabricAtomic) : State :=
  let m := s.rxMap key a.map
  let n := if a.op.is64 then 8 else 4
  let va := m.base + a.off
  if m.v = false ∨ m.at' = false then s.atomReply a Cause.mappingDenied 0
  else if m.bytes < a.off + n then s.atomReply a Cause.mappingBound 0
  else if va % n ≠ 0 then s.atomReply a (Why.cause .atomic .misaligned) 0
  else match s.deviceTranslate key va .atomic with
    | (s, .error w) => s.atomReply a (w.cause .atomic) 0
    | (s, .ok pa) =>
      if s.engineHeld pa n then s.modEng fun e => { e with heldAtoms := e.heldAtoms ++ [(key, a)] }
      else match (s.dropEverywhere (pa / 128)).agentRead key pa n with
        | (s, .error w) => s.atomReply a (w.cause .atomic) 0
        | (s, .ok bs) =>
          match s.agentWrite key pa (leBytes n (atomResult a.op (leNat bs) (a.operand.toNat % 2 ^ (8 * n)))) with
          | (s, some w) => s.atomReply a (w.cause .atomic) 0
          | (s, none) => s.atomReply a 0 (BitVec.ofNat 64 (leNat bs))

/-- What waits at this target for a locked range or a tower is tried again; what must wait on stays as it is. -/
def State.landHeld (s : State) : State :=
  let s := (s.eng.heldPkts.filter fun h => h.id == noPage).foldl (fun s h =>
    let r := (s.modEng fun e => { e with heldPkts := e.heldPkts.filter (· != h) }).landPacket h
    if r.eng.heldPkts.contains h then s else r) s
  let s := s.eng.heldAtoms.foldl (fun s a =>
    let r := (s.modEng fun e => { e with heldAtoms := e.heldAtoms.filter (· != a) }).applyAtomic a.1 a.2
    if r.eng.heldAtoms.contains a then s else r) s
  (s.eng.recvs.filter RecvOp.due).foldl (fun s r => s.finishRecv r) s

/-- REMOTE_ATOMIC_ARRIVAL (13 R256, 22 R388). -/
def State.atomicArrives (s : State) (a : FabricAtomic) : State :=
  match s.peerCheck true a.sinc a.dinc a.src a.dom with
  | .drop s => s
  | .refuse => s.atomReply a Cause.mappingDenied 0
  | .judge k => s.applyAtomic k a

end Sys2Proof.Machine
end

