-- ==== Sys2Proof/Machine/Boot.lean ====
section
/-! DEFINITION. Reset, the measured boot, readiness and feature negotiation (24 R407-R409; 26 R438-R444). -/

namespace Sys2Proof.Machine

/-- The bytes of a digest; bit 0 of the number is bit 0 of byte 0. -/
def digestBytes (d : BitVec 256) : List Byte := leBytes 32 d.toNat

/-- A digest of bytes. -/
def digestOf (b : List Byte) : BitVec 256 := BitVec.ofNat 256 (leNat b)

/-- A measurement register. -/
def State.mr (s : State) (i : Nat) : BitVec 256 := Table.getD s.trust.mr i 0

/-- Extends a measurement register: MR := SHA-256(MR ‖ digest) (24 R407). -/
def State.extendMr (s : State) (i : Nat) (digest : List Byte) : State :=
  { s with trust := { s.trust with mr := Table.set s.trust.mr i (Config.sha256 (digestBytes (s.mr i) ++ digest)) } }

/-! ## Boot (24 R407, R409) -/

/-- A stage image's header says how long the image is and what its digest is; the last 64 of its 128 bytes are the signature (r, s)
over the first 64 (24 R407; log 74). -/
def stageLength (x : BootStage) : Nat := leNat (x.header.take 8)
def stageDigest (x : BootStage) : List Byte := (x.header.drop 32).take 32

/-- The check of a stage image under a public key. -/
def stageOk (x : BootStage) (key : List Byte) : Bool :=
  x.header.length == 128 && x.image.length == stageLength x && digestBytes (Config.sha256 x.image) == stageDigest x &&
    Config.ecdsaVerify key (x.header.take 64) (x.header.drop 64)

/-- The stage image of a step, from step 2 on. -/
def bootStage (b : BootImages) (i : Nat) : BootStage := b.stages.getD (i - 2) ⟨[], []⟩

/-- The operator platform key record: the platform key, and the feature request it holds (24 R407, 26 R440; log 74). -/
def platformKey (b : BootImages) : List Byte := (bootStage b 3).image.take 64
def platformRequest (b : BootImages) : BitVec 128 := BitVec.ofNat 128 (leNat (((bootStage b 3).image.drop 64).take 16))

/-- Steps 1 to 6 of the chain: what each extends, and whether its check passes. The monitor and the kernel are signed with the
platform key, the others with Spemus's. -/
def bootChain (b : BootImages) : List (List Byte × Bool) :=
  (b.romDigest, b.fusesOk) :: (List.range 5).map fun j =>
    let x := bootStage b (j + 2)
    (stageDigest x, stageOk x (if j = 2 ∨ j = 3 then platformKey b else Config.spemusKey))

/-- Steps of the chain from `i` on: a check that fails stops it there, named. -/
def State.bootSteps (s : State) (i : Nat) : List (List Byte × Bool) → State
  | [] => s
  | (d, ok) :: r =>
    if ok then
      let s := s.extendMr (i - 1) d
      State.bootSteps { s with trust := { s.trust with stage := i } } (i + 1) r
    else { s with trust := { s.trust with failed := some i } }

/-- The alias key, from the CDI of MR0 to MR5 (24 R409). -/
def State.aliasOf (s : State) : BitVec 256 × List Byte :=
  Config.p256Key (Config.hmac (digestBytes Config.uds) ((List.range 6).flatMap fun i => digestBytes (s.mr i)))

/-- What a device reset leaves: the state after reset, with host memory, the towers' contents, poison and retired pages
(16 R318, R319), the replay-protected block and the flash (24 R412, R413) as they were. No slice region is left, for there is no grid. -/
def State.cleared (s : State) : State :=
  let r := State.reset
  { r with
    cycle := s.cycle
    ctxs := [(0, Ctx.operator (s.trust.boots + 1))]
    mem := { r.mem with host := s.mem.host, dev := s.mem.dev.filter fun e => decide (e.1 < sliceBase)
                        seals := s.mem.seals.filter fun e => decide (64 * e.1 < sliceBase)
                        poison := s.mem.poison.filter fun u => decide (64 * u < sliceBase)
                        symErr := s.mem.symErr.filter fun e => decide (64 * e.1 < sliceBase)
                        hostBad := s.mem.hostBad, retired := s.mem.retired, retCount := s.mem.retCount }
    trust := { r.trust with railsOk := s.trust.railsOk, boots := s.trust.boots + 1, inc := s.trust.inc,
                            versions := s.trust.versions, nvme := s.trust.nvme }
    m := { r.m with inbox := s.m.inbox, out := s.m.out, free := s.m.free } }

/-- DEVICE_RESET: the security-core ROM runs the measured boot chain (24 R407). -/
def execDeviceReset (b : BootImages) (s : State) : Res :=
  .next <|
    if s.trust.railsOk = false then s
    else
      let s := s.cleared.bootSteps 1 (bootChain b)
      if s.trust.stage = 6 then
        { s with trust := { s.trust with stage6 := s.cycle, platform := platformRequest b, aliasKey := s.aliasOf } }
      else s

/-- RAILS_STABLE: the device may leave reset (26 R443). -/
def execRailsStable (s : State) : Res := .next { s with trust := { s.trust with railsOk := true } }

/-- FUNCTION_READY (26 R438): a failed boot check keeps every function in reset (24 R407). -/
def execFunctionReady (isCore : Bool) (n : Nat) (s : State) : Res :=
  .next <|
    if s.trust.boots = 0 ∨ s.trust.failed.isSome then s
    else if isCore then
      if 192 ≤ n ∨ (s.core n).ready then s
      else s.modCore n fun c => { c with ready := true, start := s.cycle }
    else if 36 ≤ n then s
    else { s with ctl := { s.ctl with fnReady := s.ctl.fnReady ||| BitVec.ofNat 64 (2 ^ n) }, m := { s.m with waits := [] } }

/-! ## Feature negotiation (26 R440) -/

/-- FEATOFF: the bits of R62 that the device offers (log 20). -/
def offered : BitVec 128 := 0x1FF

/-- The negotiated vector of a request (26 R440). -/
def negotiate (req : BitVec 128) : BitVec 128 :=
  let n := (req &&& offered) ||| 1
  let n := if n.getLsbD 3 then n else n &&& ~~~(1#128 <<< 4)
  if n.getLsbD 6 then n else n &&& ~~~(1#128 <<< 7)

/-- The lock: the vector, MR6, the release of the service cores. It waits for boot step 6 and happens once; after a fog there is none
(24 R416). -/
def State.lockFeatures (s : State) (req : BitVec 128) : State :=
  if s.ctl.locked || s.trust.stage != 6 || s.trust.fogged then s
  else
    let n := negotiate req
    let s := { s with ctl := { s.ctl with locked := true, neg := n } }
    let s := s.extendMr 6 (leBytes 16 n.toNat)
    let s := (List.range 16).foldl (fun s h => s.setHart h { s.hart h with released := true }) s
    { s with trust := { s.trust with stage := 7 } }

/-- A write of FEATREQ, ignored after the lock (26 R440, R441). -/
def State.setFeatReq (s : State) (high : Bool) (v : DWord) : State :=
  if s.ctl.locked then s
  else
    let lo := s.ctl.featReq.setWidth 64
    let hi := (s.ctl.featReq >>> 64).setWidth 64
    { s with ctl := { s.ctl with featReq := if high then v ++ lo else hi ++ v } }

/-- FEATURE_LOCK: a write of FEATLOCK (26 R440); bits 31:1 must be zero. -/
def execFeatureLock (v : Word) (s : State) : Res :=
  .next (s.hostWrites (.featureLock v) fun s => if v = 1 then s.lockFeatures s.ctl.featReq else s)

/-- FEATURE_LOCK_TIMEOUT: 2^30 cycles after step 6 (26 R440). -/
def execFeatureLockTimeout (s : State) : Res :=
  .next (if s.trust.stage6 + 2 ^ 30 ≤ s.cycle then s.lockFeatures s.trust.platform else s)

/-- The vector as FEATQ reads it and as records are checked against it. -/
def State.featWord (s : State) (i : Nat) : Word := (s.ctl.neg >>> (32 * i)).setWidth 32

/-! ## Power (26 R442-R444) -/

/-- A cap of one is in force at a cluster: CAP1, or a forced cap. -/
def State.clusterCap (s : State) (cl : Nat) : Bool :=
  (Table.getD s.ctl.pwrcap cl 0).getLsbD 0 || s.ctl.overLim || s.ctl.hot.contains (cl / 3)

/-- POWER_LIMIT_EXCEEDED. -/
def execPowerLimitExceeded (s : State) : Res := .next { s with ctl := { s.ctl with overLim := true } }

/-- DIE_OVERTEMP. -/
def execDieOvertemp (die : Nat) (s : State) : Res :=
  .next (if 8 ≤ die then s else { s with ctl := { s.ctl with hot := insertNat s.ctl.hot die } })

/-- FORCED_CAP_LIFT: of the module, or of a die. -/
def execForcedCapLift (die : Option Nat) (s : State) : Res :=
  .next (match die with
    | none => { s with ctl := { s.ctl with overLim := false } }
    | some d => { s with ctl := { s.ctl with hot := s.ctl.hot.filter (· != d) } })

end Sys2Proof.Machine
end

