-- ==== Sys2Proof/Machine/Float.lean ====
section
/-! DEFINITION. The meanings of the floating, conversion, dot-product and reduction words (09 R182-R198, 04 R118). -/

namespace Sys2Proof.Machine

/-! ## Elements of a type (09 R183, R185) -/

/-- The format of a floating type's elements. -/
def ftyFmt : FTy → Fmt
  | .f32 => Fmt.f32
  | .f16x2 => Fmt.f16
  | .bf16x2 => Fmt.bf16
  | .f64 => Fmt.f64

/-- The codes of an operand's elements, low half first. -/
def elems (th : Thread) (t : FTy) (r : Reg) : List Nat :=
  match t with
  | .f32 => [(th.rv r).toNat]
  | .f64 => [(th.rx r).toNat]
  | .f16x2 | .bf16x2 => [(th.rv r).toNat % 2 ^ 16, (th.rv r).toNat / 2 ^ 16]

/-- The register writes of a result's elements, and the flags of all of them. -/
def elemOut (t : FTy) (d : Reg) (l : List Code) : RegOut :=
  let c := l.map Prod.fst
  let fl := l.foldl (fun f x => f ||| x.2) 0
  match t, c with
  | .f64, x :: _ => ⟨pairWrites d (BitVec.ofNat 64 x), [], fl⟩
  | .f32, x :: _ => ⟨regWrites d (BitVec.ofNat 32 x), [], fl⟩
  | _, lo :: hi :: _ => ⟨regWrites d (BitVec.ofNat 32 (lo + 2 ^ 16 * hi)), [], fl⟩
  | _, _ => ⟨[], [], fl⟩

/-- The source registers of an operand of a floating type. -/
def ftySrc (t : FTy) (r : Reg) : List Reg := if t = .f64 then pairSrc r else [r]

/-! ## FOP, the fused multiply-adds, FCMP -/

/-- One element of FOP (09 R186, R187). -/
def fopElem (o : FopOp) (f : Fmt) (rm : Rm) (x y : Nat) : Code :=
  match o with
  | .add => f.add rm (f.decode x) (f.decode y)
  | .sub => f.add rm (f.decode x) (f.decode y).negate
  | .mul => f.mul rm (f.decode x) (f.decode y)
  | .min => f.pick false x y
  | .max => f.pick true x y

/-- FOP (09 R185). -/
def execFop (ch : Bool) (d a b : Reg) (o : FopOp) (t : FTy) (rm : Rm) (s : State) : Res :=
  .next (s.runRegs (.fop ch d a b o t rm) (s.prodOf (ftySrc t a ++ ftySrc t b)) fun s q =>
    let th := s.src q
    elemOut t d (List.zipWith (fopElem o (ftyFmt t) rm) (elems th t a) (elems th t b)))

/-- One element of a fused multiply-add (09 R189). -/
def fmaElem (f : Fmt) (neg : Bool) (x y z : Nat) : Code := f.fma neg (f.decode x) (f.decode y) (f.decode z)

/-- A fused multiply-add in a lane. -/
def fmaLane (th : Thread) (t : FTy) (d a b e : Reg) (neg : Bool) : RegOut :=
  elemOut t d (List.zipWith (fun g z => g z)
    (List.zipWith (fmaElem (ftyFmt t) neg) (elems th t a) (elems th t b)) (elems th t e))

/-- FMA32 (09 R188, R189). -/
def execFma32 (ch : Bool) (d a b e : Reg) (neg : Bool) (s : State) : Res :=
  .next (s.runRegs (.fma32 ch d a b e neg) (s.prodOf [a, b, e]) fun s q => fmaLane (s.src q) .f32 d a b e neg)

/-- FMAH. -/
def execFmah (ch : Bool) (d a b e : Reg) (neg : Bool) (s : State) : Res :=
  .next (s.runRegs (.fmah ch d a b e neg) (s.prodOf [a, b, e]) fun s q => fmaLane (s.src q) .f16x2 d a b e neg)

/-- FMAB. -/
def execFmab (ch : Bool) (d a b e : Reg) (neg : Bool) (s : State) : Res :=
  .next (s.runRegs (.fmab ch d a b e neg) (s.prodOf [a, b, e]) fun s q => fmaLane (s.src q) .bf16x2 d a b e neg)

/-- FMAD. -/
def execFmad (ch : Bool) (d a b e : Reg) (neg : Bool) (s : State) : Res :=
  .next (s.runRegs (.fmad ch d a b e neg) (s.prodOf (pairSrc a ++ pairSrc b ++ pairSrc e)) fun s q =>
    fmaLane (s.src q) .f64 d a b e neg)

/-- FCMP (09 R194): the 16-bit types compare bits 15:0. -/
def execFcmp (ch : Bool) (p : PReg) (a b : Reg) (r : FCmpRel) (t : FTy) (s : State) : Res :=
  .next (s.runRegs (.fcmp ch p a b r t) prodG fun s q =>
    let th := s.src q
    let f := ftyFmt t
    let x := f.decode ((elems th t a).headD 0)
    let y := f.decode ((elems th t b).headD 0)
    let (v, fl) := fcmpResult r x y
    ⟨[], [(p, v)], fl⟩)

/-! ## CVT (09 R195, R196) -/

/-- Width and signedness of an integer type. -/
def cvtInt : CvtTy → Option (Nat × Bool)
  | .s8 => some (8, true)
  | .s16 => some (16, true)
  | .s32 => some (32, true)
  | .s64 => some (64, true)
  | .n8 => some (8, false)
  | .n16 => some (16, false)
  | .n32 => some (32, false)
  | .n64 => some (64, false)
  | _ => none

/-- The format of a floating type. -/
def cvtFmt : CvtTy → Fmt
  | .f16 => Fmt.f16
  | .bf16 => Fmt.bf16
  | .f64 => Fmt.f64
  | _ => Fmt.f32

/-- The raw bits of a source operand: a narrower source is read from its low bits. -/
def cvtBits (th : Thread) (t : CvtTy) (a : Reg) : Nat :=
  match t with
  | .s64 | .n64 | .f64 => (th.rx a).toNat
  | .s8 | .n8 => (th.rv a).toNat % 2 ^ 8
  | .s16 | .n16 | .f16 | .bf16 => (th.rv a).toNat % 2 ^ 16
  | _ => (th.rv a).toNat

/-- Least and greatest value of an integer type. -/
def intLo (w : Nat) (sg : Bool) : Int := if sg then -(2 ^ (w - 1)) else 0
def intHi (w : Nat) (sg : Bool) : Int := if sg then 2 ^ (w - 1) - 1 else 2 ^ w - 1

/-- An integer as `w` bits extended to 64 by its signedness. -/
def intOut (w : Nat) (sg : Bool) (x : Int) : DWord :=
  BitVec.ofInt 64 (if sg then sextN w (BitVec.ofInt w x).toNat else ((BitVec.ofInt w x).toNat : Int))

/-- The result of CVT on the bits of a source: 64 bits, of which a narrower destination takes the low ones (09 R196). From a float
type to itself a zero result keeps the sign of its source (log 76). -/
def cvtResult (dt st : CvtTy) (rm : Rm) (sat : Bool) (x : Nat) : DWord × BitVec 5 :=
  match cvtInt dt, cvtInt st with
  | some (dw, ds), some (sw, ss) =>
    let v : Int := if ss then sextN sw x else (x : Int)
    (intOut dw ds (if sat then satI v (intLo dw ds) (intHi dw ds) else v), 0)
  | none, some (sw, ss) =>
    let v : Int := if ss then sextN sw x else (x : Int)
    let c := (cvtFmt dt).roundZ rm v 0 false
    (BitVec.ofNat 64 c.1, c.2)
  | some (dw, ds), none =>
    match (cvtFmt st).decode x with
    | .nan _ => (0, flagNV)
    | .inf n => (intOut dw ds (if n then intLo dw ds else intHi dw ds), flagNV)
    | .num n m e =>
      let (q, ch) := toIntegral rm n m e
      let v := signedInt n q
      if v < intLo dw ds then (intOut dw ds (intLo dw ds), flagNV)
      else if intHi dw ds < v then (intOut dw ds (intHi dw ds), flagNV)
      else (intOut dw ds v, if ch then flagNX else 0)
  | none, none =>
    let f := cvtFmt dt
    match (cvtFmt st).decode x with
    | .nan sg => (BitVec.ofNat 64 f.nanCode, nvIf sg)
    | .inf n => (BitVec.ofNat 64 (f.infCode n), 0)
    | .num n m e =>
      if dt = st then
        let (q, ch) := toIntegral rm n m e
        let c := f.roundZ .rne (signedInt n q) 0 n
        (BitVec.ofNat 64 c.1, if ch then flagNX else 0)
      else
        let c := f.round rm n m e false
        (BitVec.ofNat 64 c.code, c.flags)

/-- A type that occupies a pair. -/
def cvtWide (t : CvtTy) : Bool :=
  match t with
  | .s64 | .n64 | .f64 => true
  | _ => false

/-- CVT (09 R195). -/
def execCvt (ch : Bool) (d a : Reg) (dt st : CvtTy) (rm : Rm) (sat : Bool) (s : State) : Res :=
  .next (s.runRegs (.cvt ch d a dt st rm sat) (s.prodOf (if cvtWide st then pairSrc a else [a])) fun s q =>
    let (v, fl) := cvtResult dt st rm sat (cvtBits (s.src q) st a)
    ⟨if cvtWide dt then pairWrites d v else regWrites d (v.setWidth 32), [], fl⟩)

/-! ## DOT4 and REDUX -/

/-- Byte i of a word as an integer. -/
def byteInt (w : Word) (i : Nat) (uns : Bool) : Int :=
  let b := bitsN w.toNat (8 * i + 7) (8 * i)
  if uns then (b : Int) else sextN 8 b

/-- DOT4 (09 R197). -/
def execDot4 (ch : Bool) (d a b e : Reg) (uns : Bool) (s : State) : Res :=
  .next (s.runRegs (.dot4 ch d a b e uns) (s.prodOf [a, b, e]) fun s q =>
    let th := s.src q
    let x := (List.range 4).foldl (fun (n : Int) i => n + byteInt (th.rv a) i uns * byteInt (th.rv b) i uns)
      ((th.rv e).toNat : Int)
    .ofRegs (regWrites d (BitVec.ofInt 32 x)))

/-- One node of REDUX on codes with their flags (04 R118). -/
def reduxNode (o : ReduxOp) (t : ReduxTy) (l h : Code) : Code :=
  let c : Code := match t, o with
    | .f32, .add => Fmt.f32.add .rne (Fmt.f32.decode l.1) (Fmt.f32.decode h.1)
    | .f32, .min => Fmt.f32.pick false l.1 h.1
    | .f32, .max => Fmt.f32.pick true l.1 h.1
    | _, .add => ((l.1 + h.1) % 2 ^ 32, 0)
    | .s32, .min => (if sextN 32 l.1 ≤ sextN 32 h.1 then l.1 else h.1, 0)
    | .s32, .max => (if sextN 32 l.1 ≤ sextN 32 h.1 then h.1 else l.1, 0)
    | .n32, .min => (min l.1 h.1, 0)
    | .n32, .max => (max l.1 h.1, 0)
  (c.1, c.2 ||| l.2 ||| h.2)

/-- The result of REDUX over the live lanes of a crew (04 R118): an absent lane adds +0 to an ADD. -/
def State.reduxResult (s : State) (c : Nat) (a : Reg) (o : ReduxOp) (t : ReduxTy) : Code :=
  let leaf (i : Nat) : Option Code := match s.laneOf c i with
    | some q => some (((s.src q).rv a).toNat, 0)
    | none => if o = .add then some (0, 0) else none
  (treeReduce (reduxNode o t) ((List.range 32).map leaf)).getD (0, 0)

/-- REDUX (04 R118): the flags of every node reach every live lane. -/
def execRedux (ch : Bool) (d a : Reg) (o : ReduxOp) (t : ReduxTy) (s : State) : Res :=
  .next (s.runRegs (.redux ch d a o t) prodG fun s q =>
    let r := s.reduxResult (s.thread q).crew a o t
    ⟨regWrites d (BitVec.ofNat 32 r.1), [], r.2⟩)

end Sys2Proof.Machine
end

