-- ==== Sys2Proof/Machine/Fun.lean ====
section
/-! DEFINITION. The meaning of FUN (09 R190-R193): each function is the mathematical value rounded once. Reciprocals and roots
are exact quotients and integer roots; the transcendental functions are bracketed by integer arithmetic of 640 fraction bits
(log 11): their values at the remaining inputs are irrational, so the bracket decides the rounding; where it did not, the free
choice Config.funTail would. -/

namespace Sys2Proof.Machine

/-- Fraction bits of the bracketing arithmetic. -/
def funP : Nat := 640

/-- ⌊π × 2^800⌋. -/
def piN : Nat := 0x3243f6a8885a308d313198a2e03707344a4093822299f31d0082efa98ec4e6c89452821e638d01377be5466cf34e90c6cc0ac29b7c97c50dd3f84d5b5b54709179216d5d98979fb1bd1310ba698dfb5ac2ffd72dbd01adfb7b8e1afed6a267e96ba7c9045

/-- ⌊ln 2 × 2^700⌋. -/
def ln2N : Nat := 0xb17217f7d1cf79abc9e3b39803f2f6af40f343267298b62d8a0d175b8baafa2be7b876206debac98559552fb4afa1b10ed2eae35c138214427573b291169b8253e96ca16224ae8c51acbda11317c387eb9ea9bc3b136603

/-- ⌊ln 2 × 2^640⌋. -/
def ln2P : Nat := ln2N / 2 ^ 60

/-- A value above lo × 2^e and below (hi + 1) × 2^e in magnitude, rounded. -/
def funRound (f : Fmt) (neg : Bool) (lo hi : Nat) (e : Int) : Code :=
  let a := f.round .rne neg lo e true
  let b := f.round .rne neg hi e true
  if a = b then a.out
  else if Config.funTail f.p lo e then a.out else b.out

/-- A value within err × 2^e of v × 2^e. -/
def funAround (f : Fmt) (neg : Bool) (v err : Nat) (e : Int) : Code := funRound f neg (v - err) (v + err) e

/-- The sum of the terms r^k / k! from k on, in fixed point. -/
def expTerms (r : Nat) : Nat → Nat → Nat → Nat
  | 0, _, _ => 0
  | n + 1, k, t =>
    let t' := t * r / 2 ^ funP / k
    t' + expTerms r n (k + 1) t'

/-- e^r for r below ln 2. -/
def expFix (r : Nat) : Nat := 2 ^ funP + expTerms r 130 1 (2 ^ funP)

/-- The sum of the terms z^(2k+1) / (2k+1). -/
def atanhTerms (zz : Nat) : Nat → Nat → Nat → Nat
  | 0, _, _ => 0
  | n + 1, k, t => t / k + atanhTerms zz n (k + 2) (t * zz / 2 ^ funP)

/-- The alternating sum of the terms of sine (first term r, k = 2) or cosine (first term 1, k = 1). -/
def trigTerms (rr : Nat) : Nat → Nat → Nat → Int
  | 0, _, _ => 0
  | n + 1, k, t => (t : Int) - trigTerms rr n (k + 2) (t * rr / 2 ^ funP / (k * (k + 1)))

/-- sin r and cos r for r in the first quadrant. -/
def sinFix (r : Nat) : Nat := (trigTerms (r * r / 2 ^ funP) 90 2 r).toNat
def cosFix (r : Nat) : Nat := (trigTerms (r * r / 2 ^ funP) 90 1 (2 ^ funP)).toNat

/-- The exponent of the leading bit of m × 2^e. -/
def topBit (m : Nat) (e : Int) : Int := (Nat.log2 m : Int) + e

/-- 2^x for x = ±m × 2^e, m not 0. -/
def ex2Num (f : Fmt) (neg : Bool) (m : Nat) (e : Int) : Code :=
  if 10 ≤ topBit m e then
    if neg then (f.round .rne false 1 (-5000) true).out else (f.round .rne false 1 5000 true).out
  else
    let z := signedInt neg (m * 2 ^ (e + funP).toNat)
    let n := z / 2 ^ funP
    let fr := (z % 2 ^ funP).toNat
    if fr = 0 then (f.round .rne false 1 n false).out
    else funAround f false (expFix (fr * ln2P / 2 ^ funP)) (2 ^ 12) (n - funP)

/-- log2 of m × 2^e, m not 0. -/
def lg2Num (f : Fmt) (m : Nat) (e : Int) : Code :=
  let t := Nat.log2 m
  let n := (t : Int) + e
  if m = 2 ^ t then f.roundZ .rne n 0 false
  else
    let g := m * 2 ^ funP / 2 ^ t
    let z := (g - 2 ^ funP) * 2 ^ funP / (g + 2 ^ funP)
    let l := 2 * atanhTerms (z * z / 2 ^ funP) 220 1 z
    let v := n * 2 ^ funP + ((l * 2 ^ funP / ln2P : Nat) : Int)
    funAround f (decide (v < 0)) v.natAbs (2 ^ 12) (-(funP : Int))

/-- sin or cos of ±m × 2^e, m not 0. -/
def trigNum (f : Fmt) (cosine neg : Bool) (m : Nat) (e : Int) : Code :=
  if topBit m e < -99 then
    if cosine then (f.round .rne false (2 ^ 190 - 1) (-190) true).out
    else (f.round .rne neg (m * 2 ^ 170 - 1) (e - 170) true).out
  else
    let z := m * 2 ^ (e + 801).toNat
    let q := z / piN
    let r := z % piN / 2 ^ 161
    let k := (if cosine then q + 1 else q) % 4
    let sgn := (k == 2 || k == 3) != (neg && !cosine)
    funAround f sgn (if k % 2 = 0 then sinFix r else cosFix r) (2 ^ 12) (-(funP : Int))

/-- tanh of m × 2^e in magnitude, m not 0. -/
def tanhNum (f : Fmt) (neg : Bool) (m : Nat) (e : Int) : Code :=
  if topBit m e < -99 then (f.round .rne neg (m * 2 ^ 170 - 1) (e - 170) true).out
  else if 7 ≤ topBit m e then (f.round .rne neg (2 ^ 190 - 1) (-190) true).out
  else
    let z := m * 2 ^ (e + 1 + funP).toNat
    let n := z / ln2P
    let t := expFix (z % ln2P) * 2 ^ n
    funAround f neg ((t - 2 ^ funP) * 2 ^ funP / (t + 2 ^ funP)) (2 ^ 16) (-(funP : Int))

/-- The integer square root, bit by bit. -/
def isqrtGo (n : Nat) : Nat → Nat → Nat
  | 0, acc => acc
  | b + 1, acc => let c := acc + 2 ^ b; isqrtGo n b (if c * c ≤ n then c else acc)

def isqrt (n : Nat) : Nat := isqrtGo n (Nat.log2 n / 2 + 1) 0

/-- The square root of m × 2^e, m not 0. -/
def sqrtNum (f : Fmt) (m : Nat) (e : Int) : Code :=
  let odd := (e % 2).toNat
  let n := m * 2 ^ odd * 2 ^ 120
  let r := isqrt n
  (f.round .rne false r ((e - odd) / 2 - 60) (r * r != n)).out

/-- 1 over the square root of m × 2^e, m not 0. -/
def rsqNum (f : Fmt) (m : Nat) (e : Int) : Code :=
  let odd := (e % 2).toNat
  let d := m * 2 ^ odd
  let r := isqrt (2 ^ 160 / d)
  (f.round .rne false r (-((e - odd) / 2) - 80) (r * r * d != 2 ^ 160)).out

/-- The class bit of a value (09 R193). -/
def classMask (f : Fmt) (c : Nat) : Nat :=
  match f.decode c with
  | .nan s => if s then 2 ^ 8 else 2 ^ 9
  | .inf n => if n then 1 else 2 ^ 7
  | .num n m _ =>
    if m = 0 then (if n then 2 ^ 3 else 2 ^ 4)
    else if m < 2 ^ f.p then (if n then 2 ^ 2 else 2 ^ 5)
    else (if n then 2 else 2 ^ 6)

/-- One element of FUN (09 R191, R192). -/
def funElem (fn : FunFn) (f : Fmt) (c : Nat) : Code :=
  let nan : Code := (f.nanCode, flagNV)
  let one : Code := (f.round .rne false 1 0 false).out
  match fn, f.decode c with
  | .class, _ => (classMask f c, 0)
  | _, .nan s => (f.nanCode, nvIf s)
  | .rcp, .inf n => (f.sign n, 0)
  | .rcp, .num n m e => if m = 0 then (f.infCode n, flagDZ) else (f.roundQ .rne n 1 m (-e)).out
  | .rsq, .inf n => if n then nan else (0, 0)
  | .rsq, .num n m e => if m = 0 then (f.infCode n, flagDZ) else if n then nan else rsqNum f m e
  | .sqrt, .inf n => if n then nan else (f.infCode false, 0)
  | .sqrt, .num n m e => if m = 0 then (f.sign n, 0) else if n then nan else sqrtNum f m e
  | .ex2, .inf n => (if n then 0 else f.infCode false, 0)
  | .ex2, .num n m e => if m = 0 then one else ex2Num f n m e
  | .lg2, .inf n => if n then nan else (f.infCode false, 0)
  | .lg2, .num n m e => if m = 0 then (f.infCode true, flagDZ) else if n then nan else lg2Num f m e
  | .sin, .inf _ => nan
  | .sin, .num n m e => if m = 0 then (f.sign n, 0) else trigNum f false n m e
  | .cos, .inf _ => nan
  | .cos, .num n m e => if m = 0 then one else trigNum f true n m e
  | .tanh, .inf n => ((f.round .rne n 1 0 false).code, 0)
  | .tanh, .num n m e => if m = 0 then (f.sign n, 0) else tanhNum f n m e

/-- The element type of FUN. -/
def funTy : FunTy → FTy
  | .f32 => .f32
  | .f16x2 => .f16x2
  | .bf16x2 => .bf16x2

/-- FUN (09 R190). -/
def execFunOp (ch : Bool) (d a : Reg) (fn : FunFn) (t : FunTy) (s : State) : Res :=
  .next (s.runRegs (.funOp ch d a fn t) (s.prodOf [a]) fun s q =>
    elemOut (funTy t) d ((elems (s.src q) (funTy t) a).map (funElem fn (ftyFmt (funTy t)))))

end Sys2Proof.Machine
end

