-- ==== Sys2Proof/Decode.lean ====
section
/-! DEFINITION. The decoder of instruction words, rejecting by name (02 R53, R59, R60), and after it the encoder. Words are
taken as natural numbers, bit 0 the least significant (00 R7). -/

namespace Sys2Proof

/-- Why a word is no instruction (02 R60, R61 steps 2, 3, 5, 6 and 7). -/
inductive Reject where
  /-- OP 0x00 or 0x3F. -/
  | illegalWord
  /-- OP 0x1C-0x1F or 0x2D-0x2F. -/
  | reservedOpcode
  /-- A reserved value of a field of a defined family. -/
  | reservedField
  /-- A non-zero must-be-zero bit or unused field. -/
  | nonzeroReserved
  /-- A PB with CH = 1 (02 R47). -/
  | chainPb
  deriving DecidableEq, Repr

/-- Bits `lo + n - 1` to `lo` of a word. -/
def fld (w lo n : Nat) : BitVec n := BitVec.ofNat n (w / 2 ^ lo)

/-- One bit of a word. -/
def bitAt (w lo : Nat) : Bool := w / 2 ^ lo % 2 == 1

/-- The number a bit contributes. -/
def bitN (b : Bool) : Nat := if b then 1 else 0

/-- The code of a value: IOP functions (04 R97). -/
def IopFn.code : IopFn → Nat
  | .add => 0
  | .sub => 1
  | .mul => 2
  | .mulhs => 3
  | .mulhn => 4
  | .mins => 5
  | .minn => 6
  | .maxs => 7
  | .maxn => 8
  | .and => 9
  | .or => 10
  | .xor => 11
  | .andn => 12
  | .shl => 13
  | .shr => 14
  | .sar => 15
  | .rol => 16
  | .clz => 17
  | .popc => 18
  | .brev => 19
  | .abs => 20
  | .neg => 21
  | .addss => 22
  | .subss => 23

/-- The value of a code; a reserved code has none. -/
def IopFn.ofCode : Nat → Option IopFn
  | 0 => some .add
  | 1 => some .sub
  | 2 => some .mul
  | 3 => some .mulhs
  | 4 => some .mulhn
  | 5 => some .mins
  | 6 => some .minn
  | 7 => some .maxs
  | 8 => some .maxn
  | 9 => some .and
  | 10 => some .or
  | 11 => some .xor
  | 12 => some .andn
  | 13 => some .shl
  | 14 => some .shr
  | 15 => some .sar
  | 16 => some .rol
  | 17 => some .clz
  | 18 => some .popc
  | 19 => some .brev
  | 20 => some .abs
  | 21 => some .neg
  | 22 => some .addss
  | 23 => some .subss
  | _ => none

/-- The code of a value: SHI kinds (04 R100). -/
def ShKind.code : ShKind → Nat
  | .shl => 0
  | .shr => 1
  | .sar => 2
  | .rol => 3

/-- The value of a code; a reserved code has none. -/
def ShKind.ofCode : Nat → Option ShKind
  | 0 => some .shl
  | 1 => some .shr
  | 2 => some .sar
  | 3 => some .rol
  | _ => none

/-- The code of a value: Compare relations (04 R103). -/
def Cmp.code : Cmp → Nat
  | .eq => 0
  | .ne => 1
  | .lt => 2
  | .le => 3
  | .gt => 4
  | .ge => 5

/-- The value of a code; a reserved code has none. -/
def Cmp.ofCode : Nat → Option Cmp
  | 0 => some .eq
  | 1 => some .ne
  | 2 => some .lt
  | 3 => some .le
  | 4 => some .gt
  | 5 => some .ge
  | _ => none

/-- The code of a value: Compare types (02 R53). -/
def ITy.code : ITy → Nat
  | .s32 => 0
  | .n32 => 1
  | .s64 => 2
  | .n64 => 3

/-- The value of a code; a reserved code has none. -/
def ITy.ofCode : Nat → Option ITy
  | 0 => some .s32
  | 1 => some .n32
  | 2 => some .s64
  | 3 => some .n64
  | _ => none

/-- The code of a value: Predicate functions (04 R104). -/
def PlopFn.code : PlopFn → Nat
  | .and => 0
  | .or => 1
  | .xor => 2
  | .andn => 3
  | .not => 4
  | .mov => 5

/-- The value of a code; a reserved code has none. -/
def PlopFn.ofCode : Nat → Option PlopFn
  | 0 => some .and
  | 1 => some .or
  | 2 => some .xor
  | 3 => some .andn
  | 4 => some .not
  | 5 => some .mov
  | _ => none

/-- The code of a value: Special values (01 R23). -/
def SpecialValue.code : SpecialValue → Nat
  | .tidX => 0
  | .tidY => 1
  | .tidZ => 2
  | .lane => 3
  | .crew => 4
  | .teamX => 5
  | .teamY => 6
  | .teamZ => 7
  | .grid => 8
  | .core => 9
  | .cluster => 10
  | .die => 11
  | .peer => 12
  | .clock => 13
  | .seat => 14
  | .ctx => 15
  | .fdepth => 16

/-- The value of a code; a reserved code has none. -/
def SpecialValue.ofCode : Nat → Option SpecialValue
  | 0 => some .tidX
  | 1 => some .tidY
  | 2 => some .tidZ
  | 3 => some .lane
  | 4 => some .crew
  | 5 => some .teamX
  | 6 => some .teamY
  | 7 => some .teamZ
  | 8 => some .grid
  | 9 => some .core
  | 10 => some .cluster
  | 11 => some .die
  | 12 => some .peer
  | 13 => some .clock
  | 14 => some .seat
  | 15 => some .ctx
  | 16 => some .fdepth
  | _ => none

/-- The code of a value: FOP operations (09 R185). -/
def FopOp.code : FopOp → Nat
  | .add => 0
  | .sub => 1
  | .mul => 2
  | .min => 3
  | .max => 4

/-- The value of a code; a reserved code has none. -/
def FopOp.ofCode : Nat → Option FopOp
  | 0 => some .add
  | 1 => some .sub
  | 2 => some .mul
  | 3 => some .min
  | 4 => some .max
  | _ => none

/-- The code of a value: FOP and FCMP types (09 R185, R194). -/
def FTy.code : FTy → Nat
  | .f32 => 0
  | .f16x2 => 1
  | .bf16x2 => 2
  | .f64 => 3

/-- The value of a code; a reserved code has none. -/
def FTy.ofCode : Nat → Option FTy
  | 0 => some .f32
  | 1 => some .f16x2
  | 2 => some .bf16x2
  | 3 => some .f64
  | _ => none

/-- The code of a value: Rounding modes (08 R168). -/
def Rm.code : Rm → Nat
  | .rne => 0
  | .rz => 1
  | .rdn => 2
  | .rup => 3

/-- The value of a code; a reserved code has none. -/
def Rm.ofCode : Nat → Option Rm
  | 0 => some .rne
  | 1 => some .rz
  | 2 => some .rdn
  | 3 => some .rup
  | _ => none

/-- The code of a value: FUN functions (09 R190). -/
def FunFn.code : FunFn → Nat
  | .rcp => 0
  | .rsq => 1
  | .sqrt => 2
  | .ex2 => 3
  | .lg2 => 4
  | .sin => 5
  | .cos => 6
  | .tanh => 7
  | .class => 8

/-- The value of a code; a reserved code has none. -/
def FunFn.ofCode : Nat → Option FunFn
  | 0 => some .rcp
  | 1 => some .rsq
  | 2 => some .sqrt
  | 3 => some .ex2
  | 4 => some .lg2
  | 5 => some .sin
  | 6 => some .cos
  | 7 => some .tanh
  | 8 => some .class
  | _ => none

/-- The code of a value: FUN types (09 R190). -/
def FunTy.code : FunTy → Nat
  | .f32 => 0
  | .f16x2 => 1
  | .bf16x2 => 2

/-- The value of a code; a reserved code has none. -/
def FunTy.ofCode : Nat → Option FunTy
  | 0 => some .f32
  | 1 => some .f16x2
  | 2 => some .bf16x2
  | _ => none

/-- The code of a value: FCMP relations (09 R194). -/
def FCmpRel.code : FCmpRel → Nat
  | .eq => 0
  | .ne => 1
  | .lt => 2
  | .le => 3
  | .gt => 4
  | .ge => 5
  | .un => 6

/-- The value of a code; a reserved code has none. -/
def FCmpRel.ofCode : Nat → Option FCmpRel
  | 0 => some .eq
  | 1 => some .ne
  | 2 => some .lt
  | 3 => some .le
  | 4 => some .gt
  | 5 => some .ge
  | 6 => some .un
  | _ => none

/-- The code of a value: CVT types (09 R195). -/
def CvtTy.code : CvtTy → Nat
  | .s8 => 0
  | .s16 => 1
  | .s32 => 2
  | .s64 => 3
  | .n8 => 4
  | .n16 => 5
  | .n32 => 6
  | .n64 => 7
  | .f16 => 8
  | .bf16 => 9
  | .f32 => 10
  | .f64 => 11

/-- The value of a code; a reserved code has none. -/
def CvtTy.ofCode : Nat → Option CvtTy
  | 0 => some .s8
  | 1 => some .s16
  | 2 => some .s32
  | 3 => some .s64
  | 4 => some .n8
  | 5 => some .n16
  | 6 => some .n32
  | 7 => some .n64
  | 8 => some .f16
  | 9 => some .bf16
  | 10 => some .f32
  | 11 => some .f64
  | _ => none

/-- The code of a value: SHFL kinds (04 R116). -/
def ShflKind.code : ShflKind → Nat
  | .idx => 0
  | .up => 1
  | .dn => 2
  | .xor => 3

/-- The value of a code; a reserved code has none. -/
def ShflKind.ofCode : Nat → Option ShflKind
  | 0 => some .idx
  | 1 => some .up
  | 2 => some .dn
  | 3 => some .xor
  | _ => none

/-- The code of a value: REDUX operations (04 R118). -/
def ReduxOp.code : ReduxOp → Nat
  | .add => 0
  | .min => 1
  | .max => 2

/-- The value of a code; a reserved code has none. -/
def ReduxOp.ofCode : Nat → Option ReduxOp
  | 0 => some .add
  | 1 => some .min
  | 2 => some .max
  | _ => none

/-- The code of a value: REDUX types (04 R118). -/
def ReduxTy.code : ReduxTy → Nat
  | .s32 => 0
  | .n32 => 1
  | .f32 => 2

/-- The value of a code; a reserved code has none. -/
def ReduxTy.ofCode : Nat → Option ReduxTy
  | 0 => some .s32
  | 1 => some .n32
  | 2 => some .f32
  | _ => none

/-- The code of a value: Scopes (02 R57). -/
def Scope.code : Scope → Nat
  | .cr => 0
  | .co => 1
  | .cl => 2
  | .di => 3
  | .pk => 4
  | .sy => 5

/-- The value of a code; a reserved code has none. -/
def Scope.ofCode : Nat → Option Scope
  | 0 => some .cr
  | 1 => some .co
  | 2 => some .cl
  | 3 => some .di
  | 4 => some .pk
  | 5 => some .sy
  | _ => none

/-- The code of a value: Access widths (02 R53). -/
def Width.code : Width → Nat
  | .w8 => 0
  | .w16 => 1
  | .w32 => 2
  | .w64 => 3
  | .w128 => 4

/-- The value of a code; a reserved code has none. -/
def Width.ofCode : Nat → Option Width
  | 0 => some .w8
  | 1 => some .w16
  | 2 => some .w32
  | 3 => some .w64
  | 4 => some .w128
  | _ => none

/-- The code of a value: MWAIT conditions (05 R134). -/
def WaitCond.code : WaitCond → Nat
  | .ne => 0
  | .eq => 1

/-- The value of a code; a reserved code has none. -/
def WaitCond.ofCode : Nat → Option WaitCond
  | 0 => some .ne
  | 1 => some .eq
  | _ => none

/-- The code of a value: FSTAT selectors (06 R156). -/
def ForkSel.code : ForkSel → Nat
  | .status => 0
  | .opened => 1
  | .commit => 2
  | .sqpred => 3
  | .sqmem => 4
  | .sqother => 5
  | .plain => 6

/-- The value of a code; a reserved code has none. -/
def ForkSel.ofCode : Nat → Option ForkSel
  | 0 => some .status
  | 1 => some .opened
  | 2 => some .commit
  | 3 => some .sqpred
  | 4 => some .sqmem
  | 5 => some .sqother
  | 6 => some .plain
  | _ => none

/-- The code of a value: PSTAT selectors (10 R219). -/
def PstatSel.code : PstatSel → Nat
  | .plate => 0
  | .dropped => 1
  | .nonfin => 2
  | .locks => 3

/-- The value of a code; a reserved code has none. -/
def PstatSel.ofCode : Nat → Option PstatSel
  | 0 => some .plate
  | 1 => some .dropped
  | 2 => some .nonfin
  | 3 => some .locks
  | _ => none

/-- The code of a value: Atomic operations (05 R127). -/
def AtomOp.code : AtomOp → Nat
  | .add32 => 0
  | .mins32 => 1
  | .minn32 => 2
  | .maxs32 => 3
  | .maxn32 => 4
  | .and32 => 5
  | .or32 => 6
  | .xor32 => 7
  | .xchg32 => 8
  | .incw32 => 9
  | .decw32 => 10
  | .faddf32 => 11
  | .add64 => 16
  | .mins64 => 17
  | .minn64 => 18
  | .maxs64 => 19
  | .maxn64 => 20
  | .and64 => 21
  | .or64 => 22
  | .xor64 => 23
  | .xchg64 => 24
  | .incw64 => 25
  | .decw64 => 26
  | .faddbf16x2 => 27

/-- The value of a code; a reserved code has none. -/
def AtomOp.ofCode : Nat → Option AtomOp
  | 0 => some .add32
  | 1 => some .mins32
  | 2 => some .minn32
  | 3 => some .maxs32
  | 4 => some .maxn32
  | 5 => some .and32
  | 6 => some .or32
  | 7 => some .xor32
  | 8 => some .xchg32
  | 9 => some .incw32
  | 10 => some .decw32
  | 11 => some .faddf32
  | 16 => some .add64
  | 17 => some .mins64
  | 18 => some .minn64
  | 19 => some .maxs64
  | 20 => some .maxn64
  | 21 => some .and64
  | 22 => some .or64
  | 23 => some .xor64
  | 24 => some .xchg64
  | 25 => some .incw64
  | 26 => some .decw64
  | 27 => some .faddbf16x2
  | _ => none

/-- A field that holds a reserved value rejects the word. -/
def orReserved {α : Type} (o : Option α) (k : α → Except Reject Instr) : Except Reject Instr :=
  match o with
  | some a => k a
  | none => .error .reservedField

/-- Steps 5 and 6 of R61 on a word whose fields are read: `zero` says that its must-be-zero bits are zero. -/
def checked (zero : Bool) (i : Instr) : Except Reject Instr :=
  if i.fieldsOk = false then .error .reservedField
  else if zero = false then .error .nonzeroReserved
  else if i.zerosOk = false then .error .nonzeroReserved
  else .ok i

/-- Bits `hi` to `lo` of a word are zero. -/
def zeroBits (w hi lo : Nat) : Bool := w / 2 ^ lo % 2 ^ (hi + 1 - lo) == 0

/-- The fields of PB. -/
def decPb (w : Nat) : Except Reject Instr :=
  checked (zeroBits w 9 0) (.pb (fld w 21 4) (fld w 18 3) (fld w 10 8))

/-- The fields of IOP. -/
def decIop (w : Nat) : Except Reject Instr :=
  orReserved (IopFn.ofCode (w / 2 ^ 0 % 2 ^ 6)) fun x_f =>
  checked (true) (.iop (bitAt w 31) (fld w 19 6) (fld w 13 6) (fld w 7 6) (bitAt w 6) x_f)

/-- The fields of ADDI. -/
def decAddi (w : Nat) : Except Reject Instr :=
  checked (true) (.addi (bitAt w 31) (fld w 19 6) (fld w 13 6) (fld w 0 13))

/-- The fields of ANDI. -/
def decAndi (w : Nat) : Except Reject Instr :=
  checked (true) (.andi (bitAt w 31) (fld w 19 6) (fld w 13 6) (fld w 0 13))

/-- The fields of ORI. -/
def decOri (w : Nat) : Except Reject Instr :=
  checked (true) (.ori (bitAt w 31) (fld w 19 6) (fld w 13 6) (fld w 0 13))

/-- The fields of XORI. -/
def decXori (w : Nat) : Except Reject Instr :=
  checked (true) (.xori (bitAt w 31) (fld w 19 6) (fld w 13 6) (fld w 0 13))

/-- The fields of SHI. -/
def decShi (w : Nat) : Except Reject Instr :=
  orReserved (ShKind.ofCode (w / 2 ^ 11 % 2 ^ 2)) fun x_k =>
  checked (zeroBits w 9 6) (.shi (bitAt w 31) (fld w 19 6) (fld w 13 6) x_k (bitAt w 10) (fld w 0 6))

/-- The fields of MOVI. -/
def decMovi (w : Nat) : Except Reject Instr :=
  checked (true) (.movi (bitAt w 31) (fld w 19 6) (fld w 0 19))

/-- The fields of MOVHI. -/
def decMovhi (w : Nat) : Except Reject Instr :=
  checked (true) (.movhi (bitAt w 31) (fld w 19 6) (fld w 0 19))

/-- The fields of ICMP. -/
def decIcmp (w : Nat) : Except Reject Instr :=
  orReserved (Cmp.ofCode (w / 2 ^ 6 % 2 ^ 3)) fun x_r =>
  orReserved (ITy.ofCode (w / 2 ^ 4 % 2 ^ 2)) fun x_t =>
  checked (zeroBits w 3 0) (.icmp (bitAt w 31) (fld w 21 4) (fld w 15 6) (fld w 9 6) x_r x_t)

/-- The fields of ICMPI. -/
def decIcmpi (w : Nat) : Except Reject Instr :=
  orReserved (Cmp.ofCode (w / 2 ^ 12 % 2 ^ 3)) fun x_r =>
  orReserved (ITy.ofCode (w / 2 ^ 10 % 2 ^ 2)) fun x_t =>
  checked (true) (.icmpi (bitAt w 31) (fld w 21 4) (fld w 15 6) x_r x_t (fld w 0 10))

/-- The fields of PLOP. -/
def decPlop (w : Nat) : Except Reject Instr :=
  orReserved (PlopFn.ofCode (w / 2 ^ 10 % 2 ^ 3)) fun x_f =>
  checked (zeroBits w 9 0) (.plop (bitAt w 31) (fld w 21 4) (fld w 17 4) (fld w 13 4) x_f)

/-- The fields of SEL. -/
def decSel (w : Nat) : Except Reject Instr :=
  checked (zeroBits w 1 0) (.sel (bitAt w 31) (fld w 19 6) (fld w 13 6) (fld w 7 6) (fld w 3 4) (bitAt w 2))

/-- The fields of XMOV_MOV. -/
def decXmovMov (w : Nat) : Except Reject Instr :=
  checked (zeroBits w 8 0) (.xmovMov (bitAt w 31) (fld w 19 6) (fld w 13 6))

/-- The fields of XMOV_RDS. -/
def decXmovRds (w : Nat) : Except Reject Instr :=
  orReserved (SpecialValue.ofCode (w / 2 ^ 4 % 2 ^ 5)) fun x_s =>
  checked (zeroBits w 18 13 && zeroBits w 3 0) (.xmovRds (bitAt w 31) (fld w 19 6) x_s)

/-- The fields of XMOV_RDK. -/
def decXmovRdk (w : Nat) : Except Reject Instr :=
  checked (zeroBits w 18 13 && zeroBits w 3 0) (.xmovRdk (bitAt w 31) (fld w 19 6) (fld w 4 5))

/-- The fields of XMOV_WRK. -/
def decXmovWrk (w : Nat) : Except Reject Instr :=
  checked (zeroBits w 24 19 && zeroBits w 3 0) (.xmovWrk (bitAt w 31) (fld w 13 6) (fld w 4 5))

/-- The fields of XMOV_RDP. -/
def decXmovRdp (w : Nat) : Except Reject Instr :=
  checked (zeroBits w 18 13 && zeroBits w 8 0) (.xmovRdp (bitAt w 31) (fld w 19 6))

/-- The fields of XMOV_WRP. -/
def decXmovWrp (w : Nat) : Except Reject Instr :=
  checked (zeroBits w 24 19 && zeroBits w 8 0) (.xmovWrp (bitAt w 31) (fld w 13 6))

/-- The fields of XMOV_SHAPE. -/
def decXmovShape (w : Nat) : Except Reject Instr :=
  checked (zeroBits w 8 0) (.xmovShape (bitAt w 31) (fld w 19 6) (fld w 13 6))

/-- The fields of XMOV_PREC. -/
def decXmovPrec (w : Nat) : Except Reject Instr :=
  checked (zeroBits w 18 13 && zeroBits w 8 7 && zeroBits w 3 0) (.xmovPrec (bitAt w 31) (fld w 19 6) (fld w 4 3))

/-- The fields of LEA. -/
def decLea (w : Nat) : Except Reject Instr :=
  checked (zeroBits w 2 0) (.lea (bitAt w 31) (fld w 19 6) (fld w 13 6) (fld w 7 6) (fld w 4 3) (bitAt w 3))

/-- The fields of FOP. -/
def decFop (w : Nat) : Except Reject Instr :=
  orReserved (FopOp.ofCode (w / 2 ^ 4 % 2 ^ 3)) fun x_o =>
  orReserved (FTy.ofCode (w / 2 ^ 2 % 2 ^ 2)) fun x_t =>
  orReserved (Rm.ofCode (w / 2 ^ 0 % 2 ^ 2)) fun x_rm =>
  checked (true) (.fop (bitAt w 31) (fld w 19 6) (fld w 13 6) (fld w 7 6) x_o x_t x_rm)

/-- The fields of FMA32. -/
def decFma32 (w : Nat) : Except Reject Instr :=
  checked (true) (.fma32 (bitAt w 31) (fld w 19 6) (fld w 13 6) (fld w 7 6) (fld w 1 6) (bitAt w 0))

/-- The fields of FMAH. -/
def decFmah (w : Nat) : Except Reject Instr :=
  checked (true) (.fmah (bitAt w 31) (fld w 19 6) (fld w 13 6) (fld w 7 6) (fld w 1 6) (bitAt w 0))

/-- The fields of FMAB. -/
def decFmab (w : Nat) : Except Reject Instr :=
  checked (true) (.fmab (bitAt w 31) (fld w 19 6) (fld w 13 6) (fld w 7 6) (fld w 1 6) (bitAt w 0))

/-- The fields of FMAD. -/
def decFmad (w : Nat) : Except Reject Instr :=
  checked (true) (.fmad (bitAt w 31) (fld w 19 6) (fld w 13 6) (fld w 7 6) (fld w 1 6) (bitAt w 0))

/-- The fields of FUN. -/
def decFunOp (w : Nat) : Except Reject Instr :=
  orReserved (FunFn.ofCode (w / 2 ^ 9 % 2 ^ 4)) fun x_f =>
  orReserved (FunTy.ofCode (w / 2 ^ 7 % 2 ^ 2)) fun x_t =>
  checked (zeroBits w 6 0) (.funOp (bitAt w 31) (fld w 19 6) (fld w 13 6) x_f x_t)

/-- The fields of FCMP. -/
def decFcmp (w : Nat) : Except Reject Instr :=
  orReserved (FCmpRel.ofCode (w / 2 ^ 6 % 2 ^ 3)) fun x_r =>
  orReserved (FTy.ofCode (w / 2 ^ 4 % 2 ^ 2)) fun x_t =>
  checked (zeroBits w 3 0) (.fcmp (bitAt w 31) (fld w 21 4) (fld w 15 6) (fld w 9 6) x_r x_t)

/-- The fields of CVT. -/
def decCvt (w : Nat) : Except Reject Instr :=
  orReserved (CvtTy.ofCode (w / 2 ^ 9 % 2 ^ 4)) fun x_dty =>
  orReserved (CvtTy.ofCode (w / 2 ^ 5 % 2 ^ 4)) fun x_sty =>
  orReserved (Rm.ofCode (w / 2 ^ 3 % 2 ^ 2)) fun x_rm =>
  checked (zeroBits w 1 0) (.cvt (bitAt w 31) (fld w 19 6) (fld w 13 6) x_dty x_sty x_rm (bitAt w 2))

/-- The fields of SHFL. -/
def decShfl (w : Nat) : Except Reject Instr :=
  orReserved (ShflKind.ofCode (w / 2 ^ 5 % 2 ^ 2)) fun x_k =>
  checked (zeroBits w 3 0) (.shfl (bitAt w 31) (fld w 19 6) (fld w 13 6) (fld w 7 6) x_k (bitAt w 4))

/-- The fields of VOTE_ANY. -/
def decVoteAny (w : Nat) : Except Reject Instr :=
  checked (zeroBits w 24 19 && zeroBits w 8 0) (.voteAny (bitAt w 31) (fld w 15 4) (fld w 11 4))

/-- The fields of VOTE_ALL. -/
def decVoteAll (w : Nat) : Except Reject Instr :=
  checked (zeroBits w 24 19 && zeroBits w 8 0) (.voteAll (bitAt w 31) (fld w 15 4) (fld w 11 4))

/-- The fields of VOTE_BALLOT. -/
def decVoteBallot (w : Nat) : Except Reject Instr :=
  checked (zeroBits w 18 15 && zeroBits w 8 0) (.voteBallot (bitAt w 31) (fld w 19 6) (fld w 11 4))

/-- The fields of VOTE_ELECT. -/
def decVoteElect (w : Nat) : Except Reject Instr :=
  checked (zeroBits w 8 0) (.voteElect (bitAt w 31) (fld w 19 6) (fld w 15 4) (fld w 11 4))

/-- The fields of REDUX. -/
def decRedux (w : Nat) : Except Reject Instr :=
  orReserved (ReduxOp.ofCode (w / 2 ^ 5 % 2 ^ 2)) fun x_o =>
  orReserved (ReduxTy.ofCode (w / 2 ^ 3 % 2 ^ 2)) fun x_t =>
  checked (zeroBits w 12 7 && zeroBits w 2 0) (.redux (bitAt w 31) (fld w 19 6) (fld w 13 6) x_o x_t)

/-- The fields of DOT4. -/
def decDot4 (w : Nat) : Except Reject Instr :=
  checked (true) (.dot4 (bitAt w 31) (fld w 19 6) (fld w 13 6) (fld w 7 6) (fld w 1 6) (bitAt w 0))

/-- The fields of LD. -/
def decLd (w : Nat) : Except Reject Instr :=
  orReserved (Width.ofCode (w / 2 ^ 11 % 2 ^ 3)) fun x_w => checked (true) (.ld (bitAt w 31) (fld w 19 6) (fld w 14 5) x_w (fld w 0 11))

/-- The fields of LDS. -/
def decLds (w : Nat) : Except Reject Instr :=
  orReserved (Width.ofCode (w / 2 ^ 11 % 2 ^ 3)) fun x_w => checked (true) (.lds (bitAt w 31) (fld w 19 6) (fld w 14 5) x_w (fld w 0 11))

/-- The fields of ST. -/
def decSt (w : Nat) : Except Reject Instr :=
  orReserved (Width.ofCode (w / 2 ^ 11 % 2 ^ 3)) fun x_w => checked (true) (.st (bitAt w 31) (fld w 19 6) (fld w 14 5) x_w (fld w 0 11))

/-- The fields of LDA. -/
def decLda (w : Nat) : Except Reject Instr :=
  orReserved (Scope.ofCode (w / 2 ^ 5 % 2 ^ 3)) fun x_sc =>
  orReserved (Width.ofCode (w / 2 ^ 0 % 2 ^ 3)) fun x_w =>
  checked (zeroBits w 13 8 && zeroBits w 4 3) (.lda (bitAt w 31) (fld w 19 6) (fld w 14 5) x_sc x_w)

/-- The fields of STL. -/
def decStl (w : Nat) : Except Reject Instr :=
  orReserved (Scope.ofCode (w / 2 ^ 5 % 2 ^ 3)) fun x_sc =>
  orReserved (Width.ofCode (w / 2 ^ 0 % 2 ^ 3)) fun x_w =>
  checked (zeroBits w 13 8 && zeroBits w 4 3) (.stl (bitAt w 31) (fld w 19 6) (fld w 14 5) x_sc x_w)

/-- The fields of ATOM. -/
def decAtom (w : Nat) : Except Reject Instr :=
  orReserved (Scope.ofCode (w / 2 ^ 5 % 2 ^ 3)) fun x_sc =>
  orReserved (AtomOp.ofCode (w / 2 ^ 0 % 2 ^ 5)) fun x_o =>
  checked (true) (.atom (bitAt w 31) (fld w 19 6) (fld w 14 5) (fld w 8 6) x_sc x_o)

/-- The fields of CAS. -/
def decCas (w : Nat) : Except Reject Instr :=
  orReserved (Scope.ofCode (w / 2 ^ 5 % 2 ^ 3)) fun x_sc =>
  orReserved (Width.ofCode (w / 2 ^ 0 % 2 ^ 3)) fun x_w =>
  checked (zeroBits w 4 3) (.cas (bitAt w 31) (fld w 19 6) (fld w 14 5) (fld w 8 6) x_sc x_w)

/-- The fields of FENCE_AR. -/
def decFenceAr (w : Nat) : Except Reject Instr :=
  orReserved (Scope.ofCode (w / 2 ^ 17 % 2 ^ 3)) fun x_sc => checked (zeroBits w 16 0) (.fenceAr (bitAt w 31) x_sc)

/-- The fields of FENCE_ACQ. -/
def decFenceAcq (w : Nat) : Except Reject Instr :=
  orReserved (Scope.ofCode (w / 2 ^ 17 % 2 ^ 3)) fun x_sc => checked (zeroBits w 16 0) (.fenceAcq (bitAt w 31) x_sc)

/-- The fields of FENCE_REL. -/
def decFenceRel (w : Nat) : Except Reject Instr :=
  orReserved (Scope.ofCode (w / 2 ^ 17 % 2 ^ 3)) fun x_sc => checked (zeroBits w 16 0) (.fenceRel (bitAt w 31) x_sc)

/-- The fields of WAIT_CNT. -/
def decWaitCnt (w : Nat) : Except Reject Instr :=
  checked (zeroBits w 3 0) (.waitCnt (bitAt w 31) (fld w 16 4) (fld w 12 4) (fld w 8 4) (fld w 4 4))

/-- The fields of MWAIT. -/
def decMwait (w : Nat) : Except Reject Instr :=
  orReserved (Scope.ofCode (w / 2 ^ 5 % 2 ^ 3)) fun x_sc =>
  orReserved (WaitCond.ofCode (w / 2 ^ 3 % 2 ^ 2)) fun x_cond =>
  orReserved (Width.ofCode (w / 2 ^ 0 % 2 ^ 3)) fun x_w =>
  checked (true) (.mwait (bitAt w 31) (fld w 19 6) (fld w 14 5) (fld w 8 6) x_sc x_cond x_w)

/-- The fields of LDFE_KEEP. -/
def decLdfeKeep (w : Nat) : Except Reject Instr :=
  orReserved (Scope.ofCode (w / 2 ^ 5 % 2 ^ 3)) fun x_sc =>
  orReserved (Width.ofCode (w / 2 ^ 0 % 2 ^ 3)) fun x_w =>
  checked (zeroBits w 13 8) (.ldfeKeep (bitAt w 31) (fld w 19 6) (fld w 14 5) x_sc x_w)

/-- The fields of LDFE_TAKE. -/
def decLdfeTake (w : Nat) : Except Reject Instr :=
  orReserved (Scope.ofCode (w / 2 ^ 5 % 2 ^ 3)) fun x_sc =>
  orReserved (Width.ofCode (w / 2 ^ 0 % 2 ^ 3)) fun x_w =>
  checked (zeroBits w 13 8) (.ldfeTake (bitAt w 31) (fld w 19 6) (fld w 14 5) x_sc x_w)

/-- The fields of STFE_FILL. -/
def decStfeFill (w : Nat) : Except Reject Instr :=
  orReserved (Scope.ofCode (w / 2 ^ 5 % 2 ^ 3)) fun x_sc =>
  orReserved (Width.ofCode (w / 2 ^ 0 % 2 ^ 3)) fun x_w =>
  checked (zeroBits w 13 8) (.stfeFill (bitAt w 31) (fld w 19 6) (fld w 14 5) x_sc x_w)

/-- The fields of STFE_PUT. -/
def decStfePut (w : Nat) : Except Reject Instr :=
  orReserved (Scope.ofCode (w / 2 ^ 5 % 2 ^ 3)) fun x_sc =>
  orReserved (Width.ofCode (w / 2 ^ 0 % 2 ^ 3)) fun x_w =>
  checked (zeroBits w 13 8) (.stfePut (bitAt w 31) (fld w 19 6) (fld w 14 5) x_sc x_w)

/-- The fields of CCTL_ISYNC. -/
def decCctlIsync (w : Nat) : Except Reject Instr :=
  checked (zeroBits w 19 0) (.cctlIsync (bitAt w 31))

/-- The fields of CCTL_DWB. -/
def decCctlDwb (w : Nat) : Except Reject Instr :=
  orReserved (Scope.ofCode (w / 2 ^ 12 % 2 ^ 3)) fun x_sc => checked (zeroBits w 11 0) (.cctlDwb (bitAt w 31) (fld w 15 5) x_sc)

/-- The fields of CCTL_DINV. -/
def decCctlDinv (w : Nat) : Except Reject Instr :=
  orReserved (Scope.ofCode (w / 2 ^ 12 % 2 ^ 3)) fun x_sc => checked (zeroBits w 11 0) (.cctlDinv (bitAt w 31) (fld w 15 5) x_sc)

/-- The fields of CCTL_PFX. -/
def decCctlPfx (w : Nat) : Except Reject Instr :=
  orReserved (Scope.ofCode (w / 2 ^ 12 % 2 ^ 3)) fun x_sc => checked (zeroBits w 11 0) (.cctlPfx (bitAt w 31) (fld w 15 5) x_sc)

/-- The fields of BRA. -/
def decBra (w : Nat) : Except Reject Instr :=
  checked (true) (.bra (bitAt w 31) (fld w 21 4) (bitAt w 20) (fld w 0 20))

/-- The fields of JMPR. -/
def decJmpr (w : Nat) : Except Reject Instr :=
  checked (zeroBits w 24 19 && zeroBits w 12 0) (.jmpr (bitAt w 31) (fld w 13 6))

/-- The fields of CALL. -/
def decCall (w : Nat) : Except Reject Instr :=
  checked (true) (.call (bitAt w 31) (fld w 0 25))

/-- The fields of CALLR. -/
def decCallr (w : Nat) : Except Reject Instr :=
  checked (zeroBits w 24 19 && zeroBits w 12 0) (.callr (bitAt w 31) (fld w 13 6))

/-- The fields of FCALL. -/
def decFcall (w : Nat) : Except Reject Instr :=
  checked (true) (.fcall (bitAt w 31) (fld w 21 4) (fld w 0 21))

/-- The fields of RET. -/
def decRet (w : Nat) : Except Reject Instr :=
  checked (zeroBits w 24 0) (.ret (bitAt w 31))

/-- The fields of YIELD. -/
def decYieldOp (w : Nat) : Except Reject Instr :=
  checked (zeroBits w 24 0) (.yieldOp (bitAt w 31))

/-- The fields of EXIT. -/
def decExitOp (w : Nat) : Except Reject Instr :=
  checked (zeroBits w 24 0) (.exitOp (bitAt w 31))

/-- The fields of BAR_SYNC. -/
def decBarSync (w : Nat) : Except Reject Instr :=
  checked (zeroBits w 15 0) (.barSync (bitAt w 31) (fld w 16 4))

/-- The fields of BAR_ARRIVE. -/
def decBarArrive (w : Nat) : Except Reject Instr :=
  checked (zeroBits w 15 0) (.barArrive (bitAt w 31) (fld w 16 4))

/-- The fields of LAUNCH_GRID. -/
def decLaunchGrid (w : Nat) : Except Reject Instr :=
  checked (zeroBits w 7 0) (.launchGrid (bitAt w 31) (fld w 14 6) (fld w 8 6))

/-- The fields of CWAIT_ALL. -/
def decCwaitAll (w : Nat) : Except Reject Instr :=
  checked (zeroBits w 19 0) (.cwaitAll (bitAt w 31))

/-- The fields of CWAIT_FGATE. -/
def decCwaitFgate (w : Nat) : Except Reject Instr :=
  checked (zeroBits w 19 0) (.cwaitFgate (bitAt w 31))

/-- The fields of CWAIT_FSTAT. -/
def decCwaitFstat (w : Nat) : Except Reject Instr :=
  orReserved (ForkSel.ofCode (w / 2 ^ 11 % 2 ^ 3)) fun x_sel => checked (zeroBits w 10 0) (.cwaitFstat (bitAt w 31) (fld w 14 6) x_sel)

/-- The fields of CWAIT_FSQ. -/
def decCwaitFsq (w : Nat) : Except Reject Instr :=
  checked (zeroBits w 19 0) (.cwaitFsq (bitAt w 31))

/-- The fields of TILE_PLOAD. -/
def decTilePload (w : Nat) : Except Reject Instr :=
  checked (zeroBits w 5 0) (.tilePload (bitAt w 31) (fld w 15 5) (fld w 12 3) (fld w 6 6))

/-- The fields of TILE_PLOADW. -/
def decTilePloadw (w : Nat) : Except Reject Instr :=
  checked (zeroBits w 5 0) (.tilePloadw (bitAt w 31) (fld w 15 5) (fld w 12 3) (fld w 6 6))

/-- The fields of TILE_EXPOSE. -/
def decTileExpose (w : Nat) : Except Reject Instr :=
  checked (zeroBits w 0 0) (.tileExpose (bitAt w 31) (fld w 15 5) (fld w 12 3) (fld w 7 5) (fld w 1 6))

/-- The fields of TILE_EXPOSEW. -/
def decTileExposew (w : Nat) : Except Reject Instr :=
  checked (zeroBits w 0 0) (.tileExposew (bitAt w 31) (fld w 15 5) (fld w 12 3) (fld w 7 5) (fld w 1 6))

/-- The fields of TILE_TCVT. -/
def decTileTcvt (w : Nat) : Except Reject Instr :=
  checked (zeroBits w 0 0) (.tileTcvt (bitAt w 31) (fld w 15 5) (fld w 12 3) (fld w 7 5) (fld w 1 6))

/-- The fields of TILE_TDCVT. -/
def decTileTdcvt (w : Nat) : Except Reject Instr :=
  checked (zeroBits w 0 0) (.tileTdcvt (bitAt w 31) (fld w 15 5) (fld w 12 3) (fld w 7 5) (fld w 1 6))

/-- The fields of TILE_TRAYZ. -/
def decTileTrayz (w : Nat) : Except Reject Instr :=
  checked (zeroBits w 14 7 && zeroBits w 0 0) (.tileTrayz (bitAt w 31) (fld w 15 5) (fld w 1 6))

/-- The fields of TILE_TRAYRD. -/
def decTileTrayrd (w : Nat) : Except Reject Instr :=
  checked (zeroBits w 14 12 && zeroBits w 0 0) (.tileTrayrd (bitAt w 31) (fld w 15 5) (fld w 7 5) (fld w 1 6))

/-- The fields of TILE_TRAYFL. -/
def decTileTrayfl (w : Nat) : Except Reject Instr :=
  checked (zeroBits w 14 7 && zeroBits w 0 0) (.tileTrayfl (bitAt w 31) (fld w 15 5) (fld w 1 6))

/-- The fields of TILE_PSTAT. -/
def decTilePstat (w : Nat) : Except Reject Instr :=
  orReserved (PstatSel.ofCode (w / 2 ^ 11 % 2 ^ 3)) fun x_sel => checked (zeroBits w 10 0) (.tilePstat (bitAt w 31) (fld w 14 6) x_sel)

/-- The fields of QACC_QRST. -/
def decQaccQrst (w : Nat) : Except Reject Instr :=
  checked (zeroBits w 4 0) (.qaccQrst (bitAt w 31) (fld w 17 3) (fld w 11 6) (fld w 5 6))

/-- The fields of QACC_QGEN. -/
def decQaccQgen (w : Nat) : Except Reject Instr :=
  checked (zeroBits w 4 0) (.qaccQgen (bitAt w 31) (fld w 17 3) (fld w 11 6) (fld w 5 6))

/-- The fields of QACC_QAPP. -/
def decQaccQapp (w : Nat) : Except Reject Instr :=
  checked (zeroBits w 4 0) (.qaccQapp (bitAt w 31) (fld w 17 3) (fld w 11 6) (fld w 5 6))

/-- The fields of QACC_QCNT. -/
def decQaccQcnt (w : Nat) : Except Reject Instr :=
  checked (zeroBits w 10 0) (.qaccQcnt (bitAt w 31) (fld w 17 3) (fld w 11 6))

/-- The fields of QACC_QAPL_REG. -/
def decQaccQaplReg (w : Nat) : Except Reject Instr :=
  checked (zeroBits w 3 0) (.qaccQaplReg (bitAt w 31) (fld w 17 3) (fld w 10 6) (fld w 4 6))

/-- The fields of QACC_QAPLT_REG. -/
def decQaccQapltReg (w : Nat) : Except Reject Instr :=
  checked (zeroBits w 3 0) (.qaccQapltReg (bitAt w 31) (fld w 17 3) (fld w 10 6) (fld w 4 6))

/-- The fields of QACC_QAPR_REG. -/
def decQaccQaprReg (w : Nat) : Except Reject Instr :=
  checked (zeroBits w 3 0) (.qaccQaprReg (bitAt w 31) (fld w 17 3) (fld w 10 6) (fld w 4 6))

/-- The fields of QACC_QAPRT_REG. -/
def decQaccQaprtReg (w : Nat) : Except Reject Instr :=
  checked (zeroBits w 3 0) (.qaccQaprtReg (bitAt w 31) (fld w 17 3) (fld w 10 6) (fld w 4 6))

/-- The fields of QACC_QAPL_TILE. -/
def decQaccQaplTile (w : Nat) : Except Reject Instr :=
  checked (zeroBits w 4 0) (.qaccQaplTile (bitAt w 31) (fld w 17 3) (fld w 11 5) (fld w 5 6))

/-- The fields of QACC_QAPLT_TILE. -/
def decQaccQapltTile (w : Nat) : Except Reject Instr :=
  checked (zeroBits w 4 0) (.qaccQapltTile (bitAt w 31) (fld w 17 3) (fld w 11 5) (fld w 5 6))

/-- The fields of QACC_QAPR_TILE. -/
def decQaccQaprTile (w : Nat) : Except Reject Instr :=
  checked (zeroBits w 4 0) (.qaccQaprTile (bitAt w 31) (fld w 17 3) (fld w 11 5) (fld w 5 6))

/-- The fields of QACC_QAPRT_TILE. -/
def decQaccQaprtTile (w : Nat) : Except Reject Instr :=
  checked (zeroBits w 4 0) (.qaccQaprtTile (bitAt w 31) (fld w 17 3) (fld w 11 5) (fld w 5 6))

/-- The fields of QACC_QSAVE. -/
def decQaccQsave (w : Nat) : Except Reject Instr :=
  checked (zeroBits w 11 0) (.qaccQsave (bitAt w 31) (fld w 17 3) (fld w 12 5))

/-- The fields of QACC_QLOAD. -/
def decQaccQload (w : Nat) : Except Reject Instr :=
  checked (zeroBits w 11 0) (.qaccQload (bitAt w 31) (fld w 17 3) (fld w 12 5))

/-- The fields of QACC_QSPILL. -/
def decQaccQspill (w : Nat) : Except Reject Instr :=
  checked (zeroBits w 16 0) (.qaccQspill (bitAt w 31) (fld w 17 3))

/-- The fields of QACC_QCLR. -/
def decQaccQclr (w : Nat) : Except Reject Instr :=
  checked (zeroBits w 16 0) (.qaccQclr (bitAt w 31) (fld w 17 3))

/-- The fields of XFER_COPY. -/
def decXferCopy (w : Nat) : Except Reject Instr :=
  checked (zeroBits w 1 0) (.xferCopy (bitAt w 31) (fld w 14 6) (fld w 8 6) (fld w 2 6))

/-- The fields of XFER_COPY2D. -/
def decXferCopy2d (w : Nat) : Except Reject Instr :=
  checked (zeroBits w 1 0) (.xferCopy2d (bitAt w 31) (fld w 14 6) (fld w 8 6) (fld w 2 6))

/-- The fields of XFER_HALO. -/
def decXferHalo (w : Nat) : Except Reject Instr :=
  checked (zeroBits w 1 0) (.xferHalo (bitAt w 31) (fld w 14 6) (fld w 8 6) (fld w 2 6))

/-- The fields of XFER_BXFER. -/
def decXferBxfer (w : Nat) : Except Reject Instr :=
  checked (zeroBits w 0 0) (.xferBxfer (bitAt w 31) (fld w 14 6) (fld w 8 6) (fld w 2 6))

/-- The fields of XFER_BXFER_ONE. -/
def decXferBxferOne (w : Nat) : Except Reject Instr :=
  checked (zeroBits w 0 0) (.xferBxferOne (bitAt w 31) (fld w 14 6) (fld w 8 6) (fld w 2 6))

/-- The fields of XFER_BXMC. -/
def decXferBxmc (w : Nat) : Except Reject Instr :=
  checked (zeroBits w 0 0) (.xferBxmc (bitAt w 31) (fld w 14 6) (fld w 8 6) (fld w 2 6))

/-- The fields of XFER_BXMC_ONE. -/
def decXferBxmcOne (w : Nat) : Except Reject Instr :=
  checked (zeroBits w 0 0) (.xferBxmcOne (bitAt w 31) (fld w 14 6) (fld w 8 6) (fld w 2 6))

/-- The fields of XFER_RATOM. -/
def decXferRatom (w : Nat) : Except Reject Instr :=
  orReserved (AtomOp.ofCode (w / 2 ^ 4 % 2 ^ 5)) fun x_o => checked (zeroBits w 3 0) (.xferRatom (bitAt w 31) (fld w 14 6) (fld w 9 5) x_o)

/-- The fields of XFER_ARMC. -/
def decXferArmc (w : Nat) : Except Reject Instr :=
  checked (zeroBits w 19 14 && zeroBits w 1 1) (.xferArmc (bitAt w 31) (fld w 8 6) (fld w 2 6))

/-- The fields of XFER_ARMC_Z. -/
def decXferArmcZ (w : Nat) : Except Reject Instr :=
  checked (zeroBits w 19 14 && zeroBits w 1 1) (.xferArmcZ (bitAt w 31) (fld w 8 6) (fld w 2 6))

/-- The fields of XFER_ACWAIT. -/
def decXferAcwait (w : Nat) : Except Reject Instr :=
  checked (zeroBits w 7 0) (.xferAcwait (bitAt w 31) (fld w 14 6) (fld w 8 6))

/-- The fields of SYS_SEATQ. -/
def decSysSeatq (w : Nat) : Except Reject Instr :=
  checked (zeroBits w 13 0) (.sysSeatq (bitAt w 31) (fld w 14 6))

/-- The fields of SYS_PLACE. -/
def decSysPlace (w : Nat) : Except Reject Instr :=
  checked (true) (.sysPlace (bitAt w 31) (fld w 14 6) (fld w 8 6) (fld w 2 6) (bitAt w 1))

/-- The fields of SYS_PLACE_RS. -/
def decSysPlaceRs (w : Nat) : Except Reject Instr :=
  checked (true) (.sysPlaceRs (bitAt w 31) (fld w 14 6) (fld w 8 6) (fld w 2 6) (bitAt w 1))

/-- The fields of SYS_PREEMPT. -/
def decSysPreempt (w : Nat) : Except Reject Instr :=
  checked (zeroBits w 7 1) (.sysPreempt (bitAt w 31) (fld w 14 6) (fld w 8 6))

/-- The fields of SYS_PREEMPT_AT. -/
def decSysPreemptAt (w : Nat) : Except Reject Instr :=
  checked (zeroBits w 1 1) (.sysPreemptAt (bitAt w 31) (fld w 14 6) (fld w 8 6) (fld w 2 6))

/-- The fields of SYS_RESET. -/
def decSysReset (w : Nat) : Except Reject Instr :=
  checked (zeroBits w 7 0) (.sysReset (bitAt w 31) (fld w 14 6) (fld w 8 6))

/-- The fields of SYS_CKPT. -/
def decSysCkpt (w : Nat) : Except Reject Instr :=
  checked (zeroBits w 1 1) (.sysCkpt (bitAt w 31) (fld w 14 6) (fld w 8 6) (fld w 2 6))

/-- The fields of SYS_CKPT_RS. -/
def decSysCkptRs (w : Nat) : Except Reject Instr :=
  checked (zeroBits w 1 1) (.sysCkptRs (bitAt w 31) (fld w 14 6) (fld w 8 6) (fld w 2 6))

/-- The fields of SYS_SCRUB. -/
def decSysScrub (w : Nat) : Except Reject Instr :=
  checked (zeroBits w 1 0) (.sysScrub (bitAt w 31) (fld w 14 6) (fld w 8 6) (fld w 2 6))

/-- The fields of SYS_RCPT. -/
def decSysRcpt (w : Nat) : Except Reject Instr :=
  checked (zeroBits w 1 1) (.sysRcpt (bitAt w 31) (fld w 14 6) (fld w 8 6) (fld w 2 6) (bitAt w 0))

/-- The fields of SYS_CTRRD. -/
def decSysCtrrd (w : Nat) : Except Reject Instr :=
  checked (zeroBits w 1 0) (.sysCtrrd (bitAt w 31) (fld w 14 6) (fld w 8 6) (fld w 2 6))

/-- The fields of SYS_CTXRD. -/
def decSysCtxrd (w : Nat) : Except Reject Instr :=
  checked (zeroBits w 1 0) (.sysCtxrd (bitAt w 31) (fld w 14 6) (fld w 8 6) (fld w 2 6))

/-- The fields of SYS_CSRR. -/
def decSysCsrr (w : Nat) : Except Reject Instr :=
  checked (zeroBits w 13 12) (.sysCsrr (bitAt w 31) (fld w 14 6) (fld w 0 12))

/-- The fields of SYS_CSRW. -/
def decSysCsrw (w : Nat) : Except Reject Instr :=
  checked (zeroBits w 13 12) (.sysCsrw (bitAt w 31) (fld w 14 6) (fld w 0 12))

/-- The fields of SYS_TRAP. -/
def decSysTrap (w : Nat) : Except Reject Instr :=
  checked (zeroBits w 19 16) (.sysTrap (bitAt w 31) (fld w 4 12) (fld w 0 4))

/-- The fields of SYS_TRET. -/
def decSysTret (w : Nat) : Except Reject Instr :=
  checked (zeroBits w 19 0) (.sysTret (bitAt w 31))

/-- The fields of SYS_BRK. -/
def decSysBrk (w : Nat) : Except Reject Instr :=
  checked (zeroBits w 19 16) (.sysBrk (bitAt w 31) (fld w 0 16))

/-- The fields of SYS_BPSET. -/
def decSysBpset (w : Nat) : Except Reject Instr :=
  checked (zeroBits w 19 17 && zeroBits w 1 0) (.sysBpset (bitAt w 31) (fld w 14 3) (fld w 8 6) (fld w 2 6))

/-- The fields of SYS_BPCLR. -/
def decSysBpclr (w : Nat) : Except Reject Instr :=
  checked (zeroBits w 19 17 && zeroBits w 13 0) (.sysBpclr (bitAt w 31) (fld w 14 3))

/-- The fields of SYS_FEATQ. -/
def decSysFeatq (w : Nat) : Except Reject Instr :=
  checked (zeroBits w 13 0) (.sysFeatq (bitAt w 31) (fld w 14 6))

/-- The fields of SYS_MGSET. -/
def decSysMgset (w : Nat) : Except Reject Instr :=
  checked (zeroBits w 19 14 && zeroBits w 1 0) (.sysMgset (bitAt w 31) (fld w 8 6) (fld w 2 6))

/-- The sub-operations of a family (02 R53 format X and the family chapters); another value is a reserved field. -/
def decOp0E (w : Nat) : Except Reject Instr :=
  match w / 2 ^ 9 % 2 ^ 4 with
  | 0 => decXmovMov w
  | 1 => decXmovRds w
  | 2 => decXmovRdk w
  | 3 => decXmovWrk w
  | 4 => decXmovRdp w
  | 5 => decXmovWrp w
  | 6 => decXmovShape w
  | 7 => decXmovPrec w
  | _ => .error .reservedField

def decOp19 (w : Nat) : Except Reject Instr :=
  match w / 2 ^ 9 % 2 ^ 2 with
  | 0 => decVoteAny w
  | 1 => decVoteAll w
  | 2 => decVoteBallot w
  | 3 => decVoteElect w
  | _ => .error .reservedField

def decOp27 (w : Nat) : Except Reject Instr :=
  match w / 2 ^ 20 % 2 ^ 5 with
  | 0 => decFenceAr w
  | 1 => decFenceAcq w
  | 2 => decFenceRel w
  | _ => .error .reservedField

def decOp28 (w : Nat) : Except Reject Instr :=
  match w / 2 ^ 20 % 2 ^ 5 with
  | 0 => decWaitCnt w
  | _ => .error .reservedField

def decOp2A (w : Nat) : Except Reject Instr :=
  match w / 2 ^ 3 % 2 ^ 2 with
  | 0 => decLdfeKeep w
  | 1 => decLdfeTake w
  | _ => .error .reservedField

def decOp2B (w : Nat) : Except Reject Instr :=
  match w / 2 ^ 3 % 2 ^ 2 with
  | 0 => decStfeFill w
  | 1 => decStfePut w
  | _ => .error .reservedField

def decOp2C (w : Nat) : Except Reject Instr :=
  match w / 2 ^ 20 % 2 ^ 5 with
  | 0 => decCctlIsync w
  | 1 => decCctlDwb w
  | 2 => decCctlDinv w
  | 3 => decCctlPfx w
  | _ => .error .reservedField

def decOp38 (w : Nat) : Except Reject Instr :=
  match w / 2 ^ 20 % 2 ^ 5 with
  | 0 => decBarSync w
  | 1 => decBarArrive w
  | _ => .error .reservedField

def decOp39 (w : Nat) : Except Reject Instr :=
  match w / 2 ^ 20 % 2 ^ 5 with
  | 0 => decLaunchGrid w
  | _ => .error .reservedField

def decOp3A (w : Nat) : Except Reject Instr :=
  match w / 2 ^ 20 % 2 ^ 5 with
  | 0 => decCwaitAll w
  | 1 => decCwaitFgate w
  | 2 => decCwaitFstat w
  | 3 => decCwaitFsq w
  | _ => .error .reservedField

def decOp3B (w : Nat) : Except Reject Instr :=
  match w / 2 ^ 20 % 2 ^ 5 with
  | 0 => decTilePload w
  | 1 => decTilePloadw w
  | 2 => decTileExpose w
  | 3 => decTileExposew w
  | 4 => decTileTcvt w
  | 5 => decTileTdcvt w
  | 6 => decTileTrayz w
  | 7 => decTileTrayrd w
  | 8 => decTileTrayfl w
  | 9 => decTilePstat w
  | _ => .error .reservedField

def decOp3C (w : Nat) : Except Reject Instr :=
  match w / 2 ^ 20 % 2 ^ 5 with
  | 0 => decQaccQrst w
  | 1 => decQaccQgen w
  | 2 => decQaccQapp w
  | 3 => decQaccQcnt w
  | 4 => if bitAt w 16 = true then decQaccQaplTile w else decQaccQaplReg w
  | 5 => if bitAt w 16 = true then decQaccQapltTile w else decQaccQapltReg w
  | 6 => if bitAt w 16 = true then decQaccQaprTile w else decQaccQaprReg w
  | 7 => if bitAt w 16 = true then decQaccQaprtTile w else decQaccQaprtReg w
  | 8 => decQaccQsave w
  | 9 => decQaccQload w
  | 10 => decQaccQspill w
  | 11 => decQaccQclr w
  | _ => .error .reservedField

def decOp3D (w : Nat) : Except Reject Instr :=
  match w / 2 ^ 20 % 2 ^ 5 with
  | 0 => decXferCopy w
  | 1 => decXferCopy2d w
  | 2 => decXferHalo w
  | 3 => if bitAt w 1 = true then decXferBxferOne w else decXferBxfer w
  | 4 => if bitAt w 1 = true then decXferBxmcOne w else decXferBxmc w
  | 5 => decXferRatom w
  | 6 => if bitAt w 0 = true then decXferArmcZ w else decXferArmc w
  | 7 => decXferAcwait w
  | _ => .error .reservedField

def decOp3E (w : Nat) : Except Reject Instr :=
  match w / 2 ^ 20 % 2 ^ 5 with
  | 0 => decSysSeatq w
  | 1 => if bitAt w 0 = true then decSysPlaceRs w else decSysPlace w
  | 2 => if bitAt w 0 = true then decSysPreemptAt w else decSysPreempt w
  | 3 => decSysReset w
  | 4 => if bitAt w 0 = true then decSysCkptRs w else decSysCkpt w
  | 5 => decSysScrub w
  | 6 => decSysRcpt w
  | 7 => decSysCtrrd w
  | 8 => decSysCtxrd w
  | 9 => decSysCsrr w
  | 10 => decSysCsrw w
  | 11 => decSysTrap w
  | 12 => decSysTret w
  | 13 => decSysBrk w
  | 14 => decSysBpset w
  | 15 => decSysBpclr w
  | 16 => decSysFeatq w
  | 17 => decSysMgset w
  | _ => .error .reservedField

/-- The primary opcode map (02 R59, R60). A PB with CH = 1 is rejected after its other checks (02 R47, R61 step 7). -/
def decodeWord (w : Nat) : Except Reject Instr :=
  match w / 2 ^ 25 % 2 ^ 6 with
  | 0 => .error .illegalWord
  | 1 => match decPb w with
    | .ok i => if bitAt w 31 = true then .error .chainPb else .ok i
    | .error r => .error r
  | 2 => decIop w
  | 3 => decAddi w
  | 4 => decAndi w
  | 5 => decOri w
  | 6 => decXori w
  | 7 => decShi w
  | 8 => decMovi w
  | 9 => decMovhi w
  | 10 => decIcmp w
  | 11 => decIcmpi w
  | 12 => decPlop w
  | 13 => decSel w
  | 14 => decOp0E w
  | 15 => decLea w
  | 16 => decFop w
  | 17 => decFma32 w
  | 18 => decFmah w
  | 19 => decFmab w
  | 20 => decFmad w
  | 21 => decFunOp w
  | 22 => decFcmp w
  | 23 => decCvt w
  | 24 => decShfl w
  | 25 => decOp19 w
  | 26 => decRedux w
  | 27 => decDot4 w
  | 28 => .error .reservedOpcode
  | 29 => .error .reservedOpcode
  | 30 => .error .reservedOpcode
  | 31 => .error .reservedOpcode
  | 32 => decLd w
  | 33 => decLds w
  | 34 => decSt w
  | 35 => decLda w
  | 36 => decStl w
  | 37 => decAtom w
  | 38 => decCas w
  | 39 => decOp27 w
  | 40 => decOp28 w
  | 41 => decMwait w
  | 42 => decOp2A w
  | 43 => decOp2B w
  | 44 => decOp2C w
  | 45 => .error .reservedOpcode
  | 46 => .error .reservedOpcode
  | 47 => .error .reservedOpcode
  | 48 => decBra w
  | 49 => decJmpr w
  | 50 => decCall w
  | 51 => decCallr w
  | 52 => decFcall w
  | 53 => decRet w
  | 54 => decYieldOp w
  | 55 => decExitOp w
  | 56 => decOp38 w
  | 57 => decOp39 w
  | 58 => decOp3A w
  | 59 => decOp3B w
  | 60 => decOp3C w
  | 61 => decOp3D w
  | 62 => decOp3E w
  | 63 => .error .illegalWord
  | _ => .error .illegalWord

/-- The word of PB. -/
def encPb (p : PReg) (n : BitVec 3) (m : BitVec 8) : Nat :=
  0x02000000 + p.toNat * 2097152 + n.toNat * 262144 + m.toNat * 1024

/-- The word of IOP. -/
def encIop (ch : Bool) (d : Reg) (a : Reg) (b : Reg) (w64 : Bool) (f : IopFn) : Nat :=
  0x04000000 + bitN ch * 2147483648 + d.toNat * 524288 + a.toNat * 8192 + b.toNat * 128 + bitN w64 * 64 + f.code

/-- The word of ADDI. -/
def encAddi (ch : Bool) (d : Reg) (a : Reg) (i : BitVec 13) : Nat :=
  0x06000000 + bitN ch * 2147483648 + d.toNat * 524288 + a.toNat * 8192 + i.toNat

/-- The word of ANDI. -/
def encAndi (ch : Bool) (d : Reg) (a : Reg) (i : BitVec 13) : Nat :=
  0x08000000 + bitN ch * 2147483648 + d.toNat * 524288 + a.toNat * 8192 + i.toNat

/-- The word of ORI. -/
def encOri (ch : Bool) (d : Reg) (a : Reg) (i : BitVec 13) : Nat :=
  0x0A000000 + bitN ch * 2147483648 + d.toNat * 524288 + a.toNat * 8192 + i.toNat

/-- The word of XORI. -/
def encXori (ch : Bool) (d : Reg) (a : Reg) (i : BitVec 13) : Nat :=
  0x0C000000 + bitN ch * 2147483648 + d.toNat * 524288 + a.toNat * 8192 + i.toNat

/-- The word of SHI. -/
def encShi (ch : Bool) (d : Reg) (a : Reg) (k : ShKind) (w64 : Bool) (amt : BitVec 6) : Nat :=
  0x0E000000 + bitN ch * 2147483648 + d.toNat * 524288 + a.toNat * 8192 + k.code * 2048 + bitN w64 * 1024 + amt.toNat

/-- The word of MOVI. -/
def encMovi (ch : Bool) (d : Reg) (i : BitVec 19) : Nat :=
  0x10000000 + bitN ch * 2147483648 + d.toNat * 524288 + i.toNat

/-- The word of MOVHI. -/
def encMovhi (ch : Bool) (d : Reg) (i : BitVec 19) : Nat :=
  0x12000000 + bitN ch * 2147483648 + d.toNat * 524288 + i.toNat

/-- The word of ICMP. -/
def encIcmp (ch : Bool) (p : PReg) (a : Reg) (b : Reg) (r : Cmp) (t : ITy) : Nat :=
  0x14000000 + bitN ch * 2147483648 + p.toNat * 2097152 + a.toNat * 32768 + b.toNat * 512 + r.code * 64 + t.code * 16

/-- The word of ICMPI. -/
def encIcmpi (ch : Bool) (p : PReg) (a : Reg) (r : Cmp) (t : ITy) (i : BitVec 10) : Nat :=
  0x16000000 + bitN ch * 2147483648 + p.toNat * 2097152 + a.toNat * 32768 + r.code * 4096 + t.code * 1024 + i.toNat

/-- The word of PLOP. -/
def encPlop (ch : Bool) (d : PReg) (x : PReg) (y : PReg) (f : PlopFn) : Nat :=
  0x18000000 + bitN ch * 2147483648 + d.toNat * 2097152 + x.toNat * 131072 + y.toNat * 8192 + f.code * 1024

/-- The word of SEL. -/
def encSel (ch : Bool) (d : Reg) (a : Reg) (b : Reg) (p : PReg) (w64 : Bool) : Nat :=
  0x1A000000 + bitN ch * 2147483648 + d.toNat * 524288 + a.toNat * 8192 + b.toNat * 128 + p.toNat * 8 + bitN w64 * 4

/-- The word of XMOV_MOV. -/
def encXmovMov (ch : Bool) (d : Reg) (a : Reg) : Nat :=
  0x1C000000 + bitN ch * 2147483648 + d.toNat * 524288 + a.toNat * 8192

/-- The word of XMOV_RDS. -/
def encXmovRds (ch : Bool) (d : Reg) (s : SpecialValue) : Nat :=
  0x1C000200 + bitN ch * 2147483648 + d.toNat * 524288 + s.code * 16

/-- The word of XMOV_RDK. -/
def encXmovRdk (ch : Bool) (d : Reg) (k : BitVec 5) : Nat :=
  0x1C000400 + bitN ch * 2147483648 + d.toNat * 524288 + k.toNat * 16

/-- The word of XMOV_WRK. -/
def encXmovWrk (ch : Bool) (a : Reg) (k : BitVec 5) : Nat :=
  0x1C000600 + bitN ch * 2147483648 + a.toNat * 8192 + k.toNat * 16

/-- The word of XMOV_RDP. -/
def encXmovRdp (ch : Bool) (d : Reg) : Nat :=
  0x1C000800 + bitN ch * 2147483648 + d.toNat * 524288

/-- The word of XMOV_WRP. -/
def encXmovWrp (ch : Bool) (a : Reg) : Nat :=
  0x1C000A00 + bitN ch * 2147483648 + a.toNat * 8192

/-- The word of XMOV_SHAPE. -/
def encXmovShape (ch : Bool) (d : Reg) (a : Reg) : Nat :=
  0x1C000C00 + bitN ch * 2147483648 + d.toNat * 524288 + a.toNat * 8192

/-- The word of XMOV_PREC. -/
def encXmovPrec (ch : Bool) (d : Reg) (e : BitVec 3) : Nat :=
  0x1C000E00 + bitN ch * 2147483648 + d.toNat * 524288 + e.toNat * 16

/-- The word of LEA. -/
def encLea (ch : Bool) (d : Reg) (a : Reg) (b : Reg) (s : BitVec 3) (sg : Bool) : Nat :=
  0x1E000000 + bitN ch * 2147483648 + d.toNat * 524288 + a.toNat * 8192 + b.toNat * 128 + s.toNat * 16 + bitN sg * 8

/-- The word of FOP. -/
def encFop (ch : Bool) (d : Reg) (a : Reg) (b : Reg) (o : FopOp) (t : FTy) (rm : Rm) : Nat :=
  0x20000000 + bitN ch * 2147483648 + d.toNat * 524288 + a.toNat * 8192 + b.toNat * 128 + o.code * 16 + t.code * 4 + rm.code

/-- The word of FMA32. -/
def encFma32 (ch : Bool) (d : Reg) (a : Reg) (b : Reg) (e : Reg) (neg : Bool) : Nat :=
  0x22000000 + bitN ch * 2147483648 + d.toNat * 524288 + a.toNat * 8192 + b.toNat * 128 + e.toNat * 2 + bitN neg

/-- The word of FMAH. -/
def encFmah (ch : Bool) (d : Reg) (a : Reg) (b : Reg) (e : Reg) (neg : Bool) : Nat :=
  0x24000000 + bitN ch * 2147483648 + d.toNat * 524288 + a.toNat * 8192 + b.toNat * 128 + e.toNat * 2 + bitN neg

/-- The word of FMAB. -/
def encFmab (ch : Bool) (d : Reg) (a : Reg) (b : Reg) (e : Reg) (neg : Bool) : Nat :=
  0x26000000 + bitN ch * 2147483648 + d.toNat * 524288 + a.toNat * 8192 + b.toNat * 128 + e.toNat * 2 + bitN neg

/-- The word of FMAD. -/
def encFmad (ch : Bool) (d : Reg) (a : Reg) (b : Reg) (e : Reg) (neg : Bool) : Nat :=
  0x28000000 + bitN ch * 2147483648 + d.toNat * 524288 + a.toNat * 8192 + b.toNat * 128 + e.toNat * 2 + bitN neg

/-- The word of FUN. -/
def encFunOp (ch : Bool) (d : Reg) (a : Reg) (f : FunFn) (t : FunTy) : Nat :=
  0x2A000000 + bitN ch * 2147483648 + d.toNat * 524288 + a.toNat * 8192 + f.code * 512 + t.code * 128

/-- The word of FCMP. -/
def encFcmp (ch : Bool) (p : PReg) (a : Reg) (b : Reg) (r : FCmpRel) (t : FTy) : Nat :=
  0x2C000000 + bitN ch * 2147483648 + p.toNat * 2097152 + a.toNat * 32768 + b.toNat * 512 + r.code * 64 + t.code * 16

/-- The word of CVT. -/
def encCvt (ch : Bool) (d : Reg) (a : Reg) (dty : CvtTy) (sty : CvtTy) (rm : Rm) (sat : Bool) : Nat :=
  0x2E000000 + bitN ch * 2147483648 + d.toNat * 524288 + a.toNat * 8192 + dty.code * 512 + sty.code * 32 + rm.code * 8 + bitN sat * 4

/-- The word of SHFL. -/
def encShfl (ch : Bool) (d : Reg) (a : Reg) (b : Reg) (k : ShflKind) (imm : Bool) : Nat :=
  0x30000000 + bitN ch * 2147483648 + d.toNat * 524288 + a.toNat * 8192 + b.toNat * 128 + k.code * 32 + bitN imm * 16

/-- The word of VOTE_ANY. -/
def encVoteAny (ch : Bool) (q : PReg) (p : PReg) : Nat :=
  0x32000000 + bitN ch * 2147483648 + q.toNat * 32768 + p.toNat * 2048

/-- The word of VOTE_ALL. -/
def encVoteAll (ch : Bool) (q : PReg) (p : PReg) : Nat :=
  0x32000200 + bitN ch * 2147483648 + q.toNat * 32768 + p.toNat * 2048

/-- The word of VOTE_BALLOT. -/
def encVoteBallot (ch : Bool) (d : Reg) (p : PReg) : Nat :=
  0x32000400 + bitN ch * 2147483648 + d.toNat * 524288 + p.toNat * 2048

/-- The word of VOTE_ELECT. -/
def encVoteElect (ch : Bool) (d : Reg) (q : PReg) (p : PReg) : Nat :=
  0x32000600 + bitN ch * 2147483648 + d.toNat * 524288 + q.toNat * 32768 + p.toNat * 2048

/-- The word of REDUX. -/
def encRedux (ch : Bool) (d : Reg) (a : Reg) (o : ReduxOp) (t : ReduxTy) : Nat :=
  0x34000000 + bitN ch * 2147483648 + d.toNat * 524288 + a.toNat * 8192 + o.code * 32 + t.code * 8

/-- The word of DOT4. -/
def encDot4 (ch : Bool) (d : Reg) (a : Reg) (b : Reg) (e : Reg) (uns : Bool) : Nat :=
  0x36000000 + bitN ch * 2147483648 + d.toNat * 524288 + a.toNat * 8192 + b.toNat * 128 + e.toNat * 2 + bitN uns

/-- The word of LD. -/
def encLd (ch : Bool) (d : Reg) (ap : BitVec 5) (w : Width) (off : BitVec 11) : Nat :=
  0x40000000 + bitN ch * 2147483648 + d.toNat * 524288 + ap.toNat * 16384 + w.code * 2048 + off.toNat

/-- The word of LDS. -/
def encLds (ch : Bool) (d : Reg) (ap : BitVec 5) (w : Width) (off : BitVec 11) : Nat :=
  0x42000000 + bitN ch * 2147483648 + d.toNat * 524288 + ap.toNat * 16384 + w.code * 2048 + off.toNat

/-- The word of ST. -/
def encSt (ch : Bool) (d : Reg) (ap : BitVec 5) (w : Width) (off : BitVec 11) : Nat :=
  0x44000000 + bitN ch * 2147483648 + d.toNat * 524288 + ap.toNat * 16384 + w.code * 2048 + off.toNat

/-- The word of LDA. -/
def encLda (ch : Bool) (d : Reg) (ap : BitVec 5) (sc : Scope) (w : Width) : Nat :=
  0x46000000 + bitN ch * 2147483648 + d.toNat * 524288 + ap.toNat * 16384 + sc.code * 32 + w.code

/-- The word of STL. -/
def encStl (ch : Bool) (d : Reg) (ap : BitVec 5) (sc : Scope) (w : Width) : Nat :=
  0x48000000 + bitN ch * 2147483648 + d.toNat * 524288 + ap.toNat * 16384 + sc.code * 32 + w.code

/-- The word of ATOM. -/
def encAtom (ch : Bool) (d : Reg) (ap : BitVec 5) (b : Reg) (sc : Scope) (o : AtomOp) : Nat :=
  0x4A000000 + bitN ch * 2147483648 + d.toNat * 524288 + ap.toNat * 16384 + b.toNat * 256 + sc.code * 32 + o.code

/-- The word of CAS. -/
def encCas (ch : Bool) (d : Reg) (ap : BitVec 5) (b : Reg) (sc : Scope) (w : Width) : Nat :=
  0x4C000000 + bitN ch * 2147483648 + d.toNat * 524288 + ap.toNat * 16384 + b.toNat * 256 + sc.code * 32 + w.code

/-- The word of FENCE_AR. -/
def encFenceAr (ch : Bool) (sc : Scope) : Nat :=
  0x4E000000 + bitN ch * 2147483648 + sc.code * 131072

/-- The word of FENCE_ACQ. -/
def encFenceAcq (ch : Bool) (sc : Scope) : Nat :=
  0x4E100000 + bitN ch * 2147483648 + sc.code * 131072

/-- The word of FENCE_REL. -/
def encFenceRel (ch : Bool) (sc : Scope) : Nat :=
  0x4E200000 + bitN ch * 2147483648 + sc.code * 131072

/-- The word of WAIT_CNT. -/
def encWaitCnt (ch : Bool) (ldc : BitVec 4) (stc : BitVec 4) (cpc : BitVec 4) (tlc : BitVec 4) : Nat :=
  0x50000000 + bitN ch * 2147483648 + ldc.toNat * 65536 + stc.toNat * 4096 + cpc.toNat * 256 + tlc.toNat * 16

/-- The word of MWAIT. -/
def encMwait (ch : Bool) (d : Reg) (ap : BitVec 5) (b : Reg) (sc : Scope) (cond : WaitCond) (w : Width) : Nat :=
  0x52000000 + bitN ch * 2147483648 + d.toNat * 524288 + ap.toNat * 16384 + b.toNat * 256 + sc.code * 32 + cond.code * 8 + w.code

/-- The word of LDFE_KEEP. -/
def encLdfeKeep (ch : Bool) (d : Reg) (ap : BitVec 5) (sc : Scope) (w : Width) : Nat :=
  0x54000000 + bitN ch * 2147483648 + d.toNat * 524288 + ap.toNat * 16384 + sc.code * 32 + w.code

/-- The word of LDFE_TAKE. -/
def encLdfeTake (ch : Bool) (d : Reg) (ap : BitVec 5) (sc : Scope) (w : Width) : Nat :=
  0x54000008 + bitN ch * 2147483648 + d.toNat * 524288 + ap.toNat * 16384 + sc.code * 32 + w.code

/-- The word of STFE_FILL. -/
def encStfeFill (ch : Bool) (d : Reg) (ap : BitVec 5) (sc : Scope) (w : Width) : Nat :=
  0x56000000 + bitN ch * 2147483648 + d.toNat * 524288 + ap.toNat * 16384 + sc.code * 32 + w.code

/-- The word of STFE_PUT. -/
def encStfePut (ch : Bool) (d : Reg) (ap : BitVec 5) (sc : Scope) (w : Width) : Nat :=
  0x56000008 + bitN ch * 2147483648 + d.toNat * 524288 + ap.toNat * 16384 + sc.code * 32 + w.code

/-- The word of CCTL_ISYNC. -/
def encCctlIsync (ch : Bool) : Nat :=
  0x58000000 + bitN ch * 2147483648

/-- The word of CCTL_DWB. -/
def encCctlDwb (ch : Bool) (ap : BitVec 5) (sc : Scope) : Nat :=
  0x58100000 + bitN ch * 2147483648 + ap.toNat * 32768 + sc.code * 4096

/-- The word of CCTL_DINV. -/
def encCctlDinv (ch : Bool) (ap : BitVec 5) (sc : Scope) : Nat :=
  0x58200000 + bitN ch * 2147483648 + ap.toNat * 32768 + sc.code * 4096

/-- The word of CCTL_PFX. -/
def encCctlPfx (ch : Bool) (ap : BitVec 5) (sc : Scope) : Nat :=
  0x58300000 + bitN ch * 2147483648 + ap.toNat * 32768 + sc.code * 4096

/-- The word of BRA. -/
def encBra (ch : Bool) (p : PReg) (s : Bool) (disp : BitVec 20) : Nat :=
  0x60000000 + bitN ch * 2147483648 + p.toNat * 2097152 + bitN s * 1048576 + disp.toNat

/-- The word of JMPR. -/
def encJmpr (ch : Bool) (a : Reg) : Nat :=
  0x62000000 + bitN ch * 2147483648 + a.toNat * 8192

/-- The word of CALL. -/
def encCall (ch : Bool) (disp : BitVec 25) : Nat :=
  0x64000000 + bitN ch * 2147483648 + disp.toNat

/-- The word of CALLR. -/
def encCallr (ch : Bool) (a : Reg) : Nat :=
  0x66000000 + bitN ch * 2147483648 + a.toNat * 8192

/-- The word of FCALL. -/
def encFcall (ch : Bool) (fd : BitVec 4) (disp : BitVec 21) : Nat :=
  0x68000000 + bitN ch * 2147483648 + fd.toNat * 2097152 + disp.toNat

/-- The word of RET. -/
def encRet (ch : Bool) : Nat :=
  0x6A000000 + bitN ch * 2147483648

/-- The word of YIELD. -/
def encYieldOp (ch : Bool) : Nat :=
  0x6C000000 + bitN ch * 2147483648

/-- The word of EXIT. -/
def encExitOp (ch : Bool) : Nat :=
  0x6E000000 + bitN ch * 2147483648

/-- The word of BAR_SYNC. -/
def encBarSync (ch : Bool) (idx : BitVec 4) : Nat :=
  0x70000000 + bitN ch * 2147483648 + idx.toNat * 65536

/-- The word of BAR_ARRIVE. -/
def encBarArrive (ch : Bool) (idx : BitVec 4) : Nat :=
  0x70100000 + bitN ch * 2147483648 + idx.toNat * 65536

/-- The word of LAUNCH_GRID. -/
def encLaunchGrid (ch : Bool) (d : Reg) (a : Reg) : Nat :=
  0x72000000 + bitN ch * 2147483648 + d.toNat * 16384 + a.toNat * 256

/-- The word of CWAIT_ALL. -/
def encCwaitAll (ch : Bool) : Nat :=
  0x74000000 + bitN ch * 2147483648

/-- The word of CWAIT_FGATE. -/
def encCwaitFgate (ch : Bool) : Nat :=
  0x74100000 + bitN ch * 2147483648

/-- The word of CWAIT_FSTAT. -/
def encCwaitFstat (ch : Bool) (d : Reg) (sel : ForkSel) : Nat :=
  0x74200000 + bitN ch * 2147483648 + d.toNat * 16384 + sel.code * 2048

/-- The word of CWAIT_FSQ. -/
def encCwaitFsq (ch : Bool) : Nat :=
  0x74300000 + bitN ch * 2147483648

/-- The word of TILE_PLOAD. -/
def encTilePload (ch : Bool) (ap : BitVec 5) (sl : BitVec 3) (g : Reg) : Nat :=
  0x76000000 + bitN ch * 2147483648 + ap.toNat * 32768 + sl.toNat * 4096 + g.toNat * 64

/-- The word of TILE_PLOADW. -/
def encTilePloadw (ch : Bool) (ap : BitVec 5) (sl : BitVec 3) (g : Reg) : Nat :=
  0x76100000 + bitN ch * 2147483648 + ap.toNat * 32768 + sl.toNat * 4096 + g.toNat * 64

/-- The word of TILE_EXPOSE. -/
def encTileExpose (ch : Bool) (ap : BitVec 5) (sl : BitVec 3) (tp : BitVec 5) (g : Reg) : Nat :=
  0x76200000 + bitN ch * 2147483648 + ap.toNat * 32768 + sl.toNat * 4096 + tp.toNat * 128 + g.toNat * 2

/-- The word of TILE_EXPOSEW. -/
def encTileExposew (ch : Bool) (ap : BitVec 5) (sl : BitVec 3) (tp : BitVec 5) (g : Reg) : Nat :=
  0x76300000 + bitN ch * 2147483648 + ap.toNat * 32768 + sl.toNat * 4096 + tp.toNat * 128 + g.toNat * 2

/-- The word of TILE_TCVT. -/
def encTileTcvt (ch : Bool) (src : BitVec 5) (sl : BitVec 3) (dst : BitVec 5) (g : Reg) : Nat :=
  0x76400000 + bitN ch * 2147483648 + src.toNat * 32768 + sl.toNat * 4096 + dst.toNat * 128 + g.toNat * 2

/-- The word of TILE_TDCVT. -/
def encTileTdcvt (ch : Bool) (src : BitVec 5) (sl : BitVec 3) (dst : BitVec 5) (g : Reg) : Nat :=
  0x76500000 + bitN ch * 2147483648 + src.toNat * 32768 + sl.toNat * 4096 + dst.toNat * 128 + g.toNat * 2

/-- The word of TILE_TRAYZ. -/
def encTileTrayz (ch : Bool) (tp : BitVec 5) (g : Reg) : Nat :=
  0x76600000 + bitN ch * 2147483648 + tp.toNat * 32768 + g.toNat * 2

/-- The word of TILE_TRAYRD. -/
def encTileTrayrd (ch : Bool) (tp : BitVec 5) (dst : BitVec 5) (g : Reg) : Nat :=
  0x76700000 + bitN ch * 2147483648 + tp.toNat * 32768 + dst.toNat * 128 + g.toNat * 2

/-- The word of TILE_TRAYFL. -/
def encTileTrayfl (ch : Bool) (tp : BitVec 5) (g : Reg) : Nat :=
  0x76800000 + bitN ch * 2147483648 + tp.toNat * 32768 + g.toNat * 2

/-- The word of TILE_PSTAT. -/
def encTilePstat (ch : Bool) (d : Reg) (sel : PstatSel) : Nat :=
  0x76900000 + bitN ch * 2147483648 + d.toNat * 16384 + sel.code * 2048

/-- The word of QACC_QRST. -/
def encQaccQrst (ch : Bool) (q : BitVec 3) (a : Reg) (p : Reg) : Nat :=
  0x78000000 + bitN ch * 2147483648 + q.toNat * 131072 + a.toNat * 2048 + p.toNat * 32

/-- The word of QACC_QGEN. -/
def encQaccQgen (ch : Bool) (q : BitVec 3) (d : Reg) (a : Reg) : Nat :=
  0x78100000 + bitN ch * 2147483648 + q.toNat * 131072 + d.toNat * 2048 + a.toNat * 32

/-- The word of QACC_QAPP. -/
def encQaccQapp (ch : Bool) (q : BitVec 3) (a : Reg) (b : Reg) : Nat :=
  0x78200000 + bitN ch * 2147483648 + q.toNat * 131072 + a.toNat * 2048 + b.toNat * 32

/-- The word of QACC_QCNT. -/
def encQaccQcnt (ch : Bool) (q : BitVec 3) (d : Reg) : Nat :=
  0x78300000 + bitN ch * 2147483648 + q.toNat * 131072 + d.toNat * 2048

/-- The word of QACC_QAPL_REG. -/
def encQaccQaplReg (ch : Bool) (q : BitVec 3) (d : Reg) (a : Reg) : Nat :=
  0x78400000 + bitN ch * 2147483648 + q.toNat * 131072 + d.toNat * 1024 + a.toNat * 16

/-- The word of QACC_QAPLT_REG. -/
def encQaccQapltReg (ch : Bool) (q : BitVec 3) (d : Reg) (a : Reg) : Nat :=
  0x78500000 + bitN ch * 2147483648 + q.toNat * 131072 + d.toNat * 1024 + a.toNat * 16

/-- The word of QACC_QAPR_REG. -/
def encQaccQaprReg (ch : Bool) (q : BitVec 3) (d : Reg) (a : Reg) : Nat :=
  0x78600000 + bitN ch * 2147483648 + q.toNat * 131072 + d.toNat * 1024 + a.toNat * 16

/-- The word of QACC_QAPRT_REG. -/
def encQaccQaprtReg (ch : Bool) (q : BitVec 3) (d : Reg) (a : Reg) : Nat :=
  0x78700000 + bitN ch * 2147483648 + q.toNat * 131072 + d.toNat * 1024 + a.toNat * 16

/-- The word of QACC_QAPL_TILE. -/
def encQaccQaplTile (ch : Bool) (q : BitVec 3) (ap : BitVec 5) (g : Reg) : Nat :=
  0x78410000 + bitN ch * 2147483648 + q.toNat * 131072 + ap.toNat * 2048 + g.toNat * 32

/-- The word of QACC_QAPLT_TILE. -/
def encQaccQapltTile (ch : Bool) (q : BitVec 3) (ap : BitVec 5) (g : Reg) : Nat :=
  0x78510000 + bitN ch * 2147483648 + q.toNat * 131072 + ap.toNat * 2048 + g.toNat * 32

/-- The word of QACC_QAPR_TILE. -/
def encQaccQaprTile (ch : Bool) (q : BitVec 3) (ap : BitVec 5) (g : Reg) : Nat :=
  0x78610000 + bitN ch * 2147483648 + q.toNat * 131072 + ap.toNat * 2048 + g.toNat * 32

/-- The word of QACC_QAPRT_TILE. -/
def encQaccQaprtTile (ch : Bool) (q : BitVec 3) (ap : BitVec 5) (g : Reg) : Nat :=
  0x78710000 + bitN ch * 2147483648 + q.toNat * 131072 + ap.toNat * 2048 + g.toNat * 32

/-- The word of QACC_QSAVE. -/
def encQaccQsave (ch : Bool) (q : BitVec 3) (ap : BitVec 5) : Nat :=
  0x78800000 + bitN ch * 2147483648 + q.toNat * 131072 + ap.toNat * 4096

/-- The word of QACC_QLOAD. -/
def encQaccQload (ch : Bool) (q : BitVec 3) (ap : BitVec 5) : Nat :=
  0x78900000 + bitN ch * 2147483648 + q.toNat * 131072 + ap.toNat * 4096

/-- The word of QACC_QSPILL. -/
def encQaccQspill (ch : Bool) (q : BitVec 3) : Nat :=
  0x78A00000 + bitN ch * 2147483648 + q.toNat * 131072

/-- The word of QACC_QCLR. -/
def encQaccQclr (ch : Bool) (q : BitVec 3) : Nat :=
  0x78B00000 + bitN ch * 2147483648 + q.toNat * 131072

/-- The word of XFER_COPY. -/
def encXferCopy (ch : Bool) (d : Reg) (a : Reg) (b : Reg) : Nat :=
  0x7A000000 + bitN ch * 2147483648 + d.toNat * 16384 + a.toNat * 256 + b.toNat * 4

/-- The word of XFER_COPY2D. -/
def encXferCopy2d (ch : Bool) (d : Reg) (a : Reg) (b : Reg) : Nat :=
  0x7A100000 + bitN ch * 2147483648 + d.toNat * 16384 + a.toNat * 256 + b.toNat * 4

/-- The word of XFER_HALO. -/
def encXferHalo (ch : Bool) (d : Reg) (a : Reg) (b : Reg) : Nat :=
  0x7A200000 + bitN ch * 2147483648 + d.toNat * 16384 + a.toNat * 256 + b.toNat * 4

/-- The word of XFER_BXFER. -/
def encXferBxfer (ch : Bool) (d : Reg) (a : Reg) (b : Reg) : Nat :=
  0x7A300000 + bitN ch * 2147483648 + d.toNat * 16384 + a.toNat * 256 + b.toNat * 4

/-- The word of XFER_BXFER_ONE. -/
def encXferBxferOne (ch : Bool) (d : Reg) (a : Reg) (b : Reg) : Nat :=
  0x7A300002 + bitN ch * 2147483648 + d.toNat * 16384 + a.toNat * 256 + b.toNat * 4

/-- The word of XFER_BXMC. -/
def encXferBxmc (ch : Bool) (d : Reg) (a : Reg) (b : Reg) : Nat :=
  0x7A400000 + bitN ch * 2147483648 + d.toNat * 16384 + a.toNat * 256 + b.toNat * 4

/-- The word of XFER_BXMC_ONE. -/
def encXferBxmcOne (ch : Bool) (d : Reg) (a : Reg) (b : Reg) : Nat :=
  0x7A400002 + bitN ch * 2147483648 + d.toNat * 16384 + a.toNat * 256 + b.toNat * 4

/-- The word of XFER_RATOM. -/
def encXferRatom (ch : Bool) (d : Reg) (ap : BitVec 5) (o : AtomOp) : Nat :=
  0x7A500000 + bitN ch * 2147483648 + d.toNat * 16384 + ap.toNat * 512 + o.code * 16

/-- The word of XFER_ARMC. -/
def encXferArmc (ch : Bool) (a : Reg) (b : Reg) : Nat :=
  0x7A600000 + bitN ch * 2147483648 + a.toNat * 256 + b.toNat * 4

/-- The word of XFER_ARMC_Z. -/
def encXferArmcZ (ch : Bool) (a : Reg) (b : Reg) : Nat :=
  0x7A600001 + bitN ch * 2147483648 + a.toNat * 256 + b.toNat * 4

/-- The word of XFER_ACWAIT. -/
def encXferAcwait (ch : Bool) (d : Reg) (a : Reg) : Nat :=
  0x7A700000 + bitN ch * 2147483648 + d.toNat * 16384 + a.toNat * 256

/-- The word of SYS_SEATQ. -/
def encSysSeatq (ch : Bool) (d : Reg) : Nat :=
  0x7C000000 + bitN ch * 2147483648 + d.toNat * 16384

/-- The word of SYS_PLACE. -/
def encSysPlace (ch : Bool) (d : Reg) (a : Reg) (b : Reg) (rp : Bool) : Nat :=
  0x7C100000 + bitN ch * 2147483648 + d.toNat * 16384 + a.toNat * 256 + b.toNat * 4 + bitN rp * 2

/-- The word of SYS_PLACE_RS. -/
def encSysPlaceRs (ch : Bool) (d : Reg) (a : Reg) (b : Reg) (rp : Bool) : Nat :=
  0x7C100001 + bitN ch * 2147483648 + d.toNat * 16384 + a.toNat * 256 + b.toNat * 4 + bitN rp * 2

/-- The word of SYS_PREEMPT. -/
def encSysPreempt (ch : Bool) (d : Reg) (a : Reg) : Nat :=
  0x7C200000 + bitN ch * 2147483648 + d.toNat * 16384 + a.toNat * 256

/-- The word of SYS_PREEMPT_AT. -/
def encSysPreemptAt (ch : Bool) (d : Reg) (a : Reg) (b : Reg) : Nat :=
  0x7C200001 + bitN ch * 2147483648 + d.toNat * 16384 + a.toNat * 256 + b.toNat * 4

/-- The word of SYS_RESET. -/
def encSysReset (ch : Bool) (d : Reg) (a : Reg) : Nat :=
  0x7C300000 + bitN ch * 2147483648 + d.toNat * 16384 + a.toNat * 256

/-- The word of SYS_CKPT. -/
def encSysCkpt (ch : Bool) (d : Reg) (a : Reg) (b : Reg) : Nat :=
  0x7C400000 + bitN ch * 2147483648 + d.toNat * 16384 + a.toNat * 256 + b.toNat * 4

/-- The word of SYS_CKPT_RS. -/
def encSysCkptRs (ch : Bool) (d : Reg) (a : Reg) (b : Reg) : Nat :=
  0x7C400001 + bitN ch * 2147483648 + d.toNat * 16384 + a.toNat * 256 + b.toNat * 4

/-- The word of SYS_SCRUB. -/
def encSysScrub (ch : Bool) (d : Reg) (a : Reg) (b : Reg) : Nat :=
  0x7C500000 + bitN ch * 2147483648 + d.toNat * 16384 + a.toNat * 256 + b.toNat * 4

/-- The word of SYS_RCPT. -/
def encSysRcpt (ch : Bool) (d : Reg) (a : Reg) (b : Reg) (l : Bool) : Nat :=
  0x7C600000 + bitN ch * 2147483648 + d.toNat * 16384 + a.toNat * 256 + b.toNat * 4 + bitN l

/-- The word of SYS_CTRRD. -/
def encSysCtrrd (ch : Bool) (d : Reg) (a : Reg) (b : Reg) : Nat :=
  0x7C700000 + bitN ch * 2147483648 + d.toNat * 16384 + a.toNat * 256 + b.toNat * 4

/-- The word of SYS_CTXRD. -/
def encSysCtxrd (ch : Bool) (d : Reg) (a : Reg) (b : Reg) : Nat :=
  0x7C800000 + bitN ch * 2147483648 + d.toNat * 16384 + a.toNat * 256 + b.toNat * 4

/-- The word of SYS_CSRR. -/
def encSysCsrr (ch : Bool) (d : Reg) (idx : BitVec 12) : Nat :=
  0x7C900000 + bitN ch * 2147483648 + d.toNat * 16384 + idx.toNat

/-- The word of SYS_CSRW. -/
def encSysCsrw (ch : Bool) (a : Reg) (idx : BitVec 12) : Nat :=
  0x7CA00000 + bitN ch * 2147483648 + a.toNat * 16384 + idx.toNat

/-- The word of SYS_TRAP. -/
def encSysTrap (ch : Bool) (tag : BitVec 12) (n : BitVec 4) : Nat :=
  0x7CB00000 + bitN ch * 2147483648 + tag.toNat * 16 + n.toNat

/-- The word of SYS_TRET. -/
def encSysTret (ch : Bool) : Nat :=
  0x7CC00000 + bitN ch * 2147483648

/-- The word of SYS_BRK. -/
def encSysBrk (ch : Bool) (tag : BitVec 16) : Nat :=
  0x7CD00000 + bitN ch * 2147483648 + tag.toNat

/-- The word of SYS_BPSET. -/
def encSysBpset (ch : Bool) (n : BitVec 3) (a : Reg) (b : Reg) : Nat :=
  0x7CE00000 + bitN ch * 2147483648 + n.toNat * 16384 + a.toNat * 256 + b.toNat * 4

/-- The word of SYS_BPCLR. -/
def encSysBpclr (ch : Bool) (n : BitVec 3) : Nat :=
  0x7CF00000 + bitN ch * 2147483648 + n.toNat * 16384

/-- The word of SYS_FEATQ. -/
def encSysFeatq (ch : Bool) (d : Reg) : Nat :=
  0x7D000000 + bitN ch * 2147483648 + d.toNat * 16384

/-- The word of SYS_MGSET. -/
def encSysMgset (ch : Bool) (a : Reg) (b : Reg) : Nat :=
  0x7D100000 + bitN ch * 2147483648 + a.toNat * 256 + b.toNat * 4

/-- A word from its four bytes, lowest address first (02 R37). -/
def wordOfBytes (b0 b1 b2 b3 : Byte) : Nat :=
  b0.toNat + b1.toNat * 2 ^ 8 + b2.toNat * 2 ^ 16 + b3.toNat * 2 ^ 24

/-- The decoder on any bytes: fewer than four are no word. -/
def decodeBytes : List Byte → Except Reject (Instr × List Byte)
  | b0 :: b1 :: b2 :: b3 :: rest =>
    match decodeWord (wordOfBytes b0 b1 b2 b3) with
    | .ok i => .ok (i, rest)
    | .error r => .error r
  | _ => .error .illegalWord

/-- The four bytes of a word as the hardware stores it (02 R37). -/
def bytesOfWord (w : Nat) : List Byte :=
  [BitVec.ofNat 8 w, BitVec.ofNat 8 (w / 2 ^ 8), BitVec.ofNat 8 (w / 2 ^ 16), BitVec.ofNat 8 (w / 2 ^ 24)]

/-- The instruction the decoder reads from an instruction of `nbits` bits numbered from bit 0; bits above are zero. -/
def decodeTableWord (nbits w : Nat) : Option Instr :=
  match decodeBytes (bytesOfWord (w % 2 ^ nbits)) with
  | .ok (i, _) => some i
  | .error _ => none

/-- The feature bits a word needs, read from its bits whether or not its other fields are defined (02 R60, R62): TILE and
QACC are gated as whole opcodes, CWAIT, XFER and SYS by sub-operation, FOP and CVT by type, and CSRR and CSRW of RXB0-RXL31
by index (01 R29). -/
def wordFeatures (w : Nat) : List Nat :=
  let sub := w / 2 ^ 20 % 2 ^ 5
  match w / 2 ^ 25 % 2 ^ 6 with
  | 0x10 => if w / 2 ^ 2 % 4 = 3 then [1] else []
  | 0x14 => [1]
  | 0x17 => if w / 2 ^ 9 % 16 = 11 ∨ w / 2 ^ 5 % 16 = 11 then [1] else []
  | 0x34 => [2]
  | 0x3A => if 1 ≤ sub ∧ sub ≤ 3 then [2] else []
  | 0x3B => if sub = 1 ∨ sub = 3 then [3, 4] else [3]
  | 0x3C => [5]
  | 0x3D => if sub = 4 then [6, 7] else if sub = 3 ∨ sub = 5 ∨ sub = 6 ∨ sub = 7 then [6] else []
  | 0x3E =>
    if sub = 1 ∧ bitAt w 1 = true then [8]
    else if sub = 17 then [7]
    else if (sub = 9 ∨ sub = 10) ∧ 0x7C0 ≤ w % 2 ^ 12 ∧ w % 2 ^ 12 ≤ 0x7FF then [6]
    else []
  | _ => []

/-- The encoder: the word of an instruction, from the layouts of the family chapters; an event has none. -/
def encode : Instr → Option Nat
  | .pb p n m => some (encPb p n m)
  | .iop ch d a b w64 f => some (encIop ch d a b w64 f)
  | .addi ch d a i => some (encAddi ch d a i)
  | .andi ch d a i => some (encAndi ch d a i)
  | .ori ch d a i => some (encOri ch d a i)
  | .xori ch d a i => some (encXori ch d a i)
  | .shi ch d a k w64 amt => some (encShi ch d a k w64 amt)
  | .movi ch d i => some (encMovi ch d i)
  | .movhi ch d i => some (encMovhi ch d i)
  | .icmp ch p a b r t => some (encIcmp ch p a b r t)
  | .icmpi ch p a r t i => some (encIcmpi ch p a r t i)
  | .plop ch d x y f => some (encPlop ch d x y f)
  | .sel ch d a b p w64 => some (encSel ch d a b p w64)
  | .xmovMov ch d a => some (encXmovMov ch d a)
  | .xmovRds ch d s => some (encXmovRds ch d s)
  | .xmovRdk ch d k => some (encXmovRdk ch d k)
  | .xmovWrk ch a k => some (encXmovWrk ch a k)
  | .xmovRdp ch d => some (encXmovRdp ch d)
  | .xmovWrp ch a => some (encXmovWrp ch a)
  | .xmovShape ch d a => some (encXmovShape ch d a)
  | .xmovPrec ch d e => some (encXmovPrec ch d e)
  | .lea ch d a b s sg => some (encLea ch d a b s sg)
  | .fop ch d a b o t rm => some (encFop ch d a b o t rm)
  | .fma32 ch d a b e neg => some (encFma32 ch d a b e neg)
  | .fmah ch d a b e neg => some (encFmah ch d a b e neg)
  | .fmab ch d a b e neg => some (encFmab ch d a b e neg)
  | .fmad ch d a b e neg => some (encFmad ch d a b e neg)
  | .funOp ch d a f t => some (encFunOp ch d a f t)
  | .fcmp ch p a b r t => some (encFcmp ch p a b r t)
  | .cvt ch d a dty sty rm sat => some (encCvt ch d a dty sty rm sat)
  | .shfl ch d a b k imm => some (encShfl ch d a b k imm)
  | .voteAny ch q p => some (encVoteAny ch q p)
  | .voteAll ch q p => some (encVoteAll ch q p)
  | .voteBallot ch d p => some (encVoteBallot ch d p)
  | .voteElect ch d q p => some (encVoteElect ch d q p)
  | .redux ch d a o t => some (encRedux ch d a o t)
  | .dot4 ch d a b e uns => some (encDot4 ch d a b e uns)
  | .ld ch d ap w off => some (encLd ch d ap w off)
  | .lds ch d ap w off => some (encLds ch d ap w off)
  | .st ch d ap w off => some (encSt ch d ap w off)
  | .lda ch d ap sc w => some (encLda ch d ap sc w)
  | .stl ch d ap sc w => some (encStl ch d ap sc w)
  | .atom ch d ap b sc o => some (encAtom ch d ap b sc o)
  | .cas ch d ap b sc w => some (encCas ch d ap b sc w)
  | .fenceAr ch sc => some (encFenceAr ch sc)
  | .fenceAcq ch sc => some (encFenceAcq ch sc)
  | .fenceRel ch sc => some (encFenceRel ch sc)
  | .waitCnt ch ldc stc cpc tlc => some (encWaitCnt ch ldc stc cpc tlc)
  | .mwait ch d ap b sc cond w => some (encMwait ch d ap b sc cond w)
  | .ldfeKeep ch d ap sc w => some (encLdfeKeep ch d ap sc w)
  | .ldfeTake ch d ap sc w => some (encLdfeTake ch d ap sc w)
  | .stfeFill ch d ap sc w => some (encStfeFill ch d ap sc w)
  | .stfePut ch d ap sc w => some (encStfePut ch d ap sc w)
  | .cctlIsync ch => some (encCctlIsync ch)
  | .cctlDwb ch ap sc => some (encCctlDwb ch ap sc)
  | .cctlDinv ch ap sc => some (encCctlDinv ch ap sc)
  | .cctlPfx ch ap sc => some (encCctlPfx ch ap sc)
  | .bra ch p s disp => some (encBra ch p s disp)
  | .jmpr ch a => some (encJmpr ch a)
  | .call ch disp => some (encCall ch disp)
  | .callr ch a => some (encCallr ch a)
  | .fcall ch fd disp => some (encFcall ch fd disp)
  | .ret ch => some (encRet ch)
  | .yieldOp ch => some (encYieldOp ch)
  | .exitOp ch => some (encExitOp ch)
  | .barSync ch idx => some (encBarSync ch idx)
  | .barArrive ch idx => some (encBarArrive ch idx)
  | .launchGrid ch d a => some (encLaunchGrid ch d a)
  | .cwaitAll ch => some (encCwaitAll ch)
  | .cwaitFgate ch => some (encCwaitFgate ch)
  | .cwaitFstat ch d sel => some (encCwaitFstat ch d sel)
  | .cwaitFsq ch => some (encCwaitFsq ch)
  | .tilePload ch ap sl g => some (encTilePload ch ap sl g)
  | .tilePloadw ch ap sl g => some (encTilePloadw ch ap sl g)
  | .tileExpose ch ap sl tp g => some (encTileExpose ch ap sl tp g)
  | .tileExposew ch ap sl tp g => some (encTileExposew ch ap sl tp g)
  | .tileTcvt ch src sl dst g => some (encTileTcvt ch src sl dst g)
  | .tileTdcvt ch src sl dst g => some (encTileTdcvt ch src sl dst g)
  | .tileTrayz ch tp g => some (encTileTrayz ch tp g)
  | .tileTrayrd ch tp dst g => some (encTileTrayrd ch tp dst g)
  | .tileTrayfl ch tp g => some (encTileTrayfl ch tp g)
  | .tilePstat ch d sel => some (encTilePstat ch d sel)
  | .qaccQrst ch q a p => some (encQaccQrst ch q a p)
  | .qaccQgen ch q d a => some (encQaccQgen ch q d a)
  | .qaccQapp ch q a b => some (encQaccQapp ch q a b)
  | .qaccQcnt ch q d => some (encQaccQcnt ch q d)
  | .qaccQaplReg ch q d a => some (encQaccQaplReg ch q d a)
  | .qaccQapltReg ch q d a => some (encQaccQapltReg ch q d a)
  | .qaccQaprReg ch q d a => some (encQaccQaprReg ch q d a)
  | .qaccQaprtReg ch q d a => some (encQaccQaprtReg ch q d a)
  | .qaccQaplTile ch q ap g => some (encQaccQaplTile ch q ap g)
  | .qaccQapltTile ch q ap g => some (encQaccQapltTile ch q ap g)
  | .qaccQaprTile ch q ap g => some (encQaccQaprTile ch q ap g)
  | .qaccQaprtTile ch q ap g => some (encQaccQaprtTile ch q ap g)
  | .qaccQsave ch q ap => some (encQaccQsave ch q ap)
  | .qaccQload ch q ap => some (encQaccQload ch q ap)
  | .qaccQspill ch q => some (encQaccQspill ch q)
  | .qaccQclr ch q => some (encQaccQclr ch q)
  | .xferCopy ch d a b => some (encXferCopy ch d a b)
  | .xferCopy2d ch d a b => some (encXferCopy2d ch d a b)
  | .xferHalo ch d a b => some (encXferHalo ch d a b)
  | .xferBxfer ch d a b => some (encXferBxfer ch d a b)
  | .xferBxferOne ch d a b => some (encXferBxferOne ch d a b)
  | .xferBxmc ch d a b => some (encXferBxmc ch d a b)
  | .xferBxmcOne ch d a b => some (encXferBxmcOne ch d a b)
  | .xferRatom ch d ap o => some (encXferRatom ch d ap o)
  | .xferArmc ch a b => some (encXferArmc ch a b)
  | .xferArmcZ ch a b => some (encXferArmcZ ch a b)
  | .xferAcwait ch d a => some (encXferAcwait ch d a)
  | .sysSeatq ch d => some (encSysSeatq ch d)
  | .sysPlace ch d a b rp => some (encSysPlace ch d a b rp)
  | .sysPlaceRs ch d a b rp => some (encSysPlaceRs ch d a b rp)
  | .sysPreempt ch d a => some (encSysPreempt ch d a)
  | .sysPreemptAt ch d a b => some (encSysPreemptAt ch d a b)
  | .sysReset ch d a => some (encSysReset ch d a)
  | .sysCkpt ch d a b => some (encSysCkpt ch d a b)
  | .sysCkptRs ch d a b => some (encSysCkptRs ch d a b)
  | .sysScrub ch d a b => some (encSysScrub ch d a b)
  | .sysRcpt ch d a b l => some (encSysRcpt ch d a b l)
  | .sysCtrrd ch d a b => some (encSysCtrrd ch d a b)
  | .sysCtxrd ch d a b => some (encSysCtxrd ch d a b)
  | .sysCsrr ch d idx => some (encSysCsrr ch d idx)
  | .sysCsrw ch a idx => some (encSysCsrw ch a idx)
  | .sysTrap ch tag n => some (encSysTrap ch tag n)
  | .sysTret ch => some (encSysTret ch)
  | .sysBrk ch tag => some (encSysBrk ch tag)
  | .sysBpset ch n a b => some (encSysBpset ch n a b)
  | .sysBpclr ch n => some (encSysBpclr ch n)
  | .sysFeatq ch d => some (encSysFeatq ch d)
  | .sysMgset ch a b => some (encSysMgset ch a b)
  | .issueCycle => none
  | .starvation _ => none
  | .yieldMarkExpire _ => none
  | .stallNotice _ => none
  | .loadDataReturn _ => none
  | .mwaitWake _ => none
  | .fullEmptyWake _ => none
  | .tileWordComplete _ => none
  | .qaccWordComplete _ => none
  | .trayMerge _ _ => none
  | .copySectorComplete _ _ => none
  | .transferPacketArrival _ => none
  | .transferReply _ _ _ _ _ _ => none
  | .packetWriteCompletion _ _ _ _ => none
  | .replyBoundExpire _ _ => none
  | .remoteAtomicArrival _ => none
  | .ratomReply _ _ _ _ => none
  | .incarnationAnnouncement _ _ => none
  | .ualinkFlitReceive _ _ _ => none
  | .ethernetFrameReceive _ _ _ _ _ _ => none
  | .hostMemAccess _ _ _ _ _ => none
  | .registerWrite _ _ _ => none
  | .queueDoorbell _ _ => none
  | .queueRestart _ => none
  | .commandNop _ => none
  | .commandGrid _ => none
  | .commandFence _ => none
  | .completionRecordWrite _ => none
  | .teamPlacement _ _ _ _ => none
  | .teamRelease _ => none
  | .gridRetire _ => none
  | .teamPark _ => none
  | .preemptTargetReached _ => none
  | .imageSealed _ => none
  | .haltHoldExpire _ => none
  | .resetScrubComplete _ => none
  | .scrubComplete _ => none
  | .ckptComplete _ _ => none
  | .pageFaultResponse _ => none
  | .pageFaultBoundExpire _ => none
  | .pageFaultRepost _ => none
  | .shootdownRequest _ => none
  | .shootdownFinish => none
  | .receiveMappingWrite _ => none
  | .faultLogReset _ _ _ => none
  | .fabricEnable => none
  | .domainTableWrite _ _ => none
  | .hseatWrite _ _ => none
  | .replayEventDelivery _ => none
  | .mailboxExtend _ _ => none
  | .featureLock _ => none
  | .featureLockTimeout => none
  | .deviceReset _ => none
  | .railsStable => none
  | .functionReady _ _ => none
  | .getVersion _ => none
  | .getCapabilities _ => none
  | .negotiateAlgorithms _ _ => none
  | .getDigests _ => none
  | .getCertificate _ _ => none
  | .challenge _ _ => none
  | .getMeasurements _ _ => none
  | .keyExchange _ _ => none
  | .finish _ _ => none
  | .keyUpdate _ => none
  | .endSession _ => none
  | .createContext _ _ _ _ _ => none
  | .contextInfo _ _ => none
  | .countReport _ _ _ => none
  | .sealRecord _ _ _ _ => none
  | .bindStream _ _ _ _ => none
  | .debugResume _ _ => none
  | .debugStep _ _ => none
  | .debugResumeAll _ => none
  | .debugDetach _ => none
  | .debugStopRequest _ => none
  | .csassignWrite _ _ => none
  | .contactSheetSample _ _ => none
  | .contactSheetDrain _ => none
  | .patrolScrubStep _ => none
  | .glitchDetect => none
  | .tamperDetect => none
  | .ucieTagFailure => none
  | .powerLimitExceeded => none
  | .dieOvertemp _ => none
  | .forcedCapLift _ => none
  | .storeComplete _ => none
  | .xferCommandAccept _ => none
  | .stationUpOrDown _ _ => none
  | .hostPortUpOrDown _ _ => none
  | .ideKeySetup _ _ _ => none
  | .secureAssociationInstall _ => none
  | .hrecWrite _ _ => none
  | .hrlheadWrite _ _ => none
  | .timeOrCycleRead _ _ => none
  | .nvmeCompletion _ _ _ _ => none

/-- The bytes of an instruction's word. -/
def encodeBytes (i : Instr) : Option (List Byte) := (encode i).map bytesOfWord

end Sys2Proof
end

