-- ==== Sys2Proof/Machine/TileMath.lean ====
section
/-! DEFINITION. The arithmetic of plates, exposures and conversions: format slots (08 R173), element values and scales
(08 R164-R167), the group sums of an exposure (10 R210), and the two conversions (10 R217, R218). Everything here is a
function of bytes and numbers. -/

namespace Sys2Proof.Machine

/-! ## Format slots (08 R173) -/

/-- A format slot. -/
structure Slot where
  v    : Bool
  clip : Nat
  oe   : Bool
  outk : BitVec 5
  sk   : BitVec 5
  ssrc : Nat
  rnd  : Rm
  fmt  : Nat
  deriving DecidableEq, Repr

/-- A slot's descriptor. -/
def slotOf (d : DWord) : Slot where
  v := d.getLsbD 63
  clip := bitsN d.toNat 47 32
  oe := d.getLsbD 25
  outk := BitVec.ofNat 5 (bitsN d.toNat 24 20)
  sk := BitVec.ofNat 5 (bitsN d.toNat 19 15)
  ssrc := bitsN d.toNat 9 8
  rnd := (Rm.ofCode (bitsN d.toNat 7 6)).getD .rne
  fmt := bitsN d.toNat 3 0

/-- Bits of an element of a format code (08 R172). -/
def fmtBits : Nat → Nat
  | 0 => 32
  | 1 | 2 => 16
  | 3 | 4 | 5 => 8
  | _ => 4

/-- The roles a format takes (08 R172). -/
def roleA (f : Nat) : Bool := 1 ≤ f && f ≤ 6
def roleB (f : Nat) : Bool := (1 ≤ f && f ≤ 4) || f == 7
def roleCvt (f : Nat) : Bool := f ≤ 7

/-- Aligned width m of an A format (08 R172). -/
def alignedWidth : Nat → Nat
  | 1 | 2 => 12
  | 6 => 4
  | _ => 8

/-- The code of element `i` of a packed operand (08 R164). -/
def elemCode (bs : List Byte) (w i : Nat) : Nat :=
  if w = 4 then (bs.getD (i / 2) 0).toNat / 2 ^ (4 * (i % 2)) % 16
  else leNat ((bs.drop (i * (w / 8))).take (w / 8))

/-- Packs codes of a format (08 R164). -/
def packCodes (w : Nat) : List Nat → List Byte
  | [] => []
  | a :: r =>
    if w = 4 then
      match r with
      | b :: q => BitVec.ofNat 8 (a % 16 + 16 * (b % 16)) :: packCodes w q
      | [] => [BitVec.ofNat 8 (a % 16)]
    else leBytes (w / 8) a ++ packCodes w r

/-- The floating format of a format code. -/
def fmtOf : Nat → Fmt
  | 0 => Fmt.f32
  | 1 => Fmt.f16
  | 2 => Fmt.bf16
  | 3 => Fmt.e4
  | _ => Fmt.e5

/-- An integer as a value. -/
def FVal.ofInt (z : Int) : FVal := .num (decide (z < 0)) z.natAbs 0

/-- What a code decodes to before any scale (08 R162, R164). -/
def decodeElem (f code : Nat) : FVal :=
  if f = 5 then FVal.ofInt (sextN 8 code)
  else if f = 6 then FVal.ofInt (sextN 4 code)
  else (fmtOf f).decode code

/-- A value is a zero. -/
def FVal.isZero : FVal → Bool
  | .num _ m _ => m == 0
  | _ => false

/-- A value is a number. -/
def FVal.isNum : FVal → Bool
  | .num _ _ _ => true
  | _ => false

/-- An exact product, a NaN where an infinity meets a zero. -/
def FVal.times (a b : FVal) : FVal :=
  match a, b with
  | .nan _, _ => .nan false
  | _, .nan _ => .nan false
  | .inf x, .inf y => .inf (x != y)
  | .inf x, .num n m _ => if m = 0 then .nan false else .inf (x != n)
  | .num n m _, .inf y => if m = 0 then .nan false else .inf (n != y)
  | .num n1 m1 e1, .num n2 m2 e2 => .num (n1 != n2) (m1 * m2) (e1 + e2)

/-- A decoded value under a super-scale (08 R167). -/
def scaleVal (d sc : FVal) : FVal :=
  match d with
  | .nan _ => .nan false
  | .inf x => if sc.isZero then .nan false else .inf x
  | .num n m e => if m = 0 then .num n 0 0 else FVal.times (.num n m e) sc

/-- n(i) of the K4 levels (08 R165). -/
def k4Levels : List Int := [-512, -368, -272, -208, -152, -100, -50, 0, 44, 88, 134, 184, 242, 312, 400, 512]

/-- The value of a K4 element (08 R166). -/
def k4Value (code q : Nat) (sc : FVal) : FVal :=
  if q = 0 ∨ code = 7 then FVal.zero
  else
    match (FVal.ofInt (k4Levels.getD code 0)).times sc with
    | .num n m e => .num n (m * q) (e - 17)
    | v => v

/-- Elements of a super-block (08 R166). -/
def superLen : Nat := 16384

/-- 1.0 of FP32. -/
def oneF32 : Word := 0x3F800000

/-- The super-scale of an element, from the words of the operand's super-blocks. -/
def superOf (supers : List Word) (i : Nat) : FVal := Fmt.f32.decode (supers.getD (i / superLen) oneF32).toNat

/-- The value of an element of an operand of a narrow format; F16, BF16 and F32 are not scaled (08 R167). -/
def elemVal (f : Nat) (codes scales : List Byte) (supers : List Word) (i : Nat) : FVal :=
  let c := elemCode codes (fmtBits f) i
  if f = 7 then k4Value c (scales.getD (i / 64) 0).toNat (superOf supers i)
  else if f ≤ 2 then decodeElem f c
  else scaleVal (decodeElem f c) (superOf supers i)

/-- The VALUE of the entry of an element, if there is one. -/
def outlierOf (l : List (Nat × Word)) (i : Nat) : Option FVal :=
  (List.find? (fun e => e.1 == i) l).map fun e => Fmt.f32.decode e.2.toNat

/-! ## Exposures (10 R210) -/

/-- The value of plate element (k, n), n counted over the plate's own columns (10 R209): super-blocks and outliers are those of
the whole image. -/
def plateVal (b : Plate) (k n : Nat) : FVal :=
  let i := (b.col0 + n) * b.k + k
  match outlierOf b.outliers i with
  | some v => v
  | none =>
    let c := elemCode b.codes (fmtBits b.fmt) (n * b.k + k)
    if b.fmt = 7 then k4Value c (b.scales.getD ((n * b.k + k) / 64) 0).toNat (superOf b.supers i)
    else if b.fmt ≤ 2 then decodeElem b.fmt c
    else scaleVal (decodeElem b.fmt c) (superOf b.supers i)

/-- An A operand: format, row length, codes, super-scales and outliers. -/
structure AOp where
  fmt      : Nat
  k        : Nat
  codes    : List Byte
  supers   : List Word
  outliers : List (Nat × Word)

/-- The largest exponent among finite non-zero values, if there is one. -/
def groupExp : List FVal → Option Int
  | [] => none
  | .num _ m e :: r =>
    if m = 0 then groupExp r
    else
      let x := (Nat.log2 m : Int) + e
      match groupExp r with
      | some y => some (max x y)
      | none => some x
  | _ :: r => groupExp r

/-- A value aligned to exponent G at width m: m − 1 magnitude bits, truncated. -/
def alignTo (m : Nat) (g : Int) : FVal → FVal
  | .num n x e =>
    let sh := e + m - 2 - g
    .num n (x * 2 ^ sh.toNat / 2 ^ (-sh).toNat) (g - m + 2)
  | v => v

/-- Aeff of the 32 elements of a group of a row (10 R210); under an infinite or NaN scale the element is not aligned, so that R167
decides it (log 21). -/
def groupA (a : AOp) (row g : Nat) : List FVal :=
  let idx := (List.range 32).map fun j => row * a.k + 32 * g + j
  let out := fun i => outlierOf a.outliers i
  let ds := idx.map fun i => if (out i).isSome then FVal.zero else decodeElem a.fmt (elemCode a.codes (fmtBits a.fmt) i)
  let al : FVal → FVal := if a.fmt = 5 ∨ a.fmt = 6 then id
    else match groupExp ds with
      | some e => alignTo (alignedWidth a.fmt) e
      | none => id
  (idx.zip ds).map fun (i, d) =>
    match out i with
    | some v => v
    | none =>
      if a.fmt ≤ 2 then al d
      else
        let sc := superOf a.supers i
        if d.isNum && !sc.isNum then scaleVal d sc else scaleVal (al d) sc

/-- An exact sum in progress. -/
structure ESum where
  nan  : Bool
  pos  : Bool
  neg  : Bool
  s    : Int
  e    : Int

def ESum.zero : ESum := ⟨false, false, false, 0, 0⟩

def ESum.add (x : ESum) : FVal → ESum
  | .nan _ => { x with nan := true }
  | .inf n => if n then { x with neg := true } else { x with pos := true }
  | .num n m e =>
    let q := min x.e e
    { x with s := x.s * 2 ^ (x.e - q).toNat + signedInt n m * 2 ^ (e - q).toNat, e := q }

/-- The single rounding of a group sum to FP32. -/
def ESum.round (x : ESum) : Nat :=
  if x.nan || (x.pos && x.neg) then Fmt.f32.nanCode
  else if x.pos then Fmt.f32.infCode false
  else if x.neg then Fmt.f32.infCode true
  else (Fmt.f32.roundZ .rne x.s x.e false).1

/-- An FP32 sum with no flags, on codes. -/
def addF32 (a b : Nat) : Nat := (Fmt.f32.add .rne (Fmt.f32.decode a) (Fmt.f32.decode b)).1

/-- The group partial of a row's group and a column. -/
def groupPartial (as : List FVal) (b : Plate) (g n : Nat) : Nat :=
  ((as.zipIdx.map fun (v, j) => v.times (plateVal b (32 * g + j) n)).foldl ESum.add ESum.zero).round

/-- The element partials of a row: one for each column of a plate. -/
def rowPartials (a : AOp) (b : Plate) (row : Nat) : List Word :=
  let groups := (List.range (a.k / 32)).map fun g => (g, groupA a row g)
  (List.range b.n).map fun n =>
    BitVec.ofNat 32 (groups.foldl (fun p x => addF32 p (groupPartial x.2 b x.1 n)) 0)

/-- An FP32 code is an infinity or a NaN. -/
def nonFinite (w : Word) : Bool := bitsN w.toNat 30 23 == 255

/-! ## TCVT (10 R217) -/

/-- A wide operand's element. -/
def wideVal (wt : Nat) (bs : List Byte) (i : Nat) : FVal := (fmtOf wt).decode (elemCode bs (fmtBits wt) i)

/-- The largest finite magnitude among elements, as an FP32 code times the clip ratio, rne32 (10 R217). -/
def amplitude (clip : Nat) (l : List FVal) : Nat :=
  let big := l.foldl (fun (a : FVal) v =>
    match v with
    | .num _ m e => if (FVal.num false m e).cmp a = some .gt then .num false m e else a
    | _ => a) FVal.zero
  match (Fmt.f16.decode clip).times big with
  | .num _ m e => (Fmt.f32.round .rne false m e false).code
  | _ => 0

/-- The index of the greatest K4 level that is not greater than P / Q, and of the least that is not less. -/
def k4Below (p q : Int) : Nat := ((List.range 16).filter fun i => k4Levels.getD i 0 * q ≤ 512 * p).getLastD 0
def k4Above (p q : Int) : Nat := ((List.range 16).filter fun i => 512 * p ≤ k4Levels.getD i 0 * q).headD 15

/-- K4 rounding of P / Q (08 R171); none outside −1 … 1. -/
def k4Round (rm : Rm) (p q : Int) : Option Nat :=
  if q < p ∨ q < -p then none
  else
    let lo := k4Below p q
    let hi := k4Above p q
    match rm with
    | .rdn => some lo
    | .rup => some hi
    | .rz => some (if 0 ≤ p then lo else hi)
    | .rne =>
      let dl := 512 * p - k4Levels.getD lo 0 * q
      let dh := k4Levels.getD hi 0 * q - 512 * p
      some (if dl < dh then lo else if dh < dl then hi else if lo % 2 = 0 then lo else hi)

/-- The integer nearest to a fraction n / d × 2^e by a mode (08 R171). -/
def roundFrac (rm : Rm) (neg : Bool) (n d : Nat) (e : Int) : Int :=
  let p := n * 2 ^ e.toNat
  let q := d * 2 ^ (-e).toNat
  let t := 2 * p / q
  signedInt neg (roundInt rm neg (t / 2) (t % 2) 1 (2 * p % q != 0))

/-- The code of an element: its value divided by its scale, rounded (08 R169-R171); none where it is out of range. A scale that
is a NaN or a zero puts it out of range, and under an infinite one a finite source is a zero (log 21). -/
def convertElem (f : Nat) (rm : Rm) (x sc : FVal) : Option Nat :=
  match x, sc with
  | .num n1 m1 e1, .num n2 m2 e2 =>
    if m2 = 0 then none
    else
      let neg := n1 != n2
      let e := e1 - e2
      if f = 5 ∨ f = 6 then
        let w := if f = 5 then 8 else 4
        let z := roundFrac rm neg m1 m2 e
        if -(2 ^ (w - 1) : Int) ≤ z ∧ z ≤ 2 ^ (w - 1) - 1 then some (wrapI w z).toNat else none
      else if f = 7 then
        k4Round rm (signedInt neg m1 * 2 ^ e.toNat) ((m2 : Int) * 2 ^ (-e).toNat)
      else
        let r := (fmtOf f).roundQ rm neg m1 m2 e
        if f = 3 ∧ r.ovf then none else some r.code
  | .num n1 _ _, .inf n2 =>
    if f = 7 then some 7 else if f = 5 ∨ f = 6 then some 0 else some ((fmtOf f).sign (n1 != n2))
  | _, _ => none

/-- The largest magnitude a scaled conversion maps the amplitude onto (08 R173). -/
def fmax : Nat → Nat
  | 3 => 240
  | 4 => 57344
  | 5 => 127
  | 6 => 7
  | _ => 1

/-- The code of zero in a narrow format (08 R179), and 0 for a wide one, whose zero code the spec does not name (log 21). -/
def zeroCode (f : Nat) : Nat := if f = 7 then 7 else 0

/-- S_j as the conversion uses it: 1.0 for a zero, the largest finite value for an overflow (10 R217). -/
def fixSuper (r : Rounded) : Word :=
  if r.ovf then BitVec.ofNat 32 (Fmt.f32.maxCode false) else if r.code % 2 ^ 31 = 0 then oneF32 else BitVec.ofNat 32 r.code

/-- A super-scale that SSRC gives, as a scaled conversion uses it. -/
def givenSuper (w : Word) : Word := if w.toNat % 2 ^ 31 = 0 then oneF32 else w

/-- The scale byte of a block (10 R217): amplitude A and super-scale S; `free` stands where S is a NaN or negative. -/
def blockScale (a : Nat) (s : Word) (free : Nat) : Nat :=
  if a = 0 then 0
  else
    match Fmt.f32.decode a, Fmt.f32.decode s.toNat with
    | .num _ m1 e1, .num n m2 e2 =>
      if n then free
      else
        let e := e1 - e2
        let p := 256 * m1 * 2 ^ e.toNat
        let q := m2 * 2 ^ (-e).toNat
        if q = 0 then free else min 255 ((p + q - 1) / q)
    | .num _ _ _, .inf n => if n then free else 0
    | _, _ => free

/-- What a conversion gives. -/
structure Tcvt where
  codes    : List Nat
  scales   : List Byte
  supers   : List Word
  outliers : List (Nat × Word)
  dropped  : Nat

/-- The FP32 word of a source value: exact, with the canonical NaN (08 R179). -/
def valueWord : FVal → Word
  | .nan _ => BitVec.ofNat 32 Fmt.f32.nanCode
  | .inf n => BitVec.ofNat 32 (Fmt.f32.infCode n)
  | .num n m e => BitVec.ofNat 32 (Fmt.f32.round .rne n m e false).code

/-- Groups of `len` elements of a list; the fuel is the number of groups. -/
def chunks {α : Type} (len : Nat) : Nat → List α → List (List α)
  | 0, _ => []
  | n + 1, l => l.take len :: chunks len n (l.drop len)

/-- The super-scales of a conversion: `given` are those of SSRC (10 R217). -/
def tcvtSupers (sl : Slot) (xs : List FVal) (given : List Word) : List Word :=
  if sl.clip = 0 then given
  else if sl.ssrc = 2 then
    (chunks superLen ((xs.length + superLen - 1) / superLen) xs).map fun g =>
      if sl.fmt = 7 then
        let a := (chunks 64 ((g.length + 63) / 64) g).foldl (fun a b => max a (amplitude sl.clip b)) 0
        match Fmt.f32.decode a with
        | .num _ m e => fixSuper (Fmt.f32.roundQ .rup false (m * 256) 255 e)
        | _ => oneF32
      else
        match Fmt.f32.decode (amplitude sl.clip g) with
        | .num _ m e => fixSuper (Fmt.f32.roundQ .rup false m (fmax sl.fmt) e)
        | _ => oneF32
  else given.map givenSuper

/-- The amplitudes of the scaled groups of a conversion: blocks of a K4 slot, super-blocks of another (08 R173, 10 R217). -/
def tcvtAmps (sl : Slot) (xs : List FVal) : List Nat :=
  let n := if sl.fmt = 7 then 64 else superLen
  (chunks n ((xs.length + n - 1) / n) xs).map (amplitude sl.clip)

/-- A finite source lies beyond the amplitude of its group: in a scaled conversion it becomes an outlier (08 R173; log 73). -/
def beyondAmp (sl : Slot) (amps : List Nat) (x : FVal) (i : Nat) : Bool :=
  sl.clip != 0 && match x with
    | .num _ m e =>
      (FVal.num false m e).cmp (Fmt.f32.decode (amps.getD (i / (if sl.fmt = 7 then 64 else superLen)) 0)) == some .gt
    | _ => false

/-- The conversion of TCVT (10 R217): sources, super-scales of SSRC, and free bytes by block. -/
def tcvt (sl : Slot) (xs : List FVal) (given : List Word) (free : Nat → Nat) : Tcvt :=
  let supers := tcvtSupers sl xs given
  let amps := tcvtAmps sl xs
  let k4 := sl.fmt = 7
  let qs : List Nat := if k4 then
      (chunks 64 ((xs.length + 63) / 64) xs).zipIdx.map fun (b, i) =>
        blockScale (amplitude sl.clip b) (supers.getD (64 * i / superLen) oneF32) (free i)
    else []
  let elem (x : FVal) (i : Nat) : Option Nat :=
    let s := superOf supers i
    if k4 then
      if s.isNan || beyondAmp sl amps x i then none
      else
        let q := qs.getD (i / 64) 0
        if q = 0 then (if x.isNum then some 7 else none)
        else convertElem 7 sl.rnd x (match s with
          | .num n m e => .num n (m * q) (e - 8)
          | v => v)
    else if beyondAmp sl amps x i then none
    else convertElem sl.fmt sl.rnd x (if sl.fmt ≤ 2 then .num false 1 0 else s)
  let rs := xs.zipIdx.map fun (x, i) => (i, x, elem x i)
  let bad := rs.filter fun r => r.2.2.isNone
  { codes := rs.map fun r => r.2.2.getD (zeroCode sl.fmt)
    scales := qs.map (BitVec.ofNat 8)
    supers := supers
    outliers := if sl.oe then bad.map fun r => (r.1, valueWord r.2.1) else []
    dropped := if sl.oe then 0 else bad.length }

/-! ## TDCVT (10 R218) -/

/-- A value rounded into a wide format, with no flags; a NaN is written as the canonical NaN, which the spec states for no
conversion of a tile (log 21). -/
def wideCode (wt : Nat) (rm : Rm) : FVal → Nat
  | .nan _ => (fmtOf wt).nanCode
  | .inf n => (fmtOf wt).infCode n
  | .num n m e => ((fmtOf wt).round rm n m e false).code

/-- The codes TDCVT writes: BF16 into F32 appends zeros, NaNs included (08 R161). -/
def tdcvt (sl : Slot) (wt cnt : Nat) (codes scales : List Byte) (supers : List Word) (outl : List (Nat × Word)) : List Nat :=
  (List.range cnt).map fun i =>
    match outlierOf outl i with
    | some v => wideCode wt sl.rnd v
    | none =>
      if sl.fmt = 2 ∧ wt = 0 then elemCode codes 16 i * 2 ^ 16
      else wideCode wt sl.rnd (elemVal sl.fmt codes scales supers i)

end Sys2Proof.Machine
end

