-- ==== Sys2Proof/Machine/Tile.lean ====
section
/-! DEFINITION. The meanings of the TILE words (10): the checks at issue of R205, the ranges and their locks, and what each
word reads and computes at issue. What it writes is kept with the word in flight and performed at its completion. -/

namespace Sys2Proof.Machine

/-- A fault at issue: cause and VAL. -/
abbrev Flt := Nat × DWord

/-! ## Ranges (10 R205, R206) -/

/-- A memory range of a word. -/
structure TRange where
  addr  : DWord
  size  : Nat
  align : Nat
  kind  : Kind
  /-- Windows it accepts; `none` is global memory. -/
  wins  : List (Option Nat)

/-- A range that has passed its checks: a local range, or pieces of `unit` bytes of memory: generic and physical address. -/
structure Spot where
  store : Store
  off   : Nat
  size  : Nat
  unit  : Nat
  lines : List (Nat × Nat)

/-- The pieces a range lock covers. -/
def Spot.spans (p : Spot) : List (Nat × Nat) :=
  match p.store with
  | .phys => p.lines.map fun l => (l.2, p.unit)
  | _ => [(p.off, p.size)]

/-- Checks 1 to 4 of R25 on ranges, in order (step 6). -/
def State.placeAll (s : State) (t core : Nat) : List TRange → Except Flt (List Place)
  | [] => .ok []
  | r :: q =>
    match s.place t core r.addr r.size r.align with
    | .error w => .error (w.cause r.kind, r.addr)
    | .ok p => match State.placeAll s t core q with
      | .error e => .error e
      | .ok l => .ok (p :: l)

/-- A range lies in a window its word does not accept (step 7). -/
def badWindow (rs : List TRange) (cause : Nat) : Option Flt :=
  match rs.find? fun r => !r.wins.contains (windowOf r.addr) with
  | some r => some (cause, r.addr)
  | none => none

/-- The fault of a piece whose translation fails: a replayable failure stalls the crew at the word; one of a tray line that is
final fails the word (10 R205, R208). -/
def State.lineFault (s : State) (t : Nat) (tray : Bool) (k : Kind) (w : Why) : Nat :=
  if w.replayable = false then w.cause k
  else if tray then (if s.xl.pfbound = 0 ∨ (s.thread t).trayFail then trayFailCode else trayCode + w.cause k)
  else stallCode + w.cause k

/-- Translates the pieces of a global range (step 8); a home that is not ready holds the word. -/
def State.translateLines (s : State) (t core key unit : Nat) (tray : Bool) (k : Kind) :
    Nat → Nat → Except Flt (State × List (Nat × Nat))
  | 0, _ => .ok (s, [])
  | n + 1, va =>
    match s.translate core key va k with
    | (u, .error w) => .error (if u.m.unready then holdCode else s.lineFault t tray k w, BitVec.ofNat 64 va)
    | (s, .ok pa) =>
      if s.m.unready || s.homeReady pa = false then .error (holdCode, 0)
      else match State.translateLines s t core key unit tray k n (va + unit) with
        | .error e => .error e
        | .ok (s, l) => .ok (s, (va, pa) :: l)

/-- The spots of ranges that have passed steps 6 and 7. -/
def State.spotsOf (s : State) (t core : Nat) : List (TRange × Place) → Except Flt (State × List Spot)
  | [] => .ok (s, [])
  | (r, .here st off) :: q =>
    match State.spotsOf s t core q with
    | .error e => .error e
    | .ok (s, l) => .ok (s, ⟨st, off, r.size, 1, []⟩ :: l)
  | (r, .global va) :: q =>
    let unit := min 128 r.align
    match s.translateLines t core (s.gridOf t).accessKey unit (r.wins == [none]) r.kind (r.size / unit) va with
    | .error e => .error e
    | .ok (s, ls) =>
      match State.spotsOf s t core q with
      | .error e => .error e
      | .ok (s, l) => .ok (s, ⟨.phys, 0, r.size, unit, ls⟩ :: l)

/-- Steps 6 to 8 of R205 on the ranges of a word. -/
def State.rangeChecks (s : State) (t : Nat) (rs : List TRange) (cause : Nat) : Except Flt (State × List Spot) :=
  let core := (s.crewOf t).core
  match s.placeAll t core rs with
  | .error e => .error e
  | .ok ps =>
    match badWindow rs cause with
    | some e => .error e
    | none => s.spotsOf t core (rs.zip ps)

/-- Two lists of pieces overlap. -/
def spansMeet (a b : List (Nat × Nat)) : Bool :=
  a.any fun p => b.any fun q => decide (p.1 < q.1 + q.2) && decide (q.1 < p.1 + p.2)

/-- What a word in flight has yet to write: pieces of stores, tray lines among them. -/
def TileOp.puts (o : TileOp) : List (Store × Nat × Nat) :=
  o.writes.map (fun w => (w.store, w.off, w.bytes.length)) ++ o.trays.map (fun x => (.phys, x.line * 128, 128)) ++
    match o.copyOut with
    | some (ls, st, off) => [(st, off, 128 * ls.length)]
    | none => []

/-- A word in flight has yet to write bytes of a range. -/
def TileOp.willWrite (o : TileOp) (p : Spot) : Bool := o.puts.any fun x => x.1 == p.store && spansMeet [x.2] p.spans

/-- Pieces of main memory on which a word in flight has yet to act. -/
def TileOp.touches (o : TileOp) : List (Nat × Nat) :=
  (o.puts.filter fun x => x.1 == .phys).map Prod.snd ++ o.flush.map (fun l => (l.2 * 128, 128)) ++
    o.hold.map (fun l => (l.2, 128)) ++
    match o.copyOut with
    | some (ls, _) => ls.map fun l => (l.2, 128)
    | none => []

/-- A word acts before a later one of its core: both name a piece of main memory, or both write a local range (10 R207,
R216). -/
def TileOp.before (e o : TileOp) : Bool :=
  spansMeet e.touches o.touches ||
    e.puts.any fun a => a.1 != .phys && o.puts.any fun b => a.1 == b.1 && spansMeet [a.2] [b.2]

/-- A word waits before it issues: too few lock entries are free (10 R206), a source of it that is read at issue has yet to be
written by a word in flight, or `lists` a list or a table by an earlier word of the crew (10 R207; log 12); a tile count of 255
holds it too (05 R132). -/
def State.tileHeld (s : State) (t : Nat) (ps srcs : List Spot) (lists : Bool) : Bool :=
  let core := (s.crewOf t).core
  decide (32 < (s.core core).locks.length + ps.length) || decide (255 ≤ (s.tilesOf (s.thread t).crew).length) ||
  s.eng.tiles.any fun e =>
    srcs.any e.2.willWrite ||
      (lists && e.2.crew == (s.thread t).crew && (e.2.append.isSome || !e.2.gwrites.isEmpty))

/-- The odd core's plate is slaved by a wide form in flight (10 R213). -/
def State.slaved (s : State) (core : Nat) : Bool := s.eng.tiles.any fun e => e.2.slaves == some core

/-- Cycles for which a TILE or QACC word with memory ranges stays in flight, beside the plate time of an exposure: the spec gives
no figure (log 12). -/
def tileTime : Nat := 16

/-- Cycles that the exposure of `m` rows of a format occupies the plate (10 R212). -/
def plateTime (m fmt : Nat) : Nat := ((m + 7) / 8) * alignedWidth fmt

/-- The cycle in which the plates of cores are free of the exposures in flight (10 R212, R213). -/
def State.plateFree (s : State) (cores : List Nat) : Nat :=
  s.eng.tiles.foldl (fun n e =>
    if !e.2.trays.isEmpty && (e.2.core :: e.2.slaves.toList).any cores.contains then max n (e.2.ready - tileTime) else n) s.cycle

/-- An operation in flight that does nothing at its completion. -/
def State.tileOp (s : State) (t : Nat) (qacc : Bool) : TileOp where
  qacc := qacc
  ready := s.cycle + tileTime
  core := (s.crewOf t).core
  crew := (s.thread t).crew
  leader := t
  trays := []
  writes := []
  gwrites := []
  flush := []
  hold := []
  copyOut := none
  append := none
  slaves := none
  failed := none
  undo := none

/-- Forks whose continuation buffers a store on a line that becomes locked conflict (06 R148). -/
def State.noteLock (s : State) (p : Spot) : State :=
  if s.threads.all fun e => e.2.fork.recs.isEmpty then s
  else { s with threads := s.threads.map fun e =>
      let hit (f : Fork) : Bool := match (s.thread f.cont).cont with
        | some c => c.buf.any fun b =>
            b.store == p.store && spansMeet ((linesOf b.store b.off b.bytes.length).map fun l => (l.line * 128, 128)) p.spans
        | none => false
      (e.1, { e.2 with fork := { e.2.fork with recs := e.2.fork.recs.map fun f =>
        { f with conflict := f.conflict || hit f } } }) }

/-- Puts a word into flight with its range locks (10 R206). -/
def State.startTile (s : State) (o : TileOp) (ps : List Spot) : State :=
  let (id, s) := s.newId
  let s := ps.foldl State.noteLock s
  let s := s.modEng fun e => { e with tiles := Table.set e.tiles id o }
  s.modCore o.core fun c => { c with locks := c.locks ++ ps.map fun p => ⟨id, p.store, p.spans⟩ }

/-! ## Words read at issue (step 9) -/

/-- Reads a 32-bit word of a list or table at a generic address. -/
def State.listWord (s : State) (t : Nat) (a : DWord) : Except Flt (State × Word) :=
  match s.reach t a 4 .load with
  | (_, .bad w) => .error (w.cause .load, a)
  | (_, .unmapped w) => .error (w.cause .load, a)
  | (_, .wait) => .error (holdCode, 0)
  | (s, .here st off) =>
    if st.isCounter then .error (Why.cause .load .counterAccess, a)
    else if s.lockedAt st off 4 || (st == .phys && !s.homeReady off) then .error (holdCode, 0)
    else match s.readAt t st off 4 .cr with
      | (_, .error w) => .error (w.cause .load, a)
      | (s, .ok bs) => .ok (s, BitVec.ofNat 32 (leNat bs))

/-- Reads successive 32-bit words. -/
def State.listWords (s : State) (t : Nat) : Nat → DWord → Except Flt (State × List Word)
  | 0, _ => .ok (s, [])
  | n + 1, a =>
    match s.listWord t a with
    | .error e => .error e
    | .ok (s, w) => match State.listWords s t n (a + 4) with
      | .error e => .error e
      | .ok (s, l) => .ok (s, w :: l)

/-- The super-scales SSRC gives for an operand of `n` elements (08 R173), read now. -/
def State.superWords (s : State) (t : Nat) (sl : Slot) (n : Nat) : Except Flt (State × List Word) :=
  let m := (n + superLen - 1) / superLen
  match sl.ssrc with
  | 1 => .ok (s, List.replicate m ((s.kReg t sl.sk).setWidth 32))
  | 2 => s.listWords t m (s.kReg t sl.sk)
  | _ => .ok (s, List.replicate m oneF32)

/-- Pairs of words as entries (08 R178). -/
def pairUp : List Word → List (Nat × Word)
  | a :: b :: r => (a.toNat, b) :: pairUp r
  | _ => []

/-- Strictly ascending. -/
def ascending : List Nat → Bool
  | a :: b :: r => decide (a < b) && ascending (b :: r)
  | _ => true

/-- The outlier list of a slot, read at issue (08 R178-R181): COUNT and CAP, then the entries with INDEX below `bound`, at most
`limit` of them where there is a limit; `plate` takes the whole list of a PLOAD (10 R209, R211, R218). -/
def State.outliers (s : State) (t : Nat) (sl : Slot) (bound : Nat) (limit : Option Nat) (plate : Bool) :
    Except Flt (State × List (Nat × Word)) :=
  if sl.oe = false then .ok (s, [])
  else
    let a := s.kReg t sl.outk
    if a.toNat % 8 ≠ 0 then .error (Why.cause .load .misaligned, a)
    else match s.listWords t 2 a with
      | .error e => .error e
      | .ok (s, hd) =>
        let n := (hd.getD 0 0).toNat
        if (hd.getD 1 0).toNat < n then .error (Cause.outlierOverflow, 0)
        else if plate && decide (64 < n) then .error (Cause.outlierLimit, 0)
        else match s.listWords t (2 * n) (a + 8) with
          | .error e => .error e
          | .ok (s, ws) =>
            let l := pairUp ws
            let used := if plate then l else l.filter fun e => e.1 < bound
            let many : Bool := match limit with
              | some m => decide (m < used.length)
              | none => false
            if many then .error (Cause.outlierLimit, 0)
            else if !(ascending (used.map Prod.fst)) || (plate && used.any fun e => bound ≤ e.1) then
              .error (Cause.outlierOrder, 0)
            else .ok (s, used)

/-! ## The checks before the ranges (steps 1 to 5) -/

/-- The slot a word names, or its fault (step 1). -/
def State.tileSlot (s : State) (t : Nat) (sl : BitVec 3) (role : Nat → Bool) : Except Flt Slot :=
  let d := slotOf ((s.gridOf t).lr.slots[sl.toNat]'sl.isLt)
  if d.v = false then .error (Cause.slotUndeclared, 0)
  else if role d.fmt = false then .error (Cause.formatRole, 0)
  else .ok d

/-- The plate of a core as a team holds it. -/
def State.plateAt (s : State) (t core : Nat) : Plate := ((s.teamOf t).part core).plate

/-- The team holds the plate of its cores (10 R200). -/
def State.holdsPlate (s : State) (t : Nat) : Bool := (s.gridOf t).lr.feat.getLsbD 3

/-- The twin checks of a wide form (10 R213). -/
def State.twinFault (s : State) (t : Nat) : Option Flt :=
  let core := (s.crewOf t).core
  if core % 2 = 1 then some (Cause.twinOdd, 0)
  else if !(s.teamOf t).cores.contains (core + 1) then some (Cause.twinAbsent, 0)
  else none

/-- The geometry of PLOAD is legal (10 R199, R204). -/
def ploadGeom (wide : Bool) (fmt : Nat) (g : Word) : Bool :=
  let k := bitsN g.toNat 8 0
  let n := bitsN g.toNat 25 16
  let unit := if fmt = 7 then 64 else 32
  let most := (if fmt ≤ 2 then 128 else 256) * (if wide then 2 else 1)
  bitsN g.toNat 15 9 == 0 && bitsN g.toNat 31 26 == 0 && decide (unit ≤ k) && decide (k ≤ 256) && k % unit == 0 &&
    decide (1 ≤ n) && decide (n ≤ most)

/-- The geometry of a tray is legal (10 R204). -/
def trayGeom (g : Word) : Bool :=
  let m := bitsN g.toNat 8 0
  bitsN g.toNat 15 9 == 0 && bitsN g.toNat 31 26 == 0 && decide (1 ≤ m) && decide (m ≤ 256) &&
    decide (1 ≤ bitsN g.toNat 25 16)

/-- The geometry of a conversion is legal (10 R204). -/
def cvtGeom (fmt : Nat) (g : Word) : Bool :=
  let c := bitsN g.toNat 16 0
  bitsN g.toNat 23 17 == 0 && bitsN g.toNat 31 28 == 0 && decide (32 ≤ c) && decide (c ≤ 65536) &&
    c % (if fmt = 7 then 64 else 32) == 0 && decide (bitsN g.toNat 27 24 ≤ 2)

/-- Bytes of a narrow operand of `n` elements (10 R201, R217): codes, then K4 scales. -/
def operandBytes (fmt n : Nat) : Nat := n * fmtBits fmt / 8 + (if fmt = 7 then n / 64 else 0)

/-- The bytes of a spot that lies in a local window. -/
def State.spotBytes (s : State) (p : Spot) : List Byte := s.localRead p.store p.off p.size

/-- What a word does, once for its crew: a fault, a failed word, or its effect. -/
def State.crewRes (s : State) (t : Nat) : Except Flt State → CrewRes
  | .error (c, v) =>
    if c = trayFailCode then
      .done (s.startTile { s.tileOp t false with failed := some (BitVec.ofNat 64 (v.toNat / 128 * 128)) } [])
    else .early c v
  | .ok s => .done s

/-- The lowest of several faults in order: goes on where there is none. -/
def guardFault {α : Type} (c : Bool) (f : Flt) (k : Except Flt α) : Except Flt α := if c then .error f else k

/-- The tray range of a word. -/
def trayRange (th : Thread) (tp : BitVec 5) (g : Word) (k : Kind) : TRange :=
  ⟨th.rx (pairOf tp), bitsN g.toNat 8 0 * bitsN g.toNat 25 16 * 128, 128, k, [none]⟩

/-! ## PLOAD, PLOADW (10 R209, R213) -/

/-- Loads the plate of one core with columns of an image from `c0` on. -/
def State.loadPlate (s : State) (t core : Nat) (b : Plate) : State :=
  s.modPart (s.crewOf t).team core fun p => { p with plate := b }

/-- Columns `c0` to `c0 + n − 1` of an image, as a plate. -/
def imagePlate (fmt k n c0 total : Nat) (img : List Byte) (supers : List Word) (out : List (Nat × Word)) (wide : Bool) :
    Plate where
  fmt := fmt
  k := k
  n := n
  col0 := c0
  codes := (img.drop (c0 * k * fmtBits fmt / 8)).take (n * k * fmtBits fmt / 8)
  scales := if fmt = 7 then (img.drop (total * k / 2 + c0 * k / 64)).take (n * k / 64) else []
  supers := supers
  outliers := out.filter fun e => decide (c0 * k ≤ e.1) && decide (e.1 < (c0 + n) * k)
  wide := wide

/-- PLOAD and PLOADW, once for the crew. -/
def ploadCrew (wide : Bool) (ap : BitVec 5) (sl : BitVec 3) (g : Reg) (s : State) (t : Nat) : Except Flt State :=
  let th := s.src t
  let core := (s.crewOf t).core
  let gv := th.rv g
  guardFault (s.slaved core) (holdCode, 0) <|
  match s.tileSlot t sl roleB with
  | .error e => .error e
  | .ok d =>
    let k := bitsN gv.toNat 8 0
    let n := bitsN gv.toNat 25 16
    if ploadGeom wide d.fmt gv = false then .error (Cause.tileGeometry, 0)
    else if s.holdsPlate t = false then .error (Cause.plateUnheld, 0)
    else match (if wide then s.twinFault t else none) with
      | some e => .error e
      | none =>
        match s.rangeChecks t [⟨th.rx (pairOf ap), operandBytes d.fmt (n * k), 16, .load, [some 1]⟩] Cause.tileWindow with
        | .error e => .error e
        | .ok (s, ps) =>
          guardFault (s.tileHeld t ps ps (d.oe || d.ssrc == 2)) (holdCode, 0) <|
          match s.outliers t d (n * k) none true with
          | .error e => .error e
          | .ok (s, out) =>
            match s.superWords t d (n * k) with
            | .error e => .error e
            | .ok (s, sup) =>
              let img := ps.flatMap s.spotBytes
              let n0 := if wide then (n + 1) / 2 else n
              let s := s.loadPlate t core (imagePlate d.fmt k n0 0 n img sup out wide)
              let s := if wide then s.loadPlate t (core + 1) (imagePlate d.fmt k (n - n0) n0 n img sup out true) else s
              .ok (s.startTile { s.tileOp t false with slaves := if wide then some (core + 1) else none } ps)

/-! ## EXPOSE, EXPOSEW (10 R210-R213) -/

/-- The contributions of rows of partials to the lines of a tray (10 R214). -/
def trayParts (lines : List (Nat × Nat)) (ts : Nat) (rows : List (List Word)) : List TrayPart :=
  rows.zipIdx.flatMap fun (row, r) =>
    (chunks 32 ((row.length + 31) / 32) row).zipIdx.map fun (ws, c) =>
      let l := lines.getD (r * ts + c) (0, 0)
      ⟨l.2 / 128, l.1, ws.zipIdx.map fun (w, j) => (l.2 + 4 * j, w)⟩

/-- EXPOSE and EXPOSEW, once for the crew. -/
def exposeCrew (wide : Bool) (ap : BitVec 5) (sl : BitVec 3) (tp : BitVec 5) (g : Reg) (s : State) (t : Nat) :
    Except Flt State :=
  let th := s.src t
  let core := (s.crewOf t).core
  let gv := th.rv g
  guardFault (!wide && s.slaved core) (holdCode, 0) <|
  match s.tileSlot t sl roleA with
  | .error e => .error e
  | .ok d =>
    let m := bitsN gv.toNat 8 0
    let ts := bitsN gv.toNat 25 16
    let base := if wide then core / 2 * 2 else core
    let b := s.plateAt t base
    let b2 := if wide then s.plateAt t (base + 1) else Plate.empty
    if trayGeom gv = false || decide (32 * ts < b.n + b2.n) then .error (Cause.tileGeometry, 0)
    else if s.holdsPlate t = false then .error (Cause.plateUnheld, 0)
    else match (if wide then s.twinFault t else none) with
      | some e => .error e
      | none =>
        if b.k = 0 ∨ (wide ∧ b2.k = 0) then .error (Cause.plateEmpty, 0)
        else if wide ∧ (b.fmt ≠ b2.fmt ∨ b.k ≠ b2.k) then .error (Cause.twinMismatch, 0)
        else
          match s.rangeChecks t [⟨th.rx (pairOf ap), m * b.k * fmtBits d.fmt / 8, 16, .load, [some 1]⟩,
              trayRange th tp gv .store] Cause.tileWindow with
          | .error e => .error e
          | .ok (s, ps) =>
            guardFault (s.tileHeld t ps (ps.take 1) (d.oe || d.ssrc == 2)) (holdCode, 0) <|
            match s.outliers t d (m * b.k) (some 64) false with
            | .error e => .error e
            | .ok (s, out) =>
              match s.superWords t d (m * b.k) with
              | .error e => .error e
              | .ok (s, sup) =>
                let a : AOp := ⟨d.fmt, b.k, (ps.take 1).flatMap s.spotBytes, sup, out⟩
                let rows := (List.range m).map fun r => rowPartials a b r ++ (if wide then rowPartials a b2 r else [])
                let bad := (rows.map fun r => (r.filter nonFinite).length).foldl (· + ·) 0
                let s := s.modPart (s.crewOf t).team core fun p => { p with nonfin := satInc p.nonfin bad }
                let lines := (ps.drop 1).flatMap Spot.lines
                let plates := if wide then [core, core + 1] else [core]
                .ok (s.startTile { s.tileOp t false with ready := s.plateFree plates + plateTime m d.fmt + tileTime
                                                         trays := trayParts lines ts rows
                                                         hold := lines
                                                         slaves := if wide then some (core + 1) else none } ps)

/-- Poisons the lines of a tray that would have had contributions, where they translate (10 R208). -/
def State.poisonTray (s : State) (t : Nat) (base m ts n : Nat) : State :=
  (List.range m).foldl (fun s r => (List.range ((n + 31) / 32)).foldl (fun s c =>
    match s.translate (s.crewOf t).core (s.gridOf t).accessKey (base + 128 * (r * ts + c)) .store with
    | (s, .ok pa) => (s.setPoison (s.unitOf pa)).setPoison (s.unitOf (pa + 64))
    | (s, .error _) => s) s) s

/-- EXPOSE and EXPOSEW with the failure of a tray line. -/
def exposeRes (wide : Bool) (ap : BitVec 5) (sl : BitVec 3) (tp : BitVec 5) (g : Reg) (s : State) (t : Nat) : CrewRes :=
  let th := s.src t
  let core := if wide then (s.crewOf t).core / 2 * 2 else (s.crewOf t).core
  let n := (s.plateAt t core).n + (if wide then (s.plateAt t (core + 1)).n else 0)
  match exposeCrew wide ap sl tp g s t with
  | .error (c, v) =>
    if c = trayFailCode then
      let s := s.poisonTray t (th.rx (pairOf tp)).toNat (bitsN (th.rv g).toNat 8 0) (bitsN (th.rv g).toNat 25 16) n
      s.crewRes t (.error (c, v))
    else .early c v
  | .ok s => .done s

/-! ## TCVT, TDCVT (10 R217, R218) -/

/-- The windows of the conversions and of TRAYRD's destination (10 R205). -/
def tileWindows : List (Option Nat) := [some 1, some 2, some 3]

/-- Bytes of a wide operand. -/
def wideBytes (wt n : Nat) : Nat := n * fmtBits wt / 8

/-- TCVT, once for the crew. -/
def tcvtCrew (sa : BitVec 5) (sl : BitVec 3) (da : BitVec 5) (g : Reg) (s : State) (t : Nat) : Except Flt State :=
  let th := s.src t
  let gv := th.rv g
  match s.tileSlot t sl roleCvt with
  | .error e => .error e
  | .ok d =>
    let cnt := bitsN gv.toNat 16 0
    let wt := bitsN gv.toNat 27 24
    if cvtGeom d.fmt gv = false then .error (Cause.tileGeometry, 0)
    else match s.rangeChecks t [⟨th.rx (pairOf sa), wideBytes wt cnt, 16, .load, tileWindows⟩,
        ⟨th.rx (pairOf da), operandBytes d.fmt cnt, 16, .store, tileWindows⟩] Cause.tileWindow with
      | .error e => .error e
      | .ok (s, ps) =>
        let writesTab := d.clip ≠ 0 ∧ d.ssrc = 2
        let list := s.kReg t d.outk
        let tab := s.kReg t d.sk
        guardFault (s.tileHeld t ps (ps.take 1) (d.ssrc == 2)) (holdCode, 0) <|
        guardFault (d.oe && list.toNat % 8 != 0) (Why.cause .atomic .misaligned, list) <|
        guardFault (decide writesTab && tab.toNat % 4 != 0) (Why.cause .store .misaligned, tab) <|
        match (if writesTab then .ok (s, []) else s.superWords t d cnt) with
        | .error e => .error e
        | .ok (s, sup) =>
          let bs := (ps.take 1).flatMap s.spotBytes
          let r := tcvt d ((List.range cnt).map (wideVal wt bs)) sup fun b => (Config.freeWord (s.m.free + b)).toNat % 256
          let s := s.modM fun m => { m with free := m.free + cnt / 64 }
          let s := s.modPart (s.crewOf t).team (s.crewOf t).core fun p => { p with dropped := satInc p.dropped r.dropped }
          let out := packCodes (fmtBits d.fmt) r.codes ++ r.scales
          .ok (s.startTile { s.tileOp t false with
            writes := (ps.drop 1).map fun p => ⟨p.store, p.off, out, true, 0⟩
            gwrites := if writesTab then
                r.supers.zipIdx.map fun (w, j) => (tab + BitVec.ofNat 64 (4 * j), leBytes 4 w.toNat)
              else []
            append := if d.oe then some (list, r.outliers) else none } ps)

/-- TDCVT, once for the crew. -/
def tdcvtCrew (sa : BitVec 5) (sl : BitVec 3) (da : BitVec 5) (g : Reg) (s : State) (t : Nat) : Except Flt State :=
  let th := s.src t
  let gv := th.rv g
  match s.tileSlot t sl roleCvt with
  | .error e => .error e
  | .ok d =>
    let cnt := bitsN gv.toNat 16 0
    let wt := bitsN gv.toNat 27 24
    if cvtGeom d.fmt gv = false then .error (Cause.tileGeometry, 0)
    else match s.rangeChecks t [⟨th.rx (pairOf sa), operandBytes d.fmt cnt, 16, .load, tileWindows⟩,
        ⟨th.rx (pairOf da), wideBytes wt cnt, 16, .store, tileWindows⟩] Cause.tileWindow with
      | .error e => .error e
      | .ok (s, ps) =>
        guardFault (s.tileHeld t ps (ps.take 1) (d.oe || d.ssrc == 2)) (holdCode, 0) <|
        match s.outliers t d cnt none false with
        | .error e => .error e
        | .ok (s, out) =>
          match s.superWords t d cnt with
          | .error e => .error e
          | .ok (s, sup) =>
            let bs := (ps.take 1).flatMap s.spotBytes
            let codes := tdcvt d wt cnt bs (bs.drop (cnt * fmtBits d.fmt / 8)) sup out
            .ok (s.startTile { s.tileOp t false with
              writes := (ps.drop 1).map fun p => ⟨p.store, p.off, packCodes (fmtBits wt) codes, true, 0⟩ } ps)

/-! ## TRAYZ, TRAYRD, TRAYFL (10 R216) -/

/-- The checks of a tray sub-op, and its spots. -/
def State.traySpots (s : State) (t : Nat) (gv : Word) (rs : List TRange) : Except Flt (State × List Spot) :=
  if trayGeom gv = false then .error (Cause.tileGeometry, 0)
  else if s.holdsPlate t = false then .error (Cause.plateUnheld, 0)
  else match s.rangeChecks t rs Cause.tileWindow with
    | .error e => .error e
    | .ok (s, ps) => guardFault (s.tileHeld t ps [] false) (holdCode, 0) (.ok (s, ps))

/-- TRAYZ, once for the crew. -/
def trayzCrew (tp : BitVec 5) (g : Reg) (s : State) (t : Nat) : Except Flt State :=
  let th := s.src t
  let gv := th.rv g
  match s.traySpots t gv [trayRange th tp gv .store] with
  | .error e => .error e
  | .ok (s, ps) =>
    .ok (s.startTile { s.tileOp t false with
      writes := (ps.flatMap Spot.lines).map fun l => ⟨.phys, l.2, List.replicate 128 0, false, l.1⟩ } ps)

/-- Reads pieces of memory for a word, by sectors, at a scope; the generic address of the first that fails. -/
def State.readPieces (s : State) (core key unit : Nat) (sc : Scope) : List (Nat × Nat) → State × Except Nat (List Byte)
  | [] => (s, .ok [])
  | (va, pa) :: r =>
    let step := min unit 32
    let q := (List.range (unit / step)).foldl (fun (x : State × Option (List Byte)) i =>
      match x.2 with
      | none => x
      | some bs => match x.1.globalRead core key (pa + i * step) step sc with
        | (s, .error _) => (s, none)
        | (s, .ok b) => (s, some (bs ++ b))) (s, some [])
    match q with
    | (s, none) => (s, .error (va / 128 * 128))
    | (s, some bs) => match State.readPieces s core key unit sc r with
      | (s, .error e) => (s, .error e)
      | (s, .ok l) => (s, .ok (bs ++ l))

/-- The bytes of a spot, local or global. -/
def State.readSpot (s : State) (t : Nat) (sc : Scope) (p : Spot) : State × Except Nat (List Byte) :=
  match p.store with
  | .phys => s.readPieces (s.crewOf t).core (s.gridOf t).accessKey p.unit sc p.lines
  | _ => (s, .ok (s.spotBytes p))

/-- Writes that follow one another in a sealing unit of main memory are one write (16 R316, R318). -/
def joinWrites : List EngWrite → List EngWrite
  | [] => []
  | w :: r =>
    match joinWrites r with
    | h :: q =>
      if h.off = w.off + w.bytes.length ∧ w.off / 64 = h.off / 64 then { w with bytes := w.bytes ++ h.bytes } :: q
      else w :: h :: q
    | [] => [w]

/-- Writes of bytes over a spot. -/
def Spot.writes (p : Spot) (bytes : List Byte) (fill : Bool) : List EngWrite :=
  match p.store with
  | .phys => joinWrites ((p.lines.zip (chunks p.unit ((bytes.length + p.unit - 1) / p.unit) bytes)).map fun x =>
      ⟨.phys, x.1.2, x.2, false, x.1.1⟩)
  | st => [⟨st, p.off, bytes, fill, 0⟩]

/-- TRAYRD, once for the crew. The lines are read when the word is performed, at its completion. -/
def trayrdCrew (tp da : BitVec 5) (g : Reg) (s : State) (t : Nat) : Except Flt State :=
  let th := s.src t
  let gv := th.rv g
  match s.traySpots t gv [trayRange th tp gv .load,
      ⟨th.rx (pairOf da), bitsN gv.toNat 8 0 * bitsN gv.toNat 25 16 * 128, 16, .store, tileWindows⟩] with
  | .error e => .error e
  | .ok (s, ps) =>
    .ok (s.startTile { s.tileOp t false with
      copyOut := (ps.drop 1).head?.map fun p => ((ps.take 1).flatMap Spot.lines, p.store, p.off) } ps)

/-- TRAYFL, once for the crew. -/
def trayflCrew (tp : BitVec 5) (g : Reg) (s : State) (t : Nat) : Except Flt State :=
  let th := s.src t
  let gv := th.rv g
  match s.traySpots t gv [trayRange th tp gv .store] with
  | .error e => .error e
  | .ok (s, ps) =>
    .ok (s.startTile { s.tileOp t false with flush := (ps.flatMap Spot.lines).map fun l => (l.1, l.2 / 128) } ps)

/-! ## PSTAT (10 R219) -/

/-- The PLATE value of a plate (10 R219). -/
def Plate.word (p : Plate) (slaved : Bool) : Nat :=
  p.k + 2 ^ 9 * p.n + 2 ^ 19 * p.fmt + (if p.wide then 2 ^ 23 else 0) + (if slaved then 2 ^ 24 else 0) +
    2 ^ 25 * p.outliers.length

/-- The value PSTAT selects. -/
def State.pstat (s : State) (t : Nat) (sel : PstatSel) : Word :=
  let core := (s.crewOf t).core
  let p := (s.teamOf t).part core
  match sel with
  | .plate => if s.holdsPlate t = false then 0 else BitVec.ofNat 32 (p.plate.word (s.slaved core))
  | .dropped => p.dropped
  | .nonfin => p.nonfin
  | .locks => BitVec.ofNat 32 (s.core core).locks.length

/-- A failure enters a thread's list in issue order (10 R208). -/
def insertFailure : List Deferred → Deferred → List Deferred
  | [], d => [d]
  | x :: r, d => if d.op < x.op then d :: x :: r else x :: insertFailure r d

/-- A failed word is to be reported by every live thread of its crew (10 R208). -/
def State.deferTo (s : State) (c : Nat) (d : Deferred) : State :=
  (s.liveOf c).foldl (fun s t => s.modThread t fun th => { th with deferred := insertFailure th.deferred d }) s

/-- Reports the oldest failed word of each lane, at a PSTAT (10 R208, 14 R268). -/
def State.reportAt (s : State) (lanes : List Nat) : State :=
  lanes.foldl (fun s t => s.reportDeferred t s.m.cur.pc (s.thread t).pc) s

/-! ## The meanings -/

/-- TILE.PLOAD. -/
def execTilePload (ch : Bool) (ap : BitVec 5) (sl : BitVec 3) (g : Reg) (s : State) : Res :=
  .next (s.runCrew (.tilePload ch ap sl g) fun s t => s.crewRes t (ploadCrew false ap sl g s t))

/-- TILE.PLOADW. -/
def execTilePloadw (ch : Bool) (ap : BitVec 5) (sl : BitVec 3) (g : Reg) (s : State) : Res :=
  .next (s.runCrew (.tilePloadw ch ap sl g) fun s t => s.crewRes t (ploadCrew true ap sl g s t))

/-- TILE.EXPOSE. -/
def execTileExpose (ch : Bool) (ap : BitVec 5) (sl : BitVec 3) (tp : BitVec 5) (g : Reg) (s : State) : Res :=
  .next (s.runCrew (.tileExpose ch ap sl tp g) fun s t => exposeRes false ap sl tp g s t)

/-- TILE.EXPOSEW. -/
def execTileExposew (ch : Bool) (ap : BitVec 5) (sl : BitVec 3) (tp : BitVec 5) (g : Reg) (s : State) : Res :=
  .next (s.runCrew (.tileExposew ch ap sl tp g) fun s t => exposeRes true ap sl tp g s t)

/-- TILE.TCVT. -/
def execTileTcvt (ch : Bool) (sa : BitVec 5) (sl : BitVec 3) (da : BitVec 5) (g : Reg) (s : State) : Res :=
  .next (s.runCrew (.tileTcvt ch sa sl da g) fun s t => s.crewRes t (tcvtCrew sa sl da g s t))

/-- TILE.TDCVT. -/
def execTileTdcvt (ch : Bool) (sa : BitVec 5) (sl : BitVec 3) (da : BitVec 5) (g : Reg) (s : State) : Res :=
  .next (s.runCrew (.tileTdcvt ch sa sl da g) fun s t => s.crewRes t (tdcvtCrew sa sl da g s t))

/-- TILE.TRAYZ. -/
def execTileTrayz (ch : Bool) (tp : BitVec 5) (g : Reg) (s : State) : Res :=
  .next (s.runCrew (.tileTrayz ch tp g) fun s t => s.crewRes t (trayzCrew tp g s t))

/-- TILE.TRAYRD. -/
def execTileTrayrd (ch : Bool) (tp da : BitVec 5) (g : Reg) (s : State) : Res :=
  .next (s.runCrew (.tileTrayrd ch tp da g) fun s t => s.crewRes t (trayrdCrew tp da g s t))

/-- TILE.TRAYFL. -/
def execTileTrayfl (ch : Bool) (tp : BitVec 5) (g : Reg) (s : State) : Res :=
  .next (s.runCrew (.tileTrayfl ch tp g) fun s t => s.crewRes t (trayflCrew tp g s t))

/-- TILE.PSTAT: it waits for the crew's tile words, QACC words among them (10 R219; log 36), writes its value in every live lane, and
then reports a failed word. -/
def execTilePstat (ch : Bool) (d : Reg) (sel : PstatSel) (s : State) : Res :=
  let i := Instr.tilePstat ch d sel
  match s.m.cur.lanes with
  | [] => .next s
  | t :: _ =>
    if s.tilesOf (s.thread t).crew ≠ [] then .next (s.runLanes i fun _ _ => .early holdCode 0)
    else if s.m.cur.probe || s.stops i t then
      .next (s.runRegs i prodG fun s t => .ofRegs (regWrites d (s.pstat t sel)))
    else .next ((s.runRegs i prodG fun s t => .ofRegs (regWrites d (s.pstat t sel))).reportAt s.m.cur.lanes)

end Sys2Proof.Machine
end

