-- ==== Sys2Proof/Machine/Qacc.lean ====
section
/-! DEFINITION. The orthogonal accumulators (11): the arithmetic of reflectors and blocks with its flags, panel records and
images, and the meanings of the QACC words. -/

namespace Sys2Proof.Machine

/-! ## FP32 arithmetic on codes with its flags (11 R226) -/

/-- The value of an FP32 code. -/
def f32v (c : Nat) : FVal := Fmt.f32.decode c

/-- c + a × b, or c − a × b, with one rounding. -/
def fmaC (neg : Bool) (a b c : Nat) : Code := Fmt.f32.fma neg (f32v a) (f32v b) (f32v c)

/-- Folds a rounding step over values, the flags ORed. -/
def foldC {α : Type} (f : Nat → α → Code) (x : Nat) (l : List α) : Code :=
  l.foldl (fun (c : Code) a => let r := f c.1 a; (r.1, c.2 ||| r.2)) (x, 0)

/-- The flags of several results together. -/
def orFlags (l : List (BitVec 5)) : BitVec 5 := l.foldl (· ||| ·) 0

/-- dot(a, b) over rows 0 … n − 1: lane partials over their slots, then the tree of R118 (09 R198). -/
def dotC (n : Nat) (a b : List Nat) : Code :=
  let part (lane : Nat) : Code :=
    foldC (fun p i => fmaC false (a.getD i 0) (b.getD i 0) p) 0 ((List.range n).filter fun i => i % 32 == lane)
  let node (x y : Code) : Code :=
    let r := Fmt.f32.add .rne (f32v x.1) (f32v y.1)
    (r.1, x.2 ||| y.2 ||| r.2)
  (treeReduce node ((List.range 32).map fun l => some (part l))).getD (0, 0)

/-- A correctly rounded FP32 division of exact values, with its flags (11 R229). -/
def divC (x y : FVal) : Code :=
  match x, y with
  | .nan _, _ => (Fmt.f32.nanCode, nvIf (x.snan || y.snan))
  | _, .nan _ => (Fmt.f32.nanCode, nvIf (x.snan || y.snan))
  | .inf _, .inf _ => (Fmt.f32.nanCode, flagNV)
  | .inf a, .num b _ _ => (Fmt.f32.infCode (a != b), 0)
  | .num a _ _, .inf b => (Fmt.f32.sign (a != b), 0)
  | .num a m1 e1, .num b m2 e2 =>
    if m2 = 0 then (if m1 = 0 then (Fmt.f32.nanCode, flagNV) else (Fmt.f32.infCode (a != b), flagDZ))
    else (Fmt.f32.roundQ .rne (a != b) m1 m2 (e1 - e2)).out

/-- β − x as an exact value where both are numbers. -/
def subExact (x y : FVal) : FVal :=
  match x, y with
  | .num n1 m1 e1, .num n2 m2 e2 =>
    let r := sumZ n1 m1 e1 (!n2) m2 e2
    .num (decide (r.1 < 0)) r.1.natAbs r.2
  | _, _ => f32v (Fmt.f32.add .rne x y.negate).1

/-! ## Blocks (11 R221, R233) -/

/-- A block I − W U Wᵀ: columns of W, rows of U, and how many reflectors it has. -/
structure Block where
  w : List (List Nat)
  u : List (List Nat)
  k : Nat

/-- An entry of a matrix kept as lists; one beyond a list is +0. -/
def entry (m : List (List Nat)) (i j : Nat) : Nat := (m.getD i []).getD j 0

/-- The current block of an accumulator. -/
def Acc.block (a : Acc) : Block := ⟨a.v.map fun c => c.map BitVec.toNat, a.t.map fun r => r.map BitVec.toNat, a.k⟩

/-- apply(W, U, k, x, tr) (11 R233). -/
def Block.apply (b : Block) (n : Nat) (tr : Bool) (x : List Nat) : List Nat × BitVec 5 :=
  if b.k = 0 then (x, 0)
  else
    let w := (List.range b.k).map fun c => dotC n (b.w.getD c []) x
    let z := (List.range b.k).map fun i =>
      let js := if tr then List.range (i + 1) else (List.range b.k).filter (i ≤ ·)
      foldC (fun s j => fmaC false (if tr then entry b.u j i else entry b.u i j) (w.getD j (0, 0)).1 s) 0 js
    let y := (List.range n).map fun r =>
      foldC (fun s c => fmaC true (entry b.w c r) (z.getD c (0, 0)).1 s) (x.getD r 0) (List.range b.k)
    (y.map Prod.fst, orFlags ((w ++ z ++ y).map Prod.snd))

/-- The blocks one after the other, with the flags of all. -/
def applyAll (n : Nat) (tr : Bool) (bs : List Block) (x : List Nat) : List Nat × BitVec 5 :=
  bs.foldl (fun a b => let r := b.apply n tr a.1; (r.1, a.2 ||| r.2)) (x, 0)

/-- Q x, or Qᵀ x, of the current block and the panels P1 … PPC (11 R233). -/
def applyQ (n : Nat) (tr : Bool) (cur : Block) (panels : List Block) (x : List Nat) : List Nat × BitVec 5 :=
  applyAll n tr (if tr then panels ++ [cur] else cur :: panels.reverse) x

/-- What QGEN makes of a column (11 R229): the reflector, τ, β and the flags. -/
def qgen (n p : Nat) (x : List Nat) : List Nat × Nat × Nat × BitVec 5 :=
  let x' := x.mapIdx fun i c => if p ≤ i then c else 0
  let s := dotC n x' x'
  let r := funElem .sqrt Fmt.f32 s.1
  let nrm := r.1
  let xp := x.getD p 0
  if nrm = 0 then ((List.range n).map fun i => if i = p then oneF32.toNat else 0, 0, 0, s.2 ||| r.2)
  else
    let v := f32v xp
    let pos := match v with
      | .num neg m _ => !neg || m == 0
      | .inf neg => !neg
      | .nan _ => false
    let beta := if (f32v nrm).isNan then Fmt.f32.nanCode else if pos then nrm + 2 ^ 31 else nrm
    let d := Fmt.f32.add .rne v (f32v beta).negate
    let vs := (List.range n).map fun i =>
      if i < p then ((0, 0) : Code) else if i = p then (oneF32.toNat, 0) else divC (f32v (x.getD i 0)) (f32v d.1)
    let tau := divC (subExact (f32v beta) v) (f32v beta)
    (vs.map Prod.fst, tau.1, beta, s.2 ||| r.2 ||| d.2 ||| orFlags (vs.map Prod.snd) ||| tau.2)

/-- Sets an element of a list, padding with a blank. -/
def setPad {α : Type} (l : List α) (i : Nat) (d a : α) : List α :=
  (l ++ List.replicate (i + 1 - l.length) d).set i a

/-- The append of QAPP to a block with room (11 R230), and its flags. -/
def Acc.append (a : Acc) (v : List Nat) (tau : Nat) : Acc × BitVec 5 :=
  let b := a.block
  let ts := (List.range a.k).map fun j => dotC a.n (b.w.getD j []) v
  let col := (List.range a.k).map fun i =>
    let s := foldC (fun s j => fmaC false (entry b.u i j) (ts.getD j (0, 0)).1 s) 0
      ((List.range a.k).filter (i ≤ ·))
    let m := Fmt.f32.mul .rne (f32v tau).negate (f32v s.1)
    ((m.1, s.2 ||| m.2) : Code)
  let new (i : Nat) : Word := if i = a.k then BitVec.ofNat 32 tau else BitVec.ofNat 32 (col.getD i (0, 0)).1
  let t := (List.range 32).map fun i => setPad (a.t.getD i []) a.k 0 (new i)
  ({ a with v := setPad a.v a.k [] (v.map (BitVec.ofNat 32)), t := t, k := a.k + 1 },
   orFlags (ts.map Prod.snd) ||| orFlags (col.map Prod.snd))

/-! ## Panels (11 R231, R232) -/

/-- Bytes of a panel record. -/
def panelBytes : Nat := 36864

/-- First row of column `c` of a panel. -/
def panelRow (full : Bool) (row0 n c : Nat) : Nat := if full then 0 else min (row0 + c) n

/-- The current block is rectangular: an entry above its pivot rows is not a zero. -/
def Acc.rectangular (a : Acc) : Bool :=
  (List.range a.k).any fun c => (List.range (a.base + c)).any fun i =>
    (((a.v.getD c []).getD i 0).toNat % 2 ^ 31) != 0

/-- The record of the current block. -/
def Acc.record (a : Acc) : List Byte :=
  let full := a.rectangular
  let t := (List.range 32).flatMap fun i => ((List.range 32).filter (i ≤ ·)).flatMap fun j =>
    leBytes 4 (if j < a.k then entry a.block.u i j else 0)
  let v := (List.range a.k).flatMap fun c =>
    ((List.range a.n).filter (panelRow full a.base a.n c ≤ ·)).flatMap fun i => leBytes 4 (entry a.block.w c i)
  leBytes 2 a.n ++ leBytes 1 a.k ++ leBytes 1 (if full then 1 else 0) ++ leBytes 2 a.base ++ leBytes 58 0 ++ t
    ++ leBytes 1920 0 ++ v

/-- The accumulator after its current block has become a panel (11 R232). -/
def Acc.spilled (a : Acc) : Acc := { a with pc := a.pc + 1, base := a.base + a.k, k := 0, v := [], t := [] }

/-- A 32-bit word of a record. -/
def wordAt (bs : List Byte) (o : Nat) : Nat := leNat ((bs.drop o).take 4)

/-- The block a panel record stands for, with the KP it holds, whatever its N (11 R231; log 38). -/
def panelBlock (n : Nat) (bs : List Byte) : Block :=
  let k := (bs.getD 2 0).toNat
  let full := (bs.getD 3 0).getLsbD 0
  let row0 := leNat ((bs.drop 4).take 2)
  let u := (List.range k).map fun i => (List.range k).map fun j =>
    if j < i then 0 else wordAt bs (64 + 4 * (32 * i - i * (i - 1) / 2 + j - i))
  let w := ((List.range k).foldl (fun (a : List (List Nat) × Nat) c =>
    let r := panelRow full row0 n c
    (a.1 ++ [(List.range n).map fun i => if i < r then 0 else wordAt bs (4096 + 4 * (a.2 + i - r))], a.2 + (n - r)))
    ([], 0)).1
  ⟨w, u, k⟩

/-! ## Images (11 R236) -/

/-- Bytes of an image. -/
def imageBytes : Nat := 36928

/-- The image of an accumulator. -/
def Acc.image (a : Acc) : List Byte :=
  let b := a.block
  leBytes 2 a.n ++ leBytes 1 a.k ++ leBytes 1 a.pc ++ leBytes 1 (if a.pol then 1 else 0) ++ leBytes 3 0
    ++ leBytes 8 a.chain.toNat ++ leBytes 2 a.base ++ leBytes 46 0
    ++ ((List.range 32).flatMap fun i => (List.range 32).flatMap fun j =>
      leBytes 4 (if i < a.n ∧ j < a.k then entry b.u i j else 0))
    ++ ((List.range 32).flatMap fun c => (List.range 256).flatMap fun i =>
      leBytes 4 (if i < a.n ∧ c < a.k then entry b.w c i else 0))

/-- The accumulator an image stands for; none where the image is invalid. -/
def Acc.ofImage (bs : List Byte) : Option Acc :=
  let n := leNat (bs.take 2)
  let k := (bs.getD 2 0).toNat
  let pc := (bs.getD 3 0).toNat
  let pol := (bs.getD 4 0).toNat
  let chain := leNat ((bs.drop 8).take 8)
  let base := leNat ((bs.drop 16).take 2)
  let zeros (o m : Nat) : Bool := ((bs.drop o).take m).all (· == 0)
  if 1 < pol ∨ zeros 5 3 = false ∨ zeros 18 46 = false ∨ 256 < n ∨ 32 < k ∨ 15 < pc ∨
      (n = 0 ∧ (k ≠ 0 ∨ pc ≠ 0 ∨ base ≠ 0 ∨ chain ≠ 0)) then none
  else some {
    n := n, k := k, pc := pc, pol := pol == 1, chain := BitVec.ofNat 64 chain, base := base
    t := (List.range 32).map fun i => (List.range 32).map fun j => BitVec.ofNat 32 (wordAt bs (64 + 4 * (32 * i + j)))
    v := (List.range 32).map fun c => (List.range 256).map fun i =>
      BitVec.ofNat 32 (wordAt bs (4160 + 4 * (256 * c + i))) }

/-! ## Checks and operands (11 R222, R224) -/

/-- Sets an accumulator of a thread's core. -/
def State.setAcc (s : State) (t : Nat) (q : BitVec 3) (a : Acc) : State :=
  s.modPart (s.crewOf t).team (s.crewOf t).core fun p => { p with accs := p.accs.set q.toNat a q.isLt }

/-- Every lane below min(n, 32) of the crew is live. -/
def State.lanesLive (s : State) (t n : Nat) : Bool :=
  (List.range (min n 32)).all fun l => (s.laneOf (s.thread t).crew l).isSome

/-- Checks 1 to 3 of R224. -/
def State.qaccCheck (s : State) (t : Nat) (q : BitVec 3) (needSet : Bool) : Option Flt :=
  let a := s.qaccOf t q
  if (s.gridOf t).lr.qacc ≤ q.toNat then some (Cause.unallocatedAccumulator, 0)
  else if needSet ∧ a.n = 0 then some (Cause.accumulatorUnset, 0)
  else if s.lanesLive t a.n = false then some (Cause.accumulatorLanes, 0)
  else none

/-- A vector of `n` rows at a base register (11 R222). -/
def State.readVec (s : State) (t : Nat) (r : Reg) (n : Nat) : List Nat :=
  (List.range n).map fun i => match s.laneOf (s.thread t).crew (i % 32) with
    | some q => ((s.src q).rv (r + BitVec.ofNat 6 (i / 32))).toNat
    | none => 0

/-- The writes of a vector (11 R222): lanes that hold no row of the last register receive +0. -/
def vecRegs (r : Reg) (n lane : Nat) (y : List Nat) : List (Reg × Word) :=
  (List.range ((n + 31) / 32)).map fun j =>
    (r + BitVec.ofNat 6 j, BitVec.ofNat 32 (if 32 * j + lane < n then y.getD (32 * j + lane) 0 else 0))

/-- What a QACC word does, once for its crew: a fault at issue, or its state, its flags and its register results. -/
inductive QRes where
  | early (f : Flt)
  | done (s : State) (flags : BitVec 5) (regs : Nat → List (Reg × Word))

/-- No register result. -/
def noRegs : Nat → List (Reg × Word) := fun _ => []

/-- Runs a QACC word (11 R224, R226): the flags reach every live thread, and an enabled one traps them all with nothing
written. -/
def State.runQacc (s : State) (i : Instr) (f : State → Nat → QRes) : State :=
  match s.m.cur.lanes with
  | [] => s
  | t :: _ =>
    if s.stops i t then s.runLanes i fun s _ => .done s
    else match f s t with
      | .early e => s.runLanes i fun _ _ => .early e.1 e.2
      | .done s' fl regs =>
        if s.m.cur.probe then s
        else
          let mark (s : State) (t : Nat) : State := s.modThread t fun th => { th with fstat := th.fstat ||| fl }
          if (fl &&& s.trapen t) != 0 then
            s.runLanes i fun s t => .late (mark s t) (fpCause fl (s.trapen t)) (BitVec.ofNat 64 fl.toNat)
          else
            let ws := s.m.cur.lanes.map fun t => (⟨t, regs (s.thread t).lane⟩ : LaneWrite)
            (s'.writeLanes ws prodG).runLanes i fun s t => .done (mark s t)

/-! ## Panel ranges -/

/-- Windows of panels and images (11 R231, R236). -/
def panelWindows : List (Option Nat) := [none, some 1, some 3]

/-- The range of panel `j` of an accumulator. -/
def Acc.panelRange (a : Acc) (j : Nat) (k : Kind) : TRange :=
  ⟨a.chain + BitVec.ofNat 64 (panelBytes * j), panelBytes, 4096, k, panelWindows⟩

/-- Reads the panels of an accumulator at their spots; the first address that fails. -/
def State.readPanels (s : State) (t n : Nat) : List Spot → State × Except Nat (List Block)
  | [] => (s, .ok [])
  | p :: r =>
    match s.readSpot t .cr p with
    | (s, .error e) => (s, .error e)
    | (s, .ok bs) => match State.readPanels s t n r with
      | (s, .error e) => (s, .error e)
      | (s, .ok l) => (s, .ok (panelBlock n bs :: l))

/-- A QACC word with no memory write fails after issue: every live thread of the crew has the failure to report (10 R208). -/
def State.failQacc (s : State) (t va : Nat) : State :=
  s.deferTo (s.thread t).crew ⟨Cause.accumulatorFailed, BitVec.ofNat 64 va, s.eng.nextId⟩

/-! ## The words -/

/-- QRST (11 R227). -/
def qrstCrew (q : BitVec 3) (a p : Reg) (s : State) (t : Nat) : QRes :=
  let th := s.src t
  let cfg := (th.rv a).toNat
  let n := bitsN cfg 8 0
  if (s.gridOf t).lr.qacc ≤ q.toNat then .early (Cause.unallocatedAccumulator, 0)
  else if n = 0 ∨ 256 < n ∨ bitsN cfg 15 9 ≠ 0 ∨ bitsN cfg 31 17 ≠ 0 then .early (Cause.accumulatorGeometry, 0)
  else if s.lanesLive t n = false then .early (Cause.accumulatorLanes, 0)
  else .done (s.setAcc t q { Acc.unset with n := n, pol := cfg.testBit 16, chain := th.rx p }) 0 noRegs

/-- QGEN (11 R229). -/
def qgenCrew (q : BitVec 3) (d a : Reg) (s : State) (t : Nat) : QRes :=
  match s.qaccCheck t q true with
  | some e => .early e
  | none =>
    let x := s.qaccOf t q
    if x.n ≤ x.base + x.k then .early (Cause.accumulatorRange, 0)
    else
      let r := qgen x.n (x.base + x.k) (s.readVec t a x.n)
      let d1 := d + BitVec.ofNat 6 ((x.n + 31) / 32)
      .done s r.2.2.2 fun lane =>
        vecRegs d x.n lane r.1 ++ [(d1, BitVec.ofNat 32 r.2.1), (d1 + 1, BitVec.ofNat 32 r.2.2.1)]

/-- The flight of a recompaction: the record's writes and what a failure restores (11 R230, R232). -/
def State.recompact (s : State) (t : Nat) (q : BitVec 3) (a : Acc) (ps : List Spot) : State :=
  s.startTile { s.tileOp t true with writes := ps.flatMap fun p => p.writes a.record false
                                     undo := some (q.toNat, a) } ps

/-- QAPP (11 R230). -/
def qappCrew (q : BitVec 3) (a b : Reg) (s : State) (t : Nat) : QRes :=
  match s.qaccCheck t q true with
  | some e => .early e
  | none =>
    let x := s.qaccOf t q
    let v := s.readVec t a x.n
    let tau := ((s.src t).rv b).toNat
    if x.k < 32 then
      let r := x.append v tau
      .done (s.setAcc t q r.1) r.2 noRegs
    else if x.pol = false then .early (Cause.accumulatorFull, 0)
    else if 15 ≤ x.pc then .early (Cause.panelLimit, 0)
    else match s.rangeChecks t [x.panelRange x.pc .store] Cause.tileWindow with
      | .error e => .early e
      | .ok (s, ps) =>
        if s.tileHeld t ps [] false then .early (holdCode, 0)
        else
          let r := x.spilled.append v tau
          .done ((s.recompact t q x ps).setAcc t q r.1) r.2 noRegs

/-- QCNT (11 R228). -/
def qcntCrew (q : BitVec 3) (d : Reg) (s : State) (t : Nat) : QRes :=
  match s.qaccCheck t q false with
  | some e => .early e
  | none =>
    let x := s.qaccOf t q
    let w := BitVec.ofNat 32 (x.n + 2 ^ 16 * x.k + 2 ^ 24 * x.pc + (if x.pol then 2 ^ 31 else 0))
    .done s 0 fun _ => regWrites d w

/-- The register forms of QAPL, QAPLT, QAPR and QAPRT (11 R234); `tr` applies Qᵀ. -/
def applyRegCrew (tr : Bool) (q : BitVec 3) (d a : Reg) (s : State) (t : Nat) : QRes :=
  match s.qaccCheck t q true with
  | some e => .early e
  | none =>
    let x := s.qaccOf t q
    match s.rangeChecks t ((List.range x.pc).map fun j => x.panelRange j .load) Cause.tileWindow with
    | .error e => .early e
    | .ok (s, ps) =>
      if s.eng.tiles.any fun e => ps.any e.2.willWrite then .early (holdCode, 0)
      else match s.readPanels t x.n ps with
        | (s, .error va) => .done (s.failQacc t va) 0 noRegs
        | (s, .ok pn) =>
          let r := applyQ x.n tr x.block pn (s.readVec t a x.n)
          .done s r.2 fun lane => vecRegs d x.n lane r.1

/-- A tile with its columns, or rows, transformed (11 R235): element (i, j) of an n × c tile, or (j, i) of a c × n one. -/
def tileApply (n c : Nat) (right tr : Bool) (cur : Block) (pn : List Block) (xs : List Nat) : List Nat × BitVec 5 :=
  let at' (i j : Nat) : Nat := if right then j * n + i else i * c + j
  let ys := (List.range c).map fun j => applyQ n tr cur pn ((List.range n).map fun i => xs.getD (at' i j) 0)
  let el (i j : Nat) : Nat := (ys.getD j ([], 0)).1.getD i 0
  ((List.range (n * c)).map fun p => if right then el (p % n) (p / n) else el (p / c) (p % c), orFlags (ys.map Prod.snd))

/-- The tile forms (11 R235). -/
def applyTileCrew (right tr : Bool) (q : BitVec 3) (ap : BitVec 5) (g : Reg) (s : State) (t : Nat) : QRes :=
  match s.qaccCheck t q true with
  | some e => .early e
  | none =>
    let x := s.qaccOf t q
    let th := s.src t
    let gv := (th.rv g).toNat
    let c := bitsN gv 8 0
    if c = 0 ∨ 256 < c ∨ bitsN gv 31 9 ≠ 0 then .early (Cause.accumulatorGeometry, 0)
    else
      let tile : TRange := ⟨th.rx (pairOf ap), 4 * x.n * c, 16, .store, [some 1]⟩
      match s.rangeChecks t (tile :: (List.range x.pc).map fun j => x.panelRange j .load) Cause.tileWindow with
      | .error e => .early e
      | .ok (s, ps) =>
        if s.tileHeld t ps ps false then .early (holdCode, 0)
        else match s.readPanels t x.n (ps.drop 1) with
          | (s, .error va) =>
            .done (s.startTile { s.tileOp t true with failed := some (BitVec.ofNat 64 va) } ps) 0 noRegs
          | (s, .ok pn) =>
            let bs := (ps.take 1).flatMap s.spotBytes
            let r := tileApply x.n c right tr x.block pn ((List.range (x.n * c)).map fun i => wordAt bs (4 * i))
            .done (s.startTile { s.tileOp t true with
              writes := (ps.take 1).flatMap fun p => p.writes (r.1.flatMap (leBytes 4)) false } ps) r.2 noRegs

/-- QSAVE (11 R236). -/
def qsaveCrew (q : BitVec 3) (ap : BitVec 5) (s : State) (t : Nat) : QRes :=
  match s.qaccCheck t q true with
  | some e => .early e
  | none =>
    match s.rangeChecks t [⟨(s.src t).rx (pairOf ap), imageBytes, 16, .store, panelWindows⟩] Cause.tileWindow with
    | .error e => .early e
    | .ok (s, ps) =>
      if s.tileHeld t ps [] false then .early (holdCode, 0)
      else .done (s.startTile { s.tileOp t true with
        writes := ps.flatMap fun p => p.writes (s.qaccOf t q).image true } ps) 0 noRegs

/-- QLOAD (11 R236). -/
def qloadCrew (q : BitVec 3) (ap : BitVec 5) (s : State) (t : Nat) : QRes :=
  match s.qaccCheck t q false with
  | some e => .early e
  | none =>
    match s.rangeChecks t [⟨(s.src t).rx (pairOf ap), imageBytes, 16, .load, panelWindows⟩] Cause.tileWindow with
    | .error e => .early e
    | .ok (s, ps) =>
      if s.tileHeld t ps ps false then .early (holdCode, 0)
      else match ps with
        | [] => .done s 0 noRegs
        | p :: _ => match s.readSpot t .cr p with
          | (s, .error va) =>
            .done (s.startTile { s.tileOp t true with failed := some (BitVec.ofNat 64 va) } ps) 0 noRegs
          | (s, .ok bs) => match Acc.ofImage bs with
            | none => .early (Cause.imageInvalid, 0)
            | some a => .done ((s.startTile (s.tileOp t true) ps).setAcc t q a) 0 noRegs

/-- QSPILL (11 R232). -/
def qspillCrew (q : BitVec 3) (s : State) (t : Nat) : QRes :=
  match s.qaccCheck t q true with
  | some e => .early e
  | none =>
    let x := s.qaccOf t q
    if x.k = 0 then .done s 0 noRegs
    else if 15 ≤ x.pc then .early (Cause.panelLimit, 0)
    else match s.rangeChecks t [x.panelRange x.pc .store] Cause.tileWindow with
      | .error e => .early e
      | .ok (s, ps) =>
        if s.tileHeld t ps [] false then .early (holdCode, 0)
        else .done ((s.recompact t q x ps).setAcc t q x.spilled) 0 noRegs

/-- QCLR (11 R227). -/
def qclrCrew (q : BitVec 3) (s : State) (t : Nat) : QRes :=
  match s.qaccCheck t q false with
  | some e => .early e
  | none =>
    let x := s.qaccOf t q
    .done (s.setAcc t q { x with k := 0, pc := 0, base := 0, v := [], t := [] }) 0 noRegs

/-! ## The meanings -/

/-- QACC.QRST. -/
def execQaccQrst (ch : Bool) (q : BitVec 3) (a p : Reg) (s : State) : Res :=
  .next (s.runQacc (.qaccQrst ch q a p) (qrstCrew q a p))

/-- QACC.QGEN. -/
def execQaccQgen (ch : Bool) (q : BitVec 3) (d a : Reg) (s : State) : Res :=
  .next (s.runQacc (.qaccQgen ch q d a) (qgenCrew q d a))

/-- QACC.QAPP. -/
def execQaccQapp (ch : Bool) (q : BitVec 3) (a b : Reg) (s : State) : Res :=
  .next (s.runQacc (.qaccQapp ch q a b) (qappCrew q a b))

/-- QACC.QCNT. -/
def execQaccQcnt (ch : Bool) (q : BitVec 3) (d : Reg) (s : State) : Res :=
  .next (s.runQacc (.qaccQcnt ch q d) (qcntCrew q d))

/-- QACC.QAPL.REG: Q x. -/
def execQaccQaplReg (ch : Bool) (q : BitVec 3) (d a : Reg) (s : State) : Res :=
  .next (s.runQacc (.qaccQaplReg ch q d a) (applyRegCrew false q d a))

/-- QACC.QAPLT.REG: Qᵀ x. -/
def execQaccQapltReg (ch : Bool) (q : BitVec 3) (d a : Reg) (s : State) : Res :=
  .next (s.runQacc (.qaccQapltReg ch q d a) (applyRegCrew true q d a))

/-- QACC.QAPR.REG: x Q, by the sequence of QAPLT. -/
def execQaccQaprReg (ch : Bool) (q : BitVec 3) (d a : Reg) (s : State) : Res :=
  .next (s.runQacc (.qaccQaprReg ch q d a) (applyRegCrew true q d a))

/-- QACC.QAPRT.REG: x Qᵀ, by the sequence of QAPL. -/
def execQaccQaprtReg (ch : Bool) (q : BitVec 3) (d a : Reg) (s : State) : Res :=
  .next (s.runQacc (.qaccQaprtReg ch q d a) (applyRegCrew false q d a))

/-- QACC.QAPL.TILE. -/
def execQaccQaplTile (ch : Bool) (q : BitVec 3) (ap : BitVec 5) (g : Reg) (s : State) : Res :=
  .next (s.runQacc (.qaccQaplTile ch q ap g) (applyTileCrew false false q ap g))

/-- QACC.QAPLT.TILE. -/
def execQaccQapltTile (ch : Bool) (q : BitVec 3) (ap : BitVec 5) (g : Reg) (s : State) : Res :=
  .next (s.runQacc (.qaccQapltTile ch q ap g) (applyTileCrew false true q ap g))

/-- QACC.QAPR.TILE. -/
def execQaccQaprTile (ch : Bool) (q : BitVec 3) (ap : BitVec 5) (g : Reg) (s : State) : Res :=
  .next (s.runQacc (.qaccQaprTile ch q ap g) (applyTileCrew true true q ap g))

/-- QACC.QAPRT.TILE. -/
def execQaccQaprtTile (ch : Bool) (q : BitVec 3) (ap : BitVec 5) (g : Reg) (s : State) : Res :=
  .next (s.runQacc (.qaccQaprtTile ch q ap g) (applyTileCrew true false q ap g))

/-- QACC.QSAVE. -/
def execQaccQsave (ch : Bool) (q : BitVec 3) (ap : BitVec 5) (s : State) : Res :=
  .next (s.runQacc (.qaccQsave ch q ap) (qsaveCrew q ap))

/-- QACC.QLOAD. -/
def execQaccQload (ch : Bool) (q : BitVec 3) (ap : BitVec 5) (s : State) : Res :=
  .next (s.runQacc (.qaccQload ch q ap) (qloadCrew q ap))

/-- QACC.QSPILL. -/
def execQaccQspill (ch : Bool) (q : BitVec 3) (s : State) : Res :=
  .next (s.runQacc (.qaccQspill ch q) (qspillCrew q))

/-- QACC.QCLR. -/
def execQaccQclr (ch : Bool) (q : BitVec 3) (s : State) : Res :=
  .next (s.runQacc (.qaccQclr ch q) (qclrCrew q))

end Sys2Proof.Machine
end

