-- ==== Sys2Proof/Machine/Complete.lean ====
section
/-! DEFINITION. Completions inside the cores: load data and stores (05 R124, R132, R133), a word at which threads wait examined
again (05 R134, R135), tray merges (10 R214, R215) and the completion of TILE and QACC words (10 R207, R208, 11 R225). -/

namespace Sys2Proof.Machine

/-! ## Loads and stores -/

/-- LOAD_DATA_RETURN: the destinations are written and the entry is free (05 R124, R133). -/
def execLoadDataReturn (id : Nat) (s : State) : Res :=
  .next <|
    match Table.find? s.eng.txns id with
    | none => s
    | some x =>
      if x.load = false || !s.txnDone x then s
      else (s.modEng fun e => { e with txns := Table.erase e.txns id }).lateWrites id x.writes

/-- The key of the accesses of a transaction. -/
def State.txnKey (s : State) (x : Txn) : Nat := (s.gridOf (x.threads.headD 0)).accessKey

/-- No line of a held DWB or DINV is still locked (05 R123). -/
def State.cctlFree (s : State) (x : Txn) : Bool := x.held.all fun h => !s.lockedAt h.line.store (h.line.line * 128) 128

/-- STORE_COMPLETE: what was held behind a lock is done, and the entry is free (05 R123, R132, R133). -/
def execStoreComplete (id : Nat) (s : State) : Res :=
  .next <|
    match Table.find? s.eng.txns id with
    | none => s
    | some x =>
      if x.load || !s.txnDone x || !s.cctlFree x then s
      else
        let s := x.held.foldl (fun s h => s.cctlLine x.core (s.txnKey x) h.line.line h.drop h.scope) s
        (s.modEng fun e => { e with txns := Table.erase e.txns id }).lateWrites id []

/-! ## A word examined again -/

/-- The word at which a thread waits, what follows it, and its sources. -/
def Thread.waiting (th : Thread) : Option (Instr × DWord × Bool × Vector Word 64) :=
  match th.wait with
  | .word i after one v => some (i, after, one, v)
  | _ => none

/-- Threads stand at the word they wait at, as when it was issued: its count is taken back, since it is counted again. -/
def State.standAgain (s : State) (ts : List Nat) (after : DWord) (one : Bool) : State :=
  let t := ts.headD 0
  let c := s.crewOf t
  let snap := ts.map fun q => (q, { s.thread q with v := ((s.thread q).waiting.map fun w => w.2.2.2).getD (s.thread q).v })
  let cur : Cur := { Cur.none with core := c.core, part := c.part, pc := (s.thread t).pc, after := after, lanes := ts,
                                   first := one, snap := snap, again := true }
  let s := ts.foldl (fun s q =>
    let g := s.gridOf q
    let s := s.modThread q fun th => { th with wait := .ready, retired := th.retired - 1 }
    if g.seat = .owner && !(s.thread q).isCont then s.count g.key 0 (2 ^ 64 - 1) else s) s
  s.modM fun m => { m with cur := cur }

/-- Examines the word at which threads of a live, resident grid wait again; a thread that waits on is left as it was, but gives up the
entry of an access that it has performed (05 R133). A word that needs an entry waits on while the table is full. -/
def State.examine (s : State) (ts : List Nat) (run : Instr → State → Res) : State :=
  let t := ts.headD 0
  match (s.thread t).waiting with
  | none => s
  | some (i, after, one, _) =>
    if (s.thread t).halted || !(s.thread t).live || !(s.crewOf t).resident || (s.gridOf t).status != .live then s
    else if i.takesEntry && (s.stalledEntry t).isNone && decide (256 ≤ s.entriesUsed (s.crewOf t).core (s.crewOf t).part) then s
    else match run i (s.standAgain ts after one) with
    | .next r =>
      if (r.thread t).wait = (s.thread t).wait then (if (r.stalledEntry t).isNone then s.unstall ts else s)
      else
        let r := ts.foldl (fun r q => if (r.thread q).wait = .ready then r.modThread q Thread.release else r) r
        r.modM fun m => { m with cur := s.m.cur }
    | _ => s

/-- MWAIT_WAKE: the read again (05 R134). -/
def execMwaitWake (t : Nat) (s : State) : Res :=
  .next (s.examine [t] fun i s =>
    match i with
    | .mwait _ d ap b sc c w => .next (s.runMem i (mwaitLane d ap b sc c w))
    | _ => .next s)

/-- FULL_EMPTY_WAKE: the granule again (05 R135). -/
def execFullEmptyWake (t : Nat) (s : State) : Res :=
  .next (s.examine [t] fun i s =>
    match i with
    | .ldfeKeep _ d ap sc w => .next (s.runMem i (ldfeLane false d ap sc w))
    | .ldfeTake _ d ap sc w => .next (s.runMem i (ldfeLane true d ap sc w))
    | .stfeFill _ d ap sc w => .next (s.runMem i (stfeLane false d ap sc w))
    | .stfePut _ d ap sc w => .next (s.runMem i (stfeLane true d ap sc w))
    | _ => .next s)

/-! ## Tray merges (10 R206, R208, R214, R215) -/

/-- The grid of a word in flight. -/
def State.tileGrid (s : State) (o : TileOp) : Grid := s.grid (s.team (s.crew o.crew).team).grid

/-- The merge of a line by a word must wait: on one core for the earlier words on the line; in replay mode for the
contributions of the lower cores (R207, R215). -/
def State.mergeWaits (s : State) (id : Nat) (o : TileOp) (line : Nat) : Bool :=
  s.eng.tiles.any fun e =>
    (e.2.core == o.core && decide (e.1 < id) && spansMeet e.2.touches [(line * 128, 128)]) ||
      ((s.tileGrid o).replay && decide (e.2.core < o.core) && e.2.trays.any fun p => p.line == line)

/-- The lower of a failing address and an earlier one; addresses are aligned down to lines (R208). -/
def lowerFail (old : Option DWord) (va : DWord) : Option DWord :=
  let a := BitVec.ofNat 64 (va.toNat / 128 * 128)
  match old with
  | some x => some (if a.toNat < x.toNat then a else x)
  | none => some a

/-- Poisons both units of lines. -/
def State.poisonLines (s : State) (ls : List Nat) : State :=
  ls.foldl (fun s l => (s.setPoison (s.unitOf (l * 128))).setPoison (s.unitOf (l * 128 + 64))) s

/-- Brings the sectors of a line into an L2 for a merge; whether all came. -/
def State.mergeFill (s : State) (core key line : Nat) : State × Bool :=
  if (s.keyBlocked key).isSome || s.unitPoisoned (line * 128) || s.unitPoisoned (line * 128 + 64) then (s, false)
  else (sectorsOf (line * 128)).foldl (fun r x =>
    match r.1.l2Read core key x 32 with
    | (s, .error _) => (s, false)
    | (s, .ok _) => (s, r.2)) (s, true)

/-- Adds a partial into its element at the slice (R214). -/
def State.mergeInto (s : State) (core key pa : Nat) (w : Word) : State :=
  match s.l2Read core key pa 4 with
  | (s, .error _) => s
  | (s, .ok bs) => (s.l2Write core key pa (leBytes 4 (addF32 (leNat bs) w.toNat))).noteWrites none .phys pa 4

/-- A line is held in an L2 as a tray line, or let go of (R216). -/
def State.holdLine (s : State) (d key line : Nat) (held : Bool) : State :=
  let k := s.tagOf key (128 * line)
  s.modDie d fun x => match x.line k line with
    | some l => x.putLine { l with held := held }
    | none => if held then x.putLine { x.lineD k line with held := true } else x

/-- TRAY_MERGE: the contributions of a word to one line arrive at its slice. -/
def execTrayMerge (id line : Nat) (s : State) : Res :=
  .next <|
    match Table.find? s.eng.tiles id with
    | none => s
    | some o =>
      match o.trays.find? fun p => p.line == line with
      | none => s
      | some p =>
        if s.mergeWaits id o line then s
        else
          let key := (s.tileGrid o).accessKey
          match s.mergeFill o.core key line with
          | (s, false) =>
            let s := s.poisonLines (o.trays.map fun p => p.line)
            let o' := { o with trays := [], failed := lowerFail o.failed (BitVec.ofNat 64 p.va) }
            s.modEng fun e => { e with tiles := Table.set e.tiles id o' }
          | (s, true) =>
            let s := p.partials.foldl (fun s x => s.mergeInto o.core key x.1 x.2) s
            let s := s.holdLine (dieOf o.core) key line true
            let o' := { o with trays := o.trays.filter fun q => !(q == p) }
            s.modEng fun e => { e with tiles := Table.set e.tiles id o' }

/-! ## Completion of TILE and QACC words (10 R207, R208, 11 R225, R230) -/

/-- The full granules that bytes complete. -/
def fullGranules (off n : Nat) : List Nat :=
  (List.range (n / 16 + 1)).filterMap fun i =>
    let g := (off + 15) / 16 + i
    if 16 * (g + 1) ≤ off + n then some g else none

/-- Notes a failure of a word at an address. -/
def TileOp.fail (o : TileOp) (a : DWord) : TileOp := { o with failed := lowerFail o.failed a }

/-- Performs one write of a completed word, at DI; one that is refused fails the word (10 R208). A line TRAYZ writes is held. -/
def State.tileWrite (s : State) (o : TileOp) (w : EngWrite) : State × TileOp :=
  match w.store with
  | .phys =>
    let key := (s.tileGrid o).accessKey
    match s.globalWrite o.core key w.off w.bytes .di with
    | (s, some _) => (s, o.fail (BitVec.ofNat 64 w.va))
    | (s, none) =>
      let s := s.noteWrites none .phys w.off w.bytes.length
      (if o.qacc then s else s.holdLine (dieOf o.core) key (w.off / 128) true, o)
  | st =>
    let s := (s.localWrite st w.off w.bytes).noteWrites none st w.off w.bytes.length
    (if w.fill then (fullGranules w.off w.bytes.length).foldl (fun s g => s.setFull st g true) s else s, o)

/-- Writes of a list or table word at a generic address: whether it was written. -/
def State.listStore (s : State) (o : TileOp) (a : DWord) (bytes : List Byte) : State × Bool :=
  match s.reach o.leader a bytes.length .store with
  | (s, .here st off) =>
    if st.isCounter then (s, false)
    else match st with
      | .phys =>
        match s.globalWrite o.core (s.tileGrid o).accessKey off bytes .di with
        | (s, none) => (s.noteWrites none .phys off bytes.length, true)
        | (s, some _) => (s, false)
      | st => ((s.localWrite st off bytes).noteWrites none st off bytes.length, true)
  | (s, .wait) => (s.notReady, false)
  | (s, _) => (s, false)

/-- The indivisible add to COUNT at the list's home: the old count and CAP (08 R180). -/
def State.listReserve (s : State) (o : TileOp) (a : DWord) (n : Nat) : State × Option (Nat × Nat) :=
  match s.reach o.leader a 8 .atomic with
  | (s, .here st off) =>
    if st.isCounter then (s, none)
    else
      let key := (s.tileGrid o).accessKey
      let r := match st with
        | .phys => s.globalRead o.core key off 8 .pk
        | st => (s, .ok (s.localRead st off 8))
      match r with
      | (s, .error _) => (s, none)
      | (s, .ok bs) =>
        let old := leNat (bs.take 4)
        let new := leBytes 4 (old + n)
        match st with
        | .phys =>
          match s.globalWrite o.core key off new .pk with
          | (s, none) => (s.noteWrites none .phys off 4, some (old, leNat (bs.drop 4)))
          | (s, some _) => (s, none)
        | st => ((s.localWrite st off new).noteWrites none st off 4, some (old, leNat (bs.drop 4)))
  | (s, .wait) => (s.notReady, none)
  | (s, _) => (s, none)

/-- Appends the entries of a conversion (08 R180). -/
def State.listAppend (s : State) (o : TileOp) : State × TileOp :=
  match o.append with
  | none => (s, o)
  | some (a, es) =>
    match s.listReserve o a es.length with
    | (s, none) => (s, o.fail a)
    | (s, some (old, cap)) =>
      es.zipIdx.foldl (fun (r : State × TileOp) (e, i) =>
        if cap ≤ old + i then r
        else
          let at_ := a + BitVec.ofNat 64 (8 + 8 * (old + i))
          match r.1.listStore o at_ (leBytes 4 e.1 ++ leBytes 4 e.2.toNat) with
          | (s, true) => (s, r.2)
          | (s, false) => (s, r.2.fail at_)) (s, o)

/-- The table words of a conversion. -/
def State.tableWrites (s : State) (o : TileOp) : State × TileOp :=
  o.gwrites.foldl (fun (r : State × TileOp) w =>
    match r.1.listStore o w.1 w.2 with
    | (s, true) => (s, r.2)
    | (s, false) => (s, r.2.fail w.1)) (s, o)

/-- The lines of a word that it copies out, read at DI and written to their place with its granules full (R216). -/
def State.copyTray (s : State) (o : TileOp) : State × TileOp :=
  match o.copyOut with
  | none => (s, o)
  | some (ls, st, off) =>
    match s.readPieces o.core (s.tileGrid o).accessKey 128 .di ls with
    | (s, .error va) => (s, o.fail (BitVec.ofNat 64 va))
    | (s, .ok bs) => s.tileWrite o ⟨st, off, bs, true, 0⟩

/-- Lines written back to their home and let go of; a dirty line that its home refuses fails the word (R208, R216). -/
def State.flushTray (s : State) (o : TileOp) : State × TileOp :=
  let key := (s.tileGrid o).accessKey
  let d := dieOf o.core
  o.flush.foldl (fun (r : State × TileOp) l =>
    let k := r.1.tagOf key (128 * l.2)
    let s := r.1.l1WriteBack o.core k l.2
    let dirty : Bool := match (s.die d).line k l.2 with
      | some x => !x.dirty.isEmpty
      | none => false
    let refused := (s.keyBlocked key).isSome || s.pageRetired (l.2 * 128) ||
      ((s.devOff (l.2 * 128)).isNone && s.hostBlocked (l.2 * 128))
    if dirty && refused then (s, r.2.fail (BitVec.ofNat 64 l.1))
    else ((s.l2WriteBack d k l.2).holdLine d key l.2 false, r.2)) (s, o)

/-- The lines of an exposure that did not fail are brought in and held (R216). -/
def State.holdTray (s : State) (o : TileOp) : State × TileOp :=
  if o.failed.isSome then (s, o)
  else
    let key := (s.tileGrid o).accessKey
    o.hold.foldl (fun (r : State × TileOp) l =>
      match r.1.mergeFill o.core key (l.2 / 128) with
      | (s, true) => (s.holdLine (dieOf o.core) key (l.2 / 128) true, r.2)
      | (s, false) => (s, r.2.fail (BitVec.ofNat 64 l.1))) (s, o)

/-- A failed recompaction leaves the accumulator as it was before the word, later words' effects on it gone (11 R230; log 38). -/
def State.undoAcc (s : State) (o : TileOp) : State :=
  match o.failed, o.undo with
  | some _, some (q, a) =>
    s.modPart (s.crew o.crew).team o.core fun p =>
      if h : q < 8 then { p with accs := p.accs.set q a } else p
  | _, _ => s

/-- The cause with which a failed word is reported (10 R208). -/
def TileOp.cause (o : TileOp) : Nat := if o.qacc then Cause.accumulatorFailed else Cause.tileFailed

/-- A failed word is to be reported by every live thread of the crew (10 R208). -/
def State.deferFailure (s : State) (id : Nat) (o : TileOp) : State :=
  match o.failed with
  | none => s
  | some a => s.deferTo o.crew ⟨o.cause, a, id⟩

/-- A word completes: its writes, its appends, its write-backs; its locks are released, and it leaves the tile class. -/
def State.finishTile (s : State) (id : Nat) (o : TileOp) : State :=
  let (s, o) := s.copyTray o
  let (s, o) := o.writes.foldl (fun (r : State × TileOp) w => r.1.tileWrite r.2 w) (s, o)
  let (s, o) := s.tableWrites o
  let (s, o) := s.listAppend o
  let (s, o) := s.flushTray o
  let (s, o) := s.holdTray o
  let s := s.undoAcc o
  let s := s.modCore o.core fun c => { c with locks := c.locks.filter fun l => l.op != id }
  let s := s.modEng fun e => { e with tiles := Table.erase e.tiles id }
  s.deferFailure id o

/-- A generic address leads a word to a range that another word has locked (15 R303). -/
def State.listLocked (s : State) (id : Nat) (o : TileOp) (a : DWord) (n : Nat) : Bool :=
  match (s.reach o.leader a n .store).2 with
  | .here st off => s.cores.any fun e => e.2.locks.any fun l =>
      l.op != id && l.store == st && spansMeet l.spans [(off, n)]
  | _ => false

/-- The entries of an append lie after the ones the list holds. -/
def State.appendAt (s : State) (o : TileOp) (a : DWord) : DWord :=
  match (s.reach o.leader a 8 .load).2 with
  | .here .phys off => match (s.globalRead o.core (s.tileGrid o).accessKey off 4 .pk).2 with
    | .ok bs => a + BitVec.ofNat 64 (8 + 8 * leNat bs)
    | .error _ => a + 8
  | .here st off => a + BitVec.ofNat 64 (8 + 8 * leNat (s.localRead st off 4))
  | _ => a + 8

/-- A word may not complete yet: an earlier word of its core acts first (R207, R216), or a list or a table of it lies in a range
that another word has locked (15 R303). -/
def State.tileWaits (s : State) (id : Nat) (o : TileOp) : Bool :=
  (s.eng.tiles.any fun e => e.2.core == o.core && decide (e.1 < id) && e.2.before o) ||
  (o.gwrites.any fun w => s.listLocked id o w.1 w.2.length) ||
    match o.append with
    | some (a, es) => s.listLocked id o a 8 ||
        (List.range es.length).any fun i => s.listLocked id o (s.appendAt o a + BitVec.ofNat 64 (8 * i)) 8
    | none => false

/-- A word in flight completes once every contribution of it has merged. -/
def State.tileDone (s : State) (id : Nat) (qacc : Bool) : State :=
  match Table.find? s.eng.tiles id with
  | none => s
  | some o => if o.qacc == qacc && o.trays.isEmpty && !s.tileWaits id o then s.finishTile id o else s

/-- TILE_WORD_COMPLETE. -/
def execTileWordComplete (id : Nat) (s : State) : Res := .next (s.tileDone id false)

/-- QACC_WORD_COMPLETE. -/
def execQaccWordComplete (id : Nat) (s : State) : Res := .next (s.tileDone id true)

end Sys2Proof.Machine
end

