-- ==== Sys2Proof/Machine/Fork.lean ====
section
/-! DEFINITION. Forkable calls (06): FCALL, the predictor, the RET that closes a fork, commit and squash, FGATE, FSTAT, FSQ. -/

namespace Sys2Proof.Machine

/-- The resident crew slots of a partition. -/
def State.usedSlots (s : State) (core part : Nat) : List Nat :=
  (s.crews.filter fun e => e.2.resident && e.2.core == core && e.2.part == part).map fun e => e.2.slot

/-- The spare crew slots at a lane of a partition, ascending (06 R142). -/
def State.spares (s : State) (core part lane : Nat) : List Nat :=
  let used := s.usedSlots core part
  (List.range 16).filter fun q => !used.contains q && s.threads.all fun e =>
    match e.2.cont with
    | some k => !(k.slot == q && e.2.lane == lane && (s.crew e.2.crew).core == core && (s.crew e.2.crew).part == part)
    | none => true

/-- The spare slots at a thread's lane. -/
def State.sparesOf (s : State) (t : Nat) : List Nat :=
  let c := s.crewOf t
  s.spares c.core c.part (s.thread t).lane

/-! ## The predictor (06 R144, R145) -/

/-- The index and the tag of an FCALL in the predictor. -/
def predIndex (pc : DWord) : Nat := bitsN pc.toNat 10 2
def predTag (pc : DWord) : Nat := pc.toNat / 2 ^ 11

/-- A new entry: both values zero in every return. -/
def PredEntry.fresh (tag key : Nat) : PredEntry := ⟨tag, key, Vector.replicate 4 0, Vector.replicate 4 0⟩

/-- The entry of an FCALL, replaced on a tag miss. -/
def State.predEntry (s : State) (core key : Nat) (pc : DWord) : PredEntry × State :=
  match Table.find? (s.core core).pred (predIndex pc) with
  | some e =>
    if e.tag == predTag pc && e.key == key then (e, s)
    else
      let n := PredEntry.fresh (predTag pc) key
      (n, s.modCore core fun c => { c with pred := Table.set c.pred (predIndex pc) n })
  | none =>
    let n := PredEntry.fresh (predTag pc) key
    (n, s.modCore core fun c => { c with pred := Table.set c.pred (predIndex pc) n })

/-- The value i of an entry. -/
def entryAt (v : Vector Word 4) (i : Nat) : Word := v.toList.getD i 0

/-- The predictions of a descriptor (06 R144). -/
def predictions (d : ForkDesc) (e : PredEntry) : List (Reg × Word) :=
  d.rets.mapIdx fun i r =>
    (r.1, match r.2.1 with
      | 0 => entryAt e.last i
      | 1 => 2 * entryAt e.last i - entryAt e.prev i
      | _ => r.2.2)

/-- Sets value i. -/
def setAt (v : Vector Word 4) (i : Nat) (w : Word) : Vector Word 4 := Vector.ofFn fun j => if j.val = i then w else v[j]

/-- Trains an entry with the actual returns, in order (06 R145). -/
def trainEntry (th : Thread) (e : PredEntry) : List (Reg × Nat × Word) → Nat → PredEntry
  | [], _ => e
  | (r, m, _) :: l, i =>
    let e' := if m = 2 then e
      else { e with prev := setAt e.prev i (entryAt e.last i), last := setAt e.last i (th.rv r) }
    trainEntry th e' l (i + 1)

/-- The closing RET of a fork trains the predictor, where the entry is still its own (06 R145). -/
def State.train (s : State) (t : Nat) (f : Fork) : State :=
  let core := (s.crewOf t).core
  let g := s.gridOf t
  let d := g.lr.forks.getD f.fd ⟨[]⟩
  match Table.find? (s.core core).pred (predIndex f.pc) with
  | some e =>
    if e.tag == predTag f.pc && e.key == g.key then
      s.modCore core fun c => { c with pred := Table.set c.pred (predIndex f.pc) (trainEntry (s.thread t) e d.rets 0) }
    else s
  | none => s

/-! ## FCALL (06 R141) -/

/-- The continuation of a thread: its state now, going on at an address, the returns predicted. -/
def Thread.continuation (th : Thread) (owner slot : Nat) (ret : DWord) (preds : List (Reg × Word)) : Thread :=
  { th.writeAll preds with
    pc := ret, guard := Guard.none, wait := .ready, wait2 := none, mark := none, waitCnt := 0, starving := false
    alone := false, pass := false, retired := 0, deferred := []
    fork := { th.fork with recs := [] }
    cont := some ⟨owner, slot, 0, [], [], false⟩ }

/-- Opens a fork of a thread whose snapshot is taken in `snap`. -/
def State.openFork (s : State) (snap : Thread) (t slot fd : Nat) (pc ret : DWord) : State :=
  let g := s.gridOf t
  let (e, s) := s.predEntry (s.crewOf t).core g.key pc
  let ps := predictions (g.lr.forks.getD fd ⟨[]⟩) e
  let h := s.handle
  let s := { s with handle := h + 1, threads := Table.set s.threads h (snap.continuation t slot ret ps) }
  let f : Fork := ⟨h, fd, pc, ps, snap.stack.length + snap.spill, s.eng.nextId, [], false⟩
  s.modThread t fun th =>
    { th with fork := { th.fork with recs := f :: th.fork.recs, fdepth := th.fork.fdepth + 1, opened := th.fork.opened + 1 } }

/-- A call that acts as CALL counts in plain: held with a continuation until its commit (06 R141). -/
def Thread.countPlain (th : Thread) : Thread :=
  match th.cont with
  | some c => { th with cont := some { c with plain := c.plain + 1 } }
  | none => { th with fork := { th.fork with plain := th.fork.plain + 1 } }

/-- FCALL in a lane: the snapshot is taken before the push. -/
def fcallLane (fd : Nat) (tg : DWord) (s : State) (t : Nat) : LaneRes :=
  let g := s.gridOf t
  let ret := s.m.cur.after
  if g.lr.forks.length ≤ fd then .early Cause.forkDescriptor 0
  else
    let snap := s.thread t
    match s.push t ret with
    | .overflow => .early Cause.stackOverflow 0
    | .freeze => .freeze
    | .ok s' =>
      if g.replay || snap.isCont || decide (4 ≤ snap.fork.recs.length) then .goto (s'.modThread t Thread.countPlain) tg
      else match s.sparesOf t with
        | [] => .goto (s'.modThread t Thread.countPlain) tg
        | q :: _ => .goto (s'.openFork snap t q fd s.m.cur.pc ret) tg

/-- FCALL (06 R139-R141). -/
def execFcall (ch : Bool) (fd : BitVec 4) (disp : BitVec 21) (s : State) : Res :=
  .next (s.runLanes (.fcall ch fd disp) (fcallLane fd.toNat (target s.m.cur.pc disp)))

/-! ## The closing RET (06 R148, R149) -/

/-- The fork a RET of the thread would close. -/
def Thread.closing (th : Thread) : Option Fork :=
  if th.isCont then none
  else match th.fork.recs with
    | [] => none
    | f :: _ => if th.stack.length + th.spill = f.depth + 1 then some f else none

/-- Every named return holds its prediction. -/
def Fork.holds (f : Fork) (th : Thread) : Bool := f.preds.all fun p => th.rv p.1 == p.2

/-- The buffered stores drain as plain stores of the thread (06 R149). -/
def State.drain (s : State) (t : Nat) : List BufStore → State
  | [] => s
  | b :: l =>
    State.drain ((s.writeAt t b.store b.off b.bytes .cr).1.noteWrites (some t) b.store b.off b.bytes.length) t l

/-- The registers that change in one of the lanes that commit. -/
def State.commitRegs (s : State) (cs : List (Nat × Nat)) (n : Nat) : List Reg :=
  ((List.range n).map (BitVec.ofNat 6)).filter fun r => cs.any fun e => (s.thread e.1).rv r != (s.thread e.2).rv r

/-- One lane takes its continuation's state but for the vector registers; the slot becomes spare. Where the other word of the RET's pair
has trapped, the trap's transfer stands. -/
def State.commitLane (s : State) (t : Nat) (f : Fork) : State :=
  let c := s.thread f.cont
  let k := c.cont.getD ⟨t, 0, 0, [], [], false⟩
  let stays := s.pairTrapped t
  let s := (s.muteFrom t f.born).renameTxns f.cont t
  let s := { s with threads := Table.erase s.threads f.cont }.closeSlots f.cont true
  let s := s.modThread t fun th =>
    { th with pc := if stays then th.pc else c.pc, p := c.p, stack := c.stack, spill := c.spill, prec := c.prec, precNext := c.precNext
              guard := if stays then th.guard else c.guard, fstat := th.fstat ||| c.fstat
              wait := if stays then th.wait else c.wait, wait2 := if stays then th.wait2 else c.wait2
              retired := th.retired + c.retired, alone := if stays then th.alone else c.alone
              fork := { th.fork with recs := th.fork.recs.drop 1, fdepth := c.fork.fdepth, commit := th.fork.commit + 1
                                     plain := th.fork.plain + k.plain } }
  let g := s.gridOf t
  let s := if g.seat == .owner then s.count g.key 0 c.retired.toNat else s
  s.drain t k.buf

/-- The lanes that commit at one RET: their registers form one write (06 R149). -/
def State.commit (s : State) (cs : List (Nat × Fork)) : State :=
  match cs with
  | [] => s
  | (t0, _) :: _ =>
    let regs := s.commitRegs (cs.map fun e => (e.1, e.2.cont)) (s.gridOf t0).lr.regs
    let ws : List LaneWrite := cs.map fun e => ⟨e.1, regs.map fun r => (r, (s.thread e.2.cont).rv r)⟩
    let s := s.writeLanes ws prodG
    cs.foldl (fun s e => s.commitLane e.1 e.2) s

/-- The return of a RET that commits nothing (04 R107, R108); R39 judges an address that came from the spill area. -/
def retPlain (s : State) (t : Nat) : LaneRes :=
  match s.pop t with
  | none => .early Cause.returnUnderflow 0
  | some (a, s') => if a.toNat % 4 ≠ 0 then .early fetchMisaligned a else .goto s' a

/-- A named return of a fork has yet to be written by an earlier word, or by the other word of the RET's pair: the RET waits to be judged
(06 R148, 17 R344). -/
def State.judgeWaits (s : State) (t : Nat) (f : Fork) : Bool := f.preds.any fun p => (s.pending t).contains p.1.toNat

/-- RET in a lane. A lane that commits is left to `commit`. -/
def retLane (s : State) (t : Nat) : LaneRes :=
  let th := s.thread t
  match th.cont with
  | some c =>
    let e := match (s.thread c.owner).fork.recs.find? fun f => f.cont == t with
      | some f => f.depth
      | none => 0
    if th.stack.length + th.spill = e ∨ 0 < th.spill then .freeze else retPlain s t
  | none =>
    match th.closing with
    | none => retPlain s t
    | some f =>
      let s1 := s.train t f
      if s.judgeWaits t f then .block s
      else if f.holds th = false then
        match retPlain s t with
        | .goto _ _ => retPlain (s1.squashInner t .pred) t
        | r => r
      else if f.conflict then
        match retPlain s t with
        | .goto _ _ => retPlain (s1.squashInner t .memory) t
        | r => r
      else .placed s1

/-- The lanes of a RET that commit: judged before any lane acts. -/
def State.committing (s : State) (i : Instr) : List (Nat × Fork) :=
  s.m.cur.lanes.filterMap fun t =>
    match (s.thread t).closing with
    | some f =>
      if f.holds (s.thread t) && !f.conflict && (s.issueCheck i t).isNone && !s.pairWaits t && !s.judgeWaits t f then some (t, f)
      else none
    | none => none

/-- RET (04 R108, 06 R148). -/
def execRet (ch : Bool) (s : State) : Res :=
  let i : Instr := .ret ch
  let cs := s.committing i
  let s' := s.runLanes i retLane
  .next (if s.m.cur.probe then s' else s'.commit cs)

/-! ## FGATE, FSTAT and FSQ (06 R154-R157) -/

/-- FGATE: no effect beyond retiring; a continuation freezes (06 R155). -/
def execCwaitFgate (ch : Bool) (s : State) : Res := .next (s.runLanes (.cwaitFgate ch) fun s _ => .done s)

/-- The value an FSTAT selector names (06 R156). -/
def State.forkStat (s : State) (t : Nat) (sel : ForkSel) : Word :=
  let th := s.thread t
  match sel with
  | .status => BitVec.ofNat 32 (th.fork.fdepth.toNat % 8 + (if th.isCont then 8 else 0) +
      16 * ((s.sparesOf t).length % 16))
  | .opened => th.fork.opened
  | .commit => th.fork.commit
  | .sqpred => th.fork.sqpred
  | .sqmem => th.fork.sqmem
  | .sqother => th.fork.sqother
  | .plain => th.fork.plain

/-- FSTAT (06 R156). -/
def execCwaitFstat (ch : Bool) (d : Reg) (sl : ForkSel) (s : State) : Res :=
  .next (s.runRegs (.cwaitFstat ch d sl) prodG fun s t => .ofRegs (regWrites d (s.forkStat t sl)))

/-- FSQ (06 R157): a continuation squashes its own fork and is gone; any other thread squashes its innermost open fork. -/
def execCwaitFsq (ch : Bool) (s : State) : Res :=
  .next (s.runLanes (.cwaitFsq ch) fun s t =>
    if (s.thread t).isCont then .placed (s.squashCont t .other) else .done (s.squashInner t .other))

end Sys2Proof.Machine
end

