-- ==== Sys2Proof/Machine/Launch.lean ====
section
/-! DEFINITION. Launch records (17 R325-R328): their layout, their checks, how they are read, the acceptance of a grid, and
LAUNCH (04 R113). -/

namespace Sys2Proof.Machine

/-! ## The layout (17 R325, R326) -/

/-- The number in `n` bytes at an offset. -/
def fieldAt (b : List Byte) (o n : Nat) : Nat := leNat ((b.drop o).take n)

/-- Bytes that must be zero are. -/
def zeroAt (b : List Byte) (o n : Nat) : Bool := ((b.drop o).take n).all (· == 0)

/-- Bytes of a header, of a plain and of a sealed body. -/
def headerSize : Nat := 128
def plainSize : Nat := 896
def sealedSize : Nat := 912

/-- A fork descriptor record (03 R89). -/
def forkOf (b : List Byte) : ForkDesc :=
  ⟨(List.range (min 4 (fieldAt b 0 1))).map fun i =>
    (BitVec.ofNat 6 (fieldAt b (1 + i) 1), fieldAt b 5 1 / 4 ^ i % 4, BitVec.ofNat 32 (fieldAt b (8 + 4 * i) 4))⟩

/-- A record of a header and a plain body. -/
def recordFrom (h b : List Byte) : LaunchRec where
  policy := fieldAt h 5 1
  regs := fieldAt h 6 1
  qacc := fieldAt h 7 1
  tx := fieldAt h 8 2
  ty := fieldAt h 10 2
  tz := fieldAt h 12 2
  ncores := fieldAt h 14 1
  scratch := fieldAt h 15 1
  slice := fieldAt h 16 4
  counters := fieldAt h 20 2
  dsunits := fieldAt h 22 1
  gx := fieldAt h 24 4
  gy := fieldAt h 28 4
  gz := fieldAt h 32 4
  feat := BitVec.ofNat 128 (fieldAt h 40 16)
  codebase := BitVec.ofNat 64 (fieldAt b 0 8)
  entry := BitVec.ofNat 64 (fieldAt b 8 8)
  k := Vector.ofFn fun i => BitVec.ofNat 64 (fieldAt b (16 + 8 * i.val) 8)
  slots := Vector.ofFn fun i => BitVec.ofNat 64 (fieldAt b (272 + 8 * i.val) 8)
  barmask := fieldAt b 336 2
  trapen := BitVec.ofNat 5 (fieldAt b 338 1)
  barcnt := (List.range 16).map fun i => fieldAt b (352 + 2 * i) 2
  forks := (List.range (min 16 (fieldAt b 339 1))).map fun i => forkOf ((b.drop (384 + 32 * i)).take 32)

/-- Threads of a team. -/
def LaunchRec.size (l : LaunchRec) : Nat := l.tx * l.ty * l.tz

/-- Crews of a team (01 R12). -/
def LaunchRec.crews (l : LaunchRec) : Nat := (l.size + 31) / 32

/-- Teams of a grid. -/
def LaunchRec.teams (l : LaunchRec) : Nat := l.gx * l.gy * l.gz

/-- How a record reaches the fixer (17 R326, R328). -/
inductive Route where
  | queue (key : Nat)
  | place
  /-- LAUNCH by a leader: its context and seat. -/
  | launch (key : Nat) (seat : Seat)
  deriving DecidableEq, Repr

/-! ## The checks (17 R327) -/

/-- The seat a record names. -/
def seatOf (h : List Byte) : Option Seat :=
  match fieldAt h 4 1 with
  | 0 => some .operator
  | 1 => some .owner
  | 2 => some .auditor
  | _ => none

def ctxKey (h : List Byte) : Nat := fieldAt h 2 2 % 2048
def ctxAud (h : List Byte) : Nat := fieldAt h 2 2 / 2048 % 4

/-- The body is plain: a record of LAUNCH, or one whose seat is operator (17 R326). -/
def plainBody (rt : Route) (h : List Byte) : Bool :=
  match rt with
  | .launch _ _ => true
  | _ => seatOf h == some .operator

/-- Check 12 on a header: BODYSZ is `size`, and the nonce is zero where `zeroNonce` says so. -/
def headerBad (h : List Byte) (size : Nat) (zeroNonce : Bool) : Bool :=
  fieldAt h 0 2 != 1 || (seatOf h).isNone || decide (1 < fieldAt h 5 1) || decide (32 < fieldAt h 22 1) ||
  fieldAt h 56 4 != size || (zeroNonce && !zeroAt h 64 12) || decide (2 ^ 13 ≤ fieldAt h 2 2) ||
  !zeroAt h 23 1 || !zeroAt h 36 4 || !zeroAt h 60 4 || !zeroAt h 76 52

/-- A fork descriptor fails (06 R140). -/
def forkBad (b : List Byte) (regs : Nat) : Bool :=
  let n := fieldAt b 0 1
  let rs := (List.range n).map fun i => fieldAt b (1 + i) 1
  n == 0 || decide (4 < n) || rs.any (fun r => r == 0 || decide (regs ≤ r)) || rs.eraseDups.length != rs.length ||
    (List.range n).any fun i => fieldAt b 5 1 / 4 ^ i % 4 == 3

/-- Check 1: the fork descriptors. -/
def forksBad (b : List Byte) (regs : Nat) : Bool :=
  let n := fieldAt b 339 1
  decide (16 < n) || (List.range 16).any fun i =>
    let r := (b.drop (384 + 32 * i)).take 32
    if i < n then forkBad r regs else !zeroAt r 0 32

/-- The zero fields of a fork descriptor record are zero: bytes 6, 7 and 24 to 31, the registers beyond COUNT, and the constants of
returns whose mode is not constant (03 R89). -/
def forkZero (b : List Byte) : Bool :=
  zeroAt b 6 2 && zeroAt b 24 8 && (List.range 4).all fun i =>
    (decide (i < fieldAt b 0 1) || zeroAt b (1 + i) 1) && (fieldAt b 5 1 / 4 ^ i % 4 == 2 || zeroAt b (8 + 4 * i) 4)

/-- Check 12 on a plain body: its zero fields are zero. -/
def bodyZero (b : List Byte) : Bool :=
  zeroAt b 340 12 && (List.range (min 16 (fieldAt b 339 1))).all fun i => forkZero ((b.drop (384 + 32 * i)).take 32)

/-- A format slot fails (08 R174). -/
def slotBad (x : Nat) : Bool :=
  let fmt := bitsN x 3 0
  let ssrc := bitsN x 9 8
  let clip := bitsN x 47 32
  let oe := bitsN x 25 25
  if bitsN x 63 63 = 0 then x != 0
  else decide (8 ≤ fmt) || ssrc == 3 || bitsN x 62 48 != 0 || bitsN x 31 26 != 0 || bitsN x 14 10 != 0 || bitsN x 5 4 != 0 ||
    (oe == 0 && bitsN x 24 20 != 0) || (ssrc == 0 && bitsN x 19 15 != 0) ||
    (clip != 0 && !(decide (0x0400 ≤ clip) && decide (clip ≤ 0x3C00))) || (clip == 0 && fmt == 7) ||
    (decide (fmt ≤ 2) && (clip != 0 || ssrc != 0 || oe != 0))

/-- Check 9: the barriers. -/
def barriersBad (l : LaunchRec) : Bool :=
  (List.range 16).any fun i =>
    let n := l.barcnt.getD i 0
    if l.barmask.testBit i then n == 0 || decide (l.size < n) else n != 0

/-- Check 11: the seat, the context and the route (17 R326, R328). -/
def State.seatBad (s : State) (rt : Route) (h : List Byte) : Bool :=
  let key := ctxKey h
  let aud := ctxAud h
  match rt, seatOf h with
  | .launch k st, some .owner => !(key == k && st == .owner && key != 0 && aud == 0)
  | .launch _ _, _ => true
  | .queue b, some .operator => !(b == 0 && key == 0 && aud == 0)
  | .place, some .operator => !(key == 0 && aud == 0)
  | .queue b, some .owner => !(b == key && key != 0 && aud == 0)
  | .place, some .owner => !(key != 0 && aud == 0)
  | rt, some .auditor =>
    let named : Bool := match s.ctx? key with
      | some c => c.audkeys.getD aud 0 != 0
      | none => false
    let route : Bool := match rt with
      | .queue b => b == 0
      | _ => true
    !(named && route)
  | _, none => true

/-- A core that can be chosen (26 R438, R439). -/
def State.coreReady (s : State) (c : Nat) : Bool := (s.core c).ready && s.fnReady (8 + dieOf c)

/-- The ready cores of a cluster. -/
def State.readyCores (s : State) (cl : Nat) : List Nat := (List.range 8).map (8 * cl + ·) |>.filter s.coreReady

/-- The clusters a 24-bit mask allows. -/
def clustersOf (m : Nat) : List Nat := (List.range 24).filter m.testBit

/-- The first check that fails, as its launch rejection. -/
def firstBad : List (Bool × Nat) → Option Nat
  | [] => none
  | (b, r) :: l => if b then some (Cause.launch r) else firstBad l

/-- Checks 0 to 11 and 13, in order, on a record whose header and seal have passed. -/
def State.recordBad (s : State) (rt : Route) (clusters : List Nat) (h b : List Byte) : Option Nat :=
  let l := recordFrom h b
  firstBad [
    (l.codebase.toNat % 12288 != 0 || !(canonical l.codebase) || l.entry.toNat % 12 != 0, 0),
    (forksBad b l.regs, 1),
    (l.slots.toList.any fun x => slotBad x.toNat, 2),
    (l.size == 0 || l.teams == 0 || decide (24576 < l.size) || decide (3072 * l.ncores < l.size) || l.ncores == 0 ||
      decide (8 < l.ncores) || decide (l.crews < l.ncores) || decide (2 ^ 32 ≤ l.teams), 3),
    (!(decide (16 ≤ l.regs) && decide (l.regs ≤ 64) && l.regs % 8 == 0), 4),
    (decide (36 < l.scratch), 5),
    (decide (65536 < l.slice) || l.slice % 256 != 0, 6),
    (decide (8 < l.qacc), 7),
    (decide (4096 < l.counters), 8),
    (barriersBad l, 9),
    (!(l.feat.getLsbD 0) || (l.feat &&& ~~~s.ctl.neg) != 0, 10),
    (s.seatBad rt h, 11),
    (!(clusters.any fun c => decide (l.ncores ≤ (s.readyCores c).length)), 13)]

/-- The record key of a context (24 R405). -/
def recKey : SealId → BitVec 256
  | .operator boot => Config.hkdf (Config.bootDraw boot) "ublen-rec"
  | .owner _ cs => Config.hkdf cs "ublen-rec"

/-- A record that has passed every check. -/
structure Checked where
  lr   : LaunchRec
  key  : Nat
  seat : Seat
  aud  : Nat

/-- Checks a record: the header, the seal, the rest (17 R327); a tag that fails raises an alarm (24 R414), and a quarantined
context refuses (24 R415). -/
def State.checkRecord (s : State) (rt : Route) (clusters : List Nat) (h body : List Byte) : State × Except Nat Checked :=
  let plain := plainBody rt h
  let key := ctxKey h
  if headerBad h (if plain then plainSize else sealedSize) plain then (s, .error (Cause.launch 12))
  else if plain && !bodyZero body then (s, .error (Cause.launch 12))
  else match s.ctx? key with
    | none => (s, .error (Cause.launch 14))
    | some c =>
      if c.quarantined then (s, .error Cause.quarantined)
      else
        let b? := if plain then some body else
          Config.gcmOpen (recKey c.sealed) (BitVec.ofNat 96 (fieldAt h 64 12)) h (body.take plainSize) (body.drop plainSize)
        match b? with
        | none => (s.alarm (some key), .error (Cause.launch 14))
        | some b =>
          if !plain && !bodyZero b then (s, .error (Cause.launch 12))
          else match s.recordBad rt clusters h b with
            | some e => (s, .error e)
            | none => (s, .ok ⟨recordFrom h b, key, (seatOf h).getD .owner, ctxAud h⟩)

/-! ## Acceptance -/

/-- Accepts a grid (17 R331): its handle. -/
def State.acceptGrid (s : State) (c : Checked) (nest : Nat) (parent : Option (Nat × Nat)) (queue seq : Nat) (replay : Bool)
    (clusters : List Nat) : State × Nat :=
  let h := s.handle
  let id := s.fixer.nextGridId
  let g : Grid :=
    { id := BitVec.ofNat 32 id, key := c.key, seat := c.seat, aud := c.aud, lr := c.lr, nest := nest, parent := parent
      queue := queue, seq := seq, replay := replay, clusters := clusters, counters := none, nextTeam := 0, status := .live
      armed := none, met := false, haltSeen := false, waiting := [], dies := [], begun := false }
  ({ s with handle := h + 1, grids := Table.set s.grids h g, fixer := { s.fixer with nextGridId := id + 1 } }, h)

/-- Reads a record for the fixer under a key (17 R324, 14 R272): the header and the body, or the cause of the read. -/
def State.fixerReads (s : State) (key : Nat) (a : DWord) : State × Except Nat (List Byte × List Byte) :=
  if canonical a = false then (s, .error (Why.cause .load .nonCanonical))
  else if a.toNat % 64 ≠ 0 then (s, .error (Why.cause .load .misaligned))
  else match s.deviceRead key a.toNat 3 headerSize with
    | (s, .error w) => (s, .error (w.cause .load))
    | (s, .ok h) =>
      let n := if fieldAt h 56 4 = sealedSize then sealedSize else plainSize
      match s.deviceRead key (a.toNat + headerSize) 16 n with
      | (s, .error w) => (s, .error (w.cause .load))
      | (s, .ok b) => (s, .ok (h, b))

/-! ## LAUNCH (04 R113) -/

/-- What the read of a child's record gives. -/
inductive RecRead where
  | ok (s : State) (bytes : List Byte)
  | res (r : LaneRes)

/-- Reads units of a record for a leader: an acquire at PK from its address. -/
def State.launchRead (s : State) (t : Nat) (a : DWord) : Nat → RecRead
  | 0 => .ok s []
  | n + 1 =>
    match s.reach t a 64 .load with
    | (_, .bad w) => .res (.early (w.cause .load) a)
    | (s, .wait) => .res (.block s)
    | (s, .unmapped w) => .res (s.pageFail t a .load w)
    | (s, .here st off) =>
      if st.isCounter then .res (.early (Why.cause .load .counterAccess) a)
      else if s.lockedAt st off 64 then .res (s.lockTrap .load a)
      else if st == .phys && !s.homeReady off then .res (.block s)
      else match (s.promoteFor t st off .pk).readAt t st off 64 .pk with
        | (s, .error w) => .res (.late s (w.cause .load) a)
        | (s, .ok bs) => match State.launchRead s t (a + 64) n with
          | .ok s r => .ok s (bs ++ r)
          | x => x

/-- LAUNCH in a lane: its effect and its result. -/
def launchLane (d a : Reg) (s : State) (t : Nat) : LaneRes × List (Reg × Word) :=
  let g := s.gridOf t
  let tm := (s.crewOf t).team
  let addr := (s.src t).rx a
  if (s.thread t).index ≠ 0 then (.early Cause.launchLeader 0, [])
  else if 10 ≤ g.nest then (.early Cause.nestingDepth 0, [])
  else match s.place t (s.crewOf t).core addr (headerSize + plainSize) 64 with
    | .error w => (.early (w.cause .load) addr, [])
    | .ok _ =>
      match s.launchRead t addr 16 with
      | .res r => (r, [])
      | .ok s bs =>
        let s := s.acquire (s.crewOf t).core .pk
        match s.checkRecord (.launch g.key g.seat) g.clusters (bs.take headerSize) (bs.drop headerSize) with
        | (s, .error c) => (.late s c 0, [])
        | (s, .ok c) =>
          let (s, h) := s.acceptGrid c (g.nest + 1) (some (tm, (s.team tm).grid)) g.queue g.seq false g.clusters
          (.done (s.release (s.crewOf t).core .pk), regWrites d (s.grid h).id)

/-- Runs a word over its lanes in ascending order, each lane's effect first and the register results of all lanes as one write
tagged G (14 R261). -/
def State.runWrites (s : State) (i : Instr) (f : State → Nat → LaneRes × List (Reg × Word)) : State :=
  let r := s.m.cur.lanes.foldl (fun (x : State × List LaneWrite) t =>
    let ok := (x.1.issueCheck i t).isNone && !((x.1.thread t).isCont && i.freezes) && !(x.1.pairWaits t && waitsBehind i)
    (x.1.runLane i (fun s t => (f s t).1) t, if ok then x.2 ++ [⟨t, (f x.1 t).2⟩] else x.2)) (s, [])
  if s.m.cur.probe then r.1
  else r.1.writeLanes (r.2.filter fun w => !w.regs.isEmpty) prodG

/-- LAUNCH.GRID. -/
def execLaunchGrid (ch : Bool) (d a : Reg) (s : State) : Res :=
  .next (s.runWrites (.launchGrid ch d a) (launchLane d a))

end Sys2Proof.Machine
end

