-- ==== Sys2Proof/Machine/Xfer.lean ====
section
/-! DEFINITION. The XFER words (13 R239-R257) and the engines behind them: copies and their sectors, transfers and their
packets, remote atomics, arrival counters. -/

namespace Sys2Proof.Machine

/-- A fault at issue: cause and VAL. -/
abbrev XFault := Nat × DWord

/-! ## Checks at issue (13 R242) -/

/-- An address range that a word names. -/
structure XRange where
  addr  : DWord
  size  : Nat
  align : Nat
  kind  : Kind
  wins  : List (Option Nat)

/-- Step 2: checks 1 to 4 of R25 on the ranges, in order. -/
def State.xPlaces (s : State) (t : Nat) (rs : List XRange) : Option XFault :=
  rs.findSome? fun r => match s.place t (s.crewOf t).core r.addr r.size r.align with
    | .error w => some (w.cause r.kind, r.addr)
    | .ok _ => none

/-- Step 3: a range in a window the word does not accept. -/
def xWindows (rs : List XRange) : Option XFault :=
  (rs.find? fun r => !r.wins.contains (windowOf r.addr)).map fun r => (Cause.transferWindow, r.addr)

/-- Steps 2 and 3. -/
def State.xChecks (s : State) (t : Nat) (rs : List XRange) : Option XFault := (s.xPlaces t rs).or (xWindows rs)

/-- Windows of copies and of transfer sources. -/
def copyWindows : List (Option Nat) := [none, some 1, some 2, some 3]

/-- A pair of a quad operand: its low or its high pair. -/
def quadPair (th : Thread) (r : Reg) (high : Bool) : DWord :=
  let q := th.ry r
  if high then (q.getD 3 0) ++ (q.getD 2 0) else (q.getD 1 0) ++ (q.getD 0 0)

/-- Word `i` of a quad operand. -/
def quadWord (th : Thread) (r : Reg) (i : Nat) : Word := (th.ry r).getD i 0

/-- The ranges of the rows of a copy. -/
def rowRanges (base : DWord) (w rows stride : Nat) (k : Kind) (wins : List (Option Nat)) : List XRange :=
  (List.range rows).map fun r => ⟨base + BitVec.ofNat 64 (r * stride), w, 16, k, wins⟩

/-- A copy class at its limit stalls the next word of the class (05 R132). -/
def State.copyFull (s : State) (t : Nat) : Bool := decide (255 ≤ s.copyCount (s.thread t).crew)

/-! ## Starting a copy (13 R244, R245) -/

/-- A copy as it issues. -/
def State.newCopy (s : State) (i : Instr) (t : Nat) (d : Reg) (src dst : DWord) (w rows ss ds : Nat)
    (halo : Option (Nat × Nat)) : CopyOp where
  instr := i
  core := (s.crewOf t).core
  crew := (s.thread t).crew
  key := (s.gridOf t).accessKey
  one := none
  dreg := d
  src := src
  dst := dst
  width := w
  rows := rows
  sstr := ss
  dstr := ds
  halo := halo
  accepted := false
  done := []
  started := 0
  resume := 0
  failed := none
  pending := none
  stalled := []

/-- Puts a copy into flight. -/
def State.startCopy (s : State) (o : CopyOp) : State :=
  let (id, s) := s.newId
  s.modEng fun e => { e with copies := Table.set e.copies id o }

/-- COPY, once for the crew (13 R244). -/
def copyCrew (i : Instr) (d a b : Reg) (s : State) (t : Nat) : CrewRes :=
  let th := s.src t
  let len := (th.rv b).toNat
  let src := quadPair th a false
  let dst := quadPair th a true
  if len % 16 ≠ 0 ∨ len < 16 ∨ 2 ^ 30 < len then .early Cause.copyGeometry 0
  else match s.xChecks t [⟨src, len, 16, .load, copyWindows⟩, ⟨dst, len, 16, .store, copyWindows⟩] with
    | some e => .early e.1 e.2
    | none =>
      if s.copyFull t then .early holdCode 0
      else .done (s.startCopy (s.newCopy i t d src dst len 1 0 0 none))

/-- The geometry of COPY2D and HALO: W, ROWS, BAR, SSTR, DSTR (13 R244). -/
structure CopyGeom where
  w    : Nat
  rows : Nat
  bar  : Nat
  sstr : Nat
  dstr : Nat

def copyGeom (th : Thread) (b : Reg) : CopyGeom :=
  ⟨(quadWord th b 0).toNat, bitsN (quadWord th b 1).toNat 16 0, bitsN (quadWord th b 1).toNat 27 24,
    (quadWord th b 2).toNat, (quadWord th b 3).toNat⟩

/-- The geometry is within its limits. -/
def copyGeomOk (th : Thread) (b : Reg) (halo : Bool) : Bool :=
  let g := copyGeom th b
  let r1 := (quadWord th b 1).toNat
  g.w % 16 == 0 && decide (16 ≤ g.w) && decide (g.w ≤ 2 ^ 20) && decide (1 ≤ g.rows) && decide (g.rows ≤ 65536) &&
    decide (g.w * g.rows ≤ 2 ^ 30) && bitsN r1 31 28 == 0 && bitsN r1 23 17 == 0 && (halo || g.bar == 0) &&
    g.sstr % 16 == 0 && g.dstr % 16 == 0

/-- COPY2D, once for the crew (13 R244). -/
def copy2dCrew (i : Instr) (d a b : Reg) (s : State) (t : Nat) : CrewRes :=
  let th := s.src t
  let g := copyGeom th b
  let src := quadPair th a false
  let dst := quadPair th a true
  if copyGeomOk th b false = false then .early Cause.copyGeometry 0
  else match s.xChecks t (rowRanges src g.w g.rows g.sstr .load copyWindows ++
      rowRanges dst g.w g.rows g.dstr .store copyWindows) with
    | some e => .early e.1 e.2
    | none =>
      if s.copyFull t then .early holdCode 0
      else .done (s.startCopy (s.newCopy i t d src dst g.w g.rows g.sstr g.dstr none))

/-- A HALO source row lies within the share of one core of the team (13 R245). -/
def State.inShare (s : State) (t : Nat) (r : XRange) : Bool :=
  match windowOf r.addr, s.place t (s.crewOf t).core r.addr r.size 16 with
  | some 2, .ok _ => true
  | _, _ => false

/-- HALO, once for the crew (13 R245): the address of its source is checked at step 2 and every source row at step 4. -/
def haloCrew (i : Instr) (d a b : Reg) (s : State) (t : Nat) : CrewRes :=
  let th := s.src t
  let g := copyGeom th b
  let src := quadPair th a false
  let dst := quadPair th a true
  if copyGeomOk th b true = false then .early Cause.copyGeometry 0
  else match s.xChecks t (⟨src, 1, 16, .load, [some 2]⟩ ::
      rowRanges dst g.w g.rows g.dstr .store [some 1, some 2]) with
    | some e => .early e.1 e.2
    | none =>
      match (rowRanges src g.w g.rows g.sstr .load [some 2]).find? fun r => !s.inShare t r with
      | some r => .early Cause.haloShare r.addr
      | none =>
        if s.copyFull t then .early holdCode 0
        else
          let n := ((s.teamOf t).bars[g.bar % 16]'(Nat.mod_lt _ (by decide))).done
          .done (s.startCopy (s.newCopy i t d src dst g.w g.rows g.sstr g.dstr (some (g.bar, n))))

/-! ## Starting a transfer (13 R250) -/

/-- The operands of a transfer are within their limits. -/
def xferGeomOk (th : Thread) (a b : Reg) (mc : Bool) : Bool :=
  let off := (quadWord th a 2).toNat
  let len := (quadWord th a 3).toNat
  let sel := (quadWord th b 0).toNat
  len % 16 == 0 && decide (16 ≤ len) && decide (len ≤ 2 ^ 30) && off % 16 == 0 && decide (off + len ≤ 2 ^ 32) &&
    bitsN sel 30 21 == 0 && bitsN sel 15 10 == 0 && (!mc || bitsN sel 9 8 == 0) &&
    (!(sel.testBit 31) || (quadWord th b 1).toNat % 8 == 0)

/-- A transfer as it issues. -/
def State.newXfer (s : State) (t : Nat) (one mc : Bool) (d a b : Reg) (xid : Nat) (peers : List Nat) : XferOp :=
  let th := s.src t
  { mc := mc
    xid := xid
    core := (s.crewOf t).core
    crew := (s.thread t).crew
    key := (s.gridOf t).key
    one := if one then some t else none
    dreg := d
    accepted := false
    src := quadPair th a false
    off := (quadWord th a 2).toNat
    len := (quadWord th a 3).toNat
    sel := quadWord th b 0
    foff := (quadWord th b 1).toNat
    fval := if mc then 1 else quadPair th b true
    list := if mc then quadPair th b true else 0
    members := peers.map fun p => ⟨p, 0, none⟩
    started := s.cycle
    sent := 0
    srcFail := none
    acks := []
    pending := none
    flying := [] }

/-- BXFER: the checks and the start (13 R250). -/
def State.bxfer (s : State) (t : Nat) (one : Bool) (d a b : Reg) : Except XFault State :=
  let th := s.src t
  if xferGeomOk th a b false = false then .error (Cause.copyGeometry, 0)
  else match s.xChecks t [⟨quadPair th a false, (quadWord th a 3).toNat, 16, .load, copyWindows⟩] with
    | some e => .error e
    | none =>
      if s.copyFull t then .error (holdCode, 0)
      else
        let (xid, s) := s.newXid
        let (id, s) := s.newId
        let o := s.newXfer t one false d a b xid [bitsN (quadWord th b 0).toNat 9 0]
        .ok (s.modEng fun e => { e with xfers := Table.set e.xfers id o })

/-- BXMC: the checks, the group as it stands, its negative list, and the start (13 R242, R253). -/
def State.bxmc (s : State) (t : Nat) (one : Bool) (d a b : Reg) : Except XFault State :=
  let th := s.src t
  if xferGeomOk th a b true = false then .error (Cause.copyGeometry, 0)
  else match s.xChecks t [⟨quadPair th a false, (quadWord th a 3).toNat, 16, .load, copyWindows⟩] with
    | some e => .error e
    | none =>
      match Table.find? s.fab.groups (bitsN (quadWord th b 0).toNat 7 0) with
      | none => .error (Cause.groupDenied, 0)
      | some g =>
        if g.key ≠ (s.gridOf t).key then .error (Cause.groupDenied, 0)
        else match s.xChecks t [⟨quadPair th b true, 4 * g.members.length, 4, .store, [none, some 1]⟩] with
          | some e => .error e
          | none =>
            if s.copyFull t then .error (holdCode, 0)
            else
              let (xid, s) := s.newXid
              let (id, s) := s.newId
              let o := s.newXfer t one true d a b xid g.members
              .ok (s.modEng fun e => { e with xfers := Table.set e.xfers id o })

/-- A fault of a once-acting word, or what it does. -/
def onceCrew : Except XFault State → CrewRes
  | .error e => .early e.1 e.2
  | .ok s => .done s

/-- A fault of a `.ONE` word in its thread, or what it does. -/
def onceLane : Except XFault State → LaneRes
  | .error e => .early e.1 e.2
  | .ok s => .done s

/-! ## Counters (13 R254, R255) -/

/-- The counter an address names, for ARMC and ACWAIT: the grid and the index, or the fault. -/
def State.counterAt (s : State) (t : Nat) (a : DWord) (k : Kind) : Except XFault (Nat × Nat) :=
  match s.place t (s.crewOf t).core a 8 8 with
  | .error w => .error (w.cause k, a)
  | .ok (.here (.counters g) off) => .ok (g, off / 8)
  | .ok _ => .error (Cause.transferWindow, a)

/-- ARMC, once for the crew. -/
def armcCrew (z : Bool) (a b : Reg) (s : State) (t : Nat) : CrewRes :=
  let th := s.src t
  match s.counterAt t (th.rx a) .store with
  | .error e => .early e.1 e.2
  | .ok (g, i) =>
    let c := s.counter g i
    .done (s.setCounter g i ⟨if z then 0 else c.value, th.rx b⟩)

/-- The value ACWAIT takes, where its counter is reached, or where a change has released it; the address is that of the crew's lowest
live lane. -/
def State.acwaitValue (s : State) (t : Nat) (a : Reg) : Except XFault (Option DWord) :=
  match s.counterAt t ((s.src t).rx a) .load with
  | .error e => .error e
  | .ok (g, i) => .ok ((Table.find? s.eng.woken t).or (let c := s.counter g i; if c.reached then some c.value else none))

/-- The release of an ACWAIT in lanes: the value, and an acquire at SY. -/
def State.acwaitRelease (s : State) (lanes : List Nat) (d : Reg) (v : DWord) : State :=
  let s := s.modEng fun e => { e with woken := e.woken.filter fun w => !lanes.contains w.1 }
  let s := s.writeLanes (lanes.map fun t => ⟨t, pairWrites d v⟩) prodG
  match lanes with
  | t :: _ => s.acquire (s.crewOf t).core .sy
  | [] => s

/-! ## Remote atomics (13 R256) -/

/-- The lanes of a RATOM. -/
def State.ratomLanes (s : State) (ts : List Nat) (ap : BitVec 5) (d : Reg) (o : AtomOp) : List RatomLane :=
  ts.map fun t =>
    let th := s.src t
    let x := (th.rx (pairOf ap)).toNat
    ⟨t, th.lane, 0, bitsN x 9 0, 0, bitsN x 20 16, x / 2 ^ 32, BitVec.ofNat 64 (atomOperand th o.is64 d), none⟩

/-- The selector of a RATOM lane is within its layout: F and the zero fields are zero. -/
def ratomSelOk (th : Thread) (ap : BitVec 5) : Bool :=
  let x := (th.rx (pairOf ap)).toNat
  bitsN x 31 21 == 0 && bitsN x 15 10 == 0

/-- RATOM, once for the crew with every live lane's registers. -/
def ratomCrew (d : Reg) (ap : BitVec 5) (o : AtomOp) (s : State) (t : Nat) : CrewRes :=
  let ts := s.m.cur.lanes
  if ts.any fun q => !ratomSelOk (s.src q) ap then .early Cause.copyGeometry 0
  else if s.copyFull t then .early holdCode 0
  else
    let (id, s) := s.newId
    let op : RatomOp := ⟨(s.crewOf t).core, (s.thread t).crew, (s.gridOf t).key, o, d, s.m.cur.pc, s.m.cur.after, false,
      s.cycle, s.ratomLanes ts ap d o⟩
    .done (s.modEng fun e => { e with ratoms := Table.set e.ratoms id op })

/-! ## The meanings of the words -/

/-- XFER.COPY. -/
def execXferCopy (ch : Bool) (d a b : Reg) (s : State) : Res :=
  let i := Instr.xferCopy ch d a b
  .next (s.runCrew i (copyCrew i d a b))

/-- XFER.COPY2D. -/
def execXferCopy2d (ch : Bool) (d a b : Reg) (s : State) : Res :=
  let i := Instr.xferCopy2d ch d a b
  .next (s.runCrew i (copy2dCrew i d a b))

/-- XFER.HALO. -/
def execXferHalo (ch : Bool) (d a b : Reg) (s : State) : Res :=
  let i := Instr.xferHalo ch d a b
  .next (s.runCrew i (haloCrew i d a b))

/-- XFER.BXFER. -/
def execXferBxfer (ch : Bool) (d a b : Reg) (s : State) : Res :=
  .next (s.runCrew (.xferBxfer ch d a b) fun s t => onceCrew (s.bxfer t false d a b))

/-- XFER.BXFER.ONE. -/
def execXferBxferOne (ch : Bool) (d a b : Reg) (s : State) : Res :=
  .next (s.runLanes (.xferBxferOne ch d a b) fun s t => onceLane (s.bxfer t true d a b))

/-- XFER.BXMC. -/
def execXferBxmc (ch : Bool) (d a b : Reg) (s : State) : Res :=
  .next (s.runCrew (.xferBxmc ch d a b) fun s t => onceCrew (s.bxmc t false d a b))

/-- XFER.BXMC.ONE. -/
def execXferBxmcOne (ch : Bool) (d a b : Reg) (s : State) : Res :=
  .next (s.runLanes (.xferBxmcOne ch d a b) fun s t => onceLane (s.bxmc t true d a b))

/-- XFER.RATOM. -/
def execXferRatom (ch : Bool) (d : Reg) (ap : BitVec 5) (o : AtomOp) (s : State) : Res :=
  .next (s.runCrew (.xferRatom ch d ap o) (ratomCrew d ap o))

/-- XFER.ARMC. -/
def execXferArmc (ch : Bool) (a b : Reg) (s : State) : Res :=
  .next (s.runCrew (.xferArmc ch a b) (armcCrew false a b))

/-- XFER.ARMC.Z. -/
def execXferArmcZ (ch : Bool) (a b : Reg) (s : State) : Res :=
  .next (s.runCrew (.xferArmcZ ch a b) (armcCrew true a b))

/-- XFER.ACWAIT: released at once where the counter is reached; else every thread of the crew leaves the ready set. -/
def execXferAcwait (ch : Bool) (d a : Reg) (s : State) : Res :=
  let i := Instr.xferAcwait ch d a
  match s.m.cur.lanes with
  | [] => .next s
  | t :: _ =>
    if s.stops i t then .next (s.runLanes i fun s _ => .done s)
    else match s.acwaitValue t a with
      | .error e => .next (s.runLanes i fun _ _ => .early e.1 e.2)
      | .ok none => .next (s.runLanes i fun s _ => .block s)
      | .ok (some v) =>
        if s.m.cur.probe then .next s
        else .next ((s.acwaitRelease s.m.cur.lanes d v).runLanes i fun s _ => .done s)

/-! ## Engines: addresses -/

/-- The thread whose windows an engine item uses. -/
def State.opThread (s : State) (crew : Nat) (one : Option Nat) : Nat :=
  match one with
  | some t => t
  | none => (s.crew crew).threads.headD 0

/-- The threads that take the result of an item: those that are still live (13 R241). -/
def State.opTakers (s : State) (crew : Nat) (one : Option Nat) : List Nat :=
  match one with
  | some t => if (s.thread t).live then [t] else []
  | none => s.liveOf crew

/-- Reaches an address for an engine. -/
def State.engReach (s : State) (t core key : Nat) (a : DWord) (n : Nat) (k : Kind) : State × Except Why (Store × Nat) :=
  match s.place t core a n n with
  | .error w => (s, .error w)
  | .ok (.here st off) => (s, .ok (s.storeAt st off))
  | .ok (.global va) =>
    match s.translate core key va k with
    | (s, .error w) => (s, .error w)
    | (s, .ok pa) => (s, .ok (.phys, pa))

/-- An engine's translation failure: a record it waits on, or the final cause. -/
def State.engFault (s : State) (t key engId : Nat) (a : DWord) (k : Kind) (w : Why) :
    State × Except Nat (Nat × Nat × DWord) :=
  match pageReasonOf w with
  | none => (s, .error (w.cause k))
  | some r =>
    match s.postPage key (a.toNat % 2 ^ 57 / 4096) r k.code true (s.gridOf t).queue engId (s.gridOf t).seq s.cycle with
    | (s, none) => (s, .error (w.cause k))
    | (s, some id) => (s, .ok (id, w.cause k, a))

/-- Reads 16 bytes for an engine. -/
def State.engRead (s : State) (core key : Nat) (st : Store) (off n : Nat) : State × Except Why (List Byte) :=
  match st with
  | .phys => s.globalRead core key off n .di
  | st => (s, .ok (s.localRead st off n))

/-- Writes bytes for an engine: performed at a scope in global memory; `fill` sets the full-empty bit of the granule (01 R26). -/
def State.engWrite (s : State) (core key : Nat) (st : Store) (off : Nat) (bytes : List Byte) (fill : Bool)
    (sc : Scope) : State × Option Why :=
  match st with
  | .phys =>
    match s.globalWrite core key off bytes sc with
    | (s, none) => (s.noteWrites none st off bytes.length, none)
    | r => r
  | st =>
    let s := (s.localWrite st off bytes).noteWrites none st off bytes.length
    (if fill then s.setFull st (off / 16) true else s, none)

/-! ## Copies in flight (13 R246) -/

/-- The source and destination addresses of the granules of a sector. -/
def CopyOp.granules (o : CopyOp) (k : Nat) : List (DWord × DWord) :=
  let n := (min (512 * k + 512) o.len - 512 * k) / 16
  (List.range n).map fun i =>
    let j := 512 * k + 16 * i
    let r := j / o.width
    let c := j % o.width
    (o.src + BitVec.ofNat 64 (r * o.sstr + c), o.dst + BitVec.ofNat 64 (r * o.dstr + c))

/-- A granule with its places and its bytes. -/
structure CopyGran where
  dst   : Store × Nat
  bytes : List Byte

/-- What the read half of a sector finds. -/
inductive SectorRes where
  | ok (s : State) (g : List CopyGran)
  /-- A lock or a home that is not ready holds it. -/
  | held
  | failed (s : State) (cause : Nat)
  | waits (s : State) (p : Nat × Nat × DWord)

/-- Reads the granules of a sector, with every translation of it. -/
def State.sectorRead (s : State) (o : CopyOp) (t : Nat) : List (DWord × DWord) → SectorRes
  | [] => .ok s []
  | (sa, da) :: r =>
    let bad (s : State) (a : DWord) (k : Kind) (w : Why) : SectorRes :=
      match s.engFault t o.key (copyEngine o.core) a k w with
      | (s, .error c) => .failed s c
      | (s, .ok p) => .waits s p
    match s.engReach t o.core o.key sa 16 .load with
    | (s, .error w) => bad s sa .load w
    | (s, .ok (st, off)) =>
      match s.engReach t o.core o.key da 16 .store with
      | (s, .error w) => bad s da .store w
      | (s, .ok (dt, doff)) =>
        if s.lockedAt st off 16 || s.lockedAt dt doff 16 || (st == .phys && !s.homeReady off) ||
            (dt == .phys && !s.homeReady doff) then .held
        else match s.engRead o.core o.key st off 16 with
          | (s, .error w) => .failed s (w.cause .load)
          | (s, .ok bs) =>
            match State.sectorRead s o t r with
            | .ok s l => .ok s (⟨(dt, doff), bs⟩ :: l)
            | x => x

/-- Granules of global memory that follow one another in a sealing unit are one write (16 R316, R318). -/
def joinGrans : List CopyGran → List CopyGran
  | [] => []
  | g :: r =>
    match joinGrans r with
    | h :: q =>
      if g.dst.1 = .phys ∧ h.dst.1 = .phys ∧ h.dst.2 = g.dst.2 + 16 ∧ g.dst.2 / 64 = h.dst.2 / 64 then
        ⟨g.dst, g.bytes ++ h.bytes⟩ :: q
      else g :: h :: q
    | [] => [g]

/-- Writes the granules of a sector, all or none: each write is checked before the first is performed. -/
def State.sectorWrite (s : State) (o : CopyOp) (g : List CopyGran) : State × Option Why :=
  let ws := joinGrans g
  let c := ws.foldl (fun (x : State × Option Why) p =>
    match x.2, p.dst.1 with
    | none, .phys => ((x.1.pushHome o.core o.key p.dst.2).invalidateOthers (dieOf o.core) (p.dst.2 / 128)).homeCheck o.key
        p.dst.2 p.bytes.length
    | _, _ => x) (s, none)
  match c with
  | (s, some w) => (s, some w)
  | (s, none) => (ws.foldl (fun s p => (s.engWrite o.core o.key p.dst.1 p.dst.2 p.bytes true .pk).1) s, none)

/-- Changes a copy. -/
def State.setCopy (s : State) (id : Nat) (o : CopyOp) : State :=
  s.modEng fun e => { e with copies := Table.set e.copies id o }

/-- A copy has its result: every sector below the failed one, or every sector, is complete. -/
def CopyOp.ended (o : CopyOp) : Bool :=
  let n := match o.failed with
    | some (k, _) => k
    | none => o.sectors
  (List.range n).all fun k => decide (k < o.resume) || o.done.contains k

/-- The status word of a copy (13 R243, R246). -/
def CopyOp.status (o : CopyOp) : DWord :=
  let (rsec, cause, bytes) := match o.failed with
    | some (k, c) => (k, c, 512 * k)
    | none => (o.sectors, 0, o.len)
  BitVec.ofNat 64 (rsec * 2 ^ 42 + cause * 2 ^ 32 + bytes)

/-- Writes the status word and ends the copy; the crew acquires what it wrote (13 R247). -/
def State.finishCopy (s : State) (id : Nat) (o : CopyOp) : State :=
  let s := s.modEng fun e => { e with copies := Table.erase e.copies id }
  let s := s.lateWrites id ((s.opTakers o.crew o.one).map fun t => ⟨t, pairWrites o.dreg o.status⟩)
  s.acquire o.core .pk

/-- Ends a copy that has its result. -/
def State.checkCopy (s : State) (id : Nat) : State :=
  match Table.find? s.eng.copies id with
  | some o => if o.ended then s.finishCopy id o else s
  | none => s

/-- A copy may read its source: the barrier phase a HALO recorded has completed (13 R245). -/
def State.haloReady (s : State) (o : CopyOp) : Bool :=
  match o.halo with
  | some (b, n) => decide (n < (((s.team (s.crew o.crew).team).bars)[b % 16]'(Nat.mod_lt _ (by decide))).done)
  | none => true

/-- A copy is stopped with its team: no sector starts (13 R257). -/
def State.copyStopped (s : State) (o : CopyOp) : Bool :=
  let tm := s.team (s.crew o.crew).team
  decide (tm.status ≠ .resident) || decide ((s.grid tm.grid).status ≠ .live)

/-- The kind of access a class 2 cause names. -/
def kindOf (cause : Nat) : Kind :=
  match cause / 16 % 4 with
  | 0 => .load
  | 1 => .store
  | 2 => .atomic
  | _ => .fetch

/-- The lowest sector of a copy that is not complete and reads or writes an address. -/
def CopyOp.sectorAt (o : CopyOp) (a : DWord) : Nat :=
  ((List.range o.sectors).find? fun k =>
    decide (o.resume ≤ k) && !o.done.contains k && (o.granules k).any fun g => g.1 == a || g.2 == a).getD o.sectors

/-- A sector fails: the lowest failed one counts (13 R246). -/
def CopyOp.fail (o : CopyOp) (k cause : Nat) : CopyOp :=
  match o.failed with
  | some (f, _) => if f ≤ k then o else { o with failed := some (k, cause) }
  | none => { o with failed := some (k, cause) }

/-- The pending fault of a copy is answered: its sectors run again. -/
def CopyOp.goOn (o : CopyOp) : CopyOp := { o with pending := none, stalled := [] }

/-- The pending fault of a copy that was stopped is posted again, and no sector starts until it is answered (20 R376). -/
def State.copyRepost (s : State) (id : Nat) (o : CopyOp) (cause : Nat) (a : DWord) : State :=
  if o.accepted = false ∨ s.copyStopped o then s
  else
    let w := if cause % 16 = 4 then Why.pageAbsent else .pagePermission
    match s.engFault (s.opThread o.crew o.one) o.key (copyEngine o.core) a (kindOf cause) w with
    | (s, .ok p) => s.setCopy id { o with pending := some p, stalled := List.range o.sectors }
    | (s, .error c) => (s.setCopy id (o.goOn.fail (o.sectorAt a) c)).checkCopy id

/-- Sector `k` of a copy is performed, fails, waits on a record, or stays as it is (13 R246). While a fault is pending the sectors that
do not stall go on, in a stopped copy those that have started; a further one that stalls waits for the pending answer too (20 R376). -/
def State.copySector (s : State) (id k : Nat) : State :=
  match Table.find? s.eng.copies id with
  | none => s
  | some o =>
    let above : Bool := match o.failed with
      | some (f, _) => decide (f ≤ k)
      | none => false
    let reposts : Option (Nat × DWord) := match o.pending with
      | some (p, c, a) => if p = noPage ∧ s.copyStopped o = false then some (c, a) else none
      | none => none
    match reposts with
    | some (c, a) => s.copyRepost id o c a
    | none =>
    if o.accepted = false ∨ o.sectors ≤ k ∨ k < o.resume ∨ o.done.contains k ∨ above ∨ o.stalled.contains k ∨
        s.haloReady o = false ∨ (o.started ≤ k ∧ s.copyStopped o) then s
    else
      let t := s.opThread o.crew o.one
      match s.sectorRead o t (o.granules k) with
      | .held => s
      | .failed s' c => (s'.setCopy id { o.fail k c with started := max o.started (k + 1) }).checkCopy id
      | .waits s' p =>
        if o.pending.isSome then
          s.setCopy id { o with stalled := insertNat o.stalled k, started := max o.started (k + 1) }
        else s'.setCopy id { o with pending := some p, stalled := insertNat o.stalled k, started := max o.started (k + 1) }
      | .ok s' g =>
        match s'.sectorWrite o g with
        | (s', some w) =>
          (s'.setCopy id { o.fail k (w.cause .store) with started := max o.started (k + 1) }).checkCopy id
        | (s', none) =>
          let n := min (512 * k + 512) o.len - 512 * k
          let s' := s'.count (s'.gridOf t).key 0x19 n
          (s'.setCopy id { o with done := insertNat o.done k, started := max o.started (k + 1) }).checkCopy id

/-! ## Transfers in flight (13 R251-R253) -/

/-- Packets of a transfer. -/
def XferOp.packets (o : XferOp) : Nat := (o.len + 255) / 256

/-- Bytes of packet `j`. -/
def XferOp.size (o : XferOp) (j : Nat) : Nat := min 256 (o.len - 256 * j)

/-- Changes a transfer. -/
def State.setXfer (s : State) (id : Nat) (o : XferOp) : State :=
  s.modEng fun e => { e with xfers := Table.set e.xfers id o }

/-- The negative members, ascending, with their causes. -/
def XferOp.negatives (o : XferOp) : List (Nat × Nat) :=
  o.members.filterMap fun m => match m.reply with
    | some (false, c, _) => some (m.peer, c)
    | _ => none

/-- Bytes sent. -/
def XferOp.sentBytes (o : XferOp) : Nat := min (256 * o.sent) o.len

/-- Bytes of a transfer that a member has written, as its completions tell (13 R252). -/
def XferOp.ackedBy (o : XferOp) (peer : Nat) : Nat :=
  o.acks.foldl (fun n a => if a.1 == peer && a.2.2 then n + o.size (a.2.1 / 256) else n) 0

/-- The status word of a transfer (13 R243, R252, R253). A BXFER whose source had failed and whose target has reset is negative with
peer-reset (22 R389). -/
def XferOp.status (o : XferOp) (lfail : Bool) : DWord :=
  let neg := o.negatives
  let pos := (o.members.filter fun m => match m.reply with
    | some (true, _, _) => true
    | _ => false).length
  let written := match o.members with
    | [m] => match m.reply with
      | some (_, _, b) => b
      | none => 0
    | _ => 0
  let reset := !o.mc && neg.any fun m => m.2 == Cause.peerReset
  match o.srcFail, reset with
  | some c, false =>
    BitVec.ofNat 64 (c * 2 ^ 32 + (if o.mc then o.sentBytes else ((o.members.map Member.peer).map o.ackedBy).foldl (· + ·) 0))
  | _, _ =>
    BitVec.ofNat 64 (pos * 2 ^ 53 + neg.length * 2 ^ 42 + (if lfail then 2 ^ 41 else 0) +
      (match neg with
        | (_, c) :: _ => c * 2 ^ 32
        | [] => 0) + (if o.mc then (if o.members.isEmpty then 0 else o.sentBytes) else written))

/-- Writes the negative list (13 R253), in global memory at DI (23 R402): whether an entry could not be written; none where a lock or a
home that is not ready holds the write. -/
def State.writeList (s : State) (o : XferOp) (t : Nat) : List (Nat × (Nat × Nat)) → Option (State × Bool)
  | [] => some (s, false)
  | (i, (peer, cause)) :: r =>
    let a := o.list + BitVec.ofNat 64 (4 * i)
    let e := leBytes 4 (peer + cause * 2 ^ 16)
    match s.engReach t o.core (s.gridOf t).accessKey a 4 .store with
    | (s, .error _) => (State.writeList s o t r).map fun x => (x.1, true)
    | (s, .ok (st, off)) =>
      if s.lockedAt st off 4 || (st == .phys && !s.homeReady off) then none
      else match s.engWrite o.core (s.gridOf t).accessKey st off e false .di with
        | (s, some _) => (State.writeList s o t r).map fun x => (x.1, true)
        | (s, none) => State.writeList s o t r

/-- A transfer has its outcome: every member has replied or failed, or, after a source failure, every packet sent to a member
that has not failed has its write completion. -/
def XferOp.ended (o : XferOp) : Bool :=
  match o.srcFail with
  | some _ => (o.members.filter fun m => m.reply.isNone).all fun m =>
      decide (o.sent ≤ (o.acks.filter fun a => a.1 == m.peer).length)
  | none => o.members.all fun m => m.reply.isSome

/-- Ends a transfer that has its outcome: the list, then the status word (13 R253, R258). -/
def State.checkXfer (s : State) (id : Nat) : State :=
  match Table.find? s.eng.xfers id with
  | none => s
  | some o =>
    if o.accepted = false ∨ o.ended = false then s
    else
      let t := s.opThread o.crew o.one
      let list := if o.mc ∧ o.srcFail.isNone then o.negatives.zipIdx.map fun (e, i) => (i, e) else []
      match s.writeList o t list with
      | none => s
      | some (s, lf) =>
        let s := s.modEng fun e => { e with xfers := Table.erase e.xfers id }
        let s := s.lateWrites id ((s.opTakers o.crew o.one).map fun t => ⟨t, pairWrites o.dreg (o.status lf)⟩)
        s.acquire o.core .pk

/-- The last packet of a transfer with F = 1. -/
def XferOp.flagged (o : XferOp) (j : Nat) : Bool := o.sel.getLsbD 31 && decide (j + 1 = o.packets)

/-- Packet `j` of a transfer for a member; the last one carries the flag (13 R250), and is a flag write then (22 R387; log 15). -/
def State.packetFor (s : State) (o : XferOp) (m : Member) (j : Nat) (data : List Byte) : FabricPacket where
  kind := if o.flagged j then 1 else 0
  sinc := s.ownInc
  dinc := m.inc
  src := s.fab.peerId
  dom := (s.domainOf o.key).getD 0
  map := bitsN o.sel.toNat 20 16
  xid := o.xid
  base := o.off
  off := 256 * j
  npkts := o.packets
  data := data
  hasFlag := o.flagged j
  flagOff := o.foff
  flag := o.fval

/-- Records a member's outcome; its packets are resent no more. -/
def XferOp.setReply (o : XferOp) (peer : Nat) (r : Bool × Nat × Nat) : XferOp :=
  { o with members := o.members.map fun m => if m.peer = peer ∧ m.reply.isNone then { m with reply := some r } else m
           flying := o.flying.filter fun f => f.1 != peer }

/-- What can be sent no more is negative at once, with the bytes its target has written (22 R385, R386, R392). -/
def State.sendable (s : State) (o : XferOp) : XferOp :=
  o.members.foldl (fun (o : XferOp) m => match m.reply, s.sendBlocked o.key m.peer with
    | none, some c => o.setReply m.peer (false, c, o.ackedBy m.peer)
    | _, _ => o) o

/-- What the source of a packet gives. -/
inductive PacketRes where
  | ok (s : State) (bytes : List Byte)
  | held
  | failed (s : State) (cause : Nat)
  | waits (s : State) (p : Nat × Nat × DWord)

/-- Reads the source bytes of a packet, 16 at a time. -/
def State.packetRead (s : State) (o : XferOp) (t : Nat) : Nat → DWord → PacketRes
  | 0, _ => .ok s []
  | n + 1, a =>
    let key := (s.gridOf t).accessKey
    match s.engReach t o.core key a 16 .load with
    | (s, .error w) =>
      match s.engFault t key (fabricEngine (dieOf o.core / 4)) a .load w with
      | (s, .error c) => .failed s c
      | (s, .ok p) => .waits s p
    | (s, .ok (st, off)) =>
      if s.lockedAt st off 16 || (st == .phys && !s.homeReady off) then .held
      else match s.engRead o.core key st off 16 with
        | (s, .error w) => .failed s (w.cause .load)
        | (s, .ok bs) => match State.packetRead s o t n (a + 16) with
          | .ok s l => .ok s (bs ++ l)
          | x => x

/-- Sends the packets of a transfer in ascending order, as far as its source can be read; the fuel is the number of packets. -/
def State.pumpXfer (s : State) (id : Nat) : Nat → State
  | 0 => s.checkXfer id
  | n + 1 =>
    match Table.find? s.eng.xfers id with
    | none => s
    | some q =>
      let o := if q.accepted = false ∨ q.packets ≤ q.sent then q else s.sendable q
      if o.accepted = false ∨ o.pending.isSome ∨ o.srcFail.isSome ∨ o.packets ≤ o.sent ∨
          (o.members.all fun m => m.reply.isSome) then (s.setXfer id o).checkXfer id
      else
        let t := s.opThread o.crew o.one
        match s.packetRead o t (o.size o.sent / 16) (o.src + BitVec.ofNat 64 (256 * o.sent)) with
        | .held => s
        | .failed s c => (s.setXfer id { o with srcFail := some c }).checkXfer id
        | .waits s p => s.setXfer id { o with pending := some p }
        | .ok s bs =>
          let ps := (o.members.filter fun m => m.reply.isNone).map fun m => (m.peer, s.packetFor o m o.sent bs)
          let flying := ps.filterMap fun p => if p.1 = s.fab.peerId then none
            else (s.stationFor (o.xid + o.sent)).map fun st => (p.1, st, p.2)
          let s := ps.foldl (fun s p => s.sendPacket p.1 o.sent p.2) s
          let s := s.count o.key 0x16 bs.length
          State.pumpXfer (s.setXfer id { o with sent := o.sent + 1, flying := o.flying ++ flying }) id n

/-- An engine accepts a transfer: it records each member's incarnation, and what cannot be sent is negative at once. The reply bound
runs from here (log 71). -/
def State.acceptXfer (s : State) (id : Nat) (o : XferOp) : State :=
  let ms := o.members.map fun m =>
    { m with inc := s.incOf m.peer, reply := (s.sendBlocked o.key m.peer).map fun c => (false, c, 0) }
  (s.setXfer id { o with accepted := true, members := ms, started := s.cycle }).pumpXfer id (o.packets + 1)

/-! ## Remote atomics in flight -/

/-- Changes a RATOM. -/
def State.setRatom (s : State) (id : Nat) (o : RatomOp) : State :=
  s.modEng fun e => { e with ratoms := Table.set e.ratoms id o }

/-- After every lane has replied, each failed lane traps (13 R256, 14 R268); where its thread has halted meanwhile, it writes its record
(20 R359). -/
def State.checkRatom (s : State) (id : Nat) : State :=
  match Table.find? s.eng.ratoms id with
  | none => s
  | some o =>
    if o.accepted && o.lanes.all fun l => l.reply.isSome then
      let muted := s.eng.muted
      let s := s.modEng fun e => { e with ratoms := Table.erase e.ratoms id, muted := e.muted.filter fun m => m.1 != id }
      o.lanes.foldl (fun s l =>
        match l.reply with
        | some c =>
          if c = 0 ∨ muted.contains (id, l.thread) ∨ (s.thread l.thread).live = false then s
          else if (s.thread l.thread).halted then
            s.deliver l.thread { s.recordOf l.thread with cause := c, halted := true, pc := o.pc }
          else s.trap l.thread c 0 o.pc o.after false false
        | none => s) s
    else s

/-- A lane's reply: its result is written as it returns. -/
def State.ratomReplied (s : State) (id lane cause : Nat) (v : DWord) : State :=
  match Table.find? s.eng.ratoms id with
  | none => s
  | some o =>
    match o.lanes.find? fun l => l.lane == lane && l.reply.isNone with
    | none => s
    | some l =>
      let s := s.setRatom id { o with lanes := o.lanes.map fun x =>
        if x.lane = lane then { x with reply := some cause } else x }
      let regs := if o.op.is64 then pairWrites o.dreg v else regWrites o.dreg (v.setWidth 32)
      let s := if cause = 0 ∧ (s.thread l.thread).live ∧ ¬ s.eng.muted.contains (id, l.thread) then
          s.writeLanes (s.withConts id [⟨l.thread, regs⟩]) prodG
        else s
      s.checkRatom id

/-- The hub accepts a RATOM: each lane's atomic is sent, or is negative at once. -/
def State.acceptRatom (s : State) (id : Nat) (o : RatomOp) : State :=
  let s := s.setRatom id { o with accepted := true, started := s.cycle }
  let s := o.lanes.foldl (fun s l =>
    let (xid, s) := s.newXid
    let blocked := s.sendBlocked o.key l.peer
    let s := match Table.find? s.eng.ratoms id with
      | some q => s.setRatom id { q with lanes := q.lanes.map fun x =>
          if x.lane = l.lane then { x with xid := xid, inc := s.incOf l.peer, reply := blocked } else x }
      | none => s
    if blocked.isSome then s
    else s.sendAtomic l.peer ⟨s.ownInc, s.incOf l.peer, s.fab.peerId, (s.domainOf o.key).getD 0, l.map, xid, l.off, o.op,
      l.operand⟩) s
  s.checkRatom id

/-! ## Replies (13 R252, 22 R389, R390) -/

/-- A completion of the incarnation that this package and the sender have now; any other is stale (22 R388, R390). -/
def State.fresh (s : State) (tag : FabricTag) : Bool :=
  tag.incs.dinc == s.ownInc && tag.incs.sinc == s.incOf tag.src

/-- A reply to a transfer. -/
def State.xferReplied (s : State) (tag : FabricTag) (pos : Bool) (cause bytes : Nat) : State :=
  if s.fresh tag = false then s.staleReq
  else match List.find? (fun e => e.2.xid == tag.req.xid && e.2.accepted && e.2.srcFail.isNone &&
      e.2.members.any fun m => m.peer == tag.src && m.reply.isNone && m.inc == tag.incs.sinc) s.eng.xfers with
    | some (id, o) => (s.setXfer id (o.setReply tag.src (pos, if pos then 0 else cause, bytes))).checkXfer id
    | none => s

/-- A packet's write completion, the flag's packet as any other. -/
def State.xferAcked (s : State) (tag : FabricTag) (off : Nat) (ok : Bool) : State :=
  let peer := tag.src
  if s.fresh tag = false then s.staleReq
  else match List.find? (fun e => e.2.xid == tag.req.xid && e.2.accepted && e.2.members.any fun m => m.peer == peer) s.eng.xfers with
  | some (id, o) =>
    if o.acks.any fun a => a.1 == peer && a.2.1 == off then s
    else (s.setXfer id { o with acks := o.acks ++ [(peer, off, ok)]
                                flying := o.flying.filter fun f => !(f.1 == peer && f.2.2.off == off) }).checkXfer id
  | none => s

/-- A remote atomic is answered. -/
def State.atomAnswered (s : State) (tag : FabricTag) (pos : Bool) (cause : Nat) (v : DWord) : State :=
  if s.fresh tag = false then s.staleReq
  else match s.eng.ratoms.findSome? fun e => (e.2.lanes.find? fun l =>
      l.xid == tag.req.xid && l.peer == tag.src && l.inc == tag.incs.sinc && l.reply.isNone).map fun l => (e.1, l.lane) with
    | some (id, lane) => s.ratomReplied id lane (if pos then 0 else cause) v
    | none => s

/-- The reply bound has passed since a cycle (13 R252, 22 R392). -/
def State.boundPassed (s : State) (started : Nat) : Bool := decide (started + s.fab.freply.toNat * 1024 ≤ s.cycle)

/-- A target passes the reply bound (13 R252). -/
def State.replyLate (s : State) (xid peer : Nat) : State :=
  match List.find? (fun e => e.2.xid == xid && e.2.accepted && s.boundPassed e.2.started &&
      e.2.members.any fun m => m.peer == peer && m.reply.isNone) s.eng.xfers with
  | some (id, o) => (s.setXfer id (o.setReply peer (false, Cause.replyTimeout, o.ackedBy peer))).checkXfer id
  | none =>
    match s.eng.ratoms.findSome? fun e => if e.2.accepted && s.boundPassed e.2.started then
        (e.2.lanes.find? fun l => l.xid == xid && l.peer == peer && l.reply.isNone).map fun l => (e.1, l.lane)
      else none with
    | some (id, lane) => s.ratomReplied id lane Cause.replyTimeout 0
    | none => s

/-- An incarnation announcement (22 R389): the new number is recorded, and every request outstanding to the old one completes
with peer-reset. -/
def State.announced (s : State) (src sinc : Nat) : State :=
  if s.fab.en = false then s
  else if s.fab.peerv.contains src = false then s.dropReq
  else
    let old := s.incOf src
    let s := s.modFab fun f => { f with incs := Table.set f.incs src (sinc % 256) }
    if old = sinc % 256 then s
    else
      let s := s.eng.xfers.foldl (fun s e =>
        if e.2.accepted ∧ e.2.members.any fun m => m.peer == src && m.reply.isNone && m.inc == old then
          (s.setXfer e.1 (e.2.setReply src (false, Cause.peerReset, 0))).checkXfer e.1
        else s) s
      s.eng.ratoms.foldl (fun s e => e.2.lanes.foldl (fun s l =>
        if e.2.accepted ∧ l.peer = src ∧ l.reply.isNone ∧ l.inc = old then s.ratomReplied e.1 l.lane Cause.peerReset 0
        else s) s) s

/-! ## The meanings of the engine events -/

/-- An earlier RATOM of a thread of this one to the same target address has not been answered: they are applied in issue order
(13 R256, R258). -/
def State.ratomWaits (s : State) (id : Nat) (o : RatomOp) : Bool :=
  s.eng.ratoms.any fun e => decide (e.1 < id) && e.2.lanes.any fun l => l.reply.isNone && o.lanes.any fun m =>
    m.thread == l.thread && m.peer == l.peer && m.map == l.map && m.off == l.off

/-- XFER_COMMAND_ACCEPT (05 R133). -/
def execXferCommandAccept (id : Nat) (s : State) : Res :=
  .next <|
    match Table.find? s.eng.copies id with
    | some o => if o.accepted then s else s.setCopy id { o with accepted := true }
    | none =>
      match Table.find? s.eng.xfers id with
      | some o => if o.accepted then s else s.acceptXfer id o
      | none =>
        match Table.find? s.eng.ratoms id with
        | some o => if o.accepted || s.ratomWaits id o then s else s.acceptRatom id o
        | none => s

/-- COPY_SECTOR_COMPLETE (13 R246). -/
def execCopySectorComplete (id k : Nat) (s : State) : Res := .next (s.copySector id k)

/-- TRANSFER_PACKET_ARRIVAL (13 R251). -/
def execTransferPacketArrival (p : FabricPacket) (s : State) : Res := .next (s.packetArrives p)

/-- TRANSFER_REPLY (13 R252). -/
def execTransferReply (req : FabricReq) (src : Nat) (incs : FabricIncs) (positive : Bool) (cause bytes : Nat) (s : State) : Res :=
  .next (s.xferReplied ⟨req, src, incs⟩ positive cause bytes)

/-- PACKET_WRITE_COMPLETION (13 R252). -/
def execPacketWriteCompletion (tag : FabricTag) (_flagWrite : Bool) (off : Nat) (written : Bool) (s : State) : Res :=
  .next (s.xferAcked tag off written)

/-- REPLY_BOUND_EXPIRE (13 R252). -/
def execReplyBoundExpire (xid peer : Nat) (s : State) : Res := .next (s.replyLate xid peer)

/-- REMOTE_ATOMIC_ARRIVAL (13 R256). -/
def execRemoteAtomicArrival (a : FabricAtomic) (s : State) : Res := .next (s.atomicArrives a)

/-- RATOM_REPLY (13 R256). -/
def execRatomReply (tag : FabricTag) (positive : Bool) (cause : Nat) (v : DWord) (s : State) : Res :=
  .next (s.atomAnswered tag positive cause v)

/-- INCARNATION_ANNOUNCEMENT (22 R389). -/
def execIncarnationAnnouncement (src sinc : Nat) (s : State) : Res := .next (s.announced src sinc)

/-- Every request outstanding to some peers fails with reply-timeout (22 R385, R392). -/
def State.endOutstanding (s : State) (who : Nat → Bool) : State :=
  let s := s.eng.xfers.foldl (fun s e =>
    if e.2.accepted then
      let o := e.2.members.foldl (fun (o : XferOp) m =>
        if who m.peer then o.setReply m.peer (false, Cause.replyTimeout, o.ackedBy m.peer) else o) e.2
      (s.setXfer e.1 o).checkXfer e.1
    else s) s
  s.eng.ratoms.foldl (fun s e => e.2.lanes.foldl (fun s l =>
    if e.2.accepted ∧ who l.peer ∧ l.reply.isNone then s.ratomReplied e.1 l.lane Cause.replyTimeout 0
    else s) s) s

/-- A write of FABCTL EN (22 R389, R392). -/
def State.fabctl (s : State) (en : Bool) : State := if en then s.setFabEn true else (s.setFabEn false).endOutstanding fun _ => true

/-- The packets of a transfer that a station carried go to the next one that is up (22 R385). -/
def State.resendXfer (s : State) (station id : Nat) (o : XferOp) : State :=
  let moved := o.flying.map fun f => if f.2.1 = station then
      (f.1, (s.stationFor (o.xid + f.2.2.off / 256)).getD station, f.2.2) else f
  if moved = o.flying then s
  else
    let s := ((o.flying.zip moved).filter fun x => x.1 != x.2).foldl (fun s x => s.emit (.packet x.2.1 x.2.2.1 (packetTag x.2.2.2) x.2.2.2)) s
    s.setXfer id { o with flying := moved }

/-- A station goes down: its unacknowledged packets are resent on the next one that is up; with no station up, every request
outstanding to another peer fails with reply-timeout (22 R385). -/
def State.stationDown (s : State) (station : Nat) : State :=
  if s.fab.up.contains station = false then s
  else
    let s := s.modFab fun f => { f with up := f.up.filter (· != station) }
    if s.fab.up = [] then s.endOutstanding fun p => p != s.fab.peerId
    else s.eng.xfers.foldl (fun s e => s.resendXfer station e.1 e.2) s

/-- UALINK_FLIT_RECEIVE (22 R384): a failed tag is resent by the link; the third in a window takes the station down, an alarm of level 1
without a context (24 R414). A flit
whose request is of another kind is dropped and counted. -/
def execUalinkFlitReceive (station : Nat) (tagOk kindOk : Bool) (s : State) : Res :=
  .next <|
    if s.fab.up.contains station = false then s
    else if tagOk then
      let s := s.modFab fun f => { f with fails := Table.erase f.fails station }
      if kindOk then s else s.dropReq
    else
      let n := Table.getD s.fab.fails station 0 + 1
      if 3 ≤ n then
        ((s.modFab fun f => { f with fails := Table.erase f.fails station, downs := f.downs + 1 }).stationDown station).alarm none
      else s.modFab fun f => { f with fails := Table.set f.fails station n }

/-- STATION_UP_OR_DOWN (22 R385): one that is not ready stays down (26 R439). -/
def execStationUpOrDown (station : Nat) (up : Bool) (s : State) : Res :=
  .next <|
    if 48 ≤ station then s
    else if up then
      if s.awake && s.fnReady (16 + station / 4) then s.modFab fun f => { f with up := insertNat f.up station } else s
    else s.stationDown station

/-- FABRIC_ENABLE (22 R389). -/
def execFabricEnable (s : State) : Res := .next (s.hostWrites .fabricEnable fun s => s.setFabEn true)

/-- DOMAIN_TABLE_WRITE (22 R386). -/
def execDomainTableWrite (k : Nat) (v : Word) (s : State) : Res :=
  .next (s.hostWrites (.domainTableWrite k v) fun s => s.setDomain k v)

end Sys2Proof.Machine
end

