-- ==== Sys2Proof/Machine/Place.lean ====
section
/-! DEFINITION. Placement and residency (17 R329-R334): the resources of a team, the choice of waiting work, residency, its
release, and the retirement of grids. -/

namespace Sys2Proof.Machine

/-! ## Resources (17 R329) -/

/-- Accumulators of a core that teams hold. -/
def State.accsUsed (s : State) (core : Nat) : Nat :=
  (s.teamsOn core).foldl (fun n t => n + (s.grid t.grid).lr.qacc) 0

/-- The core's plate is held. -/
def State.plateUsed (s : State) (core : Nat) : Bool := (s.teamsOn core).any fun t => (s.grid t.grid).lr.feat.getLsbD 3

/-- The resident crews of a partition. -/
def State.crewCount (s : State) (core part : Nat) : Nat := (s.usedSlots core part).length

/-- Crew slots of a core that are free. -/
def State.slotsFree (s : State) (core : Nat) : Nat :=
  96 - (List.range 6).foldl (fun n p => n + s.crewCount core p) 0

/-- Crews of a team that go to the i-th of its cores (17 R330). -/
def crewsAt (crews ncores i : Nat) : Nat := ((List.range crews).filter fun j => j % ncores == i).length

/-- Die-scratchpad units of a die that are held, and those a context holds. -/
def State.unitsUsed (s : State) (die : Nat) : List Nat := (s.die die).scratch.flatMap fun e => e.2.units
def State.unitsOf (s : State) (die key : Nat) : Nat := (Table.getD (s.die die).scratch key ⟨[], [], []⟩).units.length

/-- The die can raise the context's allocation to a number of units (16 R310). -/
def State.unitsFit (s : State) (die key n : Nat) : Bool :=
  decide ((s.unitsUsed die).length + (n - s.unitsOf die key) ≤ 32)

/-- Arrival counters that are allocated, of the pool of 65,536. -/
def State.countersUsed (s : State) : Nat :=
  s.grids.foldl (fun n e => if e.2.counters.isSome then n + e.2.lr.counters else n) 0

/-- One core has the resources for the i-th share of a team. -/
def State.coreFits (s : State) (g : Grid) (comps : Table Comparator) (core i : Nat) : Bool :=
  decide (crewsAt g.lr.crews g.lr.ncores i ≤ s.slotsFree core) && decide (s.blocksUsed core + g.lr.scratch ≤ 36) &&
  decide (s.accsUsed core + g.lr.qacc ≤ 8) && !(g.lr.feat.getLsbD 3 && s.plateUsed core) &&
  (comps.all fun e => match Table.find? (s.core core).comps e.1 with
    | some c => c.key == g.key
    | none => true) &&
  (!g.replay || (s.teamsOn core).isEmpty)

/-- The cores of a cluster, ascending, have the resources for a team of a grid. -/
def State.teamFits (s : State) (g : Grid) (comps : Table Comparator) (cluster : Nat) (cores : List Nat) : Bool :=
  cores.length == g.lr.ncores && cores == (cores.foldl insertNat []) &&
  (cores.all fun c => clusterOf c == cluster && s.coreReady c) &&
  (cores.zipIdx.all fun (c, i) => s.coreFits g comps c i) && s.unitsFit (cluster / 3) g.key g.lr.dsunits &&
  (g.counters.isSome || decide (s.countersUsed + g.lr.counters ≤ 65536))

/-- The sublists of a length, in order. -/
def choose : Nat → List Nat → List (List Nat)
  | 0, _ => [[]]
  | _ + 1, [] => []
  | n + 1, a :: r => (choose n r).map (a :: ·) ++ choose (n + 1) r

/-! ## Waiting work (17 R331, R437) -/

/-- A team that waits for residency: its grid, its index, and the saved team it is. -/
structure Work where
  grid  : Nat
  index : Nat
  saved : Option Nat
  deriving DecidableEq, Repr

/-- A command that has been started runs a grid. -/
def State.commanded (s : State) (h : Nat) : Bool := s.queues.any fun q => q.2.cmds.any fun c => c.grid == some h

/-- A grid that no command runs, one of a PLACE, has not started: no team of it, of a descendant or of an ancestor has become
resident. -/
def State.unbegun (s : State) (h : Nat) : Bool :=
  (s.ancestors h s.grids.length).all fun a => !(s.grid a).begun && !s.commanded a

/-- STOPREQ keeps a grid of a PLACE from starting (25 R425). -/
def State.kept (s : State) (h : Nat) : Bool :=
  match s.ctx? (s.grid h).key with
  | some c => c.stopreq && s.unbegun h
  | none => true

/-- The next team of a grid that waits: a saved one first, then a new one. -/
def State.gridWork (s : State) (h : Nat) (g : Grid) : List Work :=
  if g.status ≠ .live ∨ s.kept h then []
  else match g.waiting with
    | t :: _ => [⟨h, (s.team t).index, some t⟩]
    | [] => if g.nextTeam < g.lr.teams then [⟨h, g.nextTeam, none⟩] else []

/-- Parked teams whose children have all retired. -/
def State.parkedWork (s : State) (key : Nat) : List Work :=
  (s.teams.filter fun e => e.2.status == .parked && (s.grid e.2.grid).key == key && (s.grid e.2.grid).status == .live &&
    !(s.grid e.2.grid).waiting.contains e.1 && (s.childrenOf e.1).isEmpty).map fun e => ⟨e.2.grid, e.2.index, some e.1⟩

/-- The waiting work of a context, in the order in which it is taken. -/
def State.workOf (s : State) (key : Nat) : List Work :=
  let gs := s.grids.filter fun e => e.2.key == key
  s.parkedWork key ++ ((gs.filter fun e => e.2.parent.isSome).flatMap fun e => s.gridWork e.1 e.2) ++
    ((gs.filter fun e => e.2.parent.isNone).flatMap fun e => s.gridWork e.1 e.2)

/-- The clusters a team may go to: its own for a parked team, the one of R437 in replay mode, else those allowed. -/
def State.clustersFor (s : State) (w : Work) : List Nat :=
  let g := s.grid w.grid
  let fixed := if g.replay then (g.clusters[w.index % g.clusters.length]?).toList else g.clusters
  match w.saved with
  | some t => if g.waiting.contains t then fixed else [(s.team t).cluster]
  | none => fixed

/-- The comparators a saved team brings. -/
def State.compsOf (s : State) (w : Work) : Table Comparator :=
  match w.saved with
  | some t => (s.team t).comps
  | none => []

/-- The cores of a cluster that can take a team, the first choice first. -/
def State.coresFor (s : State) (w : Work) (cl : Nat) : List (List Nat) :=
  let g := s.grid w.grid
  let all := choose g.lr.ncores ((List.range 8).map (8 * cl + ·))
  (if g.replay then all.take 1 else all).filter fun cs => s.teamFits g (s.compsOf w) cl cs

/-- A place for a team. -/
def State.findPlace (s : State) (w : Work) : Option (Nat × List Nat) :=
  (s.clustersFor w).findSome? fun cl => ((s.coresFor w cl).head?).map fun cs => (cl, cs)

/-- The work of a context that is placed next. -/
def State.nextWork (s : State) (key : Nat) : Option Work := (s.workOf key).find? fun w => (s.findPlace w).isSome

/-! ## Residency (17 R330) -/

/-- The partition of a core with the fewest resident crews. -/
def State.bestPart (s : State) (core : Nat) : Nat :=
  (List.range 6).foldl (fun b p => if s.crewCount core p < s.crewCount core b then p else b) 0

/-- The lowest free crew slot of a partition. -/
def State.freeSlot (s : State) (core part : Nat) : Nat :=
  let used := s.usedSlots core part
  ((List.range 16).find? fun q => !used.contains q).getD 0

/-- Continuations that occupy a slot lose it (06 R142). -/
def State.clearSlot (s : State) (core part slot : Nat) : State :=
  (s.threads.keysWhere fun _ th => match th.cont with
    | some k => k.slot == slot && (s.crew th.crew).core == core && (s.crew th.crew).part == part
    | none => false).foldl (fun s c => s.squashCont c .other) s

/-- A debugger holds every crew of a context. -/
def State.holdsAll (s : State) (key : Nat) : Bool :=
  match s.ctx? key with
  | some c => c.att && c.allhold
  | none => false

/-- Bits 14:0 of the LOC of a crew (14 R282). -/
def Crew.loc (c : Crew) : Nat := c.core + 2 ^ 8 * c.part + 2 ^ 11 * c.slot

/-- The key of a crew's context. -/
def State.crewKey (s : State) (c : Nat) : Nat := (s.grid (s.team (s.crew c).team).grid).key

/-- Crews in ascending LOC. -/
def State.byLoc (s : State) (cs : List Nat) : List Nat :=
  let locs := (cs.map fun c => (s.crew c).loc).foldl insertNat []
  locs.flatMap fun l => cs.filter fun c => (s.crew c).loc == l

/-- A hold record reaches the owner's log, in owner view, and the contact sheet. -/
def State.logHold (s : State) (key : Nat) (r : FaultRec) : State :=
  (s.trace (dieOf r.core) 4 key r.core r.queue r.seq r.cause r.pc).appendOwner key (r.bytes true)

/-- Bits 14:0 of the LOC of a record. -/
def FaultRec.loc (r : FaultRec) : Nat := r.core + 2 ^ 8 * r.part + 2 ^ 11 * r.slot

/-- The hold records of a cycle are appended in ascending LOC (25 R421). -/
def State.flushHolds (s : State) : State :=
  let hs := s.m.holds
  let locs := (hs.map fun h => h.2.loc).foldl insertNat []
  let order := locs.flatMap fun l => hs.filter fun h => h.2.loc == l
  order.foldl (fun s h => s.logHold h.1 h.2) (s.modM fun m => { m with holds := [] })

/-- A debugger holds a crew: one record; the thread's last record stays (25 R421). While bundles of the cycle have yet to issue, the
record waits for theirs (log 58). -/
def State.holdCrew (s : State) (c : Nat) (k : Hold) (cause t : Nat) (pc val : DWord) : State :=
  let key := s.crewKey c
  let r := { s.recordOf t with cause := cause, held := true, pc := pc, val := val }
  let s := (s.modCrew c fun x => { x with held := some k, stepping := false }).modM fun m => { m with holds := m.holds ++ [(key, r)] }
  if s.m.issueQ.isEmpty then s.flushHolds else s

/-- Crews held by ALLHOLD, but for those held already. Which of the two causes of a hold record it takes is not stated, and is a free
value (25 R421, log 18). -/
def State.holdEach (s : State) (cs : List Nat) : State :=
  cs.foldl (fun s c =>
    if (s.crew c).held.isSome then s
    else match s.liveOf c with
      | [] => s
      | t :: _ =>
        let (w, s) := s.freeWord
        s.holdCrew c .all (if w.getLsbD 0 then Cause.softwareBreakpoint else Cause.breakpoint) t (s.thread t).pc 0) s

/-- Crew `j` of a team becomes resident on its core. -/
def State.seatCrew (s : State) (tm c j : Nat) : State :=
  let t := s.team tm
  let core := t.cores.getD (j % t.cores.length) 0
  let part := s.bestPart core
  let slot := s.freeSlot core part
  let s := s.clearSlot core part slot
  let age := s.age
  { (s.modCrew c fun x => { x with core := core, part := part, slot := slot, resident := true, age := age, arrival := none
                                   loop := none, held := none, stepping := false }) with age := age + 1 }

/-- The threads of a new crew. -/
def State.newThreads (s : State) (c j : Nat) (l : LaunchRec) : State :=
  let n := min 32 (l.size - 32 * j)
  let h := s.handle
  let ts := (List.range n).map (h + ·)
  let s := { s with handle := h + n, threads := (List.range n).foldl (fun tb i =>
    Table.set tb (h + i) (Thread.launch c i (32 * j + i) (l.codebase + l.entry))) s.threads }
  s.modCrew c fun x => { x with threads := ts }

/-- A new team of a grid in tables, with its crews and threads. What the host wrote before the doorbell is visible to it (15 R300). -/
def State.newTeam (s : State) (gh idx cluster : Nat) (cores : List Nat) : State × Nat :=
  let l := (s.grid gh).lr
  let tm := s.handle
  let t : Team :=
    { grid := gh, index := idx, status := .resident, cluster := cluster, cores := cores
      crews := (List.range l.crews).map (tm + 1 + ·), kLead := l.k, kView := l.k, bars := Vector.replicate 16 ⟨0, false, 0⟩
      parts := [], comps := [] }
  let s := { s with handle := tm + 1 + l.crews, teams := Table.set s.teams tm t }
  let s := (List.range l.crews).foldl (fun s j =>
    let s := s.setCrew (tm + 1 + j) { Crew.launch tm j 0 0 0 0 [] with resident := false }
    (s.seatCrew tm (tm + 1 + j) j).newThreads (tm + 1 + j) j l) s
  let s := cores.foldl State.freshen s
  (s.modGrid gh fun g => { g with nextTeam := idx + 1 }, tm)

/-- A saved team becomes resident: its parts go to its new cores in order, waits and copies resume (20 R366), and the counts
of PSTAT start again (10 R219). -/
def State.seatTeam (s : State) (tm cluster : Nat) (cores : List Nat) : State :=
  let gh := (s.team tm).grid
  let s := { s with fixer := { s.fixer with parks := Table.erase s.fixer.parks tm } }
  let s := s.modTeam tm fun t =>
    { t with status := .resident, cluster := cluster, cores := cores, comps := []
             parts := (t.cores.zip cores).map fun (o, c) => (c, { t.part o with dropped := 0, nonfin := 0 }) }
  let s := (s.team tm).crews.zipIdx.foldl (fun s (c, j) =>
    let s := s.seatCrew tm c j
    let core := (s.crew c).core
    let s := (s.crew c).threads.foldl (fun s t => s.modThread t fun th => { th with waitCnt := 0, starving := false, mark := none }) s
    s.modEng fun e => { e with copies := e.copies.map fun x => if x.2.crew = c then (x.1, { x.2 with core := core }) else x })
    s
  let s := cores.foldl (fun s c => s.acquire c .pk) s
  s.modGrid gh fun g => { g with waiting := g.waiting.filter (· != tm) }

/-- Arms comparators on cores. -/
def State.armAll (s : State) (cores : List Nat) (comps : Table Comparator) : State :=
  cores.foldl (fun s c => s.modCore c fun x =>
    { x with comps := comps.foldl (fun tb e => Table.set tb e.1 e.2) x.comps }) s

/-- Raises the die-scratchpad allocation of a context on a die (16 R310). -/
def State.raiseUnits (s : State) (die key n : Nat) : State :=
  let used := s.unitsUsed die
  let add := ((List.range 32).filter fun u => !used.contains u).take (n - s.unitsOf die key)
  if add.isEmpty then s
  else s.modDie die fun d =>
    let a := Table.getD d.scratch key ⟨[], [], []⟩
    { d with scratch := Table.set d.scratch key { a with units := a.units ++ add } }

/-- Dies whose contact sheet takes a grid's task records: those of its allowed clusters (log 19). -/
def taskDies (g : Grid) : List Nat := (g.clusters.map (· / 3)).eraseDups

/-- A task record of a grid, by the fixer (25 R427). -/
def State.traceTask (s : State) (g : Grid) (type : Nat) : State :=
  (taskDies g).foldl (fun s d => s.trace d type g.key fixerEngine g.queue g.seq 0 (g.id.setWidth 64)) s

/-- A team becomes resident (17 R329, R330): the blocks it takes leave the L1 of its cores (16 R307). -/
def State.makeResident (s : State) (w : Work) (cluster : Nat) (cores : List Nat) : State :=
  let g := s.grid w.grid
  let s := if g.nextTeam = 0 ∧ w.saved.isNone then s.traceTask g 1 else s
  let s := s.raiseUnits (cluster / 3) g.key g.lr.dsunits
  let s := s.modGrid w.grid fun g =>
    { g with counters := some (g.counters.getD []), dies := insertNat g.dies (cluster / 3) }
  let s := (s.ancestors w.grid s.grids.length).foldl (fun s a => s.modGrid a fun g => { g with begun := true }) s
  let (s, tm) := match w.saved with
    | some t =>
      let comps := (s.team t).comps
      ((s.seatTeam t cluster cores).armAll cores comps, t)
    | none => s.newTeam w.grid w.index cluster cores
  let s := cores.foldl State.l1Trim s
  if s.holdsAll g.key then s.holdEach (s.byLoc (s.team tm).crews) else s

/-- TEAM_PLACEMENT: the fixer places the team that is next, where it fits (17 R329-R331). -/
def execTeamPlacement (grid team cluster : Nat) (cores : List Nat) (s : State) : Res :=
  .next <|
    match s.nextWork (s.grid grid).key with
    | some w =>
      if w.grid = grid ∧ w.index = team ∧ (s.clustersFor w).contains cluster ∧ (s.coresFor w cluster).contains cores then
        s.makeResident w cluster cores
      else s
    | none => s

/-! ## Release (17 R332) -/

/-- Comparators of a context leave a core with its last team there (14 R270). -/
def State.freeComps (s : State) (key core : Nat) : State :=
  if ((s.teamsOn core).any fun t => (s.grid t.grid).key == key) then s
  else s.modCore core fun c => { c with comps := c.comps.filter fun e => e.2.key != key }

/-- Removes a team with its crews, threads and copies, and frees what it holds. What it wrote is performed at SY, for its parent's CWAIT and the
completion record of its command (04 R114, 15 R300). -/
def State.dropTeam (s : State) (tm : Nat) : State :=
  let t := s.team tm
  let key := (s.grid t.grid).key
  let s := t.cores.foldl (fun s c => s.release c .sy) s
  let s := { s with threads := s.threads.filter fun e => !t.crews.contains e.2.crew
                    crews := s.crews.filter fun e => e.2.team != tm
                    teams := Table.erase s.teams tm
                    fixer := { s.fixer with parks := Table.erase s.fixer.parks tm } }
  let s := s.modEng fun e => { e with copies := e.copies.filter fun x => !t.crews.contains x.2.crew }
  t.cores.foldl (fun s c => s.freeComps key c) s

/-- No word of a team's crews is in flight but copies: no tile, transfer, remote atomic or memory access. -/
def State.teamQuiet (s : State) (tm : Nat) : Bool :=
  let t := s.team tm
  (s.eng.tiles.all fun e => !t.crews.contains e.2.crew) && (s.eng.xfers.all fun e => !t.crews.contains e.2.crew) &&
  (s.eng.ratoms.all fun e => !t.crews.contains e.2.crew) &&
  s.eng.txns.all fun e => e.2.threads.all fun q => !t.crews.contains (s.thread q).crew

/-- Copies of a team's crews are in flight. -/
def State.teamCopies (s : State) (tm : Nat) : Bool := s.eng.copies.any fun e => (s.team tm).crews.contains e.2.crew

/-- A team has ended: no thread is live, and every word of it has completed (17 R332, 13 R241). -/
def State.teamEnded (s : State) (tm : Nat) : Bool :=
  (Table.find? s.teams tm).isSome && (s.team tm).status == .resident && (s.grid (s.team tm).grid).status == .live &&
    (s.teamLive tm).isEmpty && s.teamQuiet tm && !s.teamCopies tm

/-- TEAM_RELEASE (17 R332). -/
def execTeamRelease (team : Nat) (s : State) : Res := .next (if s.teamEnded team then s.dropTeam team else s)

/-! ## Retirement (17 R332, 04 R110) -/

/-- A command has its result where it started the grid (17 R324). -/
def Cmd.finish (c : Cmd) (h cause : Nat) (halt : Bool) (id : Word) : Cmd :=
  if c.grid = some h ∧ c.result.isNone then { c with result := some (cause, halt, id) } else c

/-- The command that started a grid has its result. -/
def State.cmdResult (s : State) (h cause : Nat) (halt : Bool) (id : Word) : State :=
  let f (e : Nat × Queue) : Nat × Queue := (e.1, { e.2 with cmds := e.2.cmds.map fun c => c.finish h cause halt id })
  { s with queues := s.queues.map f }

/-- The result of a late SYS word is written (14 R261). -/
def State.sysDone (s : State) (id : Nat) (v : DWord) : State :=
  match Table.find? s.eng.sys id with
  | none => s
  | some o =>
    let s := s.modEng fun e => { e with sys := Table.erase e.sys id }
    s.lateWrites id (if (s.thread o.thread).live then [⟨o.thread, pairWrites o.dreg v⟩] else [])

/-- A result of an operator word that gives a cause (14 R273-R276). -/
def causeWord (c : Nat) : DWord := BitVec.ofNat 64 (c * 2 ^ 32)

/-- RETIRED of a PREEMPT result. -/
def retiredWord : DWord := BitVec.ofNat 64 (2 ^ 41)

/-- The die scratchpad of a context on a die goes with its last grid there (16 R310). -/
def State.freeDie (s : State) (key die : Nat) : State :=
  if (s.grids.any fun e => e.2.key == key && e.2.dies.contains die) then s
  else s.modDie die fun d => { d with scratch := Table.erase d.scratch key }

/-- A PREEMPT that stopped a grid, or waits for its target, reports a result; a RESET has its own (14 R274). -/
def State.preemptDone (s : State) (op : Nat) (pre : DWord) : State :=
  match (Table.find? s.eng.sys op).map SysOp.kind with
  | some (.preempt _) => s.sysDone op pre
  | _ => s

/-- The slice region of a grid is scrubbed: its cached lines go, and its units read as zero (16 R309). -/
def State.scrubSlices (s : State) (h : Nat) : State :=
  let die (e : Nat × Die) : Nat × Die := (e.1, { e.2 with l2 := e.2.l2.filter fun l => !inSlices h (128 * l.line) })
  let m := s.mem
  { s with dies := s.dies.map die
           mem := { m with dev := m.dev.filter fun e => !inSlices h e.1, seals := m.seals.filter fun e => !inSlices h (64 * e.1)
                           poison := m.poison.filter fun u => !inSlices h (64 * u)
                           symErr := m.symErr.filter fun e => !inSlices h (64 * e.1)
                           llc := m.llc.filter fun l => !inSlices h (128 * l) } }

/-- A grid is gone: its resources are free, a PREEMPT of it reports `pre`, its command has its result. -/
def State.retireGrid (s : State) (h : Nat) (pre : DWord) : State :=
  let g := s.grid h
  let s := (s.teams.keysWhere fun _ t => t.grid == h).foldl State.dropTeam s
  let s := match g.status, g.armed with
    | .stopping op, _ => s.preemptDone op pre
    | _, some (_, op) => s.preemptDone op pre
    | _, none => s
  let s := s.traceTask g 2
  let s := { s with grids := Table.erase s.grids h }.scrubSlices h
  let s := g.dies.foldl (fun s d => s.freeDie g.key d) s
  s.cmdResult h 0 g.haltSeen g.id

/-- A grid can retire: every team has exited and every child has retired. -/
def State.gridEnded (s : State) (h : Nat) : Bool :=
  match Table.find? s.grids h with
  | none => false
  | some g => g.status == .live && decide (g.lr.teams ≤ g.nextTeam) && (s.teams.all fun e => e.2.grid != h) &&
      s.grids.all fun e => match e.2.parent with
        | some (_, p) => p != h
        | none => true

/-- GRID_RETIRE (17 R332): a team that waits in CWAIT.ALL goes on when its last child has gone, as a separate step. -/
def execGridRetire (grid : Nat) (s : State) : Res :=
  .next (if s.gridEnded grid then s.retireGrid grid retiredWord else s)

end Sys2Proof.Machine
end

