-- ==== Sys2Proof/Machine/Image.lean ====
section
/-! DEFINITION. Stops and images (20 R358-R367, R376; 14 R273; 17 R334): what becomes of work in flight at a stop, the save of a
grid with its descendants, the restore, parking, the end of a halt, and a quarantined context's grids. -/

namespace Sys2Proof.Machine

/-! ## A stop (20 R360) -/

/-- Every thread of a grid that is live. -/
def State.liveOfGrid (s : State) (h : Nat) : List Nat :=
  s.threads.keysWhere fun _ th => th.live && !th.isCont && (s.team (s.crew th.crew).team).grid == h

/-- A grid and its descendants stop for a SYS word (14 R273). -/
def State.stopGrid (s : State) (h op : Nat) : State :=
  (s.descendants h s.grids.length).foldl (fun s d =>
    match (s.grid d).status with
    | .live => (s.modGrid d fun g => { g with status := .stopping op, armed := none }).stopCrews (s.gridCrews d)
    | _ => s) s

/-- The failed TILE and QACC words of a thread that have not been reported are reported at the stop, each at the word at which
the thread stands (10 R208, 14 R268). -/
def State.reportStop (s : State) (t : Nat) : State :=
  (s.thread t).deferred.foldl (fun s d =>
    let th := s.thread t
    (s.modThread t fun th => { th with deferred := th.deferred.drop 1 }).trap t d.cause d.val th.pc th.pc false true) s

/-- Threads report what they have not reported. -/
def State.reportAll (s : State) (ts : List Nat) : State := ts.foldl State.reportStop s

/-- The tray lines that a key holds in the L2s of the dies of cores are written back and let go of (10 R220): the spec ties no held line to
a team, and host memory's lines to no key (log 80). -/
def State.letTrays (s : State) (key : Nat) (cores : List Nat) : State :=
  (cores.map dieOf).eraseDups.foldl (fun s d =>
    ((s.die d).l2.filter fun l => (l.key == key || l.key == hostTag) && l.held).foldl (fun s l =>
      let s := s.l2WriteBack d l.key l.line
      s.modDie d fun x => { x with l2 := x.l2.map fun y =>
        if y.key == l.key && y.line == l.line then { y with held := false } else y }) s) s

/-! ## The save (20 R361-R365) -/

/-- The registers of a thread as they are saved: of one that is not live, those with tag G are zero (20 R363). -/
def Thread.savedRegs (th : Thread) (tags : Vector Tag 64) : Vector Word 64 :=
  if th.live then th.v
  else Vector.ofFn fun i => match tags[i] with
    | .g => 0
    | _ => th.v[i]

/-- A byte of the slice region, wherever its line stands. -/
def State.sliceByte (s : State) (a : Nat) : Byte :=
  ((s.dies.flatMap fun e => e.2.l2).findSome? fun l => if l.line == a / 128 then l.bytes.get a else none).getD (s.mem.dev.read a)

/-- The lane slice of a thread as it is saved (16 R309). -/
def State.sliceImg (s : State) (t : Nat) : Memory :=
  Memory.writeAll [] 0 ((List.range (s.gridOf t).lr.slice).map fun i => s.sliceByte (s.sliceAt t i))

/-- A crew as it is saved. -/
def State.crewImg (s : State) (c : Nat) : CrewImg :=
  ⟨{ s.crew c with resident := false },
    (s.crew c).threads.map fun t => { s.thread t with v := (s.thread t).savedRegs (s.crew c).tags }, (s.crew c).threads.map s.sliceImg,
    (s.eng.copies.filter fun e => e.2.crew == c).map fun e => e.2.saved⟩

/-- The comparators of a team's context on its cores. -/
def State.compsOn (s : State) (tm : Nat) : Table Comparator :=
  let t := s.team tm
  match t.status, t.cores with
  | .resident, c :: _ => (s.core c).comps.filter fun e => e.2.key == (s.grid t.grid).key
  | _, _ => t.comps

/-- A team as it is saved. -/
def State.teamImg (s : State) (tm : Nat) : TeamImg :=
  ⟨tm, { s.team tm with comps := s.compsOn tm }, (s.team tm).crews.map s.crewImg⟩

/-- A grid as it is saved, its teams in ascending index. -/
def State.gridImg (s : State) (h : Nat) : GridImg :=
  let ts := s.teams.filter fun e => e.2.grid == h
  let order := (ts.map fun e => e.2.index).foldl insertNat []
  ⟨h, s.grid h, order.flatMap fun i => (ts.filter fun e => e.2.index == i).map fun e => s.teamImg e.1⟩

/-- The grids that a SYS word stops, parents first: the handles rise from parent to child. -/
def State.stopped (s : State) (op : Nat) : List Nat := s.grids.keysWhere fun _ g => g.status == .stopping op

/-- Every copy of a team's crews has settled (13 R257, 20 R376). -/
def State.copiesSettled (s : State) (tm : Nat) : Bool :=
  s.eng.copies.all fun e => !(s.team tm).crews.contains e.2.crew || e.2.settled

/-- Nothing of the grids is in flight, and their copies have settled. -/
def State.gridsQuiet (s : State) (hs : List Nat) : Bool :=
  s.teams.all fun e => !hs.contains e.2.grid || (s.teamQuiet e.1 && s.copiesSettled e.1)

/-- Takes the teams of a saved grid off the cores: what they held is free, and its threads live in the image. -/
def State.unseat (s : State) (h : Nat) : State :=
  (s.teams.keysWhere fun _ t => t.grid == h).foldl (fun s tm =>
    let s := (s.team tm).cores.foldl (fun s c => s.release c .sy) s
    let s := s.letTrays (s.grid h).accessKey (s.team tm).cores
    s.dropTeam tm) (s.scrubSlices h)

/-- The public identifier of the context of a key. -/
def State.ctxidOf (s : State) (key : Nat) : BitVec 256 :=
  match s.ctx? key with
  | some c => c.ctxid
  | none => 0

/-- The keys of a context; those of the operator where the key names none. -/
def State.sealOf (s : State) (key : Nat) : SealId := (s.sealIdOf key).getD (.operator 0)

/-- The fixer draws a nonce from the counter of a key slot (24 R405). -/
def State.drawNonce (s : State) (key : Nat) : BitVec 96 × State :=
  let n := ((s.ctx? key).map Ctx.imgNonce).getD 0
  (BitVec.ofNat 96 n, s.modCtx key fun c => { c with imgNonce := c.imgNonce + 1 })

/-- IMAGE_SEALED: the image of a stopped grid is sealed, its residency freed, PREEMPT's result written (14 R273). -/
def execImageSealed (grid : Nat) (s : State) : Res :=
  .next <|
    match (s.grid grid).status with
    | .stopping op =>
      let hs := s.stopped op
      let preempts : Bool := match Table.find? s.eng.sys op with
        | some o => o.kind == SysKind.preempt grid
        | none => false
      if !preempts || !s.gridsQuiet hs then s
      else
        let s := hs.foldl (fun s h => s.reportAll (s.liveOfGrid h)) s
        let id := s.fixer.nextHandle
        let key := (s.grid grid).key
        let (nonce, s) := s.drawNonce key
        let img : Image := ⟨key, 0, hs.map s.gridImg, s.ctxidOf key, s.sealOf key, nonce⟩
        let s := { s with fixer := { s.fixer with nextHandle := id + 1, images := Table.set s.fixer.images id img } }
        let s := hs.foldl (fun s h => (s.unseat h).modGrid h fun g => { g with status := .preempted id }) s
        s.sysDone op (BitVec.ofNat 64 id)
    | _ => s

/-- An armed grid whose target has been reached. -/
def State.targetReached (s : State) (h : Nat) : Option Nat :=
  let g := s.grid h
  match g.armed with
  | some (target, op) => if g.status = .live ∧ target.toNat ≤ (s.retiredCount g.key).toNat then some op else none
  | none => none

/-- PREEMPT_TARGET_REACHED: the context's count has reached the target (21 R378). -/
def execPreemptTargetReached (grid : Nat) (s : State) : Res :=
  .next <| match s.targetReached grid with
    | some op => s.stopGrid grid op
    | none => s

/-! ## The restore (20 R366, 21 R380) -/

/-- The handle of a grid of an image as it is restored: its own where the device still holds the grid, else a fresh one. -/
def State.gridHandle (s : State) (img d h : Nat) : Nat := if (s.grid h).status = .preempted img then h else h + d

/-- A crew, a thread, a team and a grid of an image under their fresh handles, `d` above the saved ones. -/
def CrewImg.lift (x : CrewImg) (d : Nat) : CrewImg :=
  { crew := { x.crew with team := x.crew.team + d, threads := x.crew.threads.map (· + d) }
    threads := x.threads.map fun th => { th with crew := th.crew + d }
    slices := x.slices
    copies := x.copies.map fun o => { o with crew := o.crew + d, one := o.one.map (· + d) } }

/-- Puts a saved crew back. -/
def State.putCrew (s : State) (c : Nat) (x : CrewImg) : State :=
  let s := s.setCrew c x.crew
  let s := (x.crew.threads.zip x.threads).foldl (fun s (t, th) => s.setThread t th) s
  let s := (x.crew.threads.zip x.slices).foldl (fun s (t, m) => m.foldl (fun s e => s.setPhysByte (s.sliceAt t e.1) e.2) s) s
  x.copies.foldl (fun s o => let (id, s) := s.newId; s.setCopy id o) s

/-- Puts a saved team back, not resident. -/
def State.putTeam (s : State) (x : TeamImg) (d grid : Nat) : State :=
  let s := s.setTeam (x.handle + d) { x.team with grid := grid, crews := x.team.crews.map (· + d), status := .parked }
  (x.team.crews.zip x.crews).foldl (fun s (c, y) => s.putCrew (c + d) (y.lift d)) s

/-- A team of an image waits for residency unless it was parked with a child that is still there. -/
def teamWaits (imgs : List GridImg) (x : TeamImg) : Bool :=
  x.team.status == .resident || !(imgs.any fun g => match g.grid.parent with
    | some (t, _) => t == x.handle
    | none => false)

/-- Puts a saved grid back: its identifier, its stamp and its counts as saved. -/
def State.putGrid (s : State) (img d : Nat) (imgs : List GridImg) (x : GridImg) (replay : Bool) (clusters : List Nat) :
    State :=
  let h := s.gridHandle img d x.handle
  let kept : Bool := decide ((s.grid x.handle).status = .preempted img)
  let inside : Bool := imgs.any fun g => match x.grid.parent with
    | some (_, p) => g.handle == p
    | none => false
  let parent := match x.grid.parent with
    | some (t, p) => if inside then some (t + d, s.gridHandle img d p) else if kept then some (t, p) else none
    | none => none
  let counters := if kept then (s.grid x.handle).counters else none
  let g := { x.grid with
    status := .live, begun := false, armed := none, met := false, parent := parent, replay := replay, clusters := clusters, counters := counters
    waiting := (x.teams.filter (teamWaits imgs)).map fun t => t.handle + d }
  let s := s.setGrid h g
  x.teams.foldl (fun s t => s.putTeam t d h) s

/-- The highest handle an image names. -/
def imageTop (imgs : List GridImg) : Nat :=
  imgs.foldl (fun n g => g.teams.foldl (fun n t => t.crews.foldl (fun n c => c.crew.threads.foldl max n)
    (t.team.crews.foldl max (max n t.handle))) (max n g.handle)) 0

/-- Places an image again: the identifier of its root grid. A grid with a halted thread is a halted grid. -/
def State.restoreImage (s : State) (id : Nat) (img : Image) (replay : Bool) (clusters : List Nat) : State × Word :=
  let d := s.handle
  let s := { s with handle := d + imageTop img.grids + 1
                    fixer := { s.fixer with images := Table.erase s.fixer.images id } }
  let s := img.grids.foldl (fun s x => s.putGrid id d img.grids x replay clusters) s
  let halted := img.grids.filter fun g => g.teams.any fun t => t.crews.any fun c => c.threads.any (·.halted)
  let s := halted.foldl (fun s g => s.haltGrid (s.gridHandle id d g.handle)) s
  (s, (img.grids.head?.map fun g => g.grid.id).getD 0)

/-! ## Parking (17 R334) -/

/-- Every live thread of a resident team waits in CWAIT.ALL, and a child has not retired. -/
def State.canPark (s : State) (tm : Nat) : Bool :=
  (Table.find? s.teams tm).isSome && (s.team tm).status == .resident && (s.grid (s.team tm).grid).status == .live &&
    !(s.teamLive tm).isEmpty && ((s.teamLive tm).all fun t => (s.thread t).wait == .cwait && !(s.thread t).halted) &&
    !(s.childrenOf tm).isEmpty

/-- The slice lines of a team leave the L2s, for it may go on on another die (16 R309). -/
def State.evictSlices (s : State) (tm : Nat) : State :=
  let base := sliceBase + (s.team tm).grid * 2 ^ 63 + (s.team tm).index * 2 ^ 31
  (List.range 8).foldl (fun s d =>
    ((s.die d).l2.filter fun l => 128 * l.line / 2 ^ 31 == base / 2 ^ 31).foldl (fun s l => s.l2Evict d l) s) s

/-- The image of a team that parks: its grid's record and its own (20 R361). -/
def State.parkImage (s : State) (tm : Nat) (nonce : BitVec 96) : Image :=
  let h := (s.team tm).grid
  let key := (s.grid h).key
  ⟨key, 1, [⟨h, s.grid h, [s.teamImg tm]⟩], s.ctxidOf key, s.sealOf key, nonce⟩

/-- TEAM_PARK: the words in flight complete first; then the team is saved in an image under a fresh nonce, and leaves its cores. -/
def execTeamPark (team : Nat) (s : State) : Res :=
  .next <|
    if !s.canPark team || !s.teamQuiet team || !s.copiesSettled team then s
    else match (s.teamLive team).find? fun t => !(s.thread t).deferred.isEmpty with
      | some t => s.reportStop t
      | none =>
        let t := s.team team
        let key := (s.grid t.grid).key
        let comps := s.compsOn team
        let (nonce, s) := s.drawNonce key
        let s := (s.stopCrews t.crews).evictSlices team
        let s := { s with fixer := { s.fixer with parks := Table.set s.fixer.parks team (s.parkImage team nonce) } }
        let s := t.cores.foldl (fun s c => s.release c .pk) s
        let s := s.letTrays (s.grid t.grid).accessKey t.cores
        let s := s.modEng fun e =>
          { e with copies := e.copies.map fun x => if t.crews.contains x.2.crew then (x.1, x.2.saved) else x }
        let s := t.crews.foldl (fun s c => s.modCrew c fun x => { x with resident := false }) s
        let s := s.modTeam team fun x => { x with status := .parked, comps := comps }
        t.cores.foldl (fun s c => s.freeComps key c) s

/-- A team whose children have all retired goes on: an acquire at PK of what they wrote (04 R114). -/
def State.endCwait (s : State) (tm : Nat) : State :=
  (s.teamLive tm).foldl (fun s t =>
    if (s.thread t).waitsIn .cwait then (s.modThread t fun th => th.endWait .cwait).acquire (s.crewOf t).core .pk
    else s) s

/-! ## The end of a halt, and quarantine -/

/-- The grids are gone: descendants first. -/
def State.killGrids (s : State) (hs : List Nat) (pre : DWord) : State := hs.reverse.foldl (fun s h => s.retireGrid h pre) s

/-- A halt's hold is over and its work is settled. -/
def State.holdOver (s : State) (h : Nat) : Bool :=
  match (s.grid h).status with
  | .halted till => decide (till ≤ s.cycle) && s.gridsQuiet (s.descendants h s.grids.length)
  | _ => false

/-- A halted grid whose work is settled has failures to report: the threads that have them (10 R208, 20 R359). -/
def State.haltReports (s : State) (h : Nat) : List Nat :=
  match (s.grid h).status with
  | .halted _ => if s.gridsQuiet [h] then (s.liveOfGrid h).filter fun t => !(s.thread t).deferred.isEmpty else []
  | _ => []

/-- HALT_HOLD_EXPIRE (20 R358): the grid and its descendants retire; the command completes with HALT. -/
def execHaltHoldExpire (grid : Nat) (s : State) : Res :=
  .next (if s.holdOver grid then
    ((s.reportAll ((s.descendants grid s.grids.length).flatMap s.liveOfGrid)).killGrids (s.descendants grid s.grids.length) (causeWord Cause.contextBusy)).withdraw else s)

/-- The grids of a quarantined context are discarded without an image; each stopped thread writes a record (24 R415). -/
def State.discard (s : State) (key : Nat) : State :=
  let hs := s.grids.keysWhere fun _ g => g.key == key
  let s := hs.foldl (fun s h => (s.liveOfGrid h).foldl (fun s t =>
    s.deliver t { s.recordOf t with cause := Cause.quarantined, halted := true, pc := (s.thread t).pc }) (s.stopCrews (s.gridCrews h))) s
  let cs := hs.flatMap s.gridCrews
  let s := s.modEng fun e =>
    { e with tiles := e.tiles.filter fun x => !cs.contains x.2.crew
             xfers := e.xfers.filter fun x => !cs.contains x.2.crew
             ratoms := e.ratoms.filter fun x => !cs.contains x.2.crew }
  let ops := s.eng.tiles.map Prod.fst
  let unlock (e : Nat × Core) : Nat × Core := (e.1, { e.2 with locks := e.2.locks.filter fun l => ops.contains l.op })
  let s := { s with cores := s.cores.map unlock }
  (s.killGrids hs (causeWord Cause.contextAbsent)).withdraw

end Sys2Proof.Machine
end

