-- ==== Sys2Proof/Machine/Debug.lean ====
section
/-! DEFINITION. Debug and trace (25 R419-R428): holds, the commands that release them, the view of DBGDATA, and the contact
sheets. -/

namespace Sys2Proof.Machine

/-! ## Holds (25 R420, R421) -/

/-- The resident crews of a context, in ascending LOC. -/
def State.ctxCrews (s : State) (key : Nat) : List Nat :=
  s.byLoc (s.crews.keysWhere fun c x => x.resident && s.crewKey c == key)

/-- ALLHOLD holds every crew of the context at its next issue boundary. -/
def State.holdAll (s : State) (key : Nat) : State := s.holdEach (s.ctxCrews key)

/-- After a comparator hit or a BRK has held a crew, ALLHOLD holds every other crew of the context (25 R420). -/
def State.holdOthers (s : State) (key : Nat) : State := if s.holdsAll key then s.holdAll key else s

/-- Whether a comparator of the context is armed at an address of a core. -/
def State.armedAt (s : State) (core key : Nat) (pc : DWord) : Bool :=
  (s.core core).comps.any fun e => e.2.key == key && e.2.addr == pc

/-- A crew held by a comparator issues its word, or the pair it begins, without testing comparators (25 R422). -/
def State.skipHit (s : State) (c : Nat) : State :=
  if (s.crew c).held ≠ some .comparator then s
  else (s.liveOf c).foldl (fun s t =>
    let at' (pc : DWord) : Bool := s.armedAt (s.crew c).core (s.crewKey c) pc
    let pc := (s.thread t).pc
    if at' pc || at' (pc + 4) then s.modThread t fun th => { th with pass := true } else s) s

/-- Releases a crew. -/
def State.releaseHold (s : State) (c : Nat) (step : Bool) : State :=
  (s.skipHit c).modCrew c fun x => { x with held := none, stepping := step }

/-- RESUME or STEP of the crew at a LOC; a LOC that names no held crew of the context is ignored. -/
def State.debugRelease (s : State) (key loc : Nat) (step : Bool) : State :=
  match (s.ctxCrews key).find? fun c => (s.crew c).loc == loc && (s.crew c).held.isSome with
  | some c => s.releaseHold c step
  | none => s

/-- RESUME ALL. -/
def State.resumeAll (s : State) (key : Nat) : State :=
  ((s.ctxCrews key).filter fun c => (s.crew c).held.isSome).foldl (fun s c => s.releaseHold c false) s

/-- DBGCTL ATT = 0: every hold is released, no step holds a crew again, and STOPREQ clears. -/
def State.detach (s : State) (key : Nat) : State :=
  ((s.ctxCrews key).foldl (fun s c => s.modCrew c fun x => { x with stepping := false }) (s.resumeAll key)).modCtx key fun c => { c with att := false, stopreq := false }

/-- A write of DBGCTL (25 R419, R422, R425); STOPPED is read-only. -/
def State.setDbgctl (s : State) (key : Nat) (v : DWord) : State :=
  let all := v.getLsbD 1
  if v.getLsbD 0 = false then (s.detach key).modCtx key fun c => { c with allhold := all }
  else
    let before : Bool := match s.ctx? key with
      | some c => c.att && c.allhold
      | none => false
    let s := s.modCtx key fun c => { c with att := true, allhold := all, stopreq := v.getLsbD 2 }
    if all && !before then s.holdAll key else s

/-- STOPPED: no command and no grid of the context is running (25 R425). -/
def State.dbgStopped (s : State) (key : Nat) : Bool :=
  (match s.ctx? key with
    | some c => c.stopreq
    | none => false) &&
  (s.queues.all fun e => e.2.key != key || e.2.cmds.all fun c => !c.started || c.result.isSome) &&
  s.grids.all fun e => e.2.key != key || s.unbegun e.1 || (match e.2.status with
    | .preempted _ => true
    | _ => false)

/-! ## The view (25 R424) -/

/-- The data of an item that names nothing. -/
def invalidView : DWord := BitVec.ofNat 64 (2 ^ 63)

/-- The L2 line that shows an element: one that is held or has dirty bytes, in whatever die, before the copy of the die that reads. -/
def State.lineSeen (s : State) (key die pa : Nat) : Option L2Line :=
  let k := s.tagOf key pa
  let of (d : Nat) : Option L2Line := (s.die d).line k (pa / 128)
  (((List.range 8).filterMap of).find? fun l => l.held || !l.dirty.isEmpty).or (of die)

/-- The value of a tray element, the partials yet to merge into it, and whether its line is held in its slice. -/
def State.trayView (s : State) (key die va : Nat) : DWord :=
  match (s.deviceTranslate key va .load).2 with
  | .error _ => invalidView
  | .ok pa =>
    let l := s.lineSeen key die pa
    let bs := match l.bind fun x => x.bytes.getAll pa 4 with
      | some b => b
      | none => s.physBytes pa 4
    let n := s.eng.tiles.foldl (fun n e => e.2.trays.foldl (fun n p =>
      n + (p.partials.filter fun q => q.1 == pa).length) n) 0
    let held := match l with
      | some x => x.held
      | none => false
    BitVec.ofNat 64 (leNat bs + 2 ^ 32 * (n % 2 ^ 16) + if held then 2 ^ 48 else 0)

/-- The crew of a context at a LOC. -/
def State.crewAt (s : State) (key loc : Nat) : Option Nat := (s.ctxCrews key).find? fun c => (s.crew c).loc == loc

/-- Entries of the outstanding-transaction table that words of a crew hold: accesses, and XFER words that no engine has accepted
(05 R133). -/
def State.crewEntries (s : State) (c : Nat) : Nat :=
  (s.eng.txns.filter fun e => (e.2.threads ++ e.2.stalls).any fun t => (s.thread t).crew == c).length +
    (s.eng.copies.filter fun e => !e.2.accepted && e.2.crew == c).length +
    (s.eng.xfers.filter fun e => !e.2.accepted && e.2.crew == c).length +
    (s.eng.ratoms.filter fun e => !e.2.accepted && e.2.crew == c).length

/-- DBGDATA, read from a core of a die. No KIND shows a fork's depth or counters, which a thread's own registers hold (06 R158;
log 57). -/
def State.dbgView (s : State) (key die : Nat) (sel : DWord) : DWord :=
  let x := sel.toNat % 2 ^ 60
  match sel.toNat / 2 ^ 60 with
  | 0 => if 2 ^ 57 ≤ x ∨ x % 4 ≠ 0 then invalidView else s.trayView key die x
  | 1 =>
    match Table.find? s.queues x with
    | some q => if q.key = key then BitVec.ofNat 64 (q.head.toNat + 2 ^ 32 * (q.tail.toNat % 2 ^ 31)) else invalidView
    | none => invalidView
  | 2 =>
    if 2 ^ 20 ≤ x ∨ x.testBit 15 then invalidView
    else match s.crewAt key (x % 2 ^ 15) with
      | some c =>
        let tm := (s.crew c).team
        let i := x / 2 ^ 16
        let b := (s.team tm).bars[i % 16]'(Nat.mod_lt _ (by decide))
        BitVec.ofNat 64 (b.count % 2 ^ 16 + 2 ^ 16 * (s.barTarget tm i % 2 ^ 16) + if b.phase then 2 ^ 32 else 0)
      | none => invalidView
  | 3 =>
    if 2 ^ 15 ≤ x then invalidView
    else match s.crewAt key x with
      | some c =>
        let n := s.crewEntries c
        BitVec.ofNat 64 ((s.tilesOf c).length % 256 + 2 ^ 8 * (s.copyCount c % 256) + 2 ^ 16 * (n % 256) +
          if (s.crew c).held.isSome then 2 ^ 24 else 0)
      | none => invalidView
  | _ => invalidView

/-! ## Contact sheets (25 R426-R428) -/

/-- CSASSIGN of a die: a change discards the records the die still holds, counted in CSLOST. -/
def State.setAssign (s : State) (die : Nat) (v : Word) : State :=
  if (s.die die).csassign = v then s
  else
    let n := (s.die die).sheet.length
    let s := match (s.die die).assign with
      | some k => s.modCtx k fun c => { c with cslog := { c.cslog with lost := satInc c.cslog.lost n } }
      | none => s
    s.modDie die fun d => { d with csassign := v, sheet := [] }

/-- The class of a slot in a sample: retired 0, squashed 1, the six of R429 2 to 7. -/
def sampleClass (cls : Nat) : Nat := if cls = 2 then 0 else if cls = 3 then 1 else cls - 3

/-- A sample of slot 1 of one partition of a core; the partitions are taken in rotation. A slot that carries no bundle is its context's by
25 R430; no PC is stated for it, and it is a free value (log 58). -/
def State.sample (s : State) (die core : Nat) : State :=
  let part := ((s.die die).rotor + 5) % 6
  let p := Table.getD (s.core core).parts part Partition.reset
  let (key, slot, queue, seq) := p.stamp
  let info := core + 2 ^ 8 * part + 2 ^ 11 * slot + 2 ^ 16 * sampleClass p.cls
  if p.empty then
    let (lo, s) := s.freeWord
    let (hi, s) := s.freeWord
    s.trace die 0 key core queue seq info (hi ++ lo)
  else s.trace die 0 key core queue seq info p.pc

/-- The 32 bytes of a trace record. -/
def TraceRec.bytes (r : TraceRec) : List Byte :=
  leBytes 1 r.type ++ leBytes 1 r.die ++ leBytes 2 r.engine ++ leBytes 2 r.queue ++ leBytes 6 r.seq ++ leBytes 4 r.info ++
    leBytes 8 r.clock ++ leBytes 8 r.value.toNat

/-- The oldest record of a die leaves for the ring, or is lost (25 R428). -/
def State.drainSheet (s : State) (die : Nat) : State :=
  match (s.die die).sheet, (s.die die).assign with
  | r :: rest, some key =>
    let s := s.modDie die fun d => { d with sheet := rest }
    match s.ctx? key with
    | none => s
    | some c =>
      if c.cslog.room = false then s.modCtx key fun c => { c with cslog := c.cslog.dropped }
      else match s.deviceWrite key (c.cslog.slot 32) r.bytes with
        | (s, some _) => s.modCtx key fun c => { c with cslog := c.cslog.dropped }
        | (s, none) => s.modCtx key fun c => { c with cslog := c.cslog.appended }
  | _, _ => s

/-! ## The meanings of the debug events -/

/-- DEBUG_RESUME (25 R422). -/
def execDebugResume (key loc : Nat) (s : State) : Res := .next (s.debugRelease key loc false)

/-- DEBUG_STEP (25 R422). -/
def execDebugStep (key loc : Nat) (s : State) : Res := .next (s.debugRelease key loc true)

/-- DEBUG_RESUME_ALL (25 R422). -/
def execDebugResumeAll (key : Nat) (s : State) : Res := .next (s.resumeAll key)

/-- DEBUG_DETACH (25 R422). -/
def execDebugDetach (key : Nat) (s : State) : Res := .next (s.detach key)

/-- DEBUG_STOP_REQUEST (25 R425). -/
def execDebugStopRequest (key : Nat) (s : State) : Res := .next (s.modCtx key fun c => { c with stopreq := true })

/-- CSASSIGN_WRITE (25 R426): a value that breaks the layout is ignored. -/
def execCsassignWrite (die : Nat) (v : Word) (s : State) : Res :=
  .next (s.hostWrites (.csassignWrite die v) fun s => if 8 ≤ die ∨ bitsN v.toNat 30 11 ≠ 0 then s else s.setAssign die v)

/-- CONTACT_SHEET_SAMPLE (25 R427). -/
def execContactSheetSample (die core : Nat) (s : State) : Res :=
  .next (if dieOf core = die then s.sample die core else s)

/-- CONTACT_SHEET_DRAIN (25 R428). -/
def execContactSheetDrain (die : Nat) (s : State) : Res := .next (s.drainSheet die)

end Sys2Proof.Machine
end

