-- ==== Sys2Proof/Machine/Csr.lean ====
section
/-! DEFINITION. The control registers (01 R29-R34): rights rows, reads, writes with the checks of their layouts. -/

namespace Sys2Proof.Machine

/-! ## Rights rows -/

/-- The cells of a row that matter: operator reads and writes, owner reads and writes, auditor reads. -/
structure CsrRow where
  opR : Bool
  opW : Bool
  owR : Bool
  owW : Bool
  auC : Bool

/-- Rows by the letters of their cells. -/
def rowOw (w : Bool) : CsrRow := ⟨false, false, true, w, false⟩
def rowOp (w : Bool) : CsrRow := ⟨true, w, false, false, false⟩
def rowBoth : CsrRow := ⟨true, false, true, false, false⟩
def rowCount : CsrRow := ⟨false, false, true, false, true⟩
def rowWrite : CsrRow := ⟨false, false, false, true, false⟩

/-- The rights row of a defined index. -/
def csrRow (i : Nat) : CsrRow :=
  if i = 0x005 ∨ 0xC00 ≤ i then rowCount
  else if i = 0x421 then rowWrite
  else if i = 0x201 ∨ i = 0x400 ∨ i = 0x417 then rowBoth
  else if i < 0x800 then
    rowOw (i == 0x000 || i == 0x020 || i == 0x021 || i == 0x025 || i == 0x026 || i == 0x410 || i == 0x411 || i == 0x413 ||
      i == 0x416 || i == 0x420 || i == 0x422 || i == 0x424 || i == 0x425 || i == 0x426 || i == 0x428 || decide (0x7C0 ≤ i))
  else
    rowOp (i ≤ 0x802 || i == 0x820 || (0x860 ≤ i && i ≤ 0x867) || (0x886 ≤ i && i ≤ 0x888) || (0x8A0 ≤ i && i ≤ 0x8B8))

/-- A seat may read or write a register through CSRR or CSRW; a thread has its own thread-scope registers by the owner's cell
(01 R32), and an auditor reads those of count class (01 R34). -/
def csrGrants (i : Nat) (seat : Seat) (write : Bool) : Bool :=
  let r := csrRow i
  if i < 0x100 then (if write then r.owW else r.owR)
  else match seat with
    | .operator => if write then r.opW else r.opR
    | .owner => if write then r.owW else r.owR
    | .auditor => !write && r.auC

/-! ## Reads -/

/-- TSTAT (14 R264). -/
def TrapRegs.tstat (r : TrapRegs) : Nat := (if r.inh then 1 else 0) + (if r.bps then 2 else 0) + (if r.one then 4 else 0)

/-- TGUARD and its layout (14 R264). -/
def Guard.word (g : Guard) : Nat :=
  (if g.active then 1 else 0) + (if g.pval then 2 else 0) + 4 * g.count + 64 * g.index + 512 * g.mask.toNat

/-- Thread-scope registers (01 R30, 08 R176, 14 R264). -/
def State.csrThread (s : State) (t i : Nat) : Nat :=
  let th := s.thread t
  let l := (s.gridOf t).lr
  match i with
  | 0x000 => th.fstat.toNat
  | 0x001 => l.trapen.toNat
  | 0x002 => l.regs
  | 0x003 => th.stack.length + 2 ^ 16 * th.spill
  | 0x004 => l.slice
  | 0x005 => th.retired.toNat
  | 0x020 => th.trap.tvec.toNat
  | 0x021 => th.trap.tepc.toNat
  | 0x022 => th.trap.tcause.toNat
  | 0x023 => th.trap.tval.toNat
  | 0x024 => th.trap.tstat
  | 0x025 => th.trap.tguard.word
  | 0x026 => th.trap.tscr.toNat
  | i => (l.slots.toList.getD (i - 0x010) 0).toNat

/-- A cap of one is in force at a partition, replay mode included (17 R342). -/
def State.capOne (s : State) (core part : Nat) : Bool :=
  s.clusterCap (clusterOf core) ||
    s.crews.any fun e => e.2.resident && e.2.core == core && e.2.part == part && (s.grid (s.team e.2.team).grid).replay

/-- Crew, team and core registers (17 R335, 16 R308). -/
def State.csrCrew (s : State) (t i : Nat) : Nat :=
  let c := s.crewOf t
  let g := s.gridOf t
  match i with
  | 0x100 => c.slot + 2 ^ 4 * c.part + 2 ^ 7 * c.core
  | 0x101 => g.lr.policy + (if g.replay then 2 else 0) + (if (s.part c.core c.part).cap then 4 else 0)
  | 0x102 => g.nest
  | 0x103 => g.queue + 2 ^ 12 * (g.seq % 2 ^ 48)
  | 0x200 => g.lr.scratch * 8192
  | 0x201 => 8192 * (40 - s.blocksUsed c.core)
  | 0x202 => s.dieBytes g.key (dieOf c.core)
  | _ => (s.team c.team).cores.foldl (fun n x => n + 2 ^ (x % 8)) 0

/-- Context registers (14 R265, 20 R355, 24 R414, 25 R419, R426, 13 R248). -/
def State.csrCtx (s : State) (key die i : Nat) : Nat :=
  match s.ctx? key with
  | none => 0
  | some c =>
    match i with
    | 0x400 => c.consent
    | 0x410 => c.flog.base.toNat
    | 0x411 => c.flog.size.toNat
    | 0x412 => c.flog.tail.toNat
    | 0x413 => c.flog.head.toNat
    | 0x414 => c.flog.lost.toNat
    | 0x415 => c.suppflt.toNat
    | 0x416 => c.halthold.toNat
    | 0x417 => c.integcnt.toNat
    | 0x420 => (if c.att then 1 else 0) + (if c.allhold then 2 else 0) + (if c.stopreq then 4 else 0) +
        (if s.dbgStopped key then 8 else 0)
    | 0x421 => 0
    | 0x422 => c.dbgsel.toNat
    | 0x423 => (s.dbgView key die c.dbgsel).toNat
    | 0x424 => c.csctl.toNat
    | 0x425 => c.cslog.base.toNat
    | 0x426 => c.cslog.size.toNat
    | 0x427 => c.cslog.tail.toNat
    | 0x428 => c.cslog.head.toNat
    | 0x429 => c.cslog.lost.toNat
    | i =>
      let m := s.rxMap key ((i - 0x7C0) / 2)
      if i % 2 = 0 then m.b.toNat else m.l.toNat

/-- The number whose bits a list of numbers names. -/
def bitSet (l : List Nat) : Nat := l.foldl (fun n b => n + 2 ^ b) 0

/-- Device registers (22 R392, 24 R414, 25 R426, R432, 26 R438, R440, R444). -/
def State.csrDev (s : State) (i : Nat) : Nat :=
  if i = 0x800 then s.fab.peerId + 2 ^ 16 * s.ownInc
  else if i = 0x801 then (if s.fab.en then 1 else 0)
  else if i = 0x802 then s.fab.freply.toNat
  else if i = 0x803 then s.fab.dmwin.toNat
  else if i = 0x804 then bitSet s.fab.up
  else if i = 0x820 then s.ctl.alarmPol.toNat
  else if i = 0x821 then s.ctl.alarmCnt.toNat
  else if i < 0x850 then (Table.getD s.mem.ctr (i - 0x830) 0).toNat
  else if i = 0x850 then s.fab.dropped.toNat
  else if i = 0x851 then s.fab.stale.toNat
  else if i = 0x852 then s.fab.downs.toNat
  else if i = 0x853 then s.fab.ethDrop.toNat
  else if i < 0x870 then (s.die (i - 0x860)).csassign.toNat
  else if i = 0x880 then s.ctl.fnReady.toNat
  else if i < 0x884 then bitSet (((List.range 64).filter fun b => (s.core (64 * (i - 0x881) + b)).ready))
  else if i = 0x884 then offered.toNat
  else if i = 0x885 then 0
  else if i = 0x886 then s.ctl.featReq.toNat % 2 ^ 64
  else if i = 0x887 then s.ctl.featReq.toNat / 2 ^ 64
  else if i = 0x888 then (if s.ctl.locked then 1 else 0)
  else if i < 0x8B8 then (Table.getD s.ctl.pwrcap (i - 0x8A0) 0).toNat
  else s.ctl.pwrlim.toNat

/-- A counter of a context (25 R431). -/
def State.csrCount (s : State) (key i : Nat) : DWord :=
  match s.ctx? key with
  | some c => Table.getD c.ctr (i - 0xC00) 0
  | none => 0

/-- The value CSRR gives a thread. -/
def State.csrRead (s : State) (t i : Nat) : DWord :=
  let key := (s.gridOf t).key
  if i < 0x100 then BitVec.ofNat 64 (s.csrThread t i)
  else if i < 0x400 then BitVec.ofNat 64 (s.csrCrew t i)
  else if i < 0x800 then BitVec.ofNat 64 (s.csrCtx key (dieOf (s.crewOf t).core) i)
  else if i < 0xC00 then BitVec.ofNat 64 (s.csrDev i)
  else s.csrCount key i

/-! ## Writes: none where the value breaks the layout (14 R263) -/

/-- A number is a power of two between two bounds. -/
def isPow (v lo hi : Nat) : Bool := (List.range 33).any fun i => v == 2 ^ i && decide (lo ≤ v) && decide (v ≤ hi)

/-- Writes the value only if it keeps the layout. -/
def keeping (ok : Bool) (s : State) : Option State := if ok then some s else none

/-- The guard a TGUARD value holds. -/
def guardOf (v : Nat) : Guard := ⟨v.testBit 0, v.testBit 1, bitsN v 5 2, bitsN v 8 6, BitVec.ofNat 8 (bitsN v 16 9)⟩

/-- TGUARD keeps its layout (14 R264). -/
def tguardOk (v : Nat) : Bool :=
  if v.testBit 0 then
    decide (v < 2 ^ 17) && decide (1 ≤ bitsN v 5 2) && decide (bitsN v 5 2 ≤ 8) && decide (bitsN v 8 6 < bitsN v 5 2)
  else v == 0

/-- Writes of thread-scope registers. -/
def State.setThreadCsr (s : State) (t i : Nat) (v : DWord) : Option State :=
  let trap (f : TrapRegs → TrapRegs) : State := s.modThread t fun th => { th with trap := f th.trap }
  match i with
  | 0x000 => keeping (decide (v.toNat < 32)) (s.modThread t fun th => { th with fstat := v.setWidth 5 })
  | 0x020 => some (trap fun r => { r with tvec := v })
  | 0x021 => some (trap fun r => { r with tepc := v })
  | 0x025 => keeping (tguardOk v.toNat) (trap fun r => { r with tguard := guardOf v.toNat })
  | 0x026 => some (trap fun r => { r with tscr := v })
  | _ => some s

/-- A write of FLOGBASE or FLOGSIZE: the tail and the head return to 0 (20 R356). -/
def State.resetFlog (s : State) (key : Nat) (isSize : Bool) (v : DWord) : Option State :=
  let f (l : LogRegs) : LogRegs :=
    if isSize then { l with size := v.setWidth 32, tail := 0, head := 0 } else { l with base := v, tail := 0, head := 0 }
  keeping (if isSize then isPow v.toNat 16 4096 else v.toNat % 4096 == 0) (s.modCtx key fun c => { c with flog := f c.flog })

/-- CSCTL keeps its layout; a period is needed only while samples are taken. -/
def csctlOk (v : Nat) : Bool :=
  let sp := bitsN v 12 8
  bitsN v 7 5 == 0 && decide (v < 2 ^ 13) && ((decide (8 ≤ sp) && decide (sp ≤ 24)) || (sp == 0 && !v.testBit 0))

/-- DBGSEL keeps its layout: the bits that its KIND does not use are zero (25 R424). -/
def dbgselOk (v : Nat) : Bool :=
  match v / 2 ^ 60 with
  | 0 => bitsN v 59 57 == 0
  | 1 => bitsN v 59 12 == 0
  | 2 => bitsN v 59 20 == 0 && !v.testBit 15
  | 3 => bitsN v 59 15 == 0
  | _ => bitsN v 59 0 == 0

/-- DBGCMD (25 R419, R422). -/
def State.debugCmd (s : State) (key : Nat) (v : Nat) : Option State :=
  if v.testBit 15 ∨ 2 ^ 20 ≤ v then none
  else match v / 2 ^ 16 with
    | 1 => some (s.debugRelease key (v % 2 ^ 15) false)
    | 2 => some (s.debugRelease key (v % 2 ^ 15) true)
    | 3 => some (s.resumeAll key)
    | _ => none

/-- Writes of context registers but for receive mappings. -/
def State.setCtxCsr (s : State) (key i : Nat) (v : DWord) : Option State :=
  let w : Word := v.setWidth 32
  match i with
  | 0x410 => s.resetFlog key false v
  | 0x411 => s.resetFlog key true v
  | 0x413 => some (s.modCtx key fun c => { c with flog := { c.flog with head := w } })
  | 0x416 => some (s.modCtx key fun c => { c with halthold := w })
  | 0x420 => keeping (decide (v.toNat < 16)) (s.setDbgctl key v)
  | 0x421 => s.debugCmd key v.toNat
  | 0x422 => keeping (dbgselOk v.toNat) (s.modCtx key fun c => { c with dbgsel := v })
  | 0x424 => keeping (csctlOk v.toNat) (s.modCtx key fun c => { c with csctl := w })
  | 0x425 => keeping (v.toNat % 4096 == 0) (s.modCtx key fun c => { c with cslog := { c.cslog with base := v } })
  | 0x426 => keeping (isPow v.toNat 1024 (2 ^ 24)) (s.modCtx key fun c => { c with cslog := { c.cslog with size := w } })
  | 0x428 => some (s.modCtx key fun c => { c with cslog := { c.cslog with head := w } })
  | _ => some s

/-- A receive-mapping value keeps its layout (13 R248). -/
def rxOk (m : RxMap) (isLen : Bool) (v : Nat) : Bool :=
  if isLen then v / 2 ^ 45 == 0 && v % 2 ^ 12 == 0 && !(m.v && bitsN v 31 12 == 0)
  else bitsN v 11 3 == 0 && v / 2 ^ 60 != 0xD && !(v.testBit 0 && bitsN m.l.toNat 31 12 == 0)

/-- Writes a receive mapping; the grid of the last writer of RXL names its counters. -/
def State.setRx (s : State) (key n : Nat) (isLen : Bool) (v : DWord) (grid : Nat) : State :=
  let m := s.rxMap key n
  let m := if isLen then { m with l := v, grid := some grid } else { m with b := v }
  s.modCtx key fun c => { c with rx := Table.set c.rx n m }

/-- Packets judged against a mapping wait to be written (13 R249). -/
def State.rxBusy (s : State) (key n : Nat) : Bool := s.eng.heldPkts.any fun h => h.key == key && h.pkt.map == n

/-- Writes of device registers. A value with a bit set above a register of 32 bits breaks its layout (log 75). -/
def State.setDevCsr (s : State) (i : Nat) (v : DWord) : Option State :=
  let n := v.toNat
  let w : Word := v.setWidth 32
  if i = 0x800 then
    keeping (!s.fab.en && bitsN n 15 10 == 0 && decide (n < 2 ^ 24)) (s.modFab fun f => { f with peerId := n % 1024 })
  else if i = 0x801 then keeping (decide (n < 2)) (s.fabctl (n == 1))
  else if i = 0x802 then keeping (decide (1 ≤ n) && decide (n ≤ 2 ^ 20)) (s.modFab fun f => { f with freply := w })
  else if i = 0x820 then keeping (decide (n < 2 ^ 16)) { s with ctl := { s.ctl with alarmPol := w } }
  else if i < 0x870 then keeping (bitsN n 30 11 == 0 && decide (n < 2 ^ 32)) (s.setAssign (i - 0x860) w)
  else if i = 0x886 then some (s.setFeatReq false v)
  else if i = 0x887 then some (s.setFeatReq true v)
  else if i = 0x888 then
    if s.ctl.locked then some s else keeping (decide (n < 2)) (if n = 1 then s.lockFeatures s.ctl.featReq else s)
  else if i < 0x8B8 then
    keeping (decide (n < 2)) { s with ctl := { s.ctl with pwrcap := Table.set s.ctl.pwrcap (i - 0x8A0) w } }
  else keeping (decide (600 ≤ n) && decide (n ≤ 2400)) { s with ctl := { s.ctl with pwrlim := w } }

/-- FAULT_LOG_RESET (20 R356). -/
def execFaultLogReset (key : Nat) (isSize : Bool) (v : DWord) (s : State) : Res :=
  .next ((s.resetFlog key isSize v).getD s)

end Sys2Proof.Machine
end

