-- ==== Sys2Proof/Machine/Fetch.lean ====
section
/-! DEFINITION. The fetch of a thread's next word (02 R37-R40, 05 R137), the checks of R61 that its bits alone decide (02 R42,
R43, R60, R61), and how a guard covers it (02 R48). -/

namespace Sys2Proof.Machine

/-! ## Fetch -/

/-- What the fetch of a word gives. -/
inductive Fetched where
  | word (w : Nat)
  /-- The cause, and whether a page service can mend it. -/
  | fault (cause : Nat) (replay : Bool)
  /-- The home of the word is not reachable yet. -/
  | wait
  deriving DecidableEq, Repr

/-- The word a crew's loop buffer holds for an address (05 R137). -/
def Crew.loopWord (c : Crew) (a : Nat) : Option Nat :=
  match c.loop with
  | some l => Table.find? l.words a
  | none => none

/-- A crew in its loop buffer keeps a word of the span. -/
def Crew.keepWord (c : Crew) (a w : Nat) : Crew :=
  match c.loop with
  | some l => if l.lo ≤ a ∧ a ≤ l.hi then { c with loop := some { l with words := Table.set l.words a w } } else c
  | none => c

/-- The word a core's instruction cache holds for an address of a key. -/
def Core.cached (c : Core) (key a : Nat) : Option Nat := (c.icache.find? fun e => e.1 == key && e.2.1 == a).map fun e => e.2.2

/-- Fetches a word past the caches: translated like any global access (02 R40), read at CO (05 R137). -/
def State.fetchMem (s : State) (core key : Nat) (pc : DWord) : State × Fetched :=
  if canonical pc = false then (s, .fault (Why.cause .fetch .nonCanonical) false)
  else match s.translate core key pc.toNat .fetch with
    | (u, .error w) => if u.m.unready then (s, .wait) else (u, .fault (w.cause .fetch) w.replayable)
    | (s', .ok pa) =>
      if s'.m.unready || s.homeReady pa = false then (s, .wait)
      else match s'.globalRead core key pa 4 .co with
        | (s, .error w) => (s, .fault (w.cause .fetch) false)
        | (s, .ok bs) =>
          let w := leNat bs
          (s.modCore core fun c => { c with icache := (key, pc.toNat, w) :: c.icache }, .word w)

/-- Fetches a word for a thread: from the loop buffer of its crew, the core's instruction cache, or memory. -/
def State.fetch (s : State) (t : Nat) (pc : DWord) : State × Fetched :=
  let c := s.crewOf t
  let key := (s.gridOf t).accessKey
  if pc.toNat % 4 ≠ 0 then (s, .fault fetchMisaligned false)
  else match c.loopWord pc.toNat with
    | some w => (s, .word w)
    | none =>
      match (s.core c.core).cached key pc.toNat with
      | some w => (s.modCrew (s.thread t).crew fun c => c.keepWord pc.toNat w, .word w)
      | none =>
        match s.fetchMem c.core key pc with
        | (s, .word w) => (s.modCrew (s.thread t).crew fun c => c.keepWord pc.toNat w, .word w)
        | r => r

/-- The chain bit of a word of a packet, zero where it cannot be fetched. -/
def State.chainBit (s : State) (t : Nat) (pc : DWord) : Bool :=
  match (s.fetch t pc).2 with
  | .word w => bitAt w 31
  | _ => false

/-- A packet is malformed (02 R42): `w` is its word at `pc`. -/
def State.malformed (s : State) (t : Nat) (pc : DWord) (w : Nat) : Bool :=
  let base := pc.toNat / 12 * 12
  let ch (k : Nat) : Bool :=
    let a := base + 4 * k
    if a = pc.toNat then bitAt w 31 else s.chainBit t (BitVec.ofNat 64 a)
  (ch 0 && ch 1) || ch 2

/-- What stands at a thread's PC. -/
inductive Got where
  /-- The word, its partner where the two are a chained pair, and whether its packet is malformed. -/
  | words (w : Nat) (partner : Option Nat) (bad : Bool)
  /-- A fetch faults: cause, address and whether a page service can mend it. -/
  | fault (cause : Nat) (va : DWord) (replay : Bool)
  | wait
  deriving DecidableEq, Repr

/-- The word at a PC, with its partner unless it issues alone (14 R269). -/
def State.getWords (s : State) (t : Nat) (pc : DWord) (one : Bool) : State × Got :=
  match s.fetch t pc with
  | (s, .wait) => (s, .wait)
  | (s, .fault c r) => (s, .fault c pc r)
  | (s, .word w) =>
    let bad := s.malformed t pc w
    if bad || !bitAt w 31 || one then (s, .words w none bad)
    else match s.fetch t (pc + 4) with
      | (s, .wait) => (s, .wait)
      | (s, .fault c r) => (s, .fault c (pc + 4) r)
      | (s, .word w1) => (s, .words w (some w1) false)

/-! ## The checks that a word's bits decide (02 R61) -/

/-- A word as steps 2 to 6 of R61 leave it: an instruction, or a PB with CH = 1, which step 7 stops. -/
inductive Word2 where
  | instr (i : Instr)
  | chainedPb
  deriving DecidableEq, Repr

/-- Steps 2 to 6 of R61 on one word under a negotiated vector. -/
def decodeCause (neg : BitVec 128) (w : Nat) : Except Nat Word2 :=
  let gated := (wordFeatures w).any fun b => !neg.getLsbD b
  match decodeWord w with
  | .error .illegalWord => .error Cause.illegalWord
  | .error .reservedOpcode => .error Cause.reservedOpcode
  | .ok i => if gated then .error Cause.featureAbsent else .ok (.instr i)
  | .error .reservedField => .error (if gated then Cause.featureAbsent else Cause.reservedField)
  | .error .nonzeroReserved => .error (if gated then Cause.featureAbsent else Cause.nonzeroReserved)
  | .error .chainPb => .ok .chainedPb

/-- The two words of a pair write the same register (02 R43); `ext` gives the vector registers a word writes beyond its operand
fields (11 R222). -/
def pairClash (ext : Instr → List Nat) (i j : Instr) : Bool :=
  let regs (x : Instr) : List Nat := x.dstRegs ++ ext x
  ((regs i).any (regs j).contains) || (i.dstPreds.any fun p => p != 0 && j.dstPreds.contains p) ||
    i.dstK.any j.dstK.contains

/-- Step 7 of R61 on a chained pair (02 R43). -/
def chainCause (ext : Instr → List Nat) (a b : Word2) : Option Nat :=
  match a, b with
  | .instr i, .instr j =>
    if i.pipe = .prefixWord ∨ j.pipe = .prefixWord then some Cause.chainPrefix
    else if i.pipe = j.pipe then some Cause.chainClass
    else if pairClash ext i j then some Cause.chainHazard
    else none
  | _, _ => some Cause.chainPrefix

/-- A word and its partner after decoding: instructions, or the cause that stops each. -/
structure Decoded where
  bad    : Bool
  first  : Except Nat Word2
  second : Option (Except Nat Word2)

/-- Decodes what stands at a PC. -/
def decoded (neg : BitVec 128) (w : Nat) (partner : Option Nat) (bad : Bool) : Decoded :=
  ⟨bad, decodeCause neg w, partner.map (decodeCause neg)⟩

/-- The cause of steps 1 to 7 in a thread in which the two words run or not (02 R42, R48, R61). -/
def Decoded.cause (d : Decoded) (ext : Instr → List Nat) (run0 run1 : Bool) : Option Nat :=
  let err (r : Bool) : Except Nat Word2 → Option Nat
    | .error c => if r then some c else none
    | .ok _ => none
  if !(run0 || run1) then none
  else if d.bad then some Cause.malformedPacket
  else (err run0 d.first).or <| (d.second.bind (err run1)).or <|
    match d.first, d.second with
    | .ok a, some (.ok b) => chainCause ext a b
    | .ok .chainedPb, none => if run0 then some Cause.chainPrefix else none
    | _, _ => none

/-- The first word as an instruction. -/
def Decoded.i0 (d : Decoded) : Option Instr :=
  match d.first with
  | .ok (.instr i) => some i
  | _ => none

/-- The second word as an instruction. -/
def Decoded.i1 (d : Decoded) : Option Instr :=
  match d.second with
  | some (.ok (.instr i)) => some i
  | _ => none

/-- Vector registers that a QACC word writes beyond its operand fields: V of the accumulator it names (11 R222, R229, R234). -/
def State.qaccDsts (s : State) (t : Nat) (i : Instr) : List Nat :=
  match i with
  | .qaccQgen _ q d _ => spanOf (s.qaccOf t q).n d 2
  | .qaccQaplReg _ q d _ | .qaccQapltReg _ q d _ | .qaccQaprReg _ q d _ | .qaccQaprtReg _ q d _ => spanOf (s.qaccOf t q).n d 0
  | _ => []

/-! ## The guard over a word (02 R48, R50) -/

/-- The word that a guard covers next runs in the thread. -/
def Guard.runs (g : Guard) : Bool := !g.active || g.mask.getLsbD g.index == g.pval

/-- Nothing stops the words at decode in a thread with a guard. -/
def Decoded.clean (d : Decoded) (ext : Instr → List Nat) (g : Guard) : Bool :=
  (d.cause ext g.runs (d.second.isSome && (g.step 1).runs)).isNone

/-- A word runs in a thread whose guard is given: a PB or a crew-wide word under a guard is about to issue and faults (R50). -/
def wordRuns (g : Guard) : Option Instr → Bool
  | some i => g.runs || i.crewWide || i.pipe == .prefixWord
  | none => g.runs

/-- A covered PB with CH = 1 whose sense skips it faults with guard-cover, in a malformed packet too (02 R48, R50): the chain cause and
malformed-packet are none of a word that does not run. -/
def Decoded.coveredPb (d : Decoded) (g : Guard) : Bool :=
  match d.first with
  | .ok .chainedPb => g.active && !g.runs
  | _ => false

/-- A crew-wide word outside a guard. -/
def crewWideFree (g : Guard) : Option Instr → Bool
  | some i => i.crewWide && !g.active
  | none => false

/-- Whether the words at a thread's PC need the whole crew (04 R115, 02 R44). -/
def Decoded.needsCrew (d : Decoded) (ext : Instr → List Nat) (g : Guard) : Bool :=
  d.clean ext g && (crewWideFree g d.i0 || (d.second.isSome && crewWideFree (g.step 1) d.i1))

end Sys2Proof.Machine
end

