-- ==== Sys2Proof/Machine/Integer.lean ====
section
/-! DEFINITION. The meanings of the integer, predicate and move words (04 R95-R106). -/

namespace Sys2Proof.Machine

/-- IOP (04 R97, R98). -/
def execIop (ch : Bool) (d a b : Reg) (w64 : Bool) (f : IopFn) (s : State) : Res :=
  let bs := if f.unary then [] else if w64 && !f.shift then pairSrc b else [b]
  let srcs := (if w64 then pairSrc a else [a]) ++ bs
  .next (s.runRegs (.iop ch d a b w64 f) (s.prodOf srcs) fun s t => .ofRegs (iopLane (s.src t) d a b w64 f))

/-- ADDI (04 R99). -/
def execAddi (ch : Bool) (d a : Reg) (i : BitVec 13) (s : State) : Res :=
  .next (s.runRegs (.addi ch d a i) (s.prodOf [a]) fun s t =>
    .ofRegs (regWrites d ((s.src t).rv a + i.signExtend 32)))

/-- ANDI (04 R99). -/
def execAndi (ch : Bool) (d a : Reg) (i : BitVec 13) (s : State) : Res :=
  .next (s.runRegs (.andi ch d a i) (s.prodOf [a]) fun s t =>
    .ofRegs (regWrites d ((s.src t).rv a &&& i.setWidth 32)))

/-- ORI (04 R99). -/
def execOri (ch : Bool) (d a : Reg) (i : BitVec 13) (s : State) : Res :=
  .next (s.runRegs (.ori ch d a i) (s.prodOf [a]) fun s t =>
    .ofRegs (regWrites d ((s.src t).rv a ||| i.setWidth 32)))

/-- XORI (04 R99). -/
def execXori (ch : Bool) (d a : Reg) (i : BitVec 13) (s : State) : Res :=
  .next (s.runRegs (.xori ch d a i) (s.prodOf [a]) fun s t =>
    .ofRegs (regWrites d ((s.src t).rv a ^^^ i.setWidth 32)))

/-- SHI (04 R100). -/
def execShi (ch : Bool) (d a : Reg) (k : ShKind) (w64 : Bool) (amt : BitVec 6) (s : State) : Res :=
  .next (s.runRegs (.shi ch d a k w64 amt) (s.prodOf (if w64 then pairSrc a else [a])) fun s t =>
    let th := s.src t
    .ofRegs (if w64 then pairWrites d (iopResult (shKindFn k) (th.rx a) 0 amt.toNat)
             else regWrites d (iopResult (shKindFn k) (th.rv a) 0 amt.toNat)))

/-- MOVI (04 R101). -/
def execMovi (ch : Bool) (d : Reg) (i : BitVec 19) (s : State) : Res :=
  .next (s.runRegs (.movi ch d i) (s.prodOf []) fun _ _ => .ofRegs (regWrites d (i.signExtend 32)))

/-- MOVHI (04 R101): it reads its destination. -/
def execMovhi (ch : Bool) (d : Reg) (i : BitVec 19) (s : State) : Res :=
  .next (s.runRegs (.movhi ch d i) (s.prodOf [d]) fun s t =>
    .ofRegs (regWrites d (BitVec.ofNat 32 (i.toNat * 2 ^ 13 + ((s.src t).rv d).toNat % 2 ^ 13))))

/-- ICMP (04 R103). -/
def execIcmp (ch : Bool) (p : PReg) (a b : Reg) (r : Cmp) (t : ITy) (s : State) : Res :=
  .next (s.runRegs (.icmp ch p a b r t) prodG fun s q =>
    .ofPred p (cmpInt r (cmpOperand (s.src q) t a) (cmpOperand (s.src q) t b)))

/-- ICMPI (04 R103). -/
def execIcmpi (ch : Bool) (p : PReg) (a : Reg) (r : Cmp) (t : ITy) (i : BitVec 10) (s : State) : Res :=
  .next (s.runRegs (.icmpi ch p a r t i) prodG fun s q =>
    .ofPred p (cmpInt r (cmpOperand (s.src q) t a) (cmpImm t i)))

/-- PLOP (04 R104). -/
def execPlop (ch : Bool) (d x y : PReg) (f : PlopFn) (s : State) : Res :=
  .next (s.runRegs (.plop ch d x y f) prodG fun s t =>
    .ofPred d (plopResult f ((s.src t).rp x) ((s.src t).rp y)))

/-- SEL (04 R105): on a predicate other than p0 the result is G; on p0 only A is a source. -/
def execSel (ch : Bool) (d a b : Reg) (p : PReg) (w64 : Bool) (s : State) : Res :=
  let prod := if p = 0 then s.prodOf (if w64 then pairSrc a else [a]) else prodG
  .next (s.runRegs (.sel ch d a b p w64) prod fun s t =>
    let th := s.src t
    let r := if th.rp p then a else b
    .ofRegs (if w64 then pairWrites d (th.rx r) else regWrites d (th.rv r)))

/-- XMOV.MOV (04 R106): the tag is copied with its base and stride. -/
def execXmovMov (ch : Bool) (d a : Reg) (s : State) : Res :=
  let prod : Nat → Reg → Tag := fun c _ => s.srcTag c a
  .next (s.runRegs (.xmovMov ch d a) prod fun s t => .ofRegs (regWrites d ((s.src t).rv a)))

/-- The value of a special value in a thread (01 R23). -/
def State.special (s : State) (t : Nat) (sp : SpecialValue) : DWord :=
  let th := s.thread t
  let c := s.crewOf t
  let tm := s.teamOf t
  let g := s.gridOf t
  let n (x : Nat) : DWord := BitVec.ofNat 64 x
  match sp with
  | .tidX => n (th.index % g.lr.tx)
  | .tidY => n (th.index / g.lr.tx % g.lr.ty)
  | .tidZ => n (th.index / g.lr.tx / g.lr.ty)
  | .lane => n th.lane
  | .crew => n c.index
  | .teamX => n (tm.index % g.lr.gx)
  | .teamY => n (tm.index / g.lr.gx % g.lr.gy)
  | .teamZ => n (tm.index / g.lr.gx / g.lr.gy)
  | .grid => g.id.setWidth 64
  | .core => n c.core
  | .cluster => n (clusterOf c.core)
  | .die => n (dieOf c.core)
  | .peer => n s.fab.peerId
  | .clock => n (s.cycle - (s.core c.core).start)
  | .seat => n g.seat.code
  | .ctx => n g.key
  | .fdepth => th.fork.fdepth.setWidth 64

/-- The shape of a special value in a crew (01 R23); a base of tid.x is the first lane's value. -/
def State.specialTag (s : State) (sp : SpecialValue) (c : Nat) : Tag :=
  let g := s.grid (s.team (s.crew c).team).grid
  let first := 32 * (s.crew c).index
  match sp with
  | .tidX => if g.lr.tx % 32 = 0 then .a (BitVec.ofNat 32 (first % g.lr.tx)) 1 else .g
  | .tidY => if g.lr.tx % 32 = 0 then .u else .g
  | .tidZ => if g.lr.tx * g.lr.ty % 32 = 0 then .u else .g
  | .lane => .a 0 1
  | .fdepth => .g
  | _ => .u

/-- XMOV.RDS (04 R106, 01 R23). -/
def execXmovRds (ch : Bool) (d : Reg) (sp : SpecialValue) (s : State) : Res :=
  .next (s.runRegs (.xmovRds ch d sp) (fun c _ => s.specialTag sp c) fun s t =>
    .ofRegs (if sp == .clock then pairWrites d (s.special t sp) else regWrites d ((s.special t sp).setWidth 32)))

/-- XMOV.RDK (04 R106, 01 R21). -/
def execXmovRdk (ch : Bool) (d : Reg) (k : BitVec 5) (s : State) : Res :=
  .next (s.runRegs (.xmovRdk ch d k) (fun _ _ => .u) fun s t => .ofRegs (pairWrites d (s.kReg t k)))

/-- XMOV.WRK (04 R106, 01 R21): in each team, the value of the lowest executing lane of the leader crew; other crews fault. -/
def execXmovWrk (ch : Bool) (a : Reg) (k : BitVec 5) (s : State) : Res :=
  let i : Instr := .xmovWrk ch a k
  let first (tm : Nat) : Option Nat := s.m.cur.lanes.find? fun t =>
    (s.crewOf t).team == tm && (s.crewOf t).index == 0 && (s.issueCheck i t).isNone && !(s.thread t).isCont
  .next (s.runLanes i fun s t =>
    let c := s.crewOf t
    if c.index ≠ 0 then .early Cause.kWriter 0
    else if first c.team = some t then
      let x := (s.src t).rx a
      .done (s.modTeam c.team fun tm => { tm with kLead := tm.kLead.set k.toNat x k.isLt })
    else .done s)

/-- XMOV.RDP (04 R106): bit 0 is 1. -/
def execXmovRdp (ch : Bool) (d : Reg) (s : State) : Res :=
  .next (s.runRegs (.xmovRdp ch d) prodG fun s t => .ofRegs (regWrites d (((s.src t).p ||| 1).setWidth 32)))

/-- XMOV.WRP (04 R106): bit 0 is ignored. -/
def execXmovWrp (ch : Bool) (a : Reg) (s : State) : Res :=
  .next (s.runRegs (.xmovWrp ch a) prodG fun s t =>
    let x := (s.src t).rv a
    ⟨[], (List.range 15).map fun i => (BitVec.ofNat 4 (i + 1), x.getLsbD (i + 1)), 0⟩)

/-- The code of a tag (01 R17). -/
def Tag.code : Tag → Nat
  | .u => 0
  | .a _ _ => 1
  | .g => 2

/-- XMOV.SHAPE (04 R106). -/
def execXmovShape (ch : Bool) (d a : Reg) (s : State) : Res :=
  .next (s.runRegs (.xmovShape ch d a) (fun _ _ => .u) fun s t =>
    .ofRegs (regWrites d (BitVec.ofNat 32 (s.srcTag (s.thread t).crew a).code)))

/-- XMOV.PREC (04 R106): the old precedence is read, the new one holds from the thread's next gather; the result is of
another kind than the first rows of R18, so it is G. -/
def execXmovPrec (ch : Bool) (d : Reg) (e : BitVec 3) (s : State) : Res :=
  let i : Instr := .xmovPrec ch d e
  let s' := s.runRegs i prodG fun s t => .ofRegs (regWrites d (BitVec.ofNat 32 (s.thread t).prec))
  if s.m.cur.probe then .next s'
  else .next (s.m.cur.lanes.foldl (fun q t =>
    if (s.issueCheck i t).isNone then q.modThread t fun th => { th with precNext := some e.toNat } else q) s')

/-- LEA (04 R102). -/
def execLea (ch : Bool) (d a b : Reg) (sh : BitVec 3) (sg : Bool) (s : State) : Res :=
  .next (s.runRegs (.lea ch d a b sh sg) (s.prodOf (pairSrc a ++ [b])) fun s t =>
    .ofRegs (pairWrites d (leaResult ((s.src t).rx a) ((s.src t).rv b) sh.toNat sg)))

end Sys2Proof.Machine
end

