-- ==== Sys2Proof/Machine/System.lean ====
section
/-! DEFINITION. The meanings of the SYS words (14 R259-R281) and the completions of those that write their result late. -/

namespace Sys2Proof.Machine

/-- What a SYS word does in a lane: its effect and its register result. -/
abbrev SysRes := LaneRes × List (Reg × Word)

/-- An earlier word of a thread has not completed; the late results of SYS words do not count (14 R261). -/
def State.sysWaits (s : State) (t : Nat) : Bool :=
  let c := (s.thread t).crew
  (s.eng.txns.any fun e => e.2.threads.contains t) || (s.eng.tiles.any fun e => e.2.crew == c) ||
  (s.eng.copies.any fun e => s.opCovers e.2.crew e.2.one t) || (s.eng.xfers.any fun e => s.opCovers e.2.crew e.2.one t) ||
  s.eng.ratoms.any fun e => e.2.crew == c

/-- Runs a SYS word: once per executing lane, after the thread's earlier words (14 R261). The second word of a pair waits in its
thread for the first (09 R184). -/
def State.runSys (s : State) (i : Instr) (f : State → Nat → SysRes) : State :=
  s.runWrites i fun s t =>
    if s.sysWaits t then (if s.m.cur.probe then .early holdCode 0 else .block s, []) else f s t

/-- A fault at issue. -/
def sysFault (cause : Nat) : SysRes := (.early cause 0, [])

/-- A value, and nothing else. -/
def sysValue (s : State) (ws : List (Reg × Word)) : SysRes := (.done s, ws)

/-- A result that gives a cause at once. -/
def sysCause (s : State) (d : Reg) (c : Nat) : SysRes := (.done s, pairWrites d (causeWord c))

/-- A SYS word whose result comes later. -/
def State.sysLater (s : State) (t : Nat) (d : Reg) (k : SysKind) : State × Nat :=
  let (id, s) := s.newId
  (s.modEng fun e => { e with sys := Table.set e.sys id ⟨k, t, d, none⟩ }, id)

/-! ## SEATQ and FEATQ (14 R262) -/

/-- The consent bits of a context. -/
def State.consentOf (s : State) (key : Nat) : Nat :=
  match s.ctx? key with
  | some c => c.consent % 4
  | none => 0

/-- SEATQ. -/
def execSysSeatq (ch : Bool) (d : Reg) (s : State) : Res :=
  .next (s.runSys (.sysSeatq ch d) fun s t =>
    let g := s.gridOf t
    sysValue s (regWrites d (BitVec.ofNat 32 (g.key * 2 ^ 16 + s.consentOf g.key * 2 ^ 8 +
      (if g.seat = .auditor then g.aud * 8 else 0) + (if g.seat = .owner then 0 else 4) + g.seat.code))))

/-- FEATQ. -/
def execSysFeatq (ch : Bool) (d : Reg) (s : State) : Res :=
  .next (s.runSys (.sysFeatq ch d) fun s _ =>
    sysValue s (quadWrites d (s.featWord 0) (s.featWord 1) (s.featWord 2) (s.featWord 3)))

/-! ## CSRR and CSRW (14 R263) -/

/-- CSRR. -/
def execSysCsrr (ch : Bool) (d : Reg) (idx : BitVec 12) (s : State) : Res :=
  .next (s.runSys (.sysCsrr ch d idx) fun s t =>
    let i := idx.toNat
    if csrGrants i (s.gridOf t).seat false = false then sysFault Cause.seatDenied
    else
      let v := s.csrRead t i
      sysValue s (if csrIs64 i then pairWrites d v else regWrites d (v.setWidth 32)))

/-- A thread waits at a CSRW of a receive mapping until the packets judged against the old value are written (13 R249). -/
def State.rxWait (s : State) (t key n : Nat) (isLen : Bool) (v : DWord) (grid : Nat) : State :=
  let cur := s.m.cur
  let (id, s) := s.newId
  let after := s.afterOf t
  let s := s.modEng fun e => { e with rx := Table.set e.rx id ⟨key, n, isLen, v, grid, t, after, if cur.first then 2 else 1⟩ }
  let g := s.wordGuard t
  (s.retire t).modThread t fun th => th.addWait (.mapping id) cur.pc g

/-- CSRW of a register in a lane. -/
def csrwLane (i : Nat) (v : DWord) (s : State) (t : Nat) : SysRes :=
  let key := (s.gridOf t).key
  if csrGrants i (s.gridOf t).seat true = false then sysFault Cause.seatDenied
  else if 0x7C0 ≤ i ∧ i < 0x800 then
    let n := (i - 0x7C0) / 2
    let isLen := i % 2 == 1
    let grid := (s.teamOf t).grid
    if rxOk (s.rxMap key n) isLen v.toNat = false then sysFault Cause.reservedField
    else if s.rxBusy key n then (.placed (s.rxWait t key n isLen v grid), [])
    else (.done (s.setRx key n isLen v grid), [])
  else
    let r := if i < 0x100 then s.setThreadCsr t i v else if i < 0x800 then s.setCtxCsr key i v else s.setDevCsr i v
    match r with
    | some s => (.done s, [])
    | none => sysFault Cause.reservedField

/-- CSRW. -/
def execSysCsrw (ch : Bool) (a : Reg) (idx : BitVec 12) (s : State) : Res :=
  .next (s.runSys (.sysCsrw ch a idx) fun s t =>
    let th := s.src t
    csrwLane idx.toNat (if csrIs64 idx.toNat then th.rx a else (th.rv a).setWidth 64) s t)

/-- RECEIVE_MAPPING_WRITE: the CSRW completes (13 R249). -/
def execReceiveMappingWrite (id : Nat) (s : State) : Res :=
  .next <|
    match Table.find? s.eng.rx id with
    | none => s
    | some w =>
      if s.rxBusy w.key w.n then s
      else
        let s := (s.setRx w.key w.n w.isLen w.value w.grid).modEng fun e => { e with rx := Table.erase e.rx id }
        if (s.thread w.thread).wait == .mapping id then
          s.modThread w.thread fun th => ({ th with pc := w.after, guard := th.guard.step w.words } : Thread).release
        else s

/-! ## TRAP, BRK, TRET (14 R266, R269) -/

/-- A trap of a word that retires: the handler resumes at the next word. -/
def trapLane (cause : Nat) (val : DWord) (s : State) (t : Nat) : SysRes :=
  let cur := s.m.cur
  if s.pairTrapped t then (.placed (s.bothFault t), [])
  else
    let s := (s.retire t).modThread t fun th => { th with guard := cur.used t th.guard }
    (.placed (s.trap t cause val cur.pc cur.after false false), [])

/-- TRAP. -/
def execSysTrap (ch : Bool) (tag : BitVec 12) (n : BitVec 4) (s : State) : Res :=
  .next (s.runSys (.sysTrap ch tag n) (trapLane (Cause.softwareTrap + n.toNat) (tag.setWidth 64)))

/-- A debugger is attached to the context of a thread. -/
def State.attached (s : State) (t : Nat) : Bool :=
  match s.ctx? (s.gridOf t).key with
  | some c => c.att
  | none => false

/-- BRK: it holds the crew where a debugger is attached, else it traps (14 R266, 25 R420). -/
def execSysBrk (ch : Bool) (tag : BitVec 16) (s : State) : Res :=
  let r := s.runSys (.sysBrk ch tag) fun s t =>
    if s.attached t then
      let pc := s.m.cur.pc
      let s := s.advance t
      if (s.crewOf t).held.isSome then (.placed s, [])
      else (.placed (s.holdCrew (s.thread t).crew .brk Cause.softwareBreakpoint t pc (tag.setWidth 64)), [])
    else trapLane Cause.softwareBreakpoint (tag.setWidth 64) s t
  .next (match r.m.cur.lanes.find? fun t => (r.crewOf t).held == some .brk with
    | some t => r.holdOthers (r.gridOf t).key
    | none => r)

/-- TRET (14 R269). -/
def execSysTret (ch : Bool) (s : State) : Res :=
  .next (s.runSys (.sysTret ch) fun s t =>
    if (s.thread t).trap.inh = false then sysFault Cause.tretOutside
    else
      let s := s.leaveLoop t (s.thread t).trap.tepc
      (.placed ((s.modThread t Thread.trapReturn).retire t), []))

/-! ## BPSET and BPCLR (14 R270) -/

/-- A comparator configuration keeps its layout. -/
def bpOk (addr : DWord) (cfg : Word) : Bool :=
  addr.toNat % 4 == 0 && bitsN cfg.toNat 15 12 == 0 &&
    (if cfg.getLsbD 11 then decide (bitsN cfg.toNat 8 6 ≤ 5) else bitsN cfg.toNat 10 0 == 0)

/-- A comparator is held by another context on a core of the team. -/
def State.bpBusy (s : State) (cores : List Nat) (n key : Nat) : Bool :=
  cores.any fun c => match Table.find? (s.core c).comps n with
    | some x => x.key != key
    | none => false

/-- BPSET. -/
def execSysBpset (ch : Bool) (n : BitVec 3) (a b : Reg) (s : State) : Res :=
  .next (s.runSys (.sysBpset ch n a b) fun s t =>
    let addr := (s.src t).rx a
    let cfg := (s.src t).rv b
    let g := s.gridOf t
    let cores := (s.teamOf t).cores
    if bpOk addr cfg = false then sysFault Cause.reservedField
    else if cfg.getLsbD 11 ∧ g.lr.regs ≤ bitsN cfg.toNat 5 0 then sysFault Cause.unallocatedRegister
    else if s.bpBusy cores n.toNat g.key then sysFault Cause.comparatorBusy
    else (.done (s.armAll cores [(n.toNat, ⟨addr, cfg, g.key⟩)]), []))

/-- BPCLR. -/
def execSysBpclr (ch : Bool) (n : BitVec 3) (s : State) : Res :=
  .next (s.runSys (.sysBpclr ch n) fun s t =>
    let g := s.gridOf t
    let cores := (s.teamOf t).cores
    if s.bpBusy cores n.toNat g.key then sysFault Cause.comparatorBusy
    else (.done (cores.foldl (fun s c => s.modCore c fun x => { x with comps := Table.erase x.comps n.toNat }) s), []))

/-! ## PLACE (14 R272, 21 R380) -/

/-- The fixer takes placements: the features are locked and it is ready (26 R439, R440). -/
def State.fixerReady (s : State) : Bool := s.ctl.locked && s.fnReady 33

/-- A PLACE or PLACE.RS waits before it is accepted. -/
def placeHeld (s : State) (rs : Bool) (xa : DWord) : Bool :=
  !s.fixerReady || (rs && s.eng.sys.any fun e => match e.2.kind with
    | .ckpt h _ => h == xa.toNat % 2 ^ 32
    | _ => false)

/-- PLACE of a record. -/
def placeRecord (d : Reg) (xa : DWord) (clusters : List Nat) (rp : Bool) (s : State) : SysRes :=
  match s.fixerReads 0 xa with
  | (s, .error c) => sysCause s d c
  | (s, .ok (h, b)) =>
    match s.checkRecord .place clusters h b with
    | (s, .error c) => sysCause s d c
    | (s, .ok c) =>
      let n := s.fixer.placeCount
      let s := { s with fixer := { s.fixer with placeCount := (n + 1) % 2 ^ 48 } }
      let (s, g) := s.acceptGrid c 1 none 0xFFF n rp clusters
      sysValue s (pairWrites d ((s.grid g).id.setWidth 64))

/-- PLACE.RS of an image. -/
def placeImage (d : Reg) (xa : DWord) (clusters : List Nat) (rp : Bool) (s : State) : SysRes :=
  let h := xa.toNat % 2 ^ 32
  match Table.find? s.fixer.images h with
  | none => sysCause s d Cause.contextAbsent
  | some img =>
    match s.ctx? img.key with
    | none => sysCause s d Cause.contextAbsent
    | some c =>
      if c.quarantined then sysCause s d Cause.quarantined
      else
        let (s, id) := s.restoreImage h img rp clusters
        sysValue s (pairWrites d (id.setWidth 64))

/-- PLACE in a lane. -/
def placeLane (rs rp : Bool) (d a b : Reg) (s : State) (t : Nat) : SysRes :=
  let xa := (s.src t).rx a
  let vb := (s.src t).rv b
  if 2 ^ 24 ≤ vb.toNat then sysFault Cause.reservedField
  else if placeHeld s rs xa then (.block s, [])
  else if rs then placeImage d xa (clustersOf vb.toNat) rp s
  else placeRecord d xa (clustersOf vb.toNat) rp s

/-- PLACE. -/
def execSysPlace (ch : Bool) (d a b : Reg) (rp : Bool) (s : State) : Res :=
  .next (s.runSys (.sysPlace ch d a b rp) (placeLane false rp d a b))

/-- PLACE.RS. -/
def execSysPlaceRs (ch : Bool) (d a b : Reg) (rp : Bool) (s : State) : Res :=
  .next (s.runSys (.sysPlaceRs ch d a b rp) (placeLane true rp d a b))

/-! ## PREEMPT (14 R273, 21 R378) -/

/-- The grid of a context with an identifier. -/
def State.gridById (s : State) (key id : Nat) : Option Nat :=
  (s.grids.keysWhere fun _ g => g.key == key && g.id.toNat == id).head?

/-- PREEMPT in a lane; without a target, or with one that the count has reached, the stop is requested at once. -/
def preemptLane (d a : Reg) (target : Option DWord) (s : State) (t : Nat) : SysRes :=
  let xa := (s.src t).rx a
  let key := xa.toNat % 2 ^ 11
  let id := xa.toNat / 2 ^ 32
  if bitsN xa.toNat 31 11 ≠ 0 then sysFault Cause.reservedField
  else match s.ctx? key with
    | none => sysCause s d Cause.contextAbsent
    | some c =>
      if c.consent % 2 = 0 then sysCause s d Cause.consentRefused
      else match s.gridById key id with
        | none =>
          if 1 ≤ id ∧ id < s.fixer.nextGridId ∧ s.grids.all (fun e => e.2.id.toNat != id) then sysValue s (pairWrites d retiredWord)
          else sysCause s d Cause.contextAbsent
        | some g =>
          if (s.grid g).status ≠ .live ∨ (s.grid g).armed.isSome then sysCause s d Cause.contextBusy
          else
            let (s, op) := s.sysLater t d (.preempt g)
            match target with
            | none => (.done (s.stopGrid g op), [])
            | some n =>
              if n.toNat ≤ (s.retiredCount key).toNat then (.done (s.stopGrid g op), [])
              else (.done (s.modGrid g fun x => { x with armed := some (n, op), met := false }), [])

/-- PREEMPT. -/
def execSysPreempt (ch : Bool) (d a : Reg) (s : State) : Res :=
  .next (s.runSys (.sysPreempt ch d a) (preemptLane d a none))

/-- PREEMPT.AT. -/
def execSysPreemptAt (ch : Bool) (d a b : Reg) (s : State) : Res :=
  .next (s.runSys (.sysPreemptAt ch d a b) fun s t => preemptLane d a (some ((s.src t).rx b)) s t)

/-! ## RESET (14 R274) -/

/-- Every grid of a context stops for a RESET; a PREEMPT of one gives context-absent (14 R281). -/
def State.resetStops (s : State) (key op : Nat) : State :=
  (s.grids.keysWhere fun _ g => g.key == key).foldl (fun s h =>
    let g := s.grid h
    let s := match g.status, g.armed with
      | .stopping o, _ => s.preemptDone o (causeWord Cause.contextAbsent)
      | _, some (_, o) => s.preemptDone o (causeWord Cause.contextAbsent)
      | _, none => s
    match g.status with
    | .preempted _ => s
    | _ => (s.modGrid h fun x => { x with status := .stopping op, armed := none }).stopCrews (s.gridCrews h)) s

/-- RESET. -/
def execSysReset (ch : Bool) (d a : Reg) (s : State) : Res :=
  .next (s.runSys (.sysReset ch d a) fun s t =>
    let key := ((s.src t).rv a).toNat
    if key = 0 ∨ 2 ^ 11 ≤ key then sysFault Cause.reservedField
    else if (s.ctx? key).isNone then sysCause s d Cause.contextAbsent
    else
      let (s, op) := s.sysLater t d (.reset key)
      (.done (s.resetStops key op), []))

/-- A receipt enters the fixer's store: its handle. -/
def State.addReceipt (s : State) (r : Receipt) : State × Nat :=
  let h := s.fixer.nextHandle
  ({ s with fixer := { s.fixer with nextHandle := h + 1, receipts := Table.set s.fixer.receipts h r } }, h)

/-- What a context holds in a core and in a die is scrubbed. -/
def Core.forget (c : Core) (key : Nat) : Core :=
  { c with l1 := c.l1.filter fun l => l.key != key
           tlb := c.tlb.filter fun e => e.key != key
           icache := c.icache.filter fun e => e.1 != key
           pred := c.pred.filter fun e => e.2.key != key
           comps := c.comps.filter fun e => e.2.key != key }

def Die.forget (d : Die) (key : Nat) : Die :=
  { d with l2 := d.l2.filter fun l => l.key != key
           tlb := d.tlb.filter fun e => e.key != key
           scratch := Table.erase d.scratch key
           sheet := if d.assign = some key then [] else d.sheet }

/-- A context is destroyed: its grids, its state on the device, its images, its bindings and its key slot. -/
def State.destroy (s : State) (key : Nat) : State :=
  let s := s.killGrids (s.grids.keysWhere fun _ g => g.key == key) (causeWord Cause.contextAbsent)
  let core (e : Nat × Core) : Nat × Core := (e.1, e.2.forget key)
  let die (e : Nat × Die) : Nat × Die := (e.1, e.2.forget key)
  let stream (e : Nat × Stream) : Nat × Stream := (e.1, if e.2.bound = some key then { e.2 with bound := none } else e.2)
  let s := { s with
    cores := s.cores.map core
    dies := s.dies.map die
    fixer := { s.fixer with
      images := s.fixer.images.filter fun e => e.2.key != key
      parks := s.fixer.parks.filter fun e => e.2.key != key }
    fab := { s.fab with streams := s.fab.streams.map stream }
    ctxs := Table.erase s.ctxs key }
  (s.modEng fun e => { e with heldPkts := e.heldPkts.filter fun h => h.key != key
                              heldAtoms := e.heldAtoms.filter fun a => a.1 != key
                              recvs := e.recvs.filter fun r => r.key != key
                              rx := e.rx.filter fun x => x.2.key != key }).withdraw

/-- RESET_SCRUB_COMPLETE: the context is gone and the receipt's handle is written. The number of units on the device is not
stated (log 18); the length is that of the units. -/
def execResetScrubComplete (id : Nat) (s : State) : Res :=
  .next <|
    match Table.find? s.eng.sys id with
    | some o =>
      match o.kind with
      | .reset key =>
        if s.gridsQuiet (s.grids.keysWhere fun _ g => g.key == key) = false then s
        else if (s.ctx? key).isNone then s.sysDone id (causeWord Cause.contextAbsent)
        else
          let (w, s) := (s.destroy key).freeWord
          let (s, h) := s.addReceipt ⟨1, key, 0, w.setWidth 64 * 64, w.setWidth 64, 0, 0, 0, []⟩
          s.sysDone id (BitVec.ofNat 64 h)
      | _ => s
    | none => s

/-! ## SCRUB (14 R275) -/

/-- SCRUB. -/
def execSysScrub (ch : Bool) (d a b : Reg) (s : State) : Res :=
  .next (s.runSys (.sysScrub ch d a b) fun s t =>
    let base := ((s.src t).rx a).toNat
    let len := ((s.src t).rx b).toNat
    if base % 4096 ≠ 0 ∨ len % 4096 ≠ 0 ∨ len < 4096 ∨ 2 ^ 40 < len then sysFault Cause.reservedField
    else (.done (s.sysLater t d (.scrub base len)).1, []))

/-- The counts of a scrub so far. -/
structure Scrubbed where
  clean   : Nat
  corr    : Nat
  uncorr  : Nat
  skipped : Nat
  pages   : List Nat

/-- A unit is judged by its poison and the ECC step of its read, which counts at the tower (16 R317), and is written as zeros under key
0. A unit of host memory has neither. -/
def State.scrubUnit (s : State) (pa : Nat) (r : Scrubbed) : State × Scrubbed :=
  let zero (s : State) : State := (s.agentWrite 0 pa (List.replicate 64 0)).1
  match s.devOff pa with
  | none => (zero s, { r with clean := r.clean + 1 })
  | some o =>
    if s.mem.poison.contains (o / 64) then (zero s, { r with uncorr := r.uncorr + 1 })
    else
      let (e, s) := s.ecc (o / 64)
      if e = .uncorrectable then (zero (s.towerCount (towerOf o) 1), { r with uncorr := r.uncorr + 1 })
      else if e.fixes then (zero (s.towerCount (towerOf o) 0), { r with corr := r.corr + 1 })
      else (zero s, { r with clean := r.clean + 1 })

/-- The 64 units of a page; a page with an uncorrectable unit is retired, a retired page is skipped and listed. -/
def State.scrubPage (s : State) (va pa : Nat) (r : Scrubbed) : State × Scrubbed :=
  match s.devOff pa with
  | none => (List.range 64).foldl (fun x i => x.1.scrubUnit (pa + 64 * i) x.2) (s, r)
  | some o =>
    if s.mem.retired.contains (o / 4096) then (s, { r with skipped := r.skipped + 64, pages := r.pages ++ [va] })
    else
      let (s, r') := (List.range 64).foldl (fun x i => x.1.scrubUnit (pa + 64 * i) x.2) (s, r)
      if r.uncorr < r'.uncorr then
        (s.retirePage (towerOf o) (o / 4096), { r' with pages := r'.pages ++ [va] })
      else (s, r')

/-- The pages of a range, in order; a page that cannot be translated for a store ends the scrub with its cause. -/
def State.scrubPages (s : State) (r : Scrubbed) : Nat → Nat → State × Except Nat Scrubbed
  | 0, _ => (s, .ok r)
  | n + 1, va =>
    if canonical (BitVec.ofNat 64 va) = false then (s, .error (Why.cause .store .nonCanonical))
    else match s.deviceTranslate 0 va .store with
      | (s, .error w) => (s, .error (w.cause .store))
      | (s, .ok pa) =>
        let (s, r) := s.scrubPage va pa r
        State.scrubPages s r n (va + 4096)

/-- SCRUB_COMPLETE: the range is zero and the receipt's handle is written. -/
def execScrubComplete (id : Nat) (s : State) : Res :=
  .next <|
    match Table.find? s.eng.sys id with
    | some o =>
      match o.kind with
      | .scrub base len =>
        match s.scrubPages ⟨0, 0, 0, 0, []⟩ (len / 4096) base with
        | (s, .error c) => s.sysDone id (causeWord c)
        | (s, .ok r) =>
          let (s, h) := s.addReceipt ⟨0, 0, BitVec.ofNat 64 base, BitVec.ofNat 64 len, BitVec.ofNat 64 r.clean,
            BitVec.ofNat 64 r.corr, BitVec.ofNat 64 r.uncorr, BitVec.ofNat 64 r.skipped, r.pages⟩
          s.sysDone id (BitVec.ofNat 64 h)
      | _ => s
    | none => s

/-! ## CKPT and CKPT.RS (14 R276, 24 R413) -/

/-- A namespace has a checkpoint counter, and the flash port is ready. -/
def State.flashUsable (s : State) (ns : Nat) : Bool := decide (1 ≤ ns) && decide (ns ≤ 1024) && s.fnReady 32

/-- CKPT. -/
def execSysCkpt (ch : Bool) (d a b : Reg) (s : State) : Res :=
  .next (s.runSys (.sysCkpt ch d a b) fun s t =>
    let h := ((s.src t).rv a).toNat
    let ns := ((s.src t).rv b).toNat
    match Table.find? s.fixer.images h with
    | none => sysCause s d Cause.contextAbsent
    | some img =>
      if s.consentOf img.key < 2 then sysCause s d Cause.consentRefused
      else if s.flashUsable ns = false then sysCause s d Cause.flashFailure
      else (.done (s.sysLater t d (.ckpt h ns)).1, []))

/-- CKPT.RS. -/
def execSysCkptRs (ch : Bool) (d a b : Reg) (s : State) : Res :=
  .next (s.runSys (.sysCkptRs ch d a b) fun s t =>
    let ns := ((s.src t).rv b).toNat
    if s.flashUsable ns = false then sysCause s d Cause.flashFailure
    else (.done (s.sysLater t d (.ckptRs ((s.src t).rv a).toNat ns)).1, []))

/-- The namespace a late SYS result waits on. -/
def SysKind.ns : SysKind → Option Nat
  | .ckpt _ ns | .ckptRs _ ns => some ns
  | _ => none

/-- Two slots hold the same image key: the operator's of one boot, or one context secret (24 R405). -/
def SealId.sameImageKey : SealId → SealId → Bool
  | .operator a, .operator b => a == b
  | .owner _ a, .owner _ b => a == b
  | _, _ => false

/-- An image under the key of another context slot. -/
def Image.under (i : Image) (key : Nat) (sl : SealId) : Image :=
  { i with key := key, sealed := sl, grids := i.grids.map fun g => { g with grid := { g.grid with key := key } } }

/-- The image is on flash and the counter has its version; a failure leaves the counter as it was. -/
def State.ckptDone (s : State) (id h ns : Nat) (ok : Bool) : State :=
  match Table.find? s.fixer.images h with
  | none => s.sysDone id (causeWord Cause.contextAbsent)
  | some img =>
    if ok = false then s.sysDone id (causeWord Cause.flashFailure)
    else
      let v := (Table.getD s.trust.versions ns 0 + 1) % 2 ^ 32
      let (nonce, s) := s.drawNonce img.key
      let s := { s with trust := { s.trust with versions := Table.set s.trust.versions ns v,
                                                nvme := Table.set s.trust.nvme ns ⟨v, img, nonce⟩ } }
      s.sysDone id (BitVec.ofNat 64 v)

/-- The checks of a restored checkpoint, in order (24 R413); a tag that fails raises an alarm (24 R414). -/
def State.ckptRead (s : State) (id version ns : Nat) (ok : Bool) : State :=
  if ok = false then s.sysDone id (causeWord Cause.flashFailure)
  else match Table.find? s.trust.nvme ns with
    | none => s.sysDone id (causeWord Cause.checkpointVersion)
    | some c =>
      if c.version ≠ version ∨ c.version ≠ Table.getD s.trust.versions ns 0 then
        s.sysDone id (causeWord Cause.checkpointVersion)
      else match List.find? (fun e => e.2.ctxid == c.image.ctxid && !e.2.quarantined) s.ctxs with
        | none => s.sysDone id (causeWord Cause.imageSeal)
        | some (key, x) =>
          if c.image.sealed.sameImageKey x.sealed = false then (s.alarm (some key)).sysDone id (causeWord Cause.imageSeal)
          else if x.consent % 4 < 2 then s.sysDone id (causeWord Cause.consentRefused)
          else
            let h := s.fixer.nextHandle
            let s := { s with fixer := { s.fixer with nextHandle := h + 1,
                                                      images := Table.set s.fixer.images h (c.image.under key x.sealed) } }
            s.sysDone id (BitVec.ofNat 64 h)

/-- CKPT_COMPLETE: the oldest checkpoint word of its namespace ends (24 R413). -/
def execCkptComplete (id : Nat) (flashOk : Bool) (s : State) : Res :=
  .next <|
    match Table.find? s.eng.sys id with
    | none => s
    | some o =>
      let older := s.eng.sys.any fun e => decide (e.1 < id) && e.2.kind.ns.isSome && e.2.kind.ns == o.kind.ns
      if older then s
      else match o.kind with
        | .ckpt h ns => s.ckptDone id h ns flashOk
        | .ckptRs v ns => s.ckptRead id v ns flashOk
        | _ => s

/-! ## MGSET (14 R277) -/

/-- Reads pieces of 16 bytes of global memory for a thread: the bytes, or what the lane does instead. -/
def State.sysRead (s : State) (t : Nat) (a : DWord) : Nat → RecRead
  | 0 => .ok s []
  | n + 1 =>
    match s.reach t a 16 .load with
    | (_, .bad w) => .res (.early (w.cause .load) a)
    | (s, .wait) => .res (.block s)
    | (s, .unmapped w) => .res (s.pageFail t a .load w)
    | (s, .here st off) =>
      if s.lockedAt st off 16 then .res (s.lockTrap .load a)
      else if st == .phys && !s.homeReady off then .res (.block s)
      else match s.readAt t st off 16 .cr with
        | (s, .error w) => .res (.late s (w.cause .load) a)
        | (s, .ok bs) => match State.sysRead s t (a + 16) n with
          | .ok s r => .ok s (bs ++ r)
          | x => x

/-- The peers of a membership bitmap. -/
def membersOf (b : List Byte) : List Nat :=
  (List.range 1024).filter fun p => (b.getD (p / 8) 0).getLsbD (p % 8)

/-- MGSET. -/
def execSysMgset (ch : Bool) (a b : Reg) (s : State) : Res :=
  .next (s.runSys (.sysMgset ch a b) fun s t =>
    let va := ((s.src t).rv a).toNat
    let xb := (s.src t).rx b
    let n := va % 256
    if bitsN va 30 27 ≠ 0 ∨ bitsN va 15 8 ≠ 0 then sysFault Cause.reservedField
    else if va.testBit 31 = false then (.done (s.modFab fun f => { f with groups := Table.erase f.groups n }), [])
    else if (windowOf xb).isSome then (.early (Why.cause .load .nonCanonical) xb, [])
    else match s.place t (s.crewOf t).core xb 128 16 with
      | .error w => (.early (w.cause .load) xb, [])
      | .ok _ =>
        match s.sysRead t xb 8 with
        | .res r => (r, [])
        | .ok s bs => (.done (s.modFab fun f => { f with groups := Table.set f.groups n ⟨bitsN va 26 16, membersOf bs⟩ }), []))

/-! ## CTRRD (14 R278) and CTXRD (14 R279) -/

/-- The counters that exist (25 R431). -/
def counterDefined (i : Nat) : Bool := (0xC00 ≤ i && i ≤ 0xC0A) || (0xC10 ≤ i && i ≤ 0xC19)

/-- CTRRD. -/
def execSysCtrrd (ch : Bool) (d a b : Reg) (s : State) : Res :=
  .next (s.runSys (.sysCtrrd ch d a b) fun s t =>
    let key := ((s.src t).rv a).toNat
    let i := ((s.src t).rv b).toNat
    let g := s.gridOf t
    if g.seat = .operator ∨ key ≠ g.key ∨ i < 0xC00 ∨ 0xFFF < i then sysFault Cause.seatDenied
    else if (s.ctx? key).isNone then sysFault Cause.contextAbsent
    else if counterDefined i = false then sysFault Cause.reservedField
    else sysValue s (pairWrites d (s.csrCount key i)))

/-- A thread that CTXRD finds: its team, its crew's tags, itself, and whether its registers can be read. -/
structure Found where
  team  : Team
  tags  : Vector Tag 64
  th    : Thread
  still : Bool

/-- The thread of a team by its index, in the image of a pre-empted grid. -/
def GridImg.find (g : GridImg) (team thread : Nat) : Option Found :=
  match g.teams.find? fun t => t.team.index == team with
  | none => none
  | some t => t.crews.findSome? fun c =>
      (c.threads.find? fun th => th.index == thread && th.live).map fun th => ⟨t.team, c.crew.tags, th, true⟩

/-- The thread that a grid's handle, a team index and a thread index name. -/
def State.findThread (s : State) (h team thread : Nat) : Option Found :=
  match (s.grid h).status with
  | .preempted i =>
    match Table.find? s.fixer.images i with
    | some img => (img.grids.find? fun g => g.handle == h).bind fun g => g.find team thread
    | none => none
  | st =>
    match List.find? (fun e => e.2.grid == h && e.2.index == team) s.teams with
    | none => none
    | some (tm, x) =>
      (List.find? (fun e => (s.crew e.2.crew).team == tm && e.2.index == thread && e.2.live && !e.2.isCont) s.threads).map
        fun e =>
          let halted : Bool := match st with
            | .halted _ => true
            | _ => e.2.halted
          ⟨x, (s.crew e.2.crew).tags, e.2, x.status == .parked || halted || (s.crew e.2.crew).held.isSome⟩

/-- STATUS of a context (14 R279, 21 R379). -/
def State.ctxStatus (s : State) (key : Nat) (c : Ctx) : Nat :=
  let gs := s.grids.filter fun e => e.2.key == key
  gs.length % 2 ^ 12 + (if gs.any fun e => e.2.haltSeen then 2 ^ 16 else 0) + (if c.noticed then 2 ^ 17 else 0) +
    (if c.quarantined then 2 ^ 18 else 0)

/-- The value of an item of a thread, in range for its kind. -/
def Found.item (f : Found) (kind item regs : Nat) (owner : Bool) : Option DWord :=
  match kind with
  | 1 =>
    if 7 < item then none
    else match f.th.lastRec with
      | some r => some (BitVec.ofNat 64 (leNat (((r.bytes owner).drop (8 * item)).take 8)))
      | none => some 0
  | 2 =>
    if regs ≤ item then none
    else
      let r : Reg := BitVec.ofNat 6 item
      let tag : Tag := if item = 0 then .u else f.tags[r.toNat]'r.isLt
      some (BitVec.ofNat 64 ((f.th.rv r).toNat + 2 ^ 32 * tag.code))
  | 3 => if item ≠ 0 then none else some (BitVec.ofNat 64 (f.th.p ||| 1).toNat)
  | 4 => if item ≠ 0 then none else some f.th.pc
  | _ => if 31 < item then none else some (f.team.kLead.toList.getD item 0)

/-- CTXRD in a lane: the checks in their order. -/
def ctxrdLane (d a b : Reg) (s : State) (t : Nat) : SysRes :=
  let xa := (s.src t).rx a
  let xb := ((s.src t).rx b).toNat
  let kind := xb / 2 ^ 60
  let item := xb % 2 ^ 16
  let key := xa.toNat % 2 ^ 11
  let g := s.gridOf t
  let granted := if g.seat = .operator then decide (kind ≤ 1) else g.seat == .owner && key == g.key
  if bitsN xa.toNat 31 11 ≠ 0 ∨ 5 < kind then sysFault Cause.reservedField
  else if granted = false then sysFault Cause.seatDenied
  else match s.ctx? key with
    | none => sysFault Cause.contextAbsent
    | some c =>
      if kind = 0 then
        if item ≠ 0 then sysFault Cause.reservedField
        else sysValue s (pairWrites d (BitVec.ofNat 64 (s.ctxStatus key c)))
      else match s.gridById key (xa.toNat / 2 ^ 32) with
        | none => sysFault Cause.contextAbsent
        | some h =>
          match s.findThread h (bitsN xb 59 32) (bitsN xb 31 16) with
          | none => sysFault Cause.contextAbsent
          | some f =>
            if 2 ≤ kind ∧ f.still = false then sysFault Cause.contextBusy
            else match f.item kind item (s.grid h).lr.regs (g.seat == .owner) with
              | none => sysFault Cause.reservedField
              | some v => sysValue s (pairWrites d v)

/-- CTXRD. -/
def execSysCtxrd (ch : Bool) (d a b : Reg) (s : State) : Res :=
  .next (s.runSys (.sysCtxrd ch d a b) (ctxrdLane d a b))

/-! ## RCPT (14 R280) -/

/-- The retired-page list. -/
def Receipt.list (r : Receipt) : List Byte := r.pages.flatMap fun p => leBytes 8 p

/-- Bytes 0 to 191. -/
def Receipt.head (r : Receipt) (handle : Nat) : List Byte :=
  leBytes 2 1 ++ leBytes 1 r.kind ++ leBytes 1 (if r.uncorr = 0 then 0 else 1) ++ leBytes 2 r.key ++ leBytes 2 0 ++
    leBytes 4 handle ++ leBytes 4 r.pages.length ++ leBytes 8 r.base.toNat ++ leBytes 8 r.length.toNat ++
    leBytes 8 r.clean.toNat ++ leBytes 8 r.corr.toNat ++ leBytes 8 r.uncorr.toNat ++ leBytes 8 r.skipped.toNat ++
    digestBytes (Config.sha256 r.list) ++ List.replicate 96 0

/-- The receipt, signed with the alias key, and its list. -/
def State.receiptBytes (s : State) (r : Receipt) (handle : Nat) (list : Bool) : List Byte :=
  r.head handle ++ Config.ecdsaSign s.trust.aliasKey.1 (r.head handle) ++ (if list then r.list else [])

/-- Writes pieces of 8 bytes for a thread as plain stores. -/
def State.sysWrite (s : State) (t : Nat) (a : DWord) : List (List Byte) → RecRead
  | [] => .ok s []
  | p :: r =>
    match s.reach t a 8 .store with
    | (_, .bad w) => .res (.early (w.cause .store) a)
    | (s, .wait) => .res (.block s)
    | (s, .unmapped w) => .res (s.pageFail t a .store w)
    | (s, .here st off) =>
      if s.lockedAt st off 8 then .res (s.lockTrap .store a)
      else if st == .phys && !s.homeReady off then .res (.block s)
      else match s.writeAt t st off p .cr with
        | (s, some w) => .res (.late s (w.cause .store) a)
        | (s, none) => State.sysWrite s t (a + 8) r

/-- RCPT. -/
def execSysRcpt (ch : Bool) (d a b : Reg) (l : Bool) (s : State) : Res :=
  .next (s.runSys (.sysRcpt ch d a b l) fun s t =>
    let xa := (s.src t).rx a
    let h := ((s.src t).rv b).toNat
    let g := s.gridOf t
    match Table.find? s.fixer.receipts h with
    | none => sysFault Cause.receiptAbsent
    | some r =>
      let n := 256 + (if l then 8 * r.pages.length else 0)
      if g.seat ≠ .operator ∧ r.key ≠ g.key then sysFault Cause.seatDenied
      else if windowOf xa ≠ none ∧ windowOf xa ≠ some 1 then (.early (Why.cause .store .nonCanonical) xa, [])
      else match s.place t (s.crewOf t).core xa n 64 with
        | .error w => (.early (w.cause .store) xa, [])
        | .ok _ =>
          match s.sysWrite t xa (chunks 8 (n / 8) (s.receiptBytes r h l)) with
          | .res r => (r, [])
          | .ok s _ => (.done s, regWrites d (BitVec.ofNat 32 n)))

end Sys2Proof.Machine
end

