-- ==== Sys2Proof/Machine/Gather.lean ====
section
/-! DEFINITION. The gatherer (17 R336-R347): readiness, arrival sets, PC groups, the choice of bundles, wait counts, yield marks
and stalls, and the meanings of its events. -/

namespace Sys2Proof.Machine

/-! ## Sorting -/

/-- Inserts a thread by a strict order. -/
def insertBy (lt : Nat → Nat → Bool) (t : Nat) : List Nat → List Nat
  | [] => [t]
  | q :: l => if lt t q then t :: q :: l else q :: insertBy lt t l

/-- Sorts threads by a strict order. -/
def sortBy (lt : Nat → Nat → Bool) (l : List Nat) : List Nat := l.foldl (fun acc t => insertBy lt t acc) []

/-! ## The next word of a thread -/

/-- What stands at a thread's PC, without the effects of fetching it. -/
def State.next (s : State) (t : Nat) : Got :=
  let th := s.thread t
  (s.getWords t th.pc th.unchained).2

/-- The words at a thread's PC, decoded; none where they cannot be fetched. -/
def State.nextDecoded (s : State) (t : Nat) : Option Decoded :=
  match s.next t with
  | .words w p bad => some (decoded s.ctl.neg w p bad)
  | _ => none

/-- The instructions of the next word that will run in a thread: none where a check at decode stops it. -/
def State.nextRuns (s : State) (t : Nat) : List Instr :=
  match s.nextDecoded t with
  | none => []
  | some d =>
    let g := (s.thread t).guard
    if (d.cause (s.qaccDsts t) g.runs (d.second.isSome && (g.step 1).runs)).isSome then []
    else (if g.runs then d.i0.toList else []) ++ (if (g.step 1).runs then d.i1.toList else [])

/-! ## Readiness (17 R336, R344) -/

/-- A RET that closes a fork reads the named returns (06 R148). -/
def State.closingRegs (s : State) (t : Nat) (i : Instr) : List Nat :=
  match i, (s.thread t).closing with
  | .ret .., some f => f.preds.map fun p => p.1.toNat
  | _, _ => []

/-- The scoreboard holds a thread's next word (17 R344). -/
def State.blockedRegs (s : State) (t : Nat) : Bool :=
  let busy := s.pending t
  (s.nextRuns t).any fun i => (i.usedRegs ++ s.qaccRegs i t ++ s.closingRegs t i).any busy.contains

/-- The outstanding-transaction table has no entry for a thread's next word (05 R133). -/
def State.noEntry (s : State) (t : Nat) : Bool :=
  (s.nextRuns t).any Instr.takesEntry && decide (256 ≤ s.entriesUsed (s.crewOf t).core (s.crewOf t).part)

/-- The next word of a thread needs its whole crew (04 R115). -/
def State.needsCrew (s : State) (t : Nat) : Bool :=
  !(s.thread t).isCont && match s.nextDecoded t with
    | some d => d.needsCrew (s.qaccDsts t) (s.thread t).guard
    | none => false

/-- A thread waits at a TILE.PSTAT for its crew's earlier tile words (10 R219). -/
def State.pstatWaits (s : State) (t : Nat) : Bool :=
  (s.nextRuns t).any (fun i => match i with
    | .tilePstat .. => true
    | _ => false) && s.tilesOf (s.thread t).crew != []

/-- The meaning of a word that may lack resources: range-lock entries, room in the copy or tile class, a tower that is not ready
(10 R206, 05 R132, 26 R439). -/
def State.holdMeaning (s : State) (i : Instr) : Option Res :=
  match i with
  | .tilePload ch ap sl g => some (execTilePload ch ap sl g s)
  | .tilePloadw ch ap sl g => some (execTilePloadw ch ap sl g s)
  | .tileExpose ch ap sl tp g => some (execTileExpose ch ap sl tp g s)
  | .tileExposew ch ap sl tp g => some (execTileExposew ch ap sl tp g s)
  | .tileTcvt ch sa sl da g => some (execTileTcvt ch sa sl da g s)
  | .tileTdcvt ch sa sl da g => some (execTileTdcvt ch sa sl da g s)
  | .tileTrayz ch tp g => some (execTileTrayz ch tp g s)
  | .tileTrayrd ch tp da g => some (execTileTrayrd ch tp da g s)
  | .tileTrayfl ch tp g => some (execTileTrayfl ch tp g s)
  | .qaccQrst ch q a p => some (execQaccQrst ch q a p s)
  | .qaccQgen ch q d a => some (execQaccQgen ch q d a s)
  | .qaccQapp ch q a b => some (execQaccQapp ch q a b s)
  | .qaccQaplReg ch q d a => some (execQaccQaplReg ch q d a s)
  | .qaccQapltReg ch q d a => some (execQaccQapltReg ch q d a s)
  | .qaccQaprReg ch q d a => some (execQaccQaprReg ch q d a s)
  | .qaccQaprtReg ch q d a => some (execQaccQaprtReg ch q d a s)
  | .qaccQaplTile ch q ap g => some (execQaccQaplTile ch q ap g s)
  | .qaccQapltTile ch q ap g => some (execQaccQapltTile ch q ap g s)
  | .qaccQaprTile ch q ap g => some (execQaccQaprTile ch q ap g s)
  | .qaccQaprtTile ch q ap g => some (execQaccQaprtTile ch q ap g s)
  | .qaccQsave ch q ap => some (execQaccQsave ch q ap s)
  | .qaccQload ch q ap => some (execQaccQload ch q ap s)
  | .qaccQspill ch q => some (execQaccQspill ch q s)
  | .qaccQclr ch q => some (execQaccQclr ch q s)
  | .xferCopy ch d a b => some (execXferCopy ch d a b s)
  | .xferCopy2d ch d a b => some (execXferCopy2d ch d a b s)
  | .xferHalo ch d a b => some (execXferHalo ch d a b s)
  | .xferBxfer ch d a b => some (execXferBxfer ch d a b s)
  | .xferBxferOne ch d a b => some (execXferBxferOne ch d a b s)
  | .xferBxmc ch d a b => some (execXferBxmc ch d a b s)
  | .xferBxmcOne ch d a b => some (execXferBxmcOne ch d a b s)
  | .xferRatom ch d ap o => some (execXferRatom ch d ap o s)
  | _ => none

/-- A thread's word, or a word of its crew `ts`, lacks resources in this cycle (17 R336), or waits for the thread's earlier words
(14 R261). -/
def State.lacks (s : State) (t : Nat) (ts : List Nat) (i : Instr) : Bool :=
  let th := s.thread t
  let cur : Cur := { Cur.none with core := (s.crewOf t).core, part := (s.crewOf t).part, pc := th.pc, after := th.pc + 4,
                                   lanes := ts, probe := true }
  (i.isSys && s.sysWaits t) || match (s.setCur cur).holdMeaning i with
    | some (.next u) => u.m.cur.early.any fun e => e.2.1 == holdCode
    | _ => false

/-- The threads with which a thread's next word issues, where it needs its whole crew. -/
def State.withCrew (s : State) (t : Nat) : List Nat :=
  match (s.crewOf t).arrival with
  | some (set, _) => if s.needsCrew t then sortBy (fun a b => decide ((s.thread a).lane < (s.thread b).lane)) set else [t]
  | none => [t]

/-- A thread could issue, arrival sets and resources apart. One whose word has met a tower that is not ready is held (26 R439). -/
def State.couldIssue (s : State) (t : Nat) : Bool :=
  s.basicReady t && !s.m.waits.contains t && s.next t != .wait && !s.pstatWaits t && !s.blockedRegs t && !s.noEntry t

/-- The arrival set of a crew is complete. -/
def Crew.arrived (c : Crew) : Bool :=
  match c.arrival with
  | some (set, held) => set.all held.contains
  | none => false

/-- The guard of a thread as bundles compare it (02 R51). -/
def Thread.guardKey (th : Thread) : Guard := if th.guard.active then { th.guard with pval := false } else Guard.none

/-- A thread is ready (17 R336): at a crew-wide word, with its whole crew, whose guards agree (02 R51). -/
def State.ready (s : State) (t : Nat) : Bool :=
  s.couldIssue t &&
    (!s.needsCrew t || ((s.crewOf t).arrived && (s.withCrew t).all fun q =>
      s.couldIssue q && (s.thread q).guardKey == (s.thread t).guardKey)) &&
    !((s.nextRuns t).any (s.lacks t (s.withCrew t)))

/-- YIELD marks the thread (17 R340): the threads that were ready and unmarked have yet to issue. -/
def execYieldOp (ch : Bool) (s : State) : Res :=
  let s0 := s.setCur Cur.none
  let others := (s.partThreads s.m.cur.core s.m.cur.part).filter fun t =>
    !s.m.cur.lanes.contains t && (s.thread t).mark.isNone && s0.ready t
  .next (s.runLanes (.yieldOp ch) fun s t =>
    .done (s.modThread t fun th => { th with mark := some (s.cycle, others) }))

/-! ## Arrival at crew-wide words (04 R115) -/

/-- A thread arrives at a crew-wide word: the first sets the arrival set. -/
def State.arriveAt (s : State) (t : Nat) : State :=
  let c := (s.thread t).crew
  match (s.crew c).arrival with
  | none => s.modCrew c fun x => { x with arrival := some (s.liveOf c, [t]) }
  | some (set, held) => if held.contains t then s else s.modCrew c fun x => { x with arrival := some (set, held ++ [t]) }

/-- The threads held of a crew stand at two different words: the arrival set breaks. A thread that has left its word for its trap
handler is held no more. -/
def State.judgeArrival (s : State) (c : Nat) : State :=
  let s := s.modCrew c fun x => { x with arrival := x.arrival.map fun a => (a.1, a.2.filter s.needsCrew) }
  match (s.crew c).arrival with
  | some (_, t :: held) => if held.all fun q => (s.thread q).pc == (s.thread t).pc then s else s.breakArrival c
  | _ => s

/-- Every thread that has reached a crew-wide word arrives, crew by crew. -/
def State.arrivals (s : State) : State :=
  s.crews.foldl (fun s e =>
    if e.2.resident then
      let s := (s.liveOf e.1).foldl (fun s t => if s.basicReady t && s.needsCrew t then s.arriveAt t else s) s
      let u := s.judgeArrival e.1
      if u.m.unready then s else u
    else s) s

/-! ## Keys and groups (17 R337, R338) -/

/-- Lexicographic order of keys. -/
def keyLt (a b : Nat × Nat × Nat) : Bool :=
  decide (a.1 < b.1) || (a.1 == b.1 && (decide (a.2.1 < b.2.1) || (a.2.1 == b.2.1 && decide (a.2.2 < b.2.2))))

/-- The age of a thread: its crew's; a continuation is younger, in the order of the forks. -/
def State.ageOf (s : State) (t : Nat) : Nat := if (s.thread t).isCont then s.age + t else (s.crewOf t).age

/-- The key of a thread. -/
def State.keyOf (s : State) (t : Nat) : Nat × Nat × Nat := ((s.thread t).prec, (s.thread t).pc.toNat, s.ageOf t)

/-- The crew slot a thread occupies. -/
def State.slotOf (s : State) (t : Nat) : Nat :=
  match (s.thread t).cont with
  | some k => k.slot
  | none => (s.crewOf t).slot

/-- Threads that stand in one crew for the frontier rule: a continuation is a crew of its own. -/
def State.sameCrew (s : State) (t q : Nat) : Bool :=
  (s.thread t).crew == (s.thread q).crew && !(s.thread t).isCont && !(s.thread q).isCont

/-- The thread-frontier rule among the ready threads. -/
def State.eligible (s : State) (ready : List Nat) (t : Nat) : Bool :=
  ready.all fun q =>
    let a := s.thread q
    let b := s.thread t
    !(s.sameCrew t q && (decide (a.prec < b.prec) || (a.prec == b.prec && decide (a.pc.toNat < b.pc.toNat))))

/-- What the threads of one group share: grid, PC, guard state, the bit of a return from a trap that takes the second word of a pair
away, and a step in progress. -/
def State.groupOf (s : State) (t : Nat) : Nat × DWord × Guard × Bool × Option Nat :=
  let th := s.thread t
  ((s.teamOf t).grid, th.pc, th.guardKey, th.unchained, if (s.crewOf t).stepping then some th.crew else none)

/-- The threads of a thread's group. -/
def State.groupIn (s : State) (pool : List Nat) (t : Nat) : List Nat := pool.filter fun q => s.groupOf q == s.groupOf t

/-- Where lanes are shared, keeps the first. -/
def State.oneLane (s : State) : List Nat → List Nat → List Nat
  | acc, [] => acc
  | acc, t :: l =>
    if acc.any fun q => (s.thread q).lane == (s.thread t).lane then State.oneLane s acc l else State.oneLane s (acc ++ [t]) l

/-- The next word of a thread issues in a bundle of one thread (13 R240). -/
def State.needsOne (s : State) (t : Nat) : Bool := (s.nextRuns t).any Instr.oneForm

/-- The bundle of a group (17 R338): its members, the first by precedence, age and slot where two share a lane; for a crew-wide word
the arrival set of the highest-ranked member's crew. A starving thread leads its group (17 R345). -/
def State.bundleOf (s : State) (starving : Option Nat) (members : List Nat) : List Nat :=
  let byLane := sortBy fun a b => decide ((s.thread a).lane < (s.thread b).lane)
  let order := sortBy (fun a b => keyLt ((s.thread a).prec, s.ageOf a, s.slotOf a) ((s.thread b).prec, s.ageOf b, s.slotOf b)) members
  match starving.toList ++ order.filter fun t => some t != starving with
  | [] => []
  | lead :: rest =>
    if s.needsCrew lead then s.withCrew lead
    else if s.needsOne lead then [lead]
    else byLane (s.oneLane [] (lead :: rest.filter fun t => !s.needsCrew t))

/-! ## The choice of bundles (17 R339-R343) -/

/-- The policy of a partition and whether it issues one word a cycle: the oldest resident crew's; replay mode is GTO. -/
def State.robin (s : State) (core part : Nat) : Bool :=
  let cs := s.crews.filter fun e => e.2.resident && e.2.core == core && e.2.part == part
  let grids := cs.map fun e => (e.2.age, s.grid (s.team e.2.team).grid)
  if grids.any fun g => g.2.replay then false
  else match grids with
    | [] => false
    | g :: l => (l.foldl (fun a b => if b.1 < a.1 then b else a) g).2.lr.policy == 1

/-- The leading starving thread (17 R345). -/
def State.leader (s : State) (ready : List Nat) : Option Nat :=
  let ahead (a b : Nat) : Bool :=
    keyLt (2 ^ 64 - (s.thread a).waitCnt, s.ageOf a, (s.thread a).lane) (2 ^ 64 - (s.thread b).waitCnt, s.ageOf b, (s.thread b).lane)
  (sortBy ahead (ready.filter fun t => (s.thread t).starving)).head?

/-- The threads in the order of a policy: frontier order, from the first key past the previous one under RR. -/
def State.ranked (s : State) (rr : Bool) (prevKey : Nat × Nat × Nat) (l : List Nat) : List Nat :=
  let order := sortBy (fun a b => keyLt (s.keyOf a) (s.keyOf b)) l
  if rr then
    let heads := order.filter fun t => keyLt prevKey (s.keyOf ((s.groupIn order t).headD t))
    heads ++ order.filter fun t => !heads.contains t
  else order

/-- A thread carries no mark. -/
def State.unmarked (s : State) (t : Nat) : Bool := (s.thread t).mark.isNone

/-- The group of a thread may be chosen: it has an unmarked thread, or no eligible thread is unmarked (17 R339). -/
def State.groupOpen (s : State) (elig pool : List Nat) (t : Nat) : Bool :=
  !elig.any s.unmarked || (s.groupIn pool t).any s.unmarked

/-- Bundle 1 (17 R339). Groups are ranked by, and bundles take, all their eligible threads (17 R338). -/
def State.choose1 (s : State) (p : Partition) (rr : Bool) (ready elig : List Nat) : List Nat :=
  match s.leader ready with
  | some t => s.bundleOf (some t) (s.groupIn elig t)
  | none =>
    let order := s.ranked rr p.prevKey elig
    let greedy := order.filter fun t => p.prev.contains t && s.unmarked t
    match (if rr then [] else greedy) ++ order.filter (s.groupOpen elig elig) with
    | [] => []
    | t :: _ => s.bundleOf none (s.groupIn elig t)

/-- The pipe of a thread's next word, and whether it is chained: so is one whose partner cannot be fetched (02 R40). -/
def State.pipeOf (s : State) (t : Nat) : Option Pipe × Bool :=
  match s.next t with
  | .words w p bad =>
    let d := decoded s.ctl.neg w p bad
    (d.i0.map Instr.pipe, d.second.isSome)
  | .fault _ va _ => (none, va != (s.thread t).pc)
  | .wait => (none, false)

/-- Two words of a cycle do not claim one pipe (17 R341). -/
def pipesFit : Option Pipe → Option Pipe → Bool
  | some a, some b => a != b || a == .f || a == .prefixWord
  | _, _ => true

/-- Bank reads of a thread's next word at its lane (17 R343). -/
def State.bankReads (s : State) (t : Nat) : Nat :=
  ((s.nextRuns t).map fun i => (i.srcOpds.filter fun o =>
    (s.thread t).isCont || o.regs.any fun r => (s.crewOf t).tags.toList.getD r .u == .g).length).foldl (· + ·) 0

/-- Both bundles fit the bank ports. -/
def State.banksFit (s : State) (b1 b2 : List Nat) : Bool :=
  b2.all fun t =>
    let other := (b1.filter fun q => (s.thread q).lane == (s.thread t).lane).map s.bankReads
    decide (s.bankReads t + other.foldl (· + ·) 0 ≤ 6)

/-- Bundle 2: the first group, in order, that meets the conditions of R341. -/
def State.choose2 (s : State) (b1 : List Nat) (lead1 : Nat) (rest : List Nat) : List Nat → Option (List Nat)
  | [] => none
  | t :: l =>
    let b := s.bundleOf none (s.groupIn rest t)
    if !(s.pipeOf t).2 && pipesFit (s.pipeOf lead1).1 (s.pipeOf t).1 && s.banksFit b1 b && b.all fun q => !b1.contains q then
      some b
    else State.choose2 s b1 lead1 rest l

/-- The class of an empty slot, but for throttle (25 R429): 6 empty, 7 synchronisation, 8 front end, 9 dependence, 10 resource. -/
def State.idleClass (s : State) (ts : List Nat) : Nat :=
  if ts.isEmpty then 6
  else if ts.any fun t => !s.basicReady t || s.pstatWaits t || (s.needsCrew t && !(s.crewOf t).arrived) then 7
  else if ts.any fun t => s.next t == .wait then 8
  else if ts.any s.blockedRegs then 9
  else 10

/-- The threads and continuations of a partition whose crews are resident. -/
def State.residentOf (s : State) (core part : Nat) : List Nat :=
  (s.partThreads core part).filter fun t => (s.crewOf t).resident

/-- The bundles of a partition in this cycle, and the classes of its empty slots. -/
def State.gatherPart (s : State) (core part : Nat) : List (List Nat) × (Nat × Nat) :=
  let p := s.part core part
  let ts := s.residentOf core part
  let idle := s.idleClass ts
  if p.skip then ([], (5, 5))
  else
    let ready := ts.filter s.ready
    let elig := ready.filter (s.eligible ready)
    let rr := s.robin core part
    let idles := (idle, if p.cap then 5 else idle)
    let b1 := s.choose1 p rr ready elig
    match b1 with
    | [] => ([], idles)
    | t :: _ =>
      let b2 :=
        if p.cap || (s.pipeOf t).2 then none
        else
          let rest := elig.filter fun q => !b1.contains q
          s.choose2 b1 t rest ((s.ranked rr p.prevKey rest).filter (s.groupOpen elig rest))
      (b1 :: b2.toList, idles)

/-- The entries of the issue queue for a partition's bundles: they end with one that charges the slots left empty. -/
def State.entriesFor (s : State) (core part : Nat) (bs : List (List Nat)) : List Bundle :=
  (bs.mapIdx fun i b => (⟨core, part, (s.thread (b.headD 0)).pc, b, i == 0⟩ : Bundle)) ++ [⟨core, part, 0, [], false⟩]

/-- The partition chooses its bundles under the cap in force in this cycle (17 R342). -/
def State.gather (s : State) (core part : Nat) : List Bundle × State :=
  let s := s.setPart core part { s.part core part with cap := s.capOne core part, used := 0, empty := true }
  let (bs, idle) := s.gatherPart core part
  (s.entriesFor core part bs, s.setPart core part { s.part core part with idle := idle, skip := false })

/-! ## Each cycle -/

/-- Partitions with a crew, in ascending order. -/
def State.busyParts (s : State) : List (Nat × Nat) :=
  let ids := (s.crews.filter fun e => e.2.resident).foldl (fun l e => insertNat l (6 * e.2.core + e.2.part)) []
  ids.map fun i => (i / 6, i % 6)

/-- The path precedence an XMOV.PREC set takes effect (04 R106). -/
def Thread.newPrec (th : Thread) : Thread :=
  match th.precNext with
  | some p => { th with prec := p, precNext := none }
  | none => th

/-- The record of a partition that holds nothing does not say so yet. -/
def Partition.stale (p : Partition) : Bool := p.skip || !p.empty || p.cls != 6 || p.stamp != Partition.reset.stamp

/-- The slots of partitions that hold nothing are empty; a cap of one, and a pair that has issued under it, throttle; key 0 is
charged (25 R429, R430). -/
def State.chargeEmpty (s : State) (busy : List (Nat × Nat)) : State :=
  let ps := ((List.range 192).filter s.coreReady).flatMap fun c => ((List.range 6).map fun p => (c, p)).filter fun x => !busy.contains x
  let skips := ps.filter fun x => (s.part x.1 x.2).skip
  let capped := (ps.filter fun x => s.capOne x.1 x.2).length + (skips.filter fun x => s.capOne x.1 x.2 == false).length + skips.length
  let n := 2 * ps.length
  if n = 0 then s
  else
    let s := (((s.count 0 1 n).count 0 4 n).count 0 6 (n - capped)).count 0 5 capped
    (ps.filter fun x => (s.part x.1 x.2).stale).foldl (fun s x =>
      let p := s.part x.1 x.2
      s.setPart x.1 x.2 { p with skip := false, empty := true, cls := if p.skip then 5 else 6, stamp := Partition.reset.stamp }) s

/-- Ready threads wait one cycle more; those that issue return to 0 (17 R345). -/
def State.countWaits (s : State) (ts : List Nat) : State :=
  (ts.filter s.ready).foldl (fun s t => s.modThread t fun th => { th with waitCnt := th.waitCnt + 1 }) s

/-- The HALOs of a crew whose phase has not completed (13 R245). -/
def State.unreadyHalos (s : State) (c : Nat) : Nat :=
  (s.eng.copies.filter fun e => e.2.crew == c && e.2.halo.isSome && !s.haloReady e.2).length

/-- A live thread waits in a place that counts toward a stall (17 R347). A WAIT counts in no case but one: its copy class cannot reach its
limit while phases stay open for which HALOs of its crew wait (13 R245, log 83). An MWAIT that is held until a tower is ready does not
count (26 R439). -/
def State.stalledAt (s : State) (t : Nat) : Bool :=
  let th := s.thread t
  let c := s.crewOf t
  c.held.isNone &&
  match th.wait with
  | .bar _ | .cwait => true
  | .word (.waitCnt _ _ _ x _) .. => x != 15 && decide (x.toNat < s.unreadyHalos th.crew)
  | .word (.mwait ..) .. => (s.stalledEntry t).isNone
  | .word (.ldfeKeep ..) .. | .word (.ldfeTake ..) .. | .word (.stfeFill ..) .. | .word (.stfePut ..) ..
  | .word (.xferAcwait ..) .. => true
  | .ready => (match c.arrival with
    | some (_, held) => held.contains t && !c.arrived
    | none => false)
  | _ => false

/-- A context waits as a whole: one resident team or more, and every live thread of them waiting (17 R347). -/
def State.stalled (s : State) (key : Nat) : Bool :=
  let tms := s.teams.keysWhere fun _ x => x.status == .resident && (s.grid x.grid).key == key
  !tms.isEmpty && tms.all fun x => (s.teamLive x).all s.stalledAt

/-- The stall counts of the contexts. -/
def State.countStalls (s : State) : State :=
  let f (e : Nat × Ctx) : Nat × Ctx :=
    (e.1, if s.stalled e.1 then { e.2 with stall := e.2.stall + 1 } else { e.2 with stall := 0, noticed := false })
  { s with ctxs := s.ctxs.map f }

/-- A die's samples of this cycle are due: one for each ready core (25 R426, R427). -/
def State.sampleDue (s : State) (d : Nat) : Bool :=
  match (s.die d).assign with
  | none => false
  | some k => match s.ctx? k with
    | some c => c.csctl.getLsbD 0 && s.cycle % 2 ^ bitsN c.csctl.toNat 12 8 == 0
    | none => false

/-- The samples of a cycle. -/
def State.sampleAll (s : State) : State :=
  (List.range 8).foldl (fun s d =>
    if s.sampleDue d then
      let s := s.modDie d fun x => { x with rotor := x.rotor + 1 }
      (((List.range 24).map (24 * d + ·)).filter s.coreReady).foldl (fun s c => s.later (.contactSheetSample d c)) s
    else s) s

/-- The bundles of a cycle, partition by partition. -/
def State.gatherAll (s : State) : List (Nat × Nat) → State
  | [] => s
  | (c, p) :: l =>
    let (bs, s) := s.gather c p
    let s := s.countWaits (s.residentOf c p)
    State.gatherAll (s.modM fun m => { m with issueQ := m.issueQ ++ bs }) l

/-- ISSUE_CYCLE: one cycle passes, and every partition chooses its bundles (17 R339). -/
def execIssueCycle (s : State) : Res :=
  let s := { s with cycle := s.cycle + 1, threads := s.threads.map fun (e : Nat × Thread) => (e.1, e.2.newPrec) }
  let s := s.arrivals
  let busy := s.busyParts
  .next ((((s.gatherAll busy).chargeEmpty busy).countStalls).sampleAll)

/-! ## Events of the gatherer -/

/-- STARVATION: a wait count has reached 4,096, and the thread leads the choice of bundles (17 R345). -/
def execStarvation (t : Nat) (s : State) : Res :=
  .next (if 4096 ≤ (s.thread t).waitCnt then s.modThread t fun th => { th with starving := true } else s)

/-- A yield mark is over (17 R340). -/
def State.markOver (s : State) (t : Nat) : Bool :=
  match (s.thread t).mark with
  | some (c, others) => others.isEmpty || decide (c + 64 ≤ s.cycle)
  | none => false

/-- YIELD_MARK_EXPIRE (17 R340). -/
def execYieldMarkExpire (t : Nat) (s : State) : Res :=
  .next (if s.markOver t then s.modThread t fun th => { th with mark := none } else s)

/-- STALL_NOTICE: a record in both logs, and STATUS bit 17 (17 R347, 20 R357). -/
def execStallNotice (key : Nat) (s : State) : Res :=
  .next <|
    match s.ctx? key with
    | none => s
    | some c =>
      if c.stall < 2 ^ 24 then s
      else
        let r := FaultRec.event key true false
        let s := if key = 0 then s.appendOp (r.bytes true) else s.appendOwner key (r.bytes true)
        (s.appendOp (r.bytes false)).modCtx key fun c => { c with stall := 0, noticed := true }

end Sys2Proof.Machine
end

