-- ==== Sys2Proof/Machine/Hart.lean ====
section
/-! DEFINITION. What arrives at the service cores (22 R400, R401): deliveries, the log of record mode (25 R433-R436), interrupts and command
completions. -/

namespace Sys2Proof.Machine

/-- The key ID of a hart's accesses: key 0 in the operator and the auditor seat (20 R368). -/
def Hart.key (h : Hart) : Nat := if h.hseat.toNat % 4 = 1 then bitsN h.hseat.toNat 12 2 else 0

/-! ## Deliveries and their log (25 R433-R436) -/

/-- Bytes a log entry takes with its payload. -/
def entryBytes (payload : Nat) : Nat := 32 + (payload + 31) / 32 * 32

/-- Bytes in the log that have not been consumed. -/
def Hart.logUsed (h : Hart) : Nat := (h.tail - h.head).toNat

/-- Writes bytes at a device global address of a hart, for an arrival or its log; what cannot be written is lost. -/
def State.hartWrite (s : State) (hart a : Nat) (b : List Byte) : State := (s.agentStore (s.hart hart).key a b).1

/-- Appends 32-byte pieces to a hart's log, which wraps. -/
def State.logPieces (s : State) (hart : Nat) : Nat → List Byte → State
  | 0, _ => s
  | n + 1, b =>
    let h := s.hart hart
    let s := s.hartWrite hart (h.base.toNat + h.tail.toNat % h.size.toNat) ((b.take 32) ++ List.replicate (32 - b.length) 0)
    State.logPieces (s.setHart hart { s.hart hart with tail := h.tail + 32 }) hart n (b.drop 32)

/-- The entry of a delivery (25 R434). -/
def entryHead (kind port len : Nat) (instret value : DWord) (addr : Nat) : List Byte :=
  leBytes 1 kind ++ leBytes 1 port ++ leBytes 2 len ++ leBytes 4 0 ++ leBytes 8 instret.toNat ++ leBytes 8 value.toNat ++
    leBytes 8 addr

/-- Logs a delivery at the hart's count. -/
def State.logEntry (s : State) (hart kind port : Nat) (payload : List Byte) (addr : Nat) (value : DWord) : State :=
  let b := entryHead kind port payload.length (s.hart hart).minstret value addr ++ payload
  s.logPieces hart ((b.length + 31) / 32) b

/-- What a delivery does at a hart: the data is written and the interrupt is pending; a timer read takes its value, and a command completion
has no interrupt (log 85). Every event of a hart carries its stamp (25 R418). -/
def State.deliverTo (s : State) (hart kind : Nat) (payload : List Byte) (addr : Nat) (value : DWord) : State :=
  if kind = 3 then (s.setHart hart { s.hart hart with timer := value }).emit (.hartValue hart (hartStamp hart) value)
  else
    let s := if payload.isEmpty then s else s.hartWrite hart addr payload
    let s := if kind = 4 then s
      else s.setHart hart { s.hart hart with pending := insertNat (s.hart hart).pending value.toNat }
    s.emit (.deliver hart kind (hartStamp hart) payload)

/-- The log has room for an entry. -/
def Hart.logRoom (h : Hart) (payload : Nat) : Bool := h.size != 0 && decide (h.logUsed + entryBytes payload ≤ h.size.toNat)

/-- Delivers and logs what a full log has held back, in order; the fuel is the number held. -/
def State.drainBacklog (s : State) (hart : Nat) : Nat → State
  | 0 => s
  | n + 1 =>
    match (s.hart hart).backlog with
    | [] => s
    | (kind, port, payload, addr, value) :: r =>
      if (s.hart hart).logRoom payload.length then
        let s := s.setHart hart { s.hart hart with backlog := r }
        State.drainBacklog ((s.deliverTo hart kind payload addr value).logEntry hart kind port payload addr value) hart n
      else s

/-- An arrival for a hart: delivered, delivered and logged, or dropped in replay (25 R435, R436). -/
def State.arrive (s : State) (hart kind port : Nat) (payload : List Byte) (addr : Nat) (value : DWord) : State :=
  let h := s.hart hart
  if 16 ≤ hart ∨ h.released = false then s
  else match h.mode with
    | 1 =>
      let s := s.setHart hart { h with backlog := h.backlog ++ [(kind, port, payload, addr, value)] }
      s.drainBacklog hart (h.backlog.length + 1)
    | 2 => s.setHart hart { h with dropped := h.dropped + 1 }
    | _ => s.deliverTo hart kind payload addr value

/-- An interrupt identity other than that of shootdowns reaches every service core that has been released (22 R396, 25 R434; log 85). -/
def State.interrupt (s : State) (identity : Nat) : State :=
  (List.range 16).foldl (fun s h => s.arrive h 2 0 [] 0 (BitVec.ofNat 64 identity)) s

/-- A completion record has been written: a service core that records or replays under the queue's key meets the completion, with QUEUE and SEQ
as in TASKQ (25 R434-R436; log 85). -/
def State.recordArrives (s : State) (key queue seq : Nat) : State :=
  (List.range 16).foldl (fun s h =>
    if (s.hart h).mode = 0 ∨ (s.hart h).key ≠ key then s else s.arrive h 4 0 [] 0 (BitVec.ofNat 64 (queue + 2 ^ 12 * seq))) s

end Sys2Proof.Machine
end

