-- ==== Sys2Proof/Machine/Queue.lean ====
section
/-! DEFINITION. Command queues (17 R322-R324, 22 R397, R398): the reading of the ring, the start and the completion of commands,
and the completion records. -/

namespace Sys2Proof.Machine

/-! ## Reading the ring (17 R323) -/

/-- The number in bytes of a command. -/
def cmdField (b : List Byte) (off n : Nat) : Nat := leNat ((b.drop off).take n)

/-- A command breaks its layout, or its SEQ is not the one expected (17 R323). -/
def cmdBad (b : List Byte) (expected : Nat) : Bool :=
  let kind := cmdField b 0 1
  decide (2 < kind) || decide (1 < cmdField b 1 1) || decide (cmdField b 2 6 ≠ 0) || decide (cmdField b 8 8 ≠ expected) ||
    (if kind = 1 then decide (cmdField b 16 8 % 64 ≠ 0) else decide (cmdField b 16 8 ≠ 0)) ||
    decide (cmdField b 24 8 % 16 ≠ 0) || decide (2 ^ 24 ≤ cmdField b 32 4) || (b.drop 36).any fun x => x != 0

/-- A command as it is read; a failed one has its result. -/
def cmdOf (b : List Byte) (bad : Bool) : Cmd where
  seq := cmdField b 8 8 % 2 ^ 48
  kind := cmdField b 0 1
  ord := (cmdField b 1 1).testBit 0
  record := BitVec.ofNat 64 (cmdField b 16 8)
  done := if cmdField b 24 8 % 16 = 0 then BitVec.ofNat 64 (cmdField b 24 8) else 0
  clust := cmdField b 32 4 % 2 ^ 24
  started := bad
  grid := none
  result := if bad then some (Cause.launch 12, false, 0) else none

/-- A ring has commands that may be read: it is enabled and not stopped, the features are locked and the fixer is ready (26 R439,
R440), and no debugger keeps the queue from its commands (25 R425). -/
def State.ringReadable (s : State) (q : Nat) : Bool :=
  let x := s.queue q
  let held := match s.ctx? x.key with
    | some c => c.stopreq
    | none => false
  x.en && !x.stopped && x.size != 0 && x.tail != x.head && s.fixerReady && !s.trust.fogged && !held

/-- Reads the entry at QHEAD (17 R323). -/
def State.readEntry (s : State) (q : Nat) : State :=
  let x := s.queue q
  let a := x.base.toNat + 64 * (x.head.toNat % x.size.toNat)
  match s.deviceRead 0 a 2 64 with
  | (s, .error w) =>
    (s.setQueue q { x with stopped := true }).fixerRecord (w.cause .load) x.key q x.qseq.toNat (BitVec.ofNat 64 a)
  | (s, .ok b) =>
    let bad := cmdBad b x.qseq.toNat
    let expected := cmdField b 8 8 % 2 ^ 48 == x.qseq.toNat
    s.setQueue q { x with head := x.head + 1, stopped := bad, cmds := x.cmds ++ [cmdOf b bad]
                          qseq := if expected then BitVec.ofNat 64 ((x.qseq.toNat + 1) % 2 ^ 48) else x.qseq }

/-- Reads the ring in order, as far as it may be read; the fuel is a number of entries. -/
def State.readRing (s : State) (q : Nat) : Nat → State
  | 0 => s
  | n + 1 => if s.ringReadable q then State.readRing (s.readEntry q) q n else s

/-- Entries that wait in a ring, at most those it holds. -/
def Queue.waiting (x : Queue) : Nat := min (x.tail - x.head).toNat x.size.toNat

/-- Reads what waits in a ring. -/
def State.readQueue (s : State) (q : Nat) : State := s.readRing q (s.queue q).waiting

/-- A write of QTAIL (22 R398): it is held behind the host accesses that are held, else every earlier one has been performed, since
events are performed in order. -/
def State.setTail (s : State) (q : Nat) (tail : Word) : State :=
  if !s.fab.held.isEmpty then s.modFab fun f => { f with held := f.held ++ [.queueDoorbell q tail] }
  else if q < 4095 then (s.setQueue q { s.queue q with tail := tail }).readQueue q else s

/-- QUEUE_DOORBELL. -/
def execQueueDoorbell (q : Nat) (tail : Word) (s : State) : Res :=
  .next (s.hostWrites (.queueDoorbell q tail) fun s => s.setTail q tail)

/-- RESTART of a queue (22 R397). -/
def State.restart (s : State) (q : Nat) : State :=
  if q < 4095 ∧ (s.queue q).stopped then (s.setQueue q { s.queue q with stopped := false }).readQueue q else s

/-- QUEUE_RESTART. -/
def execQueueRestart (q : Nat) (s : State) : Res := .next (s.hostWrites (.queueRestart q) fun s => s.restart q)

/-! ## Starting commands (17 R324) -/

/-- The commands before the first that has not started, and the rest. -/
def Queue.split (x : Queue) : List Cmd × List Cmd := (x.cmds.takeWhile (·.started), x.cmds.dropWhile (·.started))

/-- The next command of a queue, where it can start: with ORD every earlier command has completed. -/
def State.nextCmd (s : State) (q : Nat) : Option Cmd :=
  let x := s.queue q
  let held := match s.ctx? x.key with
    | some c => c.stopreq
    | none => false
  if held || !s.fixerReady then none
  else match x.split.2 with
    | [] => none
    | c :: _ => if c.ord && x.split.1.any (fun e => e.result.isNone) then none else some c

/-- The first command that has not started becomes another. -/
def State.putCmd (s : State) (q : Nat) (c : Cmd) : State :=
  let x := s.queue q
  s.setQueue q { x with cmds := x.split.1 ++ c :: x.split.2.drop 1 }

/-- The result of a command that completes without a grid. -/
def okResult : Option (Nat × Bool × Word) := some (0, false, 0)

/-- Every fence of a queue completes once every earlier command has. -/
def settleFences : Bool → List Cmd → List Cmd
  | _, [] => []
  | ok, c :: r =>
    let c := if ok && c.started && c.kind == 2 && c.result.isNone then { c with result := okResult } else c
    c :: settleFences (ok && c.result.isSome) r

/-- Completes the fences of a queue. -/
def State.settle (s : State) (q : Nat) : State :=
  s.setQueue q { s.queue q with cmds := settleFences true (s.queue q).cmds }

/-- COMMAND_NOP: it completes as it starts. -/
def execCommandNop (q : Nat) (s : State) : Res :=
  .next <|
    match s.nextCmd q with
    | none => s
    | some c => if c.kind = 0 then s.putCmd q { c with started := true, result := okResult } else s

/-- COMMAND_FENCE: the next fence starts, and the fences whose earlier commands have completed complete. -/
def execCommandFence (q : Nat) (s : State) : Res :=
  .next <|
    let s := match s.nextCmd q with
      | none => s
      | some c => if c.kind = 2 then s.putCmd q { c with started := true } else s
    if (s.queue q).cmds.any fun c => c.kind == 2 then s.settle q else s

/-- The start of a GRID command: its record is read under the queue's key and checked (17 R324). -/
def State.startGrid (s : State) (q : Nat) (c : Cmd) : State :=
  let x := s.queue q
  let clusters := clustersOf (c.clust &&& x.clust.toNat)
  match s.fixerReads x.key c.record with
  | (s, .error e) => s.putCmd q { c with started := true, result := some (e, false, 0) }
  | (s, .ok (h, b)) =>
    match s.checkRecord (.queue x.key) clusters h b with
    | (s, .error e) => s.putCmd q { c with started := true, result := some (e, false, 0) }
    | (s, .ok k) =>
      let (s, g) := s.acceptGrid k 1 none q c.seq false clusters
      s.putCmd q { c with started := true, grid := some g }

/-- COMMAND_GRID. -/
def execCommandGrid (q : Nat) (s : State) : Res :=
  .next <|
    match s.nextCmd q with
    | none => s
    | some c => if c.kind = 1 then s.startGrid q c else s

/-! ## Completion records (17 R324, 15 R300) -/

/-- The 16 bytes of a completion record. -/
def doneBytes (seq cause : Nat) (halt : Bool) (id : Word) : List Byte :=
  leBytes 8 (seq + 2 ^ 63) ++ leBytes 2 (cause % 2 ^ 9 + (if halt then 2 ^ 15 else 0)) ++ leBytes 2 0 ++ leBytes 4 id.toNat

/-- Every write of the cores is performed at SY. -/
def State.releaseAll (s : State) : State := s.cores.foldl (fun s e => s.release e.1 .sy) s

/-- COMPLETION_RECORD_WRITE: the oldest command's record, after its writes; one that cannot be written is dropped. -/
def execCompletionRecordWrite (q : Nat) (s : State) : Res :=
  .next <|
    match (s.queue q).cmds with
    | [] => s
    | c :: r =>
      match c.result with
      | none => s
      | some (cause, halt, id) =>
        let key := (s.queue q).key
        let s := s.setQueue q { s.queue q with cmds := r }
        if c.done = 0 then s
        else
          let s := s.releaseAll
          if canonical c.done = false then s.fixerRecord (Why.cause .store .nonCanonical) key q c.seq c.done
          else match s.deviceWrite key c.done.toNat (doneBytes c.seq cause halt id) with
            | (s, some w) => s.fixerRecord (w.cause .store) key q c.seq c.done
            | (s, none) => s.recordArrives key q c.seq

/-! ## Queue registers (22 R397) -/

/-- A write of QCTL: a value that breaks the layout is ignored whole, and so is EN = 1 before the features are locked (26 R440). -/
def State.setQctl (s : State) (q : Nat) (v : Word) : State :=
  let n := v.toNat
  let x := s.queue q
  if bitsN n 15 3 ≠ 0 ∨ bitsN n 31 27 ≠ 0 ∨ (n.testBit 0 ∧ s.ctl.locked = false) then s
  else
    let s := s.setQueue q { x with en := n.testBit 0, key := if x.en then x.key else bitsN n 26 16 }
    if n.testBit 1 then s.restart q else s.readQueue q

/-- A write of a queue register; `off` is the offset in the queue's block. -/
def State.setQueueReg (s : State) (q off width : Nat) (v : DWord) : State :=
  let x := s.queue q
  let w : Word := v.setWidth 32
  match off, width with
  | 0x00, 8 => if x.en ∨ v.toNat % 4096 ≠ 0 then s else s.setQueue q { x with base := v }
  | 0x08, 4 => if x.en ∨ isPow w.toNat 16 65536 = false then s else s.setQueue q { x with size := w }
  | 0x0C, 4 => s.setQctl q w
  | 0x10, 4 => s.setTail q w
  | 0x18, 4 => if 2 ^ 24 ≤ w.toNat then s else s.setQueue q { x with clust := w }
  | 0x20, 8 => if (x.en ∧ x.stopped = false) ∨ 2 ^ 48 ≤ v.toNat then s else s.setQueue q { x with qseq := v }
  | _, _ => s

end Sys2Proof.Machine
end

