-- ==== Sys2Proof/Machine/Paging.lean ====
section
/-! DEFINITION. The answers of the page service (20 R371, R372), the page-fault ring (20 R375), the host's shootdowns (20 R373,
R374), and the registers the host reaches through BAR0 (22 R396). -/

namespace Sys2Proof.Machine

/-! ## Answers (20 R372) -/

/-- A waiting access is walked again: where it still faults it posts or joins another record, and its bound runs on from its first; `none`
lets it go on, `some (none, c)` is a fault that is final at once; `c` is its cause. -/
def State.rewalk (s : State) (r : PageRec) (x : PageItem) (core cause : Nat) (a : DWord) : State × Option (Option Nat × Nat) :=
  match s.translate core r.key a.toNat (kindOf cause) with
  | (s, .ok _) => (s, none)
  | (s, .error w) =>
    match pageReasonOf w with
    | none => (s, none)
    | some reason =>
      let start := r.startOf x
      let (s, id) := s.postPage r.key (a.toNat % 2 ^ 57 / 4096) reason (kindOf cause).code r.engine r.queue r.engId r.seq start
      let s := match id with
        | some n => s.keepStart n x start
        | none => s
      (s, some (id, cause / 512 * 512 + w.cause (kindOf cause)))

/-- A fault of a thread that waits on a record is final (20 R372): a tray line fails its word when it issues. -/
def State.pageFinal (s : State) (t cause : Nat) (a : DWord) (i : Option Instr) (one : Bool) : State :=
  let pc := (s.thread t).pc
  let s := s.unstall [t]
  match i with
  | some _ => s.trap t cause a pc pc one false
  | none =>
    if trayCode ≤ cause then s.modThread t fun th => { th with wait := .ready, trayFail := true }
    else s.trap t cause a pc pc false false

/-- A thread that waits on a record goes on: at a word that has issued it is examined again. -/
def Thread.pageGoes (th : Thread) (i : Option Instr) (after : DWord) (one : Bool) (v : Vector Word 64) : Thread :=
  { th with wait := match i with
      | some i => .word i after one v
      | none => .ready }

/-- The answer of a record for one thread. -/
def State.answerThread (s : State) (id : Nat) (r : PageRec) (fail : Bool) (t : Nat) : State :=
  match (s.thread t).wait with
  | .page p cause a i after one v =>
    if p ≠ id then s
    else if fail then s.pageFinal t cause a i one
    else match s.rewalk r (.thread t) (s.crewOf t).core cause a with
      | (s, none) => s.modThread t fun th => th.pageGoes i after one v
      | (s, some (some n, c)) => s.modThread t fun th => { th with wait := .page n c a i after one v }
      | (s, some (none, c)) => s.pageFinal t c a i one
  | _ => s

/-- The answer of a record for one copy. -/
def State.answerCopy (s : State) (id : Nat) (r : PageRec) (fail : Bool) (op : Nat) : State :=
  match Table.find? s.eng.copies op with
  | none => s
  | some o =>
    match o.pending with
    | none => s
    | some (p, cause, a) =>
      let final (s : State) (c : Nat) : State :=
        (s.setCopy op (o.goOn.fail (o.sectorAt a) c)).checkCopy op
      if p ≠ id then s
      else if fail then final s cause
      else match s.rewalk r (.copy op) o.core cause a with
        | (s, none) => s.setCopy op o.goOn
        | (s, some (some n, c)) => s.setCopy op { o with pending := some (n, c, a) }
        | (s, some (none, c)) => final s c

/-- The answer of a record for one transfer's source. -/
def State.answerXfer (s : State) (id : Nat) (r : PageRec) (fail : Bool) (op : Nat) : State :=
  match Table.find? s.eng.xfers op with
  | none => s
  | some o =>
    match o.pending with
    | none => s
    | some (p, cause, a) =>
      let final (s : State) (c : Nat) : State := (s.setXfer op { o with pending := none, srcFail := some c }).checkXfer op
      if p ≠ id then s
      else if fail then final s cause
      else match s.rewalk r (.xfer op) o.core cause a with
        | (s, none) => (s.setXfer op { o with pending := none }).pumpXfer op (o.packets + 1)
        | (s, some (some n, c)) => s.setXfer op { o with pending := some (n, c, a) }
        | (s, some (none, c)) => final s c

/-- The answer of a record for the packets and flags that wait on it at this target, of those that `takes` picks by the cycle of their
first record. -/
def State.answerPackets (s : State) (id : Nat) (fail : Bool) (takes : Nat → Bool) : State :=
  let mine (h : HeldPkt) : Bool := h.id == id && takes (h.started.getD s.cycle)
  let pkts := s.eng.heldPkts.filter mine
  let s := s.modEng fun e => { e with heldPkts := e.heldPkts.filter fun h => !mine h }
  let s := pkts.foldl (fun s h => if fail then s.noteJudged h.key h.pkt (some h.cause) else s.landPacket h) s
  (s.eng.recvs.filter fun r => !r.ended && (r.wait.map Prod.fst) == some id && takes (r.first.getD s.cycle)).foldl (fun s r =>
    if fail then s.answerRecv r ((r.wait.map Prod.snd).getD 0) else s.finishRecv { r with wait := none }) s

/-- The answer of a record for those of what waits on it whose first record `takes` picks. -/
def State.answerItems (s : State) (id : Nat) (r : PageRec) (fail : Bool) (takes : Nat → Bool) : State :=
  let s := ((s.threads.map Prod.fst).filter fun t => takes (r.startOf (.thread t))).foldl (fun s t => s.answerThread id r fail t) s
  let s := ((s.eng.copies.map Prod.fst).filter fun o => takes (r.startOf (.copy o))).foldl (fun s o => s.answerCopy id r fail o) s
  let s := ((s.eng.xfers.map Prod.fst).filter fun o => takes (r.startOf (.xfer o))).foldl (fun s o => s.answerXfer id r fail o) s
  s.answerPackets id fail takes

/-- A record is pending no more. -/
def State.endPage (s : State) (id : Nat) : State := { s with xl := { s.xl with pages := Table.erase s.xl.pages id } }

/-- The answer of a record (20 R372); one that names no pending record is ignored. -/
def State.answerPage (s : State) (id : Nat) (fail : Bool) : State :=
  match Table.find? s.xl.pages id with
  | none => s
  | some r => (s.endPage id).answerItems id r fail fun _ => true

/-- A write of PFRESP: the identifier and FAIL. -/
def State.pfresp (s : State) (v : DWord) : State := s.answerPage (v.toNat % 2 ^ 32) (v.getLsbD 32)

/-- PAGE_FAULT_RESPONSE. -/
def execPageFaultResponse (v : DWord) (s : State) : Res := .next (s.hostWrites (.pageFaultResponse v) fun s => s.pfresp v)

/-- A wait that began in a cycle is longer than PFBOUND allows (20 R372). -/
def State.pageLate (s : State) (start : Nat) : Bool := decide (start + s.xl.pfbound.toNat * 1024 < s.cycle)

/-- PAGE_FAULT_BOUND_EXPIRE: the faults whose bound has passed are final; the record goes with the last that waits on it. -/
def execPageFaultBoundExpire (id : Nat) (s : State) : Res :=
  .next <|
    match Table.find? s.xl.pages id with
    | none => s
    | some r =>
      let u := s.answerItems id r true s.pageLate
      if u.pageUsed id || !s.pageLate r.started then u else u.endPage id

/-- A lost record is due to be posted again (20 R375). -/
def State.repostDue (s : State) (r : PageRec) : Bool := !r.posted && decide (r.lostAt + 1024 ≤ s.cycle)

/-- PAGE_FAULT_REPOST. -/
def execPageFaultRepost (id : Nat) (s : State) : Res :=
  .next <|
    match Table.find? s.xl.pages id with
    | none => s
    | some r => if s.repostDue r then s.tryPost id r else s

/-! ## Shootdowns (20 R373, R374) -/

/-- A request breaks its layout. -/
def shootBad (b : List Byte) : Bool :=
  decide (2 < cmdField b 0 1) || decide (cmdField b 1 3 ≠ 0) || decide (cmdField b 28 4 ≠ 0) || (b.drop 48).any fun x => x != 0

/-- The scope of a request names an entry: a root, a first address and a size. -/
def shootNames (b : List Byte) (root va bytes : Nat) : Bool :=
  let first := bitsN (cmdField b 16 8) 56 12 * 4096
  match cmdField b 0 1 with
  | 0 => true
  | 1 => root == cmdField b 8 8 % 2 ^ 44
  | _ => root == cmdField b 8 8 % 2 ^ 44 && decide (first < va + bytes) &&
      decide (va < first + 4096 * cmdField b 24 4)

/-- Forks whose continuation buffers a store in the scope conflict (20 R374, 06 R148). -/
def State.shootForks (s : State) (b : List Byte) : State :=
  let hit (f : Fork) : Bool := match (s.thread f.cont).cont with
    | some c => c.buf.any fun x => x.store == .phys &&
        shootNames b ((s.root (s.gridOf f.cont).accessKey).toNat % 2 ^ 44) (x.addr.toNat % 2 ^ 57 / 4096 * 4096) 4096
    | none => false
  let upd (f : Fork) : Fork := { f with conflict := f.conflict || hit f }
  let f (e : Nat × Thread) : Nat × Thread := (e.1, { e.2 with fork := { e.2.fork with recs := e.2.fork.recs.map upd } })
  { s with threads := s.threads.map f }

/-- Removes the translations a request names from every TLB. -/
def State.shootTlbs (s : State) (b : List Byte) : State :=
  let keep (e : TlbEntry) : Bool := !shootNames b (e.root % 2 ^ 44) e.va (2 ^ e.bits)
  let fc (e : Nat × Core) : Nat × Core := (e.1, { e.2 with tlb := e.2.tlb.filter keep })
  let fd (e : Nat × Die) : Nat × Die := (e.1, { e.2 with tlb := e.2.tlb.filter keep })
  { s with cores := s.cores.map fc, dies := s.dies.map fd }

/-- Takes the next request of the ring, where identity 1 has been signalled and none is being finished. -/
def State.shootStart (s : State) : State :=
  let l := s.xl.sdr
  if s.xl.shoot.isSome ∨ ¬ s.xl.imsic.contains 1 then s
  else if l.base = 0 ∨ l.size = 0 ∨ l.tail = l.head then
    { s with xl := { s.xl with imsic := s.xl.imsic.filter (· != 1) } }
  else
    let a := l.base.toNat + 64 * (l.head.toNat % l.size.toNat)
    if s.hostBlocked a then s
    else
      let s := s.needHome a
      let b := s.physBytes a 64
      let bad := shootBad b
      let s := if bad then s else (s.shootTlbs b).shootForks b
      { s with xl := { s.xl with shoot := some (a, bad, s.eng.nextId) } }

/-- A write of seteipnum makes an identity pending (22 R396): 1 is that of the shootdown ring, the others are the service cores' (log 85). -/
def State.seteipnum (s : State) (identity : Nat) : State :=
  if identity = 0 then s
  else
    let s := { s with xl := { s.xl with imsic := insertNat s.xl.imsic identity } }.shootStart
    if identity = 1 then s else s.interrupt identity

/-- SHOOTDOWN_REQUEST. -/
def execShootdownRequest (identity : Nat) (s : State) : Res :=
  .next (s.hostWrites (.shootdownRequest identity) fun s => s.seteipnum identity)

/-- A word in flight has pieces of memory that were translated when it issued. -/
def TileOp.usesPhys (o : TileOp) : Bool := !o.touches.isEmpty

/-- Every access translated through a removed entry has performed: loads, stores and packets perform as they translate; the
TILE and QACC words that were in flight have completed (20 R374). -/
def State.shootReady (s : State) (born : Nat) : Bool := s.eng.tiles.all fun e => decide (born ≤ e.1) || !e.2.usesPhys

/-- The end of the request in progress (20 R374): DONE as a release at SY, SDRHEAD, the interrupt; then the next request. -/
def State.shootFinish (s : State) : State :=
  match s.xl.shoot with
  | none => s
  | some (a, bad, born) =>
    if !s.shootReady born || s.hostBlocked a then s
    else
      let s := s.releaseAll
      let b := s.physBytes a 64
      let s := (s.setPhys (a + 44) (leBytes 4 (if bad then 3 else 1))).noteWrites none .phys (a + 44) 4
      let s := { s with xl := { s.xl with shoot := none, sdr := { s.xl.sdr with head := s.xl.sdr.head + 1 } } }
      let s := if cmdField b 32 8 = 0 then s else s.emit (.msi (cmdField b 32 8) (cmdField b 40 4))
      s.shootStart

/-- SHOOTDOWN_FINISH. -/
def execShootdownFinish (s : State) : Res := .next s.shootFinish

/-! ## The translation block (20 R375) -/

/-- Changes the translation block. -/
def State.modXl (s : State) (f : Xlate → Xlate) : State := { s with xl := f s.xl }

/-- A write of a base register of a ring; the tail and the head return to 0 where the ring follows R356. -/
def LogRegs.setBase (l : LogRegs) (v : DWord) (reset : Bool) : LogRegs :=
  if v.toNat % 4096 ≠ 0 then l else if reset then { l with base := v, tail := 0, head := 0 } else { l with base := v }

/-- A write of a size register of a ring. -/
def LogRegs.setSize (l : LogRegs) (v : Word) (most : Nat) (reset : Bool) : LogRegs :=
  if isPow v.toNat 16 most = false then l
  else if reset then { l with size := v, tail := 0, head := 0 } else { l with size := v }

/-- A write of a register of the translation block. -/
def State.setXlReg (s : State) (off width : Nat) (v : DWord) : State :=
  let w : Word := v.setWidth 32
  match off, width with
  | 0x000, 8 => s.modXl fun x => { x with oflog := x.oflog.setBase v true }
  | 0x008, 4 => s.modXl fun x => { x with oflog := x.oflog.setSize w 65536 true }
  | 0x018, 4 => s.modXl fun x => { x with oflog := { x.oflog with head := w } }
  | 0x040, 8 => s.modXl fun x => { x with pfr := x.pfr.setBase v true }
  | 0x048, 4 => s.modXl fun x => { x with pfr := x.pfr.setSize w 65536 true }
  | 0x058, 4 => s.modXl fun x => { x with pfr := { x.pfr with head := w } }
  | 0x060, 8 => s.pfresp v
  | 0x068, 4 => s.modXl fun x => { x with pfbound := w }
  | 0x080, 8 => s.modXl fun x => { x with sdr := x.sdr.setBase v false }
  | 0x088, 4 => s.modXl fun x => { x with sdr := x.sdr.setSize w 4096 false }
  | 0x090, 4 => s.modXl fun x => { x with sdr := { x.sdr with tail := w } }
  | _, _ =>
    if 0x1000 ≤ off ∧ off < 0x5000 ∧ off % 8 = 0 ∧ width = 8 then
      let root := BitVec.ofNat 64 (v.toNat / 2 ^ 60 * 2 ^ 60 + v.toNat % 2 ^ 44)
      s.modXl fun x => { x with roots := Table.set x.roots ((off - 0x1000) / 8) root }
    else s

/-! ## BAR0 (22 R396) -/

/-- A write of bytes of PEERV from peer `p` on. -/
def peervWrite (l : List Nat) (p width : Nat) (v : DWord) : List Nat :=
  let rest := l.filter fun q => decide (q < p) || decide (p + 8 * width ≤ q)
  (List.range (8 * width)).foldl (fun l i => if v.getLsbD i then insertNat l (p + i) else l) rest

/-- A write through BAR0, with operator authority; one that a CSRW would refuse, or that meets no writable register of its
width, writes nothing (00 R8, 22 R396). -/
def State.barWrite (s : State) (off width : Nat) (v : DWord) : State :=
  if off < 0x2000 then
    let i := 0x800 + off / 8
    if off % 8 = 0 ∧ width = 8 ∧ csrGrants i .operator true then (s.setDevCsr i v).getD s else s
  else if 0x10000 ≤ off ∧ off < 0x18000 then s.setXlReg (off - 0x10000) width v
  else if off = 0x20000 ∧ width = 4 then s.seteipnum (v.toNat % 2 ^ 32)
  else if 0x30000 ≤ off ∧ off < 0x32000 ∧ off % 4 = 0 ∧ width = 4 then s.setDomain ((off - 0x30000) / 4) (v.setWidth 32)
  else if 0x32000 ≤ off ∧ off + width ≤ 0x32080 ∧ off % width = 0 then
    s.modFab fun f => { f with peerv := peervWrite f.peerv (8 * (off - 0x32000)) width v }
  else if 0x40000 ≤ off ∧ off < 0x40000 + 64 * 4095 then
    s.setQueueReg ((off - 0x40000) / 64) ((off - 0x40000) % 64) width v
  else s

/-- What a register of the translation block reads (20 R375). -/
def State.xlReg (s : State) (off width : Nat) : DWord :=
  let x := s.xl
  match off, width with
  | 0x000, 8 => x.oflog.base
  | 0x008, 4 => x.oflog.size.setWidth 64
  | 0x010, 4 => x.oflog.tail.setWidth 64
  | 0x018, 4 => x.oflog.head.setWidth 64
  | 0x020, 4 => x.oflog.lost.setWidth 64
  | 0x040, 8 => x.pfr.base
  | 0x048, 4 => x.pfr.size.setWidth 64
  | 0x050, 4 => x.pfr.tail.setWidth 64
  | 0x058, 4 => x.pfr.head.setWidth 64
  | 0x05C, 4 => x.pfr.lost.setWidth 64
  | 0x068, 4 => x.pfbound.setWidth 64
  | 0x080, 8 => x.sdr.base
  | 0x088, 4 => x.sdr.size.setWidth 64
  | 0x090, 4 => x.sdr.tail.setWidth 64
  | 0x098, 4 => x.sdr.head.setWidth 64
  | _, _ =>
    if 0x1000 ≤ off ∧ off < 0x5000 ∧ off % 8 = 0 ∧ width = 8 then Table.getD x.roots ((off - 0x1000) / 8) 0 else 0

/-- What a register of a queue reads (22 R397). -/
def State.queueReg (s : State) (q off width : Nat) : DWord :=
  let x := s.queue q
  match off, width with
  | 0x00, 8 => x.base
  | 0x08, 4 => x.size.setWidth 64
  | 0x0C, 4 => BitVec.ofNat 64 ((if x.en then 1 else 0) + (if x.stopped then 4 else 0) + 2 ^ 16 * x.key)
  | 0x10, 4 => x.tail.setWidth 64
  | 0x14, 4 => x.head.setWidth 64
  | 0x18, 4 => x.clust.setWidth 64
  | 0x20, 8 => x.qseq
  | _, _ => 0

/-- A read through BAR0, with operator authority (22 R396): a register where the width is its own; other offsets, the mailbox among
them, read as zero. -/
def State.barRead (s : State) (off width : Nat) : DWord :=
  if off < 0x2000 then
    let i := 0x800 + off / 8
    if off % 8 = 0 ∧ width = 8 ∧ csrDefined i ∧ csrGrants i .operator false then BitVec.ofNat 64 (s.csrDev i) else 0
  else if 0x10000 ≤ off ∧ off < 0x18000 then s.xlReg (off - 0x10000) width
  else if 0x30000 ≤ off ∧ off < 0x32000 ∧ off % 4 = 0 ∧ width = 4 then
    (Table.getD s.fab.domains ((off - 0x30000) / 4) 0).setWidth 64
  else if 0x32000 ≤ off ∧ off + width ≤ 0x32080 ∧ off % width = 0 then
    BitVec.ofNat 64 ((List.range (8 * width)).foldl (fun n i =>
      if s.fab.peerv.contains (8 * (off - 0x32000) + i) then n + 2 ^ i else n) 0)
  else if 0x32400 ≤ off ∧ off + width ≤ 0x32800 ∧ off % width = 0 then
    BitVec.ofNat 64 ((List.range width).foldl (fun n i => n + 2 ^ (8 * i) * (s.incOf (off - 0x32400 + i) % 256)) 0)
  else if 0x40000 ≤ off ∧ off < 0x40000 + 64 * 4095 then s.queueReg ((off - 0x40000) / 64) ((off - 0x40000) % 64) width
  else 0

/-- REGISTER_WRITE. -/
def execRegisterWrite (off width : Nat) (v : DWord) (s : State) : Res :=
  .next (s.hostWrites (.registerWrite off width v) fun s => s.barWrite off width v)

end Sys2Proof.Machine
end

