-- ==== Sys2Proof/Machine/Trust.lean ====
section
/-! DEFINITION. The security core: the mailbox (24 R408), SPDM and the vendor requests (24 R409-R411, 22 R395), alarms of
level 3 and fog (24 R414, R416). The codes of SPDM messages are those of DMTF DSP0274 (log 15); ports 0 and 1 are the host ports,
port 2 the management port. -/

namespace Sys2Proof.Machine

/-! ## The mailbox (24 R408) -/

/-- The end of a command: MR := SHA-256(MR ‖ MBDIG), and BUSY clears. -/
def State.mailboxEnd (s : State) : State :=
  if s.trust.mbbusy = false then s
  else
    let s := s.extendMr (bitsN s.trust.mbcmd.toNat 3 0) (digestBytes s.trust.mbdig)
    { s with trust := { s.trust with mbbusy := false } }

/-- A write of MBCMD: ignored while BUSY is 1; with GO it starts a command and sets BUSY, and one that is not legal ends at once
with ERR. -/
def State.mailboxStart (s : State) (cmd : Word) : State :=
  if s.trust.mbbusy then s
  else
    let s := { s with trust := { s.trust with mbcmd := cmd } }
    if cmd.getLsbD 31 = false then s
    else
      let bad : Bool := bitsN cmd.toNat 3 0 < 7 || bitsN cmd.toNat 7 4 != 1 || bitsN cmd.toNat 30 8 != 0
      { s with trust := { s.trust with mbbusy := !bad, mberr := bad } }

/-- A write of MBCMD and the command it starts, which ends before anything else happens. -/
def State.mailboxCmd (s : State) (cmd : Word) : State := (s.mailboxStart cmd).mailboxEnd

/-- The 64 bytes of the mailbox as a hart in M-mode reads them. -/
def State.mailboxBytes (s : State) : List Byte :=
  leBytes 4 s.trust.mbcmd.toNat ++ leBytes 4 ((if s.trust.mbbusy then 1 else 0) + if s.trust.mberr then 2 else 0) ++ leBytes 24 0
    ++ digestBytes s.trust.mbdig

/-- A service hart that has been released is in M-mode and in the operator seat: it reaches the mailbox (22 R400). -/
def State.mailboxOpen (s : State) : Bool := s.harts.any fun e => e.2.released && e.2.prv == 3 && e.2.hseat.toNat % 4 == 0

/-- A store of some bytes of MBDIG, ignored while BUSY is 1. -/
def State.mailboxDigest (s : State) (off : Nat) (b : List Byte) : State :=
  if s.trust.mbbusy then s
  else
    let old := digestBytes s.trust.mbdig
    { s with trust := { s.trust with mbdig := digestOf (old.take off ++ b ++ old.drop (off + b.length)) } }

/-- MAILBOX_EXTEND: a service hart in M-mode writes MBDIG, then MBCMD. -/
def execMailboxExtend (dig : BitVec 256) (cmd : Word) (s : State) : Res :=
  .next <|
    if s.mailboxOpen = false ∨ s.trust.mbbusy then s
    else { s with trust := { s.trust with mbdig := dig } }.mailboxCmd cmd

/-! ## SPDM (24 R410) -/

/-- The security core has booted. -/
def State.spdmUp (s : State) : Bool := s.awake

/-- The SPDM stage of a port. -/
def State.spdmStage (s : State) (port : Nat) : Nat := Table.getD s.trust.conn port 0

/-- An SPDM response leaves. -/
def State.respond (s : State) (port code : Nat) (body : List Byte) : State := s.emit (.spdm port code body)

/-- An SPDM ERROR: nothing changes. -/
def State.spdmError (s : State) (port : Nat) : State := s.respond port 0x7F []

/-- A signature of the alias key (24 R409). -/
def State.aliasSign (s : State) (b : List Byte) : List Byte := Config.ecdsaSign s.trust.aliasKey.1 b

/-- A request of the discovery messages: after a failed boot only the management port answers, and only some of them; before the
boot nothing answers (24 R407). -/
def State.discovery (s : State) (port : Nat) (afterFailure : Bool) (k : State → State) : State :=
  if s.trust.boots = 0 then s
  else if s.trust.failed.isSome then (if afterFailure && port == 2 then k s else s)
  else if s.spdmUp = false ∨ 2 < port then s
  else k s

/-- Moves a port's connection forward. -/
def State.spdmMove (s : State) (port stage : Nat) : State :=
  { s with trust := { s.trust with conn := Table.set s.trust.conn port stage } }

/-- GET_VERSION: version 1.3. -/
def execGetVersion (port : Nat) (s : State) : Res :=
  .next (s.discovery port true fun s => (s.spdmMove port 1).respond port 0x04 (leBytes 2 0x1300))

/-- The body of CAPABILITIES: the flags of the messages that are supported, by DSP0274 (log 15). -/
def capabilities : List Byte := leBytes 4 0 ++ leBytes 4 (2 + 4 + 16 + 64 + 128 + 256 + 512 + 2 ^ 14 + 2 ^ 18)

/-- The body of ALGORITHMS: ECDSA P-256, SHA-256, ECDHE on P-256 and AES-256-GCM, by the bits of DSP0274 (log 15). -/
def algorithms : List Byte := leBytes 4 0x10 ++ leBytes 4 1 ++ leBytes 2 8 ++ leBytes 2 2

/-- GET_CAPABILITIES. -/
def execGetCapabilities (port : Nat) (s : State) : Res :=
  .next (s.discovery port true fun s =>
    if s.spdmStage port < 1 then s.spdmError port else (s.spdmMove port 2).respond port 0x61 capabilities)

/-- NEGOTIATE_ALGORITHMS: the one supported set. -/
def execNegotiateAlgorithms (port : Nat) (supported : Bool) (s : State) : Res :=
  .next (s.discovery port false fun s =>
    if s.spdmStage port < 2 ∨ supported = false then s.spdmError port else (s.spdmMove port 3).respond port 0x63 algorithms)

/-- The certificate chain of slot 0: root, DeviceID, alias; the alias certificate carries MR0 to MR5 (24 R409). -/
def State.chain (s : State) : List Byte :=
  let tbs := s.trust.aliasKey.2 ++ (List.range 6).flatMap fun i => digestBytes (s.mr i)
  Config.rootCerts.1 ++ Config.rootCerts.2 ++ tbs ++ Config.ecdsaSign (Config.p256Key Config.uds).1 tbs

/-- GET_DIGESTS. -/
def execGetDigests (port : Nat) (s : State) : Res :=
  .next (s.discovery port false fun s =>
    if s.spdmStage port < 3 then s.spdmError port else s.respond port 0x01 (digestBytes (Config.sha256 s.chain)))

/-- GET_CERTIFICATE: slot 0 only. -/
def execGetCertificate (port slot : Nat) (s : State) : Res :=
  .next (s.discovery port false fun s =>
    if s.spdmStage port < 3 ∨ slot ≠ 0 then s.spdmError port else s.respond port 0x02 s.chain)

/-- CHALLENGE: signed with the alias key. -/
def execChallenge (port : Nat) (nonce : List Byte) (s : State) : Res :=
  .next (s.discovery port false fun s =>
    if s.spdmStage port < 3 then s.spdmError port
    else
      let body := digestBytes (Config.sha256 s.chain) ++ nonce
      s.respond port 0x03 (body ++ s.aliasSign body))

/-- The measurement blocks a request names: block `i` is MR(i − 1); 0xFF is all of them, 0 their number. -/
def State.blocks (s : State) (block : Nat) : Option (List Byte) :=
  if block = 0 then some [16]
  else if block = 0xFF then some ((List.range 16).flatMap fun i => digestBytes (s.mr i))
  else if block ≤ 16 then some (digestBytes (s.mr (block - 1)))
  else none

/-- What a fogged device reports: the fog and the grids stopped (24 R416). -/
def State.fogReport (s : State) : List Byte := if s.trust.fogged then 1 :: leBytes 4 s.trust.fogGrids else []

/-- GET_MEASUREMENTS: after a failed boot, a block that names the failed step. -/
def execGetMeasurements (port block : Nat) (s : State) : Res :=
  .next (s.discovery port true fun s =>
    match s.trust.failed with
    | some step => s.respond port 0x60 [BitVec.ofNat 8 step]
    | none =>
      if s.spdmStage port < 3 then s.spdmError port
      else match s.blocks block with
        | none => s.spdmError port
        | some b =>
          let body := b ++ s.fogReport
          s.respond port 0x60 (body ++ s.aliasSign body))

/-- KEY_EXCHANGE: opens a session on the port. -/
def execKeyExchange (port : Nat) (requesterKey : List Byte) (s : State) : Res :=
  .next (s.discovery port false fun s =>
    if s.spdmStage port < 3 then s.spdmError port
    else
      let id := s.trust.nextSess
      let pair := Config.p256Key (Config.sessionDraw s.m.free)
      let s := s.modM fun m => { m with free := m.free + 1 }
      let ses : Session := ⟨port, requesterKey, Config.ecdh pair.1 requesterKey, false, false, 0⟩
      let s := { s with trust := { s.trust with nextSess := id + 1, sessions := Table.set s.trust.sessions id ses } }
      let body := leBytes 4 id ++ pair.2
      s.respond port 0x64 (body ++ s.aliasSign body))

/-- Runs a message inside a session; one that names no open session receives an ERROR, on the management port (log 15). -/
def State.inSession (s : State) (id : Nat) (k : State → Session → State) : State :=
  match Table.find? s.trust.sessions id with
  | none => if s.spdmUp then s.spdmError 2 else s
  | some x => k s x

/-- Changes a session. -/
def State.setSession (s : State) (id : Nat) (x : Session) : State :=
  { s with trust := { s.trust with sessions := Table.set s.trust.sessions id x } }

/-- FINISH: the session is open, with mutual authentication or without. -/
def execFinish (session : Nat) (mutualAuth : Bool) (s : State) : Res :=
  .next (s.inSession session fun s x =>
    if x.finished then s.spdmError x.port
    else (s.setSession session { x with finished := true, mutualAuth := mutualAuth }).respond x.port 0x65 [])

/-- KEY_UPDATE: new keys of the session (24 R404). -/
def execKeyUpdate (session : Nat) (s : State) : Res :=
  .next (s.inSession session fun s x =>
    if x.finished then (s.setSession session { x with epoch := x.epoch + 1 }).respond x.port 0x68 []
    else s.spdmError x.port)

/-- END_SESSION. -/
def execEndSession (session : Nat) (s : State) : Res :=
  .next (s.inSession session fun s x =>
    { s with trust := { s.trust with sessions := Table.erase s.trust.sessions session } }.respond x.port 0x6C [])

/-! ## Vendor requests (24 R410, R411; 22 R395) -/

/-- Runs a vendor request: only in a session with mutual authentication; a request that is refused receives an ERROR and changes
nothing. -/
def State.vendor (s : State) (id : Nat) (k : State → Session → Option (State × List Byte)) : State :=
  s.inSession id fun s x =>
    if x.finished = false ∨ x.mutualAuth = false then s.spdmError x.port
    else match k s x with
      | none => s.spdmError x.port
      | some (s, body) => s.respond x.port 0x7E body

/-- The lowest FREE key slot. -/
def State.freeKey (s : State) : Option Nat := ((List.range 2047).map (· + 1)).find? fun k => (s.ctx? k).isNone

/-- The hash of the requester's key. -/
def Session.keyHash (x : Session) : BitVec 256 := Config.sha256 x.reqKey

/-- CREATE_CONTEXT: the lowest FREE slot becomes LIVE (24 R406). -/
def execCreateContext (session : Nat) (cs : List Byte) (consent harts : Nat) (audkeys : List (List Byte)) (s : State) : Res :=
  .next (s.vendor session fun s x =>
    if cs.length ≠ 32 ∨ 4 ≤ consent ∨ 2 ^ 16 ≤ harts ∨ audkeys.length ≠ 4 ∨ audkeys.any fun a => a.length != 32 then none
    else match s.freeKey with
      | none => none
      | some k =>
        let secret := digestOf cs
        let ctxid := Config.hkdf secret "ublen-id"
        let c := Ctx.create (.owner k secret) consent harts (audkeys.map digestOf) x.keyHash ctxid
        some ({ s with ctxs := Table.set s.ctxs k c }, leBytes 2 k ++ digestBytes ctxid))

/-- The context record (24 R406). -/
def Ctx.record (c : Ctx) (key : Nat) : List Byte :=
  leBytes 2 key ++ leBytes 2 c.consent ++ leBytes 2 c.harts ++ leBytes 2 0 ++
    (List.range 4).flatMap (fun i => digestBytes (c.audkeys.getD i 0)) ++ digestBytes c.ownkey ++ digestBytes c.ctxid ++
    List.replicate 56 0

/-- A requester is the owner of a context. -/
def Ctx.ownedBy (c : Ctx) (x : Session) : Bool := c.ownkey == x.keyHash

/-- A requester is the auditor that a context's record names at an index. -/
def Ctx.names (c : Ctx) (x : Session) (a : Nat) : Bool := c.audkeys.getD a 0 != 0 && c.audkeys.getD a 0 == x.keyHash

/-- A requester is an auditor that a context's record names: the lowest index. -/
def Ctx.auditor (c : Ctx) (x : Session) : Option Nat := (List.range 4).find? (c.names x)

/-- CONTEXT_INFO. -/
def execContextInfo (session key : Nat) (s : State) : Res :=
  .next (s.vendor session fun s x =>
    match s.ctx? key with
    | some c => if key ≠ 0 ∧ c.ownedBy x then some (s, c.record key) else none
    | none => none)

/-- COUNT_REPORT: signed with the alias key (24 R409). -/
def execCountReport (session key index : Nat) (s : State) : Res :=
  .next (s.vendor session fun s x =>
    match s.ctx? key with
    | some c =>
      if key = 0 ∨ counterDefined index = false ∨ (c.ownedBy x = false ∧ (c.auditor x).isNone) then none
      else
        let b := leBytes 8 (s.csrCount key index).toNat
        some (s, b ++ s.aliasSign b)
    | none => none)

/-- The seat and auditor index of a header are those of the requester (24 R411). -/
def sealSeat (c : Ctx) (x : Session) (h : List Byte) : Bool :=
  (c.ownedBy x && seatOf h == some .owner && ctxAud h == 0) || (seatOf h == some .auditor && c.names x (ctxAud h))

/-- SEAL_RECORD (24 R411). -/
def execSealRecord (session key : Nat) (header body : List Byte) (s : State) : Res :=
  .next (s.vendor session fun s x =>
    match s.ctx? key with
    | some c =>
      if key = 0 ∨ header.length ≠ headerSize ∨ body.length ≠ plainSize ∨ ctxKey header ≠ key ∨
          sealSeat c x header = false ∨ headerBad header sealedSize true then none
      else
        let nonce := c.recNonce % 2 ^ 95 + 2 ^ 95
        let h := header.take 64 ++ leBytes 12 nonce ++ header.drop 76
        let r := Config.gcmSeal (recKey c.sealed) (BitVec.ofNat 96 nonce) h body
        some (s.modCtx key fun c => { c with recNonce := c.recNonce + 1 }, h ++ r.1 ++ r.2)
    | none => none)

/-- BIND_STREAM (22 R395). -/
def execBindStream (session key port stream : Nat) (s : State) : Res :=
  .next (s.vendor session fun s x =>
    match s.ctx? key, Table.find? s.fab.streams (16 * port + stream) with
    | some c, some st =>
      if key = 0 ∨ c.ownedBy x = false ∨ 1 < port ∨ stream = 0 ∨ 15 < stream ∨ st.session ≠ session ∨ st.bound.isSome then none
      else
        some (s.modFab fun f => { f with streams := Table.set f.streams (16 * port + stream) { st with bound := some key } },
          leBytes 2 key ++ leBytes 1 stream)
    | _, _ => none)

/-- IDE_KEY_SETUP: new keys of a stream end its binding (22 R395). -/
def execIdeKeySetup (session port stream : Nat) (s : State) : Res :=
  .next (s.inSession session fun s x =>
    if x.finished = false ∨ 1 < port ∨ 15 < stream then s.spdmError x.port
    else s.modFab fun f => { f with streams := Table.set f.streams (16 * port + stream) ⟨session, none⟩ })

/-! ## Fog (24 R414, R416) -/

/-- An alarm of level 3: its record, then the fog. Every grid and every service core stops, nothing in flight completes, every key
is erased and every slot is FREE. -/
def State.fog (s : State) : State :=
  if s.spdmUp = false then s
  else if s.trust.fogged then s.alarm none
  else
    let s := s.alarm none
    let hart (e : Nat × Hart) : Nat × Hart := (e.1, { e.2 with released := false })
    let core (e : Nat × Core) : Nat × Core := (e.1, { Core.reset with ready := e.2.ready, start := e.2.start })
    let queue (e : Nat × Queue) : Nat × Queue := (e.1, { e.2 with cmds := [] })
    { s with
      threads := []
      crews := []
      teams := []
      grids := []
      ctxs := []
      cores := s.cores.map core
      dies := []
      eng := Engines.reset
      mem := { s.mem with seals := [], dev := s.mem.dev.filter fun e => decide (e.1 < sliceBase) }
      fixer := { s.fixer with images := [], parks := [] }
      xl := { s.xl with pages := [], shoot := none }
      queues := s.queues.map queue
      fab := { s.fab with up := [], secure := [], streams := [] }
      trust := { s.trust with fogged := true, fogGrids := s.grids.length, sessions := [] }
      harts := s.harts.map hart
      m := { s.m with issueQ := [], cur := Cur.none, holds := [], later := [], waits := [] } }

/-- GLITCH_DETECT. -/
def execGlitchDetect (s : State) : Res := .next s.fog

/-- TAMPER_DETECT. -/
def execTamperDetect (s : State) : Res := .next s.fog

/-- UCIE_TAG_FAILURE. -/
def execUcieTagFailure (s : State) : Res := .next s.fog

end Sys2Proof.Machine
end

