-- ==== Sys2Proof/Machine/Host.lean ====
section
/-! DEFINITION. What reaches the package from the hosts and the network, and the service cores: CXL.mem and host ports (22 R394,
R399), Ethernet (22 R393), hart seats (22 R401), recording and replay (25 R433-R436), and the patrol scrub (16 R319). The
execution of the harts' own RISC-V code is outside the model (log 16). -/

namespace Sys2Proof.Machine

/-! ## Host ports (22 R394, R395, R399) -/

/-- HOST_PORT_UP_OR_DOWN: a port that is in reset or not ready stays down (26 R438); with the link the host's decoder gives the base of device memory, DMWIN (22 R392, R394; log 15). -/
def execHostPortUpOrDown (port : Nat) (up : Option DWord) (s : State) : Res :=
  .next <|
    if 1 < port then s
    else match up with
      | some base => if s.awake = false ∨ s.fnReady (30 + port) = false then s else s.modFab fun f => { f with ports := insertNat f.ports port, dmwin := base }
      | none => s.modFab fun f => { f with ports := f.ports.filter (· != port) }

/-- The key ID of CXL.mem accesses on a stream. -/
def State.streamKey (s : State) (port stream : Nat) : Nat :=
  match Table.find? s.fab.streams (16 * port + stream) with
  | some x => x.bound.getD 0
  | none => 0

/-- The stream on which a device access to host memory under a key travels: the stream of its port that is bound to the key, else stream 0
(22 R395, R399). What it carries is the same on each. -/
def State.hostStream (s : State) (key pa : Nat) : Option (Nat × Nat) :=
  (s.portFor pa).map fun p =>
    (p, ((List.find? (fun e => e.1 / 16 == p && e.2.bound == some key) s.fab.streams).map fun e => e.1 % 16).getD 0)

/-- HOST_MEM_ACCESS: a write of bytes of one sealing unit, or a read of the 64 bytes of a unit; poisoned data where the read
fails. An access whose home is not ready is held (26 R439), and performed later. Outside the window of device memory it is a store of a
host processor to its own memory (15 R300), or a load, which does nothing to the device. -/
def execHostMemAccess (port stream addr : Nat) (write : Bool) (data : List Byte) (s : State) : Res :=
  .next <|
    if sliceBase ≤ addr then s
    else if (s.devOff addr).isNone then
      if write then (s.setPhys addr data).noteWrites none .phys addr data.length else s
    else if ¬ s.fab.ports.contains port ∨ 15 < stream then s
    else if s.homeReady addr = false then
      s.modFab fun f => { f with held := f.held ++ [.hostMemAccess port stream addr write data] }
    else
      let key := s.streamKey port stream
      if write then
        if data.isEmpty ∨ 64 < addr % 64 + data.length then s else (s.agentWrite key addr data).1
      else
        match s.agentRead key (addr / 64 * 64) 64 with
        | (s, .ok b) => s.emit (.hostData port (some b))
        | (s, .error _) => s.emit (.hostData port none)

/-! ## Harts: seats (22 R400, R401) -/

/-- A seat a hart may take (24 R406). -/
def State.seatAllowed (s : State) (hart : Nat) (v : Nat) : Bool :=
  let key := bitsN v 12 2
  match v % 4 with
  | 0 => key == 0 && bitsN v 14 13 == 0
  | 3 => false
  | _ => key != 0 && match s.ctx? key with
    | some c => c.harts.testBit hart
    | none => false

/-- A hart writes a CSR of its own: it has been released, and is in M-mode (22 R401, 24 R416, 25 R433, 26 R440). -/
def State.hartWrites (s : State) (hart : Nat) : Bool := decide (hart < 16) && (s.hart hart).released && (s.hart hart).prv == 3

/-- HSEAT_WRITE: only in M-mode; bits 63:15 ignore writes; any other write that is not permitted is ignored. -/
def execHseatWrite (hart : Nat) (v : DWord) (s : State) : Res :=
  .next <|
    let n := v.toNat % 2 ^ 15
    if s.hartWrites hart = false ∨ s.seatAllowed hart n = false then s
    else s.setHart hart { s.hart hart with hseat := BitVec.ofNat 64 n }

/-- A read of `hseat`: only in M-mode (22 R401). -/
def Hart.readSeat (h : Hart) : Option DWord := if h.prv = 3 then some h.hseat else none

/-- `satp` reads 0 and ignores writes: a hart does no paging (22 R400). -/
def Hart.satp (_ : Hart) : DWord := 0

/-! ## Harts: accesses (22 R400) -/

/-- An address reaches the register blocks: bits 63:20 are all ones. -/
def hartBlock (a : Nat) : Bool := a / 2 ^ 20 == 2 ^ 44 - 1

/-- A write of a register block by a hart: the mailbox in M-mode, else as through BAR0. -/
def State.hartSetReg (s : State) (hart off : Nat) (b : List Byte) : State :=
  if 0x33000 ≤ off ∧ off < 0x33040 then
    if (s.hart hart).prv ≠ 3 then s
    else if off = 0x33000 ∧ b.length = 4 then s.mailboxCmd (BitVec.ofNat 32 (leNat b))
    else if 0x33020 ≤ off ∧ off + b.length ≤ 0x33040 ∧ off % b.length = 0 then s.mailboxDigest (off - 0x33020) b
    else s
  else s.barWrite off b.length (BitVec.ofNat 64 (leNat b))

/-- A read of a register block by a hart. -/
def State.hartReg (s : State) (hart off width : Nat) : List Byte :=
  if 0x33000 ≤ off ∧ off < 0x33040 then
    if (s.hart hart).prv ≠ 3 then List.replicate width 0 else (s.mailboxBytes.drop (off - 0x33000)).take width
  else leBytes width (s.barRead off width).toNat

/-- The addresses that a PMP entry covers, from the register of the entry before it, its own configuration byte and register: off, TOR, NA4
or NAPOT (log 16). -/
def pmpRange (prev : DWord) (cfg : Byte) (addr : DWord) : Nat × Nat :=
  let a := addr.toNat % 2 ^ 54
  match bitsN cfg.toNat 4 3 with
  | 0 => (0, 0)
  | 1 => (4 * (prev.toNat % 2 ^ 54), 4 * a)
  | 2 => (4 * a, 4 * a + 4)
  | _ =>
    let n := ((List.range 54).find? fun i => !a.testBit i).getD 54
    let size := 2 ^ (n + 3)
    (4 * a / size * size, 4 * a / size * size + size)

/-- The PMP of a hart lets an access pass: the lowest entry that meets it decides, and must cover it; an entry that is not locked does not
bind M-mode, and where no entry meets it M-mode alone passes (22 R400; log 16). -/
def Hart.pmpPasses (h : Hart) (a n : Nat) (write : Bool) : Bool :=
  let entry (i : Nat) : Byte × DWord := Table.getD h.pmp i (0, 0)
  let range (i : Nat) : Nat × Nat := pmpRange (if i = 0 then 0 else (entry (i - 1)).2) (entry i).1 (entry i).2
  match (List.range 16).find? fun i => decide ((range i).1 < a + n ∧ a < (range i).2) with
  | none => h.prv == 3
  | some i =>
    decide ((range i).1 ≤ a ∧ a + n ≤ (range i).2) &&
      ((h.prv == 3 && !(entry i).1.getLsbD 7) || (entry i).1.getLsbD (if write then 1 else 0))

/-- A hart's write of bytes at a physical address: a register block in the operator seat, else device memory and what lies around
it, translated under the key of its seat. False is an access fault. -/
def State.hartStore (s : State) (hart a : Nat) (b : List Byte) : State × Bool :=
  let h := s.hart hart
  if h.pmpPasses a b.length true = false then (s, false)
  else if hartBlock a then
    if h.hseat.toNat % 4 = 0 then (s.hartSetReg hart (a % 2 ^ 20) b, true) else (s, false)
  else
    let r := s.agentStore h.key a b
    (r.1, r.2.isNone)

/-- A hart's read of bytes at a physical address; none is an access fault. -/
def State.hartLoad (s : State) (hart a n : Nat) : State × Option (List Byte) :=
  let h := s.hart hart
  if h.pmpPasses a n false = false then (s, none)
  else if hartBlock a then (s, if h.hseat.toNat % 4 = 0 then some (s.hartReg hart (a % 2 ^ 20) n) else none)
  else match s.deviceRead h.key a (n / 64 + 2) n with
    | (s, .ok b) => (s, some b)
    | (s, .error _) => (s, none)

/-! ## Record and replay (25 R433-R436) -/

/-- HREC_WRITE: MODE 3 is ignored; what a full log held back is delivered when recording ends. -/
def execHrecWrite (hart : Nat) (v : DWord) (s : State) : Res :=
  .next <|
    let m := v.toNat % 4
    let h := s.hart hart
    if s.hartWrites hart = false ∨ m = 3 then s
    else if m = 1 then s.setHart hart { h with mode := 1, ended := false }
    else
      let s := s.setHart hart { h with mode := m, ended := false, backlog := [] }
      h.backlog.foldl (fun s e => s.deliverTo hart e.1 e.2.2.1 e.2.2.2.1 e.2.2.2.2) s

/-- A write of a register of a hart's log: a base that is no multiple of 4,096, and a size that is no power of two from 2^16 to 2^32, are
ignored (25 R433; log 46). -/
def Hart.setLog (h : Hart) (w : LogWrite) : Hart :=
  match w.reg with
  | .base => if w.value.toNat % 4096 = 0 then { h with base := w.value } else h
  | .size => if isPow w.value.toNat (2 ^ 16) (2 ^ 32) then { h with size := w.value } else h
  | .tail => { h with tail := w.value }
  | .head => { h with head := w.value }

/-- HRLHEAD_WRITE: a write of a register of the log; delivery that a full log stopped resumes (25 R433, R435). -/
def execHrlheadWrite (hart : Nat) (w : LogWrite) (s : State) : Res :=
  .next <|
    if s.hartWrites hart = false then s
    else
      let s := s.setHart hart ((s.hart hart).setLog w)
      if (s.hart hart).mode = 1 then s.drainBacklog hart (s.hart hart).backlog.length else s

/-- Reads bytes of a hart's log from an offset of `hrlhead` on, 32 at a time. -/
def State.logRead (s : State) (hart : Nat) : Nat → Nat → State × Except Why (List Byte)
  | 0, _ => (s, .ok [])
  | n + 1, off =>
    let h := s.hart hart
    let a := h.base.toNat + (h.head.toNat + off) % h.size.toNat
    match s.deviceRead h.key a 2 32 with
    | (s, .error w) => (s, .error w)
    | (s, .ok b) => match State.logRead s hart n (off + 32) with
      | (s, .error w) => (s, .error w)
      | (s, .ok r) => (s, .ok (b ++ r))

/-- The next entry of a hart's log: its head and its payload. -/
def State.nextEntry (s : State) (hart : Nat) : State × Option (List Byte × List Byte) :=
  let h := s.hart hart
  if h.size = 0 ∨ h.logUsed < 32 then (s, none)
  else match s.logRead hart 1 0 with
    | (s, .error _) => (s, none)
    | (s, .ok b) =>
      let n := cmdField b 2 2
      match s.logRead hart ((n + 31) / 32) 32 with
      | (s, .error _) => (s, none)
      | (s, .ok p) => (s, some (b, p.take n))

/-- An exhausted log ends the replay. -/
def State.endReplay (s : State) (hart : Nat) : State :=
  let h := s.hart hart
  if h.mode = 2 ∧ h.logUsed < 32 then s.setHart hart { h with mode := 0, ended := true } else s

/-- A hart takes an entry of its log at its count. -/
def State.takeEntry (s : State) (hart : Nat) (b : List Byte) : State :=
  let h := s.hart hart
  s.setHart hart { h with head := h.head + BitVec.ofNat 64 (entryBytes (cmdField b 2 2))
                          minstret := BitVec.ofNat 64 (cmdField b 8 8) }

/-- The completion record that VALUE names has been written: QUEUE in bits 11:0 and SEQ in bits 59:12, as in TASKQ. -/
def State.recordWritten (s : State) (value : Nat) : Bool :=
  let q := s.queue (value % 2 ^ 12)
  let seq := value / 2 ^ 12 % 2 ^ 48
  decide (seq < q.qseq.toNat) && q.cmds.all fun c => c.seq != seq

/-- REPLAY_EVENT_DELIVERY: the hart has reached the count of the next entry. A timer entry is taken by the read of the timer; a
command completion waits until its record is written. -/
def execReplayEventDelivery (hart : Nat) (s : State) : Res :=
  .next <|
    if 16 ≤ hart ∨ (s.hart hart).released = false ∨ (s.hart hart).mode ≠ 2 then s
    else match s.nextEntry hart with
      | (s, none) => s.endReplay hart
      | (s, some (b, payload)) =>
        let kind := cmdField b 0 1
        if kind = 3 ∨ (kind = 4 ∧ s.recordWritten (cmdField b 16 8) = false) then s
        else
          let s := s.takeEntry hart b
          (s.deliverTo hart kind payload (cmdField b 24 8) (BitVec.ofNat 64 (cmdField b 16 8))).endReplay hart

/-- TIME_OR_CYCLE_READ: the live value, logged in record mode; the logged value in replay mode. -/
def execTimeOrCycleRead (hart : Nat) (live : DWord) (s : State) : Res :=
  .next <|
    if 16 ≤ hart ∨ (s.hart hart).released = false then s
    else if (s.hart hart).mode ≠ 2 then s.arrive hart 3 0 [] 0 live
    else match s.nextEntry hart with
      | (s, some (b, _)) =>
        if cmdField b 0 1 = 3 then
          ((s.takeEntry hart b).deliverTo hart 3 [] 0 (BitVec.ofNat 64 (cmdField b 16 8))).endReplay hart
        else s
      | (s, none) => s.endReplay hart

/-- NVME_COMPLETION. -/
def execNvmeCompletion (hart queue : Nat) (payload : List Byte) (addr : Nat) (s : State) : Res :=
  .next (s.arrive hart 1 queue payload addr 0)

/-! ## Ethernet (22 R393) -/

/-- SECURE_ASSOCIATION_INSTALL. -/
def execSecureAssociationInstall (port : Nat) (s : State) : Res :=
  .next (if 32 ≤ port ∨ s.awake = false then s else s.modFab fun f => { f with secure := insertNat f.secure port })

/-- ETHERNET_FRAME_RECEIVE: ports 0 to 15 are those of hub 0 (log 86), and one that is not ready receives nothing (26 R438). A port without a secure association drops every frame; a frame without a SecTAG or whose check fails is
dropped and counted; no frame is larger than 9,216 bytes. -/
def execEthernetFrameReceive (port hart : Nat) (secTag checkOk : Bool) (frame : List Byte) (addr : Nat) (s : State) : Res :=
  .next <|
    if ¬ s.fab.secure.contains port ∨ 9216 < frame.length ∨ s.fnReady (28 + port / 16) = false then s
    else if secTag = false ∨ checkOk = false then s.modFab fun f => { f with ethDrop := f.ethDrop + 1 }
    else s.arrive hart 0 port frame addr 0

/-! ## Patrol scrub (16 R319) -/

/-- The first unit from `u` on whose home is a tower; within 64 units every tower has some. -/
def firstUnit (tower u : Nat) : Nat :=
  (((List.range 64).map fun i => (u + i) % 2 ^ 33).find? fun x => towerOf (64 * x) == tower).getD u

/-- The patrol's next unit of a tower from a unit on: the units of the device's memory, then those of the slice region that are poisoned
or in error, in which alone it can find anything; then it starts anew. -/
def State.patrolUnit (s : State) (tower u : Nat) : Nat :=
  let mine (x : Nat) : Bool := towerOf (64 * x) == tower
  let slices := (s.mem.poison ++ s.mem.symErr.map Prod.fst).filter fun x => decide (sliceBase / 64 ≤ x ∧ u ≤ x) && mine x
  ((((List.range 64).map (u + ·)).find? fun x => decide (x < 2 ^ 33) && mine x).or (slices.foldl insertNat []).head?).getD
    (firstUnit tower 0)

/-- The patrol reads a unit through the steps of R317, under the unit's own keys (log 10): one that fails, or is poisoned, has its page
retired. -/
def State.patrolJudge (s : State) (tower u : Nat) : State :=
  if s.mem.poison.contains u then s.retirePage tower (u / 64)
  else
    let key := match Table.find? s.mem.seals u with
      | some i => i.keyId
      | none => 0
    match s.unitRead key u true with
    | (s, some _) => s.retirePage tower (u / 64)
    | (s, none) => s

/-- PATROL_SCRUB_STEP: the tower's next unit in ascending order. -/
def execPatrolScrubStep (tower : Nat) (s : State) : Res :=
  .next <|
    if 8 ≤ tower ∨ s.fnReady tower = false then s
    else
      let u := s.patrolUnit tower (Table.getD s.mem.patrol tower 0)
      let s := s.patrolJudge tower u
      { s with mem := { s.mem with patrol := Table.set s.mem.patrol tower (u + 1) } }

end Sys2Proof.Machine
end

