-- ==== Sys2Proof/Machine/Dispatch.lean ====
section
/-! DEFINITION. The dispatch: one arm per row of the opcode table, each one call of its meaning. -/

namespace Sys2Proof.Machine

def exec (i : Instr) (s : State) : Host.Outcome State Fault Refusal :=
  match i with
  | .pb p n m => Sys2Proof.Machine.execPb p n m s
  | .iop ch d a b w64 f => Sys2Proof.Machine.execIop ch d a b w64 f s
  | .addi ch d a imm => Sys2Proof.Machine.execAddi ch d a imm s
  | .andi ch d a imm => Sys2Proof.Machine.execAndi ch d a imm s
  | .ori ch d a imm => Sys2Proof.Machine.execOri ch d a imm s
  | .xori ch d a imm => Sys2Proof.Machine.execXori ch d a imm s
  | .shi ch d a k w64 amt => Sys2Proof.Machine.execShi ch d a k w64 amt s
  | .movi ch d imm => Sys2Proof.Machine.execMovi ch d imm s
  | .movhi ch d imm => Sys2Proof.Machine.execMovhi ch d imm s
  | .icmp ch p a b r t => Sys2Proof.Machine.execIcmp ch p a b r t s
  | .icmpi ch p a r t imm => Sys2Proof.Machine.execIcmpi ch p a r t imm s
  | .plop ch d x y f => Sys2Proof.Machine.execPlop ch d x y f s
  | .sel ch d a b p w64 => Sys2Proof.Machine.execSel ch d a b p w64 s
  | .xmovMov ch d a => Sys2Proof.Machine.execXmovMov ch d a s
  | .xmovRds ch d sh => Sys2Proof.Machine.execXmovRds ch d sh s
  | .xmovRdk ch d k => Sys2Proof.Machine.execXmovRdk ch d k s
  | .xmovWrk ch a k => Sys2Proof.Machine.execXmovWrk ch a k s
  | .xmovRdp ch d => Sys2Proof.Machine.execXmovRdp ch d s
  | .xmovWrp ch a => Sys2Proof.Machine.execXmovWrp ch a s
  | .xmovShape ch d a => Sys2Proof.Machine.execXmovShape ch d a s
  | .xmovPrec ch d e => Sys2Proof.Machine.execXmovPrec ch d e s
  | .lea ch d a b sh sg => Sys2Proof.Machine.execLea ch d a b sh sg s
  | .fop ch d a b o t rm => Sys2Proof.Machine.execFop ch d a b o t rm s
  | .fma32 ch d a b e neg => Sys2Proof.Machine.execFma32 ch d a b e neg s
  | .fmah ch d a b e neg => Sys2Proof.Machine.execFmah ch d a b e neg s
  | .fmab ch d a b e neg => Sys2Proof.Machine.execFmab ch d a b e neg s
  | .fmad ch d a b e neg => Sys2Proof.Machine.execFmad ch d a b e neg s
  | .funOp ch d a f t => Sys2Proof.Machine.execFunOp ch d a f t s
  | .fcmp ch p a b r t => Sys2Proof.Machine.execFcmp ch p a b r t s
  | .cvt ch d a dty sty rm sat => Sys2Proof.Machine.execCvt ch d a dty sty rm sat s
  | .shfl ch d a b k imm => Sys2Proof.Machine.execShfl ch d a b k imm s
  | .voteAny ch q p => Sys2Proof.Machine.execVoteAny ch q p s
  | .voteAll ch q p => Sys2Proof.Machine.execVoteAll ch q p s
  | .voteBallot ch d p => Sys2Proof.Machine.execVoteBallot ch d p s
  | .voteElect ch d q p => Sys2Proof.Machine.execVoteElect ch d q p s
  | .redux ch d a o t => Sys2Proof.Machine.execRedux ch d a o t s
  | .dot4 ch d a b e uns => Sys2Proof.Machine.execDot4 ch d a b e uns s
  | .ld ch d ap w off => Sys2Proof.Machine.execLd ch d ap w off s
  | .lds ch d ap w off => Sys2Proof.Machine.execLds ch d ap w off s
  | .st ch d ap w off => Sys2Proof.Machine.execSt ch d ap w off s
  | .lda ch d ap sc w => Sys2Proof.Machine.execLda ch d ap sc w s
  | .stl ch d ap sc w => Sys2Proof.Machine.execStl ch d ap sc w s
  | .atom ch d ap b sc o => Sys2Proof.Machine.execAtom ch d ap b sc o s
  | .cas ch d ap b sc w => Sys2Proof.Machine.execCas ch d ap b sc w s
  | .fenceAr ch sc => Sys2Proof.Machine.execFenceAr ch sc s
  | .fenceAcq ch sc => Sys2Proof.Machine.execFenceAcq ch sc s
  | .fenceRel ch sc => Sys2Proof.Machine.execFenceRel ch sc s
  | .waitCnt ch ldc stc cpc tlc => Sys2Proof.Machine.execWaitCnt ch ldc stc cpc tlc s
  | .mwait ch d ap b sc cond w => Sys2Proof.Machine.execMwait ch d ap b sc cond w s
  | .ldfeKeep ch d ap sc w => Sys2Proof.Machine.execLdfeKeep ch d ap sc w s
  | .ldfeTake ch d ap sc w => Sys2Proof.Machine.execLdfeTake ch d ap sc w s
  | .stfeFill ch d ap sc w => Sys2Proof.Machine.execStfeFill ch d ap sc w s
  | .stfePut ch d ap sc w => Sys2Proof.Machine.execStfePut ch d ap sc w s
  | .cctlIsync ch => Sys2Proof.Machine.execCctlIsync ch s
  | .cctlDwb ch ap sc => Sys2Proof.Machine.execCctlDwb ch ap sc s
  | .cctlDinv ch ap sc => Sys2Proof.Machine.execCctlDinv ch ap sc s
  | .cctlPfx ch ap sc => Sys2Proof.Machine.execCctlPfx ch ap sc s
  | .bra ch p sh disp => Sys2Proof.Machine.execBra ch p sh disp s
  | .jmpr ch a => Sys2Proof.Machine.execJmpr ch a s
  | .call ch disp => Sys2Proof.Machine.execCall ch disp s
  | .callr ch a => Sys2Proof.Machine.execCallr ch a s
  | .fcall ch fd disp => Sys2Proof.Machine.execFcall ch fd disp s
  | .ret ch => Sys2Proof.Machine.execRet ch s
  | .yieldOp ch => Sys2Proof.Machine.execYieldOp ch s
  | .exitOp ch => Sys2Proof.Machine.execExitOp ch s
  | .barSync ch idx => Sys2Proof.Machine.execBarSync ch idx s
  | .barArrive ch idx => Sys2Proof.Machine.execBarArrive ch idx s
  | .launchGrid ch d a => Sys2Proof.Machine.execLaunchGrid ch d a s
  | .cwaitAll ch => Sys2Proof.Machine.execCwaitAll ch s
  | .cwaitFgate ch => Sys2Proof.Machine.execCwaitFgate ch s
  | .cwaitFstat ch d sel => Sys2Proof.Machine.execCwaitFstat ch d sel s
  | .cwaitFsq ch => Sys2Proof.Machine.execCwaitFsq ch s
  | .tilePload ch ap sl g => Sys2Proof.Machine.execTilePload ch ap sl g s
  | .tilePloadw ch ap sl g => Sys2Proof.Machine.execTilePloadw ch ap sl g s
  | .tileExpose ch ap sl tp g => Sys2Proof.Machine.execTileExpose ch ap sl tp g s
  | .tileExposew ch ap sl tp g => Sys2Proof.Machine.execTileExposew ch ap sl tp g s
  | .tileTcvt ch sa sl dst g => Sys2Proof.Machine.execTileTcvt ch sa sl dst g s
  | .tileTdcvt ch sa sl dst g => Sys2Proof.Machine.execTileTdcvt ch sa sl dst g s
  | .tileTrayz ch tp g => Sys2Proof.Machine.execTileTrayz ch tp g s
  | .tileTrayrd ch tp dst g => Sys2Proof.Machine.execTileTrayrd ch tp dst g s
  | .tileTrayfl ch tp g => Sys2Proof.Machine.execTileTrayfl ch tp g s
  | .tilePstat ch d sel => Sys2Proof.Machine.execTilePstat ch d sel s
  | .qaccQrst ch q a p => Sys2Proof.Machine.execQaccQrst ch q a p s
  | .qaccQgen ch q d a => Sys2Proof.Machine.execQaccQgen ch q d a s
  | .qaccQapp ch q a b => Sys2Proof.Machine.execQaccQapp ch q a b s
  | .qaccQcnt ch q d => Sys2Proof.Machine.execQaccQcnt ch q d s
  | .qaccQaplReg ch q d a => Sys2Proof.Machine.execQaccQaplReg ch q d a s
  | .qaccQapltReg ch q d a => Sys2Proof.Machine.execQaccQapltReg ch q d a s
  | .qaccQaprReg ch q d a => Sys2Proof.Machine.execQaccQaprReg ch q d a s
  | .qaccQaprtReg ch q d a => Sys2Proof.Machine.execQaccQaprtReg ch q d a s
  | .qaccQaplTile ch q ap g => Sys2Proof.Machine.execQaccQaplTile ch q ap g s
  | .qaccQapltTile ch q ap g => Sys2Proof.Machine.execQaccQapltTile ch q ap g s
  | .qaccQaprTile ch q ap g => Sys2Proof.Machine.execQaccQaprTile ch q ap g s
  | .qaccQaprtTile ch q ap g => Sys2Proof.Machine.execQaccQaprtTile ch q ap g s
  | .qaccQsave ch q ap => Sys2Proof.Machine.execQaccQsave ch q ap s
  | .qaccQload ch q ap => Sys2Proof.Machine.execQaccQload ch q ap s
  | .qaccQspill ch q => Sys2Proof.Machine.execQaccQspill ch q s
  | .qaccQclr ch q => Sys2Proof.Machine.execQaccQclr ch q s
  | .xferCopy ch d a b => Sys2Proof.Machine.execXferCopy ch d a b s
  | .xferCopy2d ch d a b => Sys2Proof.Machine.execXferCopy2d ch d a b s
  | .xferHalo ch d a b => Sys2Proof.Machine.execXferHalo ch d a b s
  | .xferBxfer ch d a b => Sys2Proof.Machine.execXferBxfer ch d a b s
  | .xferBxferOne ch d a b => Sys2Proof.Machine.execXferBxferOne ch d a b s
  | .xferBxmc ch d a b => Sys2Proof.Machine.execXferBxmc ch d a b s
  | .xferBxmcOne ch d a b => Sys2Proof.Machine.execXferBxmcOne ch d a b s
  | .xferRatom ch d ap o => Sys2Proof.Machine.execXferRatom ch d ap o s
  | .xferArmc ch a b => Sys2Proof.Machine.execXferArmc ch a b s
  | .xferArmcZ ch a b => Sys2Proof.Machine.execXferArmcZ ch a b s
  | .xferAcwait ch d a => Sys2Proof.Machine.execXferAcwait ch d a s
  | .sysSeatq ch d => Sys2Proof.Machine.execSysSeatq ch d s
  | .sysPlace ch d a b rp => Sys2Proof.Machine.execSysPlace ch d a b rp s
  | .sysPlaceRs ch d a b rp => Sys2Proof.Machine.execSysPlaceRs ch d a b rp s
  | .sysPreempt ch d a => Sys2Proof.Machine.execSysPreempt ch d a s
  | .sysPreemptAt ch d a b => Sys2Proof.Machine.execSysPreemptAt ch d a b s
  | .sysReset ch d a => Sys2Proof.Machine.execSysReset ch d a s
  | .sysCkpt ch d a b => Sys2Proof.Machine.execSysCkpt ch d a b s
  | .sysCkptRs ch d a b => Sys2Proof.Machine.execSysCkptRs ch d a b s
  | .sysScrub ch d a b => Sys2Proof.Machine.execSysScrub ch d a b s
  | .sysRcpt ch d a b l => Sys2Proof.Machine.execSysRcpt ch d a b l s
  | .sysCtrrd ch d a b => Sys2Proof.Machine.execSysCtrrd ch d a b s
  | .sysCtxrd ch d a b => Sys2Proof.Machine.execSysCtxrd ch d a b s
  | .sysCsrr ch d idx => Sys2Proof.Machine.execSysCsrr ch d idx s
  | .sysCsrw ch a idx => Sys2Proof.Machine.execSysCsrw ch a idx s
  | .sysTrap ch tag n => Sys2Proof.Machine.execSysTrap ch tag n s
  | .sysTret ch => Sys2Proof.Machine.execSysTret ch s
  | .sysBrk ch tag => Sys2Proof.Machine.execSysBrk ch tag s
  | .sysBpset ch n a b => Sys2Proof.Machine.execSysBpset ch n a b s
  | .sysBpclr ch n => Sys2Proof.Machine.execSysBpclr ch n s
  | .sysFeatq ch d => Sys2Proof.Machine.execSysFeatq ch d s
  | .sysMgset ch a b => Sys2Proof.Machine.execSysMgset ch a b s
  | .issueCycle => Sys2Proof.Machine.execIssueCycle s
  | .starvation thread => Sys2Proof.Machine.execStarvation thread s
  | .yieldMarkExpire thread => Sys2Proof.Machine.execYieldMarkExpire thread s
  | .stallNotice key => Sys2Proof.Machine.execStallNotice key s
  | .loadDataReturn id => Sys2Proof.Machine.execLoadDataReturn id s
  | .mwaitWake thread => Sys2Proof.Machine.execMwaitWake thread s
  | .fullEmptyWake thread => Sys2Proof.Machine.execFullEmptyWake thread s
  | .tileWordComplete id => Sys2Proof.Machine.execTileWordComplete id s
  | .qaccWordComplete id => Sys2Proof.Machine.execQaccWordComplete id s
  | .trayMerge id line => Sys2Proof.Machine.execTrayMerge id line s
  | .copySectorComplete id sector => Sys2Proof.Machine.execCopySectorComplete id sector s
  | .transferPacketArrival pkt => Sys2Proof.Machine.execTransferPacketArrival pkt s
  | .transferReply req src incs positive cause bytes => Sys2Proof.Machine.execTransferReply req src incs positive cause bytes s
  | .packetWriteCompletion tag flagWrite off written => Sys2Proof.Machine.execPacketWriteCompletion tag flagWrite off written s
  | .replyBoundExpire xid peer => Sys2Proof.Machine.execReplyBoundExpire xid peer s
  | .remoteAtomicArrival req => Sys2Proof.Machine.execRemoteAtomicArrival req s
  | .ratomReply tag positive cause value => Sys2Proof.Machine.execRatomReply tag positive cause value s
  | .incarnationAnnouncement sa sinc => Sys2Proof.Machine.execIncarnationAnnouncement sa sinc s
  | .ualinkFlitReceive station tagOk kindOk => Sys2Proof.Machine.execUalinkFlitReceive station tagOk kindOk s
  | .ethernetFrameReceive port hart secTag checkOk frame addr => Sys2Proof.Machine.execEthernetFrameReceive port hart secTag checkOk frame addr s
  | .hostMemAccess port stream addr write data => Sys2Proof.Machine.execHostMemAccess port stream addr write data s
  | .registerWrite off width value => Sys2Proof.Machine.execRegisterWrite off width value s
  | .queueDoorbell q tail => Sys2Proof.Machine.execQueueDoorbell q tail s
  | .queueRestart q => Sys2Proof.Machine.execQueueRestart q s
  | .commandNop q => Sys2Proof.Machine.execCommandNop q s
  | .commandGrid q => Sys2Proof.Machine.execCommandGrid q s
  | .commandFence q => Sys2Proof.Machine.execCommandFence q s
  | .completionRecordWrite q => Sys2Proof.Machine.execCompletionRecordWrite q s
  | .teamPlacement grid team cluster cores => Sys2Proof.Machine.execTeamPlacement grid team cluster cores s
  | .teamRelease team => Sys2Proof.Machine.execTeamRelease team s
  | .gridRetire grid => Sys2Proof.Machine.execGridRetire grid s
  | .teamPark team => Sys2Proof.Machine.execTeamPark team s
  | .preemptTargetReached grid => Sys2Proof.Machine.execPreemptTargetReached grid s
  | .imageSealed grid => Sys2Proof.Machine.execImageSealed grid s
  | .haltHoldExpire grid => Sys2Proof.Machine.execHaltHoldExpire grid s
  | .resetScrubComplete id => Sys2Proof.Machine.execResetScrubComplete id s
  | .scrubComplete id => Sys2Proof.Machine.execScrubComplete id s
  | .ckptComplete id flashOk => Sys2Proof.Machine.execCkptComplete id flashOk s
  | .pageFaultResponse value => Sys2Proof.Machine.execPageFaultResponse value s
  | .pageFaultBoundExpire id => Sys2Proof.Machine.execPageFaultBoundExpire id s
  | .pageFaultRepost id => Sys2Proof.Machine.execPageFaultRepost id s
  | .shootdownRequest identity => Sys2Proof.Machine.execShootdownRequest identity s
  | .shootdownFinish => Sys2Proof.Machine.execShootdownFinish s
  | .receiveMappingWrite id => Sys2Proof.Machine.execReceiveMappingWrite id s
  | .faultLogReset key isSize value => Sys2Proof.Machine.execFaultLogReset key isSize value s
  | .fabricEnable => Sys2Proof.Machine.execFabricEnable s
  | .domainTableWrite k value => Sys2Proof.Machine.execDomainTableWrite k value s
  | .hseatWrite hart value => Sys2Proof.Machine.execHseatWrite hart value s
  | .replayEventDelivery hart => Sys2Proof.Machine.execReplayEventDelivery hart s
  | .mailboxExtend dig cmd => Sys2Proof.Machine.execMailboxExtend dig cmd s
  | .featureLock value => Sys2Proof.Machine.execFeatureLock value s
  | .featureLockTimeout => Sys2Proof.Machine.execFeatureLockTimeout s
  | .deviceReset boot => Sys2Proof.Machine.execDeviceReset boot s
  | .railsStable => Sys2Proof.Machine.execRailsStable s
  | .functionReady isCore n => Sys2Proof.Machine.execFunctionReady isCore n s
  | .getVersion port => Sys2Proof.Machine.execGetVersion port s
  | .getCapabilities port => Sys2Proof.Machine.execGetCapabilities port s
  | .negotiateAlgorithms port supported => Sys2Proof.Machine.execNegotiateAlgorithms port supported s
  | .getDigests port => Sys2Proof.Machine.execGetDigests port s
  | .getCertificate port slot => Sys2Proof.Machine.execGetCertificate port slot s
  | .challenge port nonce => Sys2Proof.Machine.execChallenge port nonce s
  | .getMeasurements port block => Sys2Proof.Machine.execGetMeasurements port block s
  | .keyExchange port requesterKey => Sys2Proof.Machine.execKeyExchange port requesterKey s
  | .finish session mutualAuth => Sys2Proof.Machine.execFinish session mutualAuth s
  | .keyUpdate session => Sys2Proof.Machine.execKeyUpdate session s
  | .endSession session => Sys2Proof.Machine.execEndSession session s
  | .createContext session cs consent harts audkeys => Sys2Proof.Machine.execCreateContext session cs consent harts audkeys s
  | .contextInfo session key => Sys2Proof.Machine.execContextInfo session key s
  | .countReport session key index => Sys2Proof.Machine.execCountReport session key index s
  | .sealRecord session key header body => Sys2Proof.Machine.execSealRecord session key header body s
  | .bindStream session key port stream => Sys2Proof.Machine.execBindStream session key port stream s
  | .debugResume key loc => Sys2Proof.Machine.execDebugResume key loc s
  | .debugStep key loc => Sys2Proof.Machine.execDebugStep key loc s
  | .debugResumeAll key => Sys2Proof.Machine.execDebugResumeAll key s
  | .debugDetach key => Sys2Proof.Machine.execDebugDetach key s
  | .debugStopRequest key => Sys2Proof.Machine.execDebugStopRequest key s
  | .csassignWrite die value => Sys2Proof.Machine.execCsassignWrite die value s
  | .contactSheetSample die core => Sys2Proof.Machine.execContactSheetSample die core s
  | .contactSheetDrain die => Sys2Proof.Machine.execContactSheetDrain die s
  | .patrolScrubStep tower => Sys2Proof.Machine.execPatrolScrubStep tower s
  | .glitchDetect => Sys2Proof.Machine.execGlitchDetect s
  | .tamperDetect => Sys2Proof.Machine.execTamperDetect s
  | .ucieTagFailure => Sys2Proof.Machine.execUcieTagFailure s
  | .powerLimitExceeded => Sys2Proof.Machine.execPowerLimitExceeded s
  | .dieOvertemp die => Sys2Proof.Machine.execDieOvertemp die s
  | .forcedCapLift die => Sys2Proof.Machine.execForcedCapLift die s
  | .storeComplete id => Sys2Proof.Machine.execStoreComplete id s
  | .xferCommandAccept id => Sys2Proof.Machine.execXferCommandAccept id s
  | .stationUpOrDown station up => Sys2Proof.Machine.execStationUpOrDown station up s
  | .hostPortUpOrDown port up => Sys2Proof.Machine.execHostPortUpOrDown port up s
  | .ideKeySetup session port stream => Sys2Proof.Machine.execIdeKeySetup session port stream s
  | .secureAssociationInstall port => Sys2Proof.Machine.execSecureAssociationInstall port s
  | .hrecWrite hart value => Sys2Proof.Machine.execHrecWrite hart value s
  | .hrlheadWrite hart value => Sys2Proof.Machine.execHrlheadWrite hart value s
  | .timeOrCycleRead hart live => Sys2Proof.Machine.execTimeOrCycleRead hart live s
  | .nvmeCompletion hart queue payload addr => Sys2Proof.Machine.execNvmeCompletion hart queue payload addr s

end Sys2Proof.Machine
end

