-- ==== Sys2Proof/Machine/Issue.lean ====
section
/-! DEFINITION. The issue of a bundle (02 R40-R52, R61): the fetch, the guards, the decode checks, comparator hits (14 R271), the
probe for faults detected at or before issue (02 R45), the word or the chained pair, and what the issue counts (17 R345, 25
R422, R429, R430). The meaning of a word is given as a function. -/

namespace Sys2Proof.Machine

/-- The state a meaning leaves, where it goes on. -/
def Res.stateOr (r : Res) (s : State) : State :=
  match r with
  | .next s => s
  | _ => s

/-- The threads of a bundle that still stand at its word, ready. -/
def State.lanesNow (s : State) (b : Bundle) : List Nat :=
  b.lanes.filter fun t => s.basicReady t && (s.thread t).pc == b.pc

/-- The word in issue at an address of a bundle. -/
def Bundle.cur (b : Bundle) (pc after : DWord) (lanes : List Nat) : Cur :=
  { Cur.none with core := b.core, part := b.part, pc := pc, after := after, lanes := lanes }

/-- Takes faults detected at or before issue: thread, cause and value. -/
def State.takeEarly (s : State) (b : Bundle) (fs : List (Nat × Nat × DWord)) : State :=
  fs.foldl (fun s f => if (Table.find? s.threads f.1).isNone then s else s.early f.1 f.2.1 f.2.2) (s.setCur (b.cur b.pc (b.pc + 4) []))

/-! ## What an issue counts -/

/-- The context a bundle's slots are charged to. -/
def State.bundleKey (s : State) (ts : List Nat) : Nat := (s.gridOf (ts.headD 0)).key

/-- A slot carries a word of a bundle: charged at once, or noted for continuations that have the slot alone (25 R430). -/
def State.chargeWord (s : State) (key : Nat) (conts : List Nat) (alone : Bool) (cls : Nat) : State :=
  if alone then s.modEng fun e => { e with slots := e.slots ++ [(key, conts, false)] } else s.chargeSlot key cls

/-- Threads issue: their wait counts return to 0, and no yield mark waits for them (17 R340, R345). -/
def State.issued (s : State) (ts : List Nat) : State :=
  let f (e : Nat × Thread) : Nat × Thread :=
    let th := if ts.contains e.1 then { e.2 with waitCnt := 0, starving := false } else e.2
    (e.1, { th with mark := th.mark.map fun m => (m.1, m.2.filter fun q => !ts.contains q) })
  { s with threads := s.threads.map f }

/-- What a sample shows of a crew. -/
def State.stampOf (s : State) (c : Nat) : Nat × Nat × Nat × Nat :=
  let g := s.grid (s.team (s.crew c).team).grid
  (g.key, (s.crew c).slot, g.queue, g.seq)

/-- The partition's record of a bundle that issues, of the threads `ts`: its slots; for bundle 1 its threads, its key (17 R339) and
what a sample sees (25 R427). -/
def State.noteSlots (s : State) (b : Bundle) (ts : List Nat) (n cls : Nat) : State :=
  let p := s.part b.core b.part
  let p := { p with used := p.used + n, skip := p.skip || (n == 2 && p.cap), empty := p.empty && !b.lead }
  let key := s.keyOf ((sortBy (fun x y => keyLt (s.keyOf x) (s.keyOf y)) ts).headD 0)
  s.setPart b.core b.part (if b.lead then
    { p with pc := b.pc, cls := cls, prev := ts, prevKey := key, stamp := s.stampOf (s.thread (ts.headD 0)).crew } else p)

/-- The crews of the threads of a bundle that are no continuations, in ascending LOC. -/
def State.crewsOf (s : State) (ts : List Nat) : List Nat :=
  s.byLoc ((ts.filter fun t => !(s.thread t).isCont).map fun t => (s.thread t).crew).eraseDups

/-- A crew that steps is held again after its issue (25 R422). -/
def State.stepDone (s : State) (cs : List Nat) : State :=
  cs.foldl (fun s c =>
    if (s.crew c).stepping = false then s
    else match s.liveOf c with
      | [] => s.modCrew c fun x => { x with stepping := false }
      | t :: _ =>
        if (s.crew c).held.isSome then s.modCrew c fun x => { x with stepping := false }
        else s.holdCrew c .step Cause.breakpoint t (s.thread t).pc 0) s

/-- What a sample shows of the oldest crew of a partition; key 0 and no grid where it holds none (25 R430). -/
def State.oldestStamp (s : State) (core part : Nat) : Nat × Nat × Nat × Nat :=
  let cs := s.crews.filter fun e => e.2.resident && e.2.core == core && e.2.part == part
  match cs with
  | [] => (0, 0, 0xFFF, 0)
  | e :: l => s.stampOf (l.foldl (fun a b => if b.2.age < a.2.age then b else a) e).1

/-- The slots a partition leaves empty in a cycle are charged (25 R429, R430). -/
def State.closeCycle (s : State) (core part : Nat) : State :=
  let p := s.part core part
  let stamp := s.oldestStamp core part
  let key := stamp.1
  let s := if p.empty then s.setPart core part { p with cls := p.idle.1, stamp := stamp } else s
  let s := if p.used = 0 then s.chargeSlot key p.idle.1 else s
  if p.used < 2 then s.chargeSlot key p.idle.2 else s

/-! ## Comparators (14 R270, R271; 25 R420) -/

/-- The condition of a comparator in a lane. -/
def Comparator.holds (c : Comparator) (th : Thread) : Bool :=
  let w := c.cfg.toNat
  let v := th.rv (BitVec.ofNat 6 w)
  let imm : BitVec 16 := BitVec.ofNat 16 (w / 2 ^ 16)
  let signed := w.testBit 9
  let k : Word := if signed then imm.signExtend 32 else imm.setWidth 32
  let lt := if signed then v.slt k else v.ult k
  match bitsN w 8 6 with
  | 0 => v == k
  | 1 => v != k
  | 2 => lt
  | 3 => lt || v == k
  | 4 => !(lt || v == k)
  | _ => !lt

/-- A comparator hits at an address in the lanes about to execute it. -/
def State.hits (s : State) (core key : Nat) (pc : DWord) (ts : List Nat) : Bool :=
  !ts.isEmpty && (s.core core).comps.any fun e =>
    e.2.key == key && e.2.addr == pc &&
      (!e.2.cfg.getLsbD 11 || (if e.2.cfg.getLsbD 10 then ts.all fun t => e.2.holds (s.thread t)
        else ts.any fun t => e.2.holds (s.thread t)))

/-- A hit: the crews are held where a debugger is attached, else every executing thread traps, which cancels the word or both words of
a pair (25 R429); a continuation freezes. -/
def State.takeHit (s : State) (b : Bundle) (ts : List Nat) (pair : Bool) : State :=
  let key := s.bundleKey ts
  let conts := ts.filter fun t => (s.thread t).isCont
  let s := conts.foldl (fun s t => s.freeze t false) (s.setCur (b.cur b.pc (b.pc + 4) []))
  let ths := ts.filter fun t => !conts.contains t
  match s.ctx? key with
  | some c =>
    if c.att then
      let s := (s.crewsOf ths).foldl (fun s x =>
        s.holdCrew x .comparator Cause.breakpoint ((ths.filter fun t => (s.thread t).crew == x).headD 0) b.pc 0) s
      if ths.isEmpty then s else s.holdOthers key
    else
      let charge (s : State) : State := s.chargeWord key conts ths.isEmpty 3
      let s := charge (s.issued ths)
      let s := (if pair then charge s else s).noteSlots b ths (if pair then 2 else 1) 3
      s.takeEarly b (ths.map fun t => (t, Cause.breakpoint, 0))
  | none => s.takeEarly b (ths.map fun t => (t, Cause.breakpoint, 0))

/-! ## The words of a bundle -/

/-- What issues: the decoded words, and how each thread's guard covers them. -/
structure Issue where
  d    : Decoded
  /-- The two words are a pair, or the word issues without the partner that has retired (14 R269). -/
  pair : Bool
  one  : Bool

/-- The first word runs in a thread. -/
def Issue.run0 (x : Issue) (th : Thread) : Bool := wordRuns th.guard x.d.i0

/-- The second word runs in a thread. -/
def Issue.run1 (x : Issue) (th : Thread) : Bool := x.pair && wordRuns (th.guard.step 1) x.d.i1

/-- The address after the word or the pair. -/
def Issue.after (x : Issue) (b : Bundle) : DWord := if x.pair || x.one then b.pc + 8 else b.pc + 4

/-- The first word moves its thread, or takes a snapshot of it: it acts last in its pair. -/
def Issue.rev (x : Issue) : Bool :=
  x.pair && match x.d.i0 with
    | some i => i.movesThread
    | none => false

/-- The word in issue, with what the second word reads (02 R44). -/
def State.curFor (s : State) (b : Bundle) (x : Issue) (ts : List Nat) (second probe : Bool) : Cur :=
  let base := b.cur (if second then b.pc + 4 else b.pc) (x.after b) ts
  { base with
    first := !second && (x.pair || x.one), second := second, probe := probe, rev := x.rev
    snap := if x.pair then ts.map fun t => (t, s.thread t) else []
    snapK := if x.pair then (ts.map fun t => ((s.crewOf t).team, (s.teamOf t).kLead)).eraseDups else []
    snapT := if x.pair then (ts.map fun t => ((s.thread t).crew, (s.crewOf t).tags)).eraseDups else [] }

/-- The faults that a word would take at or before issue. -/
def State.probeWord (s : State) (c : Cur) (run : Instr → State → Res) : Option Instr → List (Nat × Nat × DWord)
  | some i => ((run i (s.setCur c)).stateOr (s.setCur { c with early := [] })).m.cur.early
  | none => []

/-- Runs a word over its lanes. -/
def State.runWord (s : State) (c : Cur) (run : Instr → State → Res) : Option Instr → State
  | some i => if c.lanes.isEmpty then s else (run i (s.setCur c)).stateOr s
  | none => s

/-- Threads in which the word does not run pass it (02 R48); one that waits, or a continuation that has frozen, at the other word stays
as it is. -/
def State.passWord (s : State) (ts : List Nat) (after : Option DWord) (n : Nat) : State :=
  ts.foldl (fun s t =>
    if (Table.find? s.threads t).isNone || (s.thread t).frozen || (s.thread t).wait.active then s
    else s.modThread t fun th => { th with pc := after.getD th.pc, guard := th.guard.step n }) s

/-- The faults of both words, the first word's first. -/
def State.probeAll (s : State) (b : Bundle) (x : Issue) (ts : List Nat) (run : Instr → State → Res) : List (Nat × Nat × DWord) :=
  let l0 := ts.filter fun t => x.run0 (s.thread t)
  let l1 := ts.filter fun t => x.run1 (s.thread t)
  let e0 := s.probeWord (s.curFor b x l0 false true) run x.d.i0
  if x.pair then e0 ++ (s.passWord ts none 1).probeWord (s.curFor b x l1 true true) run x.d.i1 else e0

/-- The words act in the threads in which nothing stops them. -/
def State.performAll (s : State) (b : Bundle) (x : Issue) (ts : List Nat) (run : Instr → State → Res) : State :=
  let l0 := ts.filter fun t => x.run0 (s.thread t)
  let l1 := ts.filter fun t => x.run1 (s.thread t)
  let not0 := ts.filter fun t => !l0.contains t
  let not1 := ts.filter fun t => !l1.contains t
  let c0 := s.curFor b x l0 false false
  let c1 := s.curFor b x l1 true false
  let snap := ts.map fun t => (t, s.thread t)
  let c0 := if x.pair then { c0 with snap := snap } else c0
  let c1 := if x.pair then { c1 with snap := snap } else c1
  if x.rev then
    let s := (s.passWord not0 (some (x.after b)) 0).passWord ts none 1
    ((s.runWord c1 run x.d.i1).passWord not1 none 1).runWord c0 run x.d.i0
  else if x.pair then
    let s := (s.runWord c0 run x.d.i0).passWord not0 (some (x.after b)) 1
    (s.runWord c1 run x.d.i1).passWord not1 none 1
  else (s.runWord c0 run x.d.i0).passWord not0 (some (x.after b)) (if x.one then 2 else 1)

/-- A slot's class: retired where a thread retires the word or none runs it, else squashed (25 R429). -/
def slotClass (ran done commits : List Nat) : Nat :=
  if ran.isEmpty then 2 else if done.isEmpty || done.all commits.contains then 3 else 2

/-- At an issue of a thread of an armed grid the fixer compares the count with the target (21 R378). -/
def State.compareTargets (s : State) (ts : List Nat) : State :=
  (ts.map fun t => (s.teamOf t).grid).eraseDups.foldl (fun s h =>
    match (s.grid h).armed with
    | some (n, _) =>
      if n.toNat ≤ (s.retiredCount (s.grid h).key).toNat then s.modGrid h fun g => { g with met := true } else s
    | none => s) s

/-- A word is a RET. -/
def isRet : Option Instr → Bool
  | some (.ret _) => true
  | _ => false

/-- The threads that a RET of the bundle commits: those whose count of commits its words would raise (06 R149). -/
def State.commitsOf (s : State) (b : Bundle) (x : Issue) (ts : List Nat) (run : Instr → State → Res) : List Nat :=
  if isRet x.d.i0 || isRet x.d.i1 then
    let u := s.performAll b x ts run
    ts.filter fun t => (u.thread t).fork.commit != (s.thread t).fork.commit
  else []

/-- A bundle whose words have been fetched issues. A thread whose word lacks a resource by now stalls at it (05 R133). Where one of the
words needs its whole crew and a thread of the crew faults at or before issue, both words are cancelled in that thread (02 R45), and the
other threads, which have yet to issue, wait for it at the words (04 R115, log 82). -/
def State.issueWords (s : State) (b : Bundle) (ts : List Nat) (x : Issue) (run : Instr → State → Res) : State :=
  let stop (t : Nat) : Option (Nat × Nat × DWord) :=
    let g := (s.thread t).guard
    ((x.d.cause (s.qaccDsts t) g.runs (x.pair && (g.step 1).runs)).or
      (if x.d.coveredPb g then some Cause.guardCover else none)).map fun c => (t, c, 0)
  let bad := ts.filterMap stop
  let rest := ts.filter fun t => bad.all fun e => e.1 != t
  let probe := s.probeAll b x rest run
  let first (t : Nat) : Option (Nat × Nat × DWord) := probe.find? fun e => e.1 == t
  let held := rest.filter fun t => (first t).any fun e => e.2.1 == holdCode
  let early := (rest.filterMap first).filter fun e => e.2.1 != holdCode
  let crewWide := x.d.needsCrew (s.qaccDsts (ts.headD 0)) (s.thread (ts.headD 0)).guard
  let free := rest.filter fun t => (first t).isNone
  let go := if crewWide && !(bad.isEmpty && early.isEmpty) then [] else free
  if bad.isEmpty && early.isEmpty && go.isEmpty then s
  else
    let went := ts.filter fun t => !held.contains t && (go.contains t || !free.contains t)
    let key := s.bundleKey went
    let cs := s.crewsOf went
    let alone := went.all fun t => (s.thread t).isCont
    let ran0 := went.filter fun t => x.run0 (s.thread t)
    let ran1 := went.filter fun t => x.run1 (s.thread t)
    let commits := s.commitsOf b x go run
    let k0 := slotClass ran0 (ran0.filter go.contains) (if isRet x.d.i0 then commits else [])
    let k1 := slotClass ran1 (ran1.filter go.contains) (if isRet x.d.i1 then commits else [])
    let s := s.issued went
    let s := if crewWide then
        cs.foldl (fun s c => s.modCrew c fun y => { y with arrival := none }) s
      else s
    let s := s.chargeWord key went alone k0
    let s := if x.pair then s.chargeWord key went alone k1 else s
    let s := s.noteSlots b went (if x.pair then 2 else 1) k0
    let s := go.foldl (fun s t => s.modThread t Thread.resumed) s
    let s := s.performAll b x go run
    let s := (s.takeEarly b (bad ++ early)).compareTargets went
    (s.setCur Cur.none).stepDone cs

/-- A word cannot be fetched: it faults in the threads in which it runs (02 R40, R48). Where it is the second word of a pair, the
fault is raised before either word, at the first (R40). Where it runs in no thread it still occupies its slot (R52). -/
def State.fetchFails (s : State) (b : Bundle) (ts : List Nat) (cause : Nat) (va : DWord) (replay : Bool) : State :=
  let n := if va = b.pc then 1 else 2
  let runs := ts.filter fun t => (s.thread t).guard.runs || (n == 2 && ((s.thread t).guard.step 1).runs)
  let went := if replay && !runs.isEmpty then [] else if runs.isEmpty then ts else runs
  let s := s.issued went
  let s := if went.isEmpty then s else
    let cls := if runs.isEmpty then 2 else 3
    let charge (s : State) : State := s.chargeWord (s.bundleKey went) went (went.all fun t => (s.thread t).isCont) cls
    (if n = 2 then charge (charge s) else charge s).noteSlots b went n cls
  let s := s.passWord (ts.filter fun t => !runs.contains t) (some (b.pc + BitVec.ofNat 64 (4 * n))) n
  (s.takeEarly b (runs.map fun t => (t, if replay then cause + stallCode else cause, valOf cause va))).setCur Cur.none

/-- A bundle at a crew-wide word still holds its crew's whole arrival set (04 R115). -/
def State.crewWhole (s : State) (ts : List Nat) (x : Issue) : Bool :=
  match ts with
  | [] => false
  | t :: _ => (s.thread t).isCont || !x.d.needsCrew (s.qaccDsts t) (s.thread t).guard ||
    ((s.crewOf t).arrived && match (s.crewOf t).arrival with
      | some (set, _) => set.all ts.contains
      | none => false)

/-- A debugger is attached to a context. -/
def State.debugged (s : State) (key : Nat) : Bool :=
  match s.ctx? key with
  | some c => c.att
  | none => false

/-- What the fetches of a bundle leave behind, crew by crew. -/
def State.fetchEach (s : State) (ts : List Nat) (pc : DWord) (one : Bool) : State :=
  let crews := (ts.map fun t => (s.thread t).crew).eraseDups
  (crews.filterMap fun c => ts.find? fun t => (s.thread t).crew == c).foldl (fun s t => (s.getWords t pc one).1) s

/-- A bundle issues. The threads whose crews hold the same word as the first one's issue together; another crew may still hold an old word
in its loop buffer, and issues it apart (05 R137, log 79). A hold by a debugger comes before a fault of the fetch (25 R423). A crew that
issues a word outside the span of its loop buffer has left it (05 R137; log 68). -/
def State.issueBundle (s : State) (b : Bundle) (run : Instr → State → Res) : State :=
  match s.lanesNow b with
  | [] => s
  | t :: l =>
    let ts := t :: l
    let th := s.thread t
    let s := ts.foldl (fun s q => s.leaveLoop q b.pc) s
    let got := (s.getWords t b.pc th.unchained).2
    let ts := ts.filter fun q => (s.getWords q b.pc th.unchained).2 == got
    let key := s.bundleKey ts
    let tests := ts.filter fun q => !(s.thread q).passes
    let at0 := tests.filter fun q => (s.thread q).guard.runs
    let at1 := tests.filter fun q => ((s.thread q).guard.step 1).runs
    match got with
    | .wait => s
    | .fault c va r =>
      if s.debugged key && s.hits b.core key b.pc at0 then s.takeHit b at0 false
      else if s.debugged key && va != b.pc && s.hits b.core key va at1 then s.takeHit b at1 true
      else (s.fetchEach ts b.pc th.unchained).fetchFails b ts c va r
    | .words w p bad =>
      let s := s.fetchEach ts b.pc th.unchained
      let x : Issue := ⟨decoded s.ctl.neg w p bad, p.isSome, th.unchained && bitAt w 31⟩
      if s.crewWhole ts x = false then s
      else if s.hits b.core key b.pc at0 then s.takeHit b at0 x.pair
      else if x.pair && s.hits b.core key (b.pc + 4) at1 then s.takeHit b at1 true
      else s.issueWords b ts x run

/-- The head of the issue queue: a bundle issues, or a partition's empty slots are charged. A bundle that meets a tower that is not ready
does not issue, and its threads are held (26 R439). -/
def State.issueNext (s : State) (b : Bundle) (run : Instr → State → Res) : State :=
  let s := s.modM fun m => { m with issueQ := m.issueQ.drop 1 }
  let u := if b.lanes.isEmpty then s.closeCycle b.core b.part else s.issueBundle b run
  if u.m.unready then s.modM fun m => { m with waits := m.waits ++ b.lanes } else u

end Sys2Proof.Machine
end

