-- ==== Sys2Proof/Machine/Load.lean ====
section
/-! DEFINITION. How a program comes to run (log 6): from reset nothing runs until the host boots the device and launches a grid.
`placeWord` stands for all of that: a negotiated device, one grid of one thread in the operator seat, its code in host memory
behind a page table of one identity leaf, and the thread's bundle chosen. -/

namespace Sys2Proof.Machine

/-- Every feature bit the device offers (02 R62). -/
def allFeatures : BitVec 128 := 0x1FF

/-- Where the word stands, in host memory at the first address of a packet, and the table of the operator's address space. -/
def loadPc : Nat := 12288 * 89478486
def loadRoot : Nat := 2 ^ 40

/-- A leaf PTE at the root of an Sv57 table: the first 2^48 bytes, identity, readable, writable, executable (20 R369). -/
def identityLeaf : Nat := 0xDF

/-- The launch record of the grid: 64 registers, 8 accumulators, one team of one thread. -/
def loadRecord : LaunchRec := { LaunchRec.empty with regs := 64, qacc := 8, feat := allFeatures, codebase := BitVec.ofNat 64 loadPc }

/-- The grid. -/
def loadGrid : Grid := { Grid.absent with id := 1, lr := loadRecord, clusters := [0], nextTeam := 1, dies := [0], begun := true }

/-- The team, on core 0. -/
def loadTeam (grid crew : Nat) : Team :=
  { Team.absent with grid := grid, status := .resident, cores := [0], crews := [crew], parts := [(0, CorePart.launch)] }

/-- A word's bits need its whole crew. -/
def wordCrewWide (w : Nat) : Bool :=
  match decodeWord w with
  | .ok i => i.crewWide
  | .error _ => false

/-- The state with a word where the next step fetches it. -/
def State.placeWord (s : State) (w : Nat) : State :=
  let h := s.handle
  let t := h + 3
  let c := Crew.launch (h + 1) 0 0 0 0 s.age [t]
  let s := { s with fab := { s.fab with ports := [0], dmwin := 0 } }
  let s := s.setPhys loadRoot (leBytes 8 identityLeaf)
  let s := s.setPhys loadPc (bytesOfWord w)
  { s with
    handle := h + 4, age := s.age + 1
    threads := Table.set s.threads t (Thread.launch (h + 2) 0 0 (BitVec.ofNat 64 loadPc))
    crews := Table.set s.crews (h + 2) { c with arrival := if wordCrewWide w then some ([t], [t]) else none }
    teams := Table.set s.teams (h + 1) (loadTeam h (h + 2))
    grids := Table.set s.grids h loadGrid
    cores := Table.set s.cores 0 { Core.reset with ready := true }
    xl := { s.xl with roots := Table.set s.xl.roots 0 (BitVec.ofNat 64 (10 * 2 ^ 60 + loadRoot / 4096)) }
    trust := { s.trust with stage := 7, railsOk := true, railsBad := false }
    ctl := { s.ctl with locked := true, neg := allFeatures, fnReady := BitVec.ofNat 64 (2 ^ 36 - 1) }
    m := { s.m with inbox := [], unready := false, issueQ := [⟨0, 0, BitVec.ofNat 64 loadPc, [t], true⟩] } }

end Sys2Proof.Machine
end

