-- ==== Sys2Proof/Machine/Wake.lean ====
section
/-! DEFINITION. What the machine does of itself between two cycles: the completions, wakes and expiries that are due, as the
events they are, and the order in which they are taken (log 7). The meanings are given as a function. -/

namespace Sys2Proof.Machine

/-- Something that may be due. -/
inductive Due where
  /-- The hold records of the cycle. -/
  | holds
  /-- An event that waits for a tower to be ready. -/
  | later (k : Nat)
  | event (i : Instr)
  /-- Threads whose word is examined again. -/
  | wake (ts : List Nat)
  /-- The CWAIT.ALL of a team. -/
  | cwaits (team : Nat)
  /-- The packets of a transfer that could not be read yet. -/
  | pump (id : Nat)
  /-- What a locked range or a tower holds at this target. -/
  | land
  /-- The host accesses that are held, in order. -/
  | host
  /-- The commands that wait in a ring, and the requests of the shootdown ring. -/
  | ring (q : Nat)
  | shoot
  /-- The failures that the threads of a halted grid have not reported. -/
  | reports (grid : Nat)
  /-- A checkpoint word: whether the flash does its part is a free value (log 18). -/
  | flash (id : Nat)

/-- What is due acts. -/
def Due.apply (run : Instr → State → Res) (s : State) : Due → State
  | .holds => s.flushHolds
  | .later k =>
    match s.m.later[k]? with
    | some i => (run i (s.modM fun m => { m with later := m.later.eraseIdx k })).stateOr s
    | none => s
  | .event i => (run i s).stateOr s
  | .wake ts => s.examine ts run
  | .cwaits tm => s.endCwait tm
  | .pump id => s.pumpXfer id (((Table.find? s.eng.xfers id).map XferOp.packets).getD 0 + 1)
  | .land => s.landHeld
  | .host => s.fab.held.foldl (fun s i => (run i s).stateOr s) (s.modFab fun f => { f with held := [] })
  | .ring q => s.readQueue q
  | .shoot => s.shootStart
  | .reports g => s.reportAll (s.haltReports g)
  | .flash id =>
    let (w, s) := s.freeWord
    (run (.ckptComplete id (w.getLsbD 0)) s).stateOr s

/-- The keys of a table. -/
def Table.keys {α : Type} (t : Table α) : List Nat := t.map Prod.fst

/-- Wakes of a thread that waits at a word (05 R134, R135; 13 R255): an ACWAIT with its whole crew. -/
def State.wakeOf (s : State) (t : Nat) : Option Due :=
  match (s.thread t).wait with
  | .word (.mwait ..) .. => some (.event (.mwaitWake t))
  | .word (.ldfeKeep ..) .. | .word (.ldfeTake ..) .. | .word (.stfeFill ..) .. | .word (.stfePut ..) .. =>
    some (.event (.fullEmptyWake t))
  | .word (.xferAcwait ..) .. =>
    let ts := (s.liveOf (s.thread t).crew).filter fun q =>
      (s.thread q).waiting.map (fun w => w.1) == (s.thread t).waiting.map fun w => w.1
    if ts.head? = some t then some (.wake ts) else none
  | .word .. => some (.wake [t])
  | _ => none

/-- The gatherer's events. -/
def State.duesGather (s : State) : List Due :=
  ((s.threads.keysWhere fun _ th => decide (4096 ≤ th.waitCnt) && !th.starving).map fun t => .event (.starvation t)) ++
  ((Table.keys s.threads).filter s.markOver).map (fun t => .event (.yieldMarkExpire t)) ++
  (s.ctxs.keysWhere fun _ c => decide (2 ^ 24 ≤ c.stall)).map fun k => .event (.stallNotice k)

/-- Completions inside the cores. -/
def State.duesCore (s : State) : List Due :=
  (s.eng.txns.map fun e => if e.2.load then .event (.loadDataReturn e.1) else .event (.storeComplete e.1)) ++
  ((s.eng.tiles.filter fun e => decide (e.2.ready ≤ s.cycle)).flatMap fun e =>
    e.2.trays.map fun p => .event (.trayMerge e.1 p.line)) ++
  ((s.eng.tiles.filter fun e => decide (e.2.ready ≤ s.cycle)).map fun e =>
    if e.2.qacc then .event (.qaccWordComplete e.1) else .event (.tileWordComplete e.1)) ++
  (Table.keys s.threads).filterMap s.wakeOf

/-- The lowest sector of a copy that can act. -/
def CopyOp.nextSector (o : CopyOp) : Nat :=
  ((List.range o.sectors).find? fun k => decide (o.resume ≤ k) && !o.done.contains k && !o.stalled.contains k).getD
    (if o.pending.isSome then o.resume else o.sectors)

/-- The engines' events. -/
def State.duesEngines (s : State) : List Due :=
  ((Table.keys s.eng.copies ++ Table.keys s.eng.xfers ++ Table.keys s.eng.ratoms).map fun id => .event (.xferCommandAccept id)) ++
  (s.eng.copies.map fun e => .event (.copySectorComplete e.1 e.2.nextSector)) ++
  ((Table.keys s.eng.xfers).map fun id => .pump id) ++ [.land] ++
  ((Table.keys s.eng.rx).map fun id => .event (.receiveMappingWrite id)) ++
  (s.eng.xfers.flatMap fun e => e.2.members.map fun m => .event (.replyBoundExpire e.2.xid m.peer)) ++
  s.eng.ratoms.flatMap fun e => e.2.lanes.map fun l => .event (.replyBoundExpire l.xid l.peer)

/-- The fixer's events: placement, release, retirement, parking, pre-emption, halts. -/
def State.duesFixer (s : State) : List Due :=
  ((Table.keys s.teams).filter (fun t => (s.team t).status == .resident && (s.childrenOf t).isEmpty)).map (fun t => .cwaits t) ++
  ((Table.keys s.teams).map fun t => .event (.teamRelease t)) ++
  ((Table.keys s.grids).map fun g => .event (.gridRetire g)) ++
  ((Table.keys s.teams).map fun t => .event (.teamPark t)) ++
  ((Table.keys s.grids).flatMap fun g =>
    (if (s.grid g).met then [.event (.preemptTargetReached g)] else []) ++
    [.event (.imageSealed g), .reports g, .event (.haltHoldExpire g)]) ++
  (Table.keys s.ctxs).filterMap fun k =>
    (s.nextWork k).bind fun w => (s.findPlace w).map fun p => .event (.teamPlacement w.grid w.index p.1 p.2)

/-- The late results of SYS words. -/
def State.duesSys (s : State) : List Due :=
  s.eng.sys.filterMap fun e =>
    match e.2.kind with
    | .reset _ => some (.event (.resetScrubComplete e.1))
    | .scrub _ _ => some (.event (.scrubComplete e.1))
    | .preempt _ => none
    | k => if s.eng.sys.any fun x => decide (x.1 < e.1) && x.2.kind.ns.isSome && x.2.kind.ns == k.ns then none else some (.flash e.1)

/-- The queues' events. -/
def State.duesQueues (s : State) : List Due :=
  (Table.keys s.queues).flatMap fun q =>
    (if s.ringReadable q then [.ring q] else []) ++
    (if (s.queue q).cmds.isEmpty then [] else
      [.event (.commandNop q), .event (.commandGrid q), .event (.commandFence q), .event (.completionRecordWrite q)])

/-- Paging, contact sheets and the feature lock. -/
def State.duesHost (s : State) : List Due :=
  (if s.fab.held.isEmpty then [] else [.host]) ++
  ((Table.keys s.xl.pages).flatMap fun id => [.event (.pageFaultBoundExpire id), .event (.pageFaultRepost id)]) ++
  (if s.xl.shoot.isSome then [.event .shootdownFinish] else if s.xl.imsic.contains 1 then [.shoot] else []) ++
  (s.dies.filterMap fun e => if e.2.sheet.isEmpty then none else some (.event (.contactSheetDrain e.1))) ++
  (if s.ctl.locked || s.trust.stage != 6 then [] else [.event .featureLockTimeout])

/-- Everything that may be due, in the order in which it is tried. -/
def State.dues (s : State) : List Due :=
  [.holds] ++ (List.range s.m.later.length).map .later ++ s.duesGather ++ s.duesCore ++ s.duesEngines ++ s.duesFixer ++ s.duesSys ++ s.duesQueues ++ s.duesHost

/-- The first that changes the machine acts; none where nothing is due. What meets a tower that is not ready waits (26 R439). -/
def State.nextDue (s : State) (run : Instr → State → Res) : Option State :=
  s.dues.findSome? fun d =>
    let s' := d.apply run s
    if s' = s || s'.m.unready then none else some s'

/-- The event at the head of the inbox arrives; one that meets a tower that is not ready waits (26 R439). -/
def State.arrival (s : State) (i : Instr) (l : List Instr) (run : Instr → State → Res) : Res :=
  let s := s.modM fun m => { m with inbox := l }
  match run i s with
  | .next u => .next (if u.m.unready then s.modM fun m => { m with later := m.later ++ [i] } else u)
  | r => r

/-- A quarantined context whose grids have not been discarded (24 R415). -/
def State.toDiscard (s : State) : Option Nat :=
  (List.find? (fun e => e.2.quarantined && s.grids.any fun g => g.2.key == e.1) s.ctxs).map Prod.fst

end Sys2Proof.Machine
end

