-- ==== Sys2Proof/Machine/Step.lean ====
section
/-! DEFINITION. One step of the machine (log 7): the next bundle of the cycle issues; with none, the next event arrives; with
none, what is due acts; with nothing due, the next cycle begins. After it, a state whose next step runs a given word (log 6). -/

namespace Sys2Proof.Machine

/-- The next bundle issues, or the next event arrives, or what is due acts, or the next cycle begins. -/
def State.goOn (s : State) : Res :=
  match s.m.issueQ with
  | b :: _ => .next (s.issueNext b exec)
  | [] =>
    match s.m.inbox with
    | i :: l => s.arrival i l exec
    | [] =>
      match s.nextDue exec with
      | some s' => .next s'
      | none => exec .issueCycle s

/-- One step. The grids of a quarantined context go first (24 R415). -/
def step (s : State) : Host.Outcome State Fault Refusal :=
  if s.trust.railsBad then .fault .railsOutOfBand
  else match s.toDiscard with
    | some key => if (s.discard key).m.unready then s.goOn else .next (s.discard key)
    | none => s.goOn

/-- The state with an instruction where step fetches next: one thread of a one-team grid of the operator's stands at it on core
0, and its bundle has been chosen. -/
def State.withFetchWord (s : State) (nbits w : Nat) : State := s.placeWord (w % 2 ^ nbits)

end Sys2Proof.Machine
end

