-- ==== Sys2Proof/Safety.lean ====
section
/-! DEFINITION. The terms that statements use: a safe run, a word in issue that stands alone, a thread that has gone on past its
word, and what a word leaves as it was. -/

namespace Sys2Proof

/-- No step up to the n-th stops the machine. -/
def Safe (n : Nat) (s : Machine.State) : Prop :=
  ∀ k ≤ n, ∃ t, Host.Core.run core k s = .next t

namespace Machine

/-- The word in issue is no word of a chained pair, and it performs: nothing is collected, and nothing is examined again. -/
abbrev Cur.Alone (c : Cur) : Prop :=
  c.first = false ∧ c.second = false ∧ c.probe = false ∧ c.again = false ∧ c.rev = false ∧ c.snap = [] ∧ c.snapK = [] ∧ c.snapT = []

/-- A word runs in a thread: the thread is there, it is no continuation, and no check at issue stops it (02 R61). -/
abbrev State.Runs (s : State) (i : Instr) (t : Nat) : Prop :=
  (Table.find? s.threads t).isSome = true ∧ (s.thread t).cont = none ∧ s.issueCheck i t = none

/-- A bundle in which a word performs in every lane. -/
abbrev State.Bundled (s : State) (i : Instr) : Prop :=
  s.m.cur.Alone ∧ s.m.cur.lanes.Nodup ∧ ∀ t ∈ s.m.cur.lanes, s.Runs i t

/-- A bundle of one thread in which a word performs. -/
abbrev State.Solo (s : State) (i : Instr) (t : Nat) : Prop :=
  s.m.cur.Alone ∧ s.m.cur.lanes = [t] ∧ s.Runs i t

/-- A thread past the word in issue: at the next word, its guard used up by one word, the word retired. -/
def Thread.past (th : Thread) (c : Cur) : Thread :=
  { th with pc := c.after, guard := th.guard.step 1, trayFail := false, retired := th.retired + 1 }

/-- A thread that has received a register word's result: registers, predicates, and the flags raised (01 R27). -/
def Thread.given (th : Thread) (o : RegOut) : Thread :=
  ({ th.writeAll o.regs with fstat := th.fstat ||| o.flags } : Thread).setPs o.preds

/-- A thread that has transferred: at the target, its guard ended (02 R49), the word retired. -/
def Thread.jumped (th : Thread) (target : DWord) : Thread :=
  { th with pc := target, guard := Guard.none, retired := th.retired + 1 }

/-- A context but for the count of its retired words (21 R377). -/
def Ctx.counted (c c' : Ctx) : Prop :=
  ∃ ctr, c' = { c with ctr := ctr } ∧ ∀ i, i ≠ 0 → Table.getD ctr i 0 = Table.getD c.ctr i 0

/-- Everything but threads, crews, contexts and what the core's engines hold is as it was: memory and caches, teams and
accumulators, grids, translation, queues, fabric, trust, harts, the device's registers. -/
structure State.SameRest (s s' : State) : Prop where
  cycle : s'.cycle = s.cycle
  teams : s'.teams = s.teams
  grids : s'.grids = s.grids
  cores : s'.cores = s.cores
  dies : s'.dies = s.dies
  mem : s'.mem = s.mem
  fixer : s'.fixer = s.fixer
  xl : s'.xl = s.xl
  queues : s'.queues = s.queues
  fab : s'.fab = s.fab
  trust : s'.trust = s.trust
  harts : s'.harts = s.harts
  ctl : s'.ctl = s.ctl
  model : s'.m = s.m

/-- Every context is as it was but for the count of its retired words. -/
def State.SameCtxs (s s' : State) : Prop :=
  ∀ k, match s.ctx? k, s'.ctx? k with
    | some c, some c' => c.counted c'
    | none, none => True
    | _, _ => False

/-- What a register word leaves: every other thread, every crew but the tags of its registers, the engines, and the rest. -/
structure State.RegFrame (s s' : State) (ts : List Nat) : Prop where
  threads : ∀ q, q ∉ ts → s'.thread q = s.thread q
  crews : ∀ c, ∃ tags, s'.crew c = { s.crew c with tags := tags }
  ctxs : s.SameCtxs s'
  eng : s'.eng = s.eng
  rest : s.SameRest s'

/-- A register word has performed in every lane of its bundle: each lane holds its result `f`, computed from the state before, and
stands past the word; nothing else has changed but tags and counts. -/
structure State.Results (s s' : State) (f : Nat → RegOut) : Prop where
  lanes : ∀ t ∈ s.m.cur.lanes, s'.thread t = ((s.thread t).given (f t)).past s.m.cur
  frame : s.RegFrame s' s.m.cur.lanes

/-- No enabled floating-point flag is raised in any lane (01 R28). -/
abbrev State.Quiet (s : State) (f : Nat → RegOut) : Prop := ∀ t ∈ s.m.cur.lanes, (f t).flags &&& s.trapen t = 0

/-- What a word of one thread leaves: every other thread, every crew but its loop buffer, the engines, and the rest. -/
structure State.TurnFrame (s s' : State) (t : Nat) : Prop where
  threads : ∀ q, q ≠ t → s'.thread q = s.thread q
  crews : ∀ c, ∃ loop, s'.crew c = { s.crew c with loop := loop }
  ctxs : s.SameCtxs s'
  eng : s'.eng = s.eng
  rest : s.SameRest s'

/-- What a word of several threads leaves: every other thread, every crew but its loop buffer, the engines, and the rest. -/
structure State.TurnsFrame (s s' : State) (ts : List Nat) : Prop where
  threads : ∀ q, q ∉ ts → s'.thread q = s.thread q
  crews : ∀ c, ∃ loop, s'.crew c = { s.crew c with loop := loop }
  ctxs : s.SameCtxs s'
  eng : s'.eng = s.eng
  rest : s.SameRest s'

/-- A thread whose handler takes its faults: it has one and is not in it (14 R267). -/
abbrev Thread.handles (th : Thread) : Prop := th.trap.tvec ≠ 0 ∧ th.trap.inh = false

/-- A thread has taken a trap at the word in issue (14 R267-R269): it stands at its handler, its guard saved and ended; the cause, the
value and the place are in its trap registers; its registers and predicates are as they were. -/
structure Thread.Trapped (th th' : Thread) (c : Cur) (cause : Nat) (val : DWord) : Prop where
  pc : th'.pc = th.trap.tvec
  guard : th'.guard = Guard.none
  trap : th'.trap = { th.trap with tepc := c.pc, tcause := BitVec.ofNat 32 cause, tval := val, tguard := th.guard, inh := true,
                                   one := false, bps := cause == Cause.breakpoint }
  v : th'.v = th.v
  p : th'.p = th.p
  stack : th'.stack = th.stack
  retired : th'.retired = th.retired

/-- A thread in which one more word has issued: it counts as retired, though it faults after its issue (21 R377, log 13). -/
def Thread.counted (th : Thread) : Thread := { th with retired := th.retired + 1 }

/-- A fork without what it has recorded of the writes of agents. -/
def Fork.bare (f : Fork) : Fork := { f with conflict := false, written := [] }

/-- A thread without what its forks have recorded of the writes of agents. -/
def Thread.bare (th : Thread) : Thread := { th with fork := { th.fork with recs := th.fork.recs.map Fork.bare } }

/-- Two threads differ at most in what their forks have recorded of the writes of agents (06 R148): write-backs of lines may add to
it in any thread. With no fork open they are equal. -/
def Thread.Alike (a b : Thread) : Prop := a.bare = b.bare

/-- What taking a trap leaves: registers, predicates, places and waits of every other thread, crews, teams and grids; the engines but
for the number the next item takes; the model's own fields but for the free values taken and the mark of a home that is not ready. -/
def State.TrapFrame (s s' : State) (t : Nat) : Prop :=
  (∀ q, q ≠ t → ∃ recs, s'.thread q = { s.thread q with fork := { (s.thread q).fork with recs := recs } }) ∧
    s'.crews = s.crews ∧ s'.teams = s.teams ∧ s'.grids = s.grids ∧ (∃ n, s'.eng = { s.eng with nextId := n }) ∧
    ∃ fr un, s'.m = { s.m with free := fr, unready := un }

/-- A lane slice. -/
def Store.isSlice : Store → Bool
  | .slice _ => true
  | _ => false

/-- An access of `n` bytes of a thread leads to a window of its core, within its bound, aligned, at no locked range (01 R24, R25,
05 R123). A lane slice is no such window: it lies in main memory (16 R309). -/
abbrev State.Local (s : State) (t : Nat) (a : DWord) (n : Nat) (st : Store) (off : Nat) : Prop :=
  s.place t (s.crewOf t).core a n n = .ok (.here st off) ∧ st.isCounter = false ∧ st.isSlice = false ∧ s.lockedAt st off n = false

/-- An access of `n` bytes of a thread leads to main memory, global and translated or in the thread's lane slice, at no locked range, its
home reachable; `r` is the state
after the translation. -/
abbrev State.Global (s : State) (t : Nat) (a : DWord) (n : Nat) (k : Kind) (r : State) (pa : Nat) : Prop :=
  s.reach t a n k = (r, .here .phys pa) ∧ r.lockedAt .phys pa n = false ∧ r.homeReady pa = true

/-- The word of a bundle of one thread holds the next entry of the outstanding-transaction table, with what is to be written when it
completes (05 R133). -/
def State.Issued (s s' : State) (load : Bool) (t : Nat) (ws : List (Reg × Word)) : Prop :=
  Table.find? s'.eng.txns s.eng.nextId = some { core := (s.crewOf t).core, part := (s.crewOf t).part, load := load, threads := [t]
                                                writes := if ws.isEmpty then [] else [⟨t, ws⟩], held := [],
                                                stalls := [] }

/-- No entry has the number the next word takes. -/
abbrev State.FreshId (s : State) : Prop := Table.find? s.eng.txns s.eng.nextId = none

/-- The byte at a physical address that a plain load from a core reads under a key (16 R311): the L1's, else the L2's, else
memory's; a slice line is in no L1 (16 R309). -/
def State.seen (s : State) (core key pa : Nat) : Byte :=
  let k := s.tagOf key pa
  match (if sliceBase ≤ pa then none else (s.core core).line k (pa / 128)).bind fun l => Cells.get l.bytes pa with
  | some b => b
  | none =>
    match ((s.die (dieOf core)).line k (pa / 128)).bind fun l => Cells.get l.bytes pa with
    | some b => b
    | none => s.physByte pa

/-- The L1 of a core and the L2 slice of an address have room for one more line, so that none has to leave (16 R307, R314; log 9). -/
abbrev State.HasRoom (s : State) (core pa : Nat) : Prop :=
  (s.core core).l1.length < s.l1Lines core ∧
    ((s.die (dieOf core)).l2.filter fun l => sliceOf (128 * l.line) == sliceOf (128 * (pa / 128))).length < sliceLines

/-- Every byte of every local store is as it was, but `n` bytes of one store. -/
def State.SameLocal (s s' : State) (st : Store) (off n : Nat) : Prop :=
  ∀ st' a, st' ≠ st ∨ a < off ∨ off + n ≤ a → (s'.localMem st').read a = (s.localMem st').read a

/-- Every byte of every local store is as it was. -/
def State.SameLocals (s s' : State) : Prop := ∀ st a, (s'.localMem st).read a = (s.localMem st).read a

/-- A crew-wide word has performed: every lane of its bundle stands past it, with the register writes `regs` of its lane and the flags
`fl` raised; registers, predicates and places of every other thread are as they were. -/
def State.CrewDone (s s' : State) (fl : BitVec 5) (regs : Nat → List (Reg × Word)) : Prop :=
  (∀ q ∈ s.m.cur.lanes, (s'.thread q).pc = s.m.cur.after ∧ (s'.thread q).v = ((s.thread q).writeAll (regs (s.thread q).lane)).v ∧
    (s'.thread q).p = (s.thread q).p ∧ (s'.thread q).fstat = (s.thread q).fstat ||| fl ∧
    (s'.thread q).retired = (s.thread q).retired + 1) ∧
  ∀ q, q ∉ s.m.cur.lanes → (s'.thread q).pc = (s.thread q).pc ∧ (s'.thread q).v = (s.thread q).v ∧ (s'.thread q).p = (s.thread q).p

/-- A crew-wide word is in flight after it has issued: its entry, and the range locks of its spots (10 R206). -/
def State.InFlight (s s' : State) (t : Nat) (o : TileOp) (ps : List Spot) : Prop :=
  Table.find? s'.eng.tiles s.eng.nextId = some o ∧ o.core = (s.crewOf t).core ∧ o.crew = (s.thread t).crew ∧
    (s'.core (s.crewOf t).core).locks = (s.core (s.crewOf t).core).locks ++ ps.map fun p => ⟨s.eng.nextId, p.store, p.spans⟩

/-- The crew of a crew-wide word: the word performs in every lane of the bundle, whose lowest lane is `t`. -/
abbrev State.Leads (s : State) (i : Instr) (t : Nat) : Prop := s.Bundled i ∧ s.m.cur.lanes.head? = some t

/-- A SYS word performs in a bundle of one thread whose earlier words have completed (14 R261). -/
abbrev State.SysSolo (s : State) (i : Instr) (t : Nat) : Prop := s.Solo i t ∧ s.sysWaits t = false

/-- A word has performed in one thread: it stands past the word with register writes `ws`; no other thread has changed. -/
def State.Goes (s u : State) (t : Nat) (ws : List (Reg × Word)) : Prop :=
  u.thread t = ((s.thread t).writeAll ws).past s.m.cur ∧ ∀ q, q ≠ t → u.thread q = s.thread q

/-- A word waits in a thread: it stands at the word, which counts as issued, and leaves the ready set. -/
def Thread.waitsAt (th : Thread) (i : Instr) (c : Cur) : Thread :=
  { th with wait := .word i c.after false th.v, pc := c.pc, retired := th.retired + 1 }

/-- A thread takes results when they return: it is there, live, and no fork of it is open. -/
abbrev State.Takes (s : State) (t : Nat) : Prop :=
  (Table.find? s.threads t).isSome = true ∧ (s.thread t).live = true ∧ (s.thread t).fork.recs = []

/-- An instruction completes: exec answers a next state, of which a property holds. -/
def State.Ends (s : State) (i : Instr) (f : State → Prop) : Prop := ∃ u, exec i s = .next u ∧ f u

/-- Threads take a late result: each is there, live, with no fork open, and none has let go of what is in flight. -/
abbrev State.TakeAll (s : State) (ts : List Nat) : Prop := ts.Nodup ∧ s.eng.muted = [] ∧ ∀ t ∈ ts, s.Takes t

/-- A late result has reached the registers of threads, and no other thread has changed but in what its forks record of the lines that
leave the caches. -/
def State.Gave (s u : State) (ts : List Nat) (ws : List (Reg × Word)) : Prop :=
  (∀ t ∈ ts, u.thread t = (s.thread t).writeAll ws) ∧ ∀ t, t ∉ ts → (s.thread t).Alike (u.thread t)

/-- A register write of a host takes effect as it arrives: the device has left reset, and no earlier write is held (22 R396, R398). -/
abbrev State.HostOpen (s : State) : Prop := 6 ≤ s.trust.stage ∧ ∀ i ∈ s.fab.held, heldWrite i = false

/-- The one transfer in flight is a BXFER that an engine has accepted, to a peer that has not replied; its takers take its result. -/
abbrev State.OneXfer (s : State) (id : Nat) (o : XferOp) (peer inc : Nat) : Prop :=
  s.eng.xfers = [(id, o)] ∧ s.eng.ratoms = [] ∧ o.accepted = true ∧ o.srcFail = none ∧ o.mc = false ∧
    o.members = [⟨peer, inc, none⟩] ∧ s.TakeAll (s.opTakers o.crew o.one)

/-- The result of a BXFER whose peer has failed or refused it with a cause, with the bytes that were written (13 R252). -/
def negativeStatus (cause bytes : Nat) : DWord := BitVec.ofNat 64 (2 ^ 42 + cause * 2 ^ 32 + bytes)

/-- Device and host memory are in their canonical form (log 5). -/
def State.Canonical (s : State) : Prop := s.mem.dev.wf = true ∧ s.mem.host.wf = true

end Machine

end Sys2Proof
end

