-- ==== Sys2Proof/Certificates/Slice0/Obligations.lean ====
section
/-! DEFINITION. The statements for the provers. A word is given to `exec` in a state whose bundle is in issue: `Bundled` says that
it performs in every lane, `Solo` that its bundle is one thread, `Leads` that it is crew-wide. An event is given to `exec` as it is. -/

open Sys2Proof Sys2Proof.Machine

/-! ## Registers of the lanes -/

/-- 04 R99, R100, R101: ADDI, ANDI, ORI and XORI have the opcodes 3 to 6 and the fields of format B; they, SHI, MOVI and MOVHI
write their result in every lane and go on. 04 R98, R102, R105, R106: IOP, LEA, SEL and the moves into registers write their
result in every lane and go on. -/
def Obligations.IntegerWords : Prop :=
  (∀ (s : State) (ch : Bool) (d a : Reg) (e : BitVec 13) (m : BitVec 19) (k : ShKind) (w64 : Bool) (amt : BitVec 6),
    let fields := fun (op : Nat) => some (op * 2 ^ 25 + (if ch then 2 ^ 31 else 0) + d.toNat * 2 ^ 19 + a.toNat * 2 ^ 13 + e.toNat)
    (encode (.addi ch d a e) = fields 3 ∧ encode (.andi ch d a e) = fields 4 ∧ encode (.ori ch d a e) = fields 5 ∧
      encode (.xori ch d a e) = fields 6) ∧
    (s.Bundled (.addi ch d a e) → ∃ u, exec (.addi ch d a e) s = .next u ∧
      s.Results u fun t => .ofRegs (regWrites d ((s.thread t).rv a + e.signExtend 32))) ∧
    (s.Bundled (.andi ch d a e) → ∃ u, exec (.andi ch d a e) s = .next u ∧
      s.Results u fun t => .ofRegs (regWrites d ((s.thread t).rv a &&& e.setWidth 32))) ∧
    (s.Bundled (.ori ch d a e) → ∃ u, exec (.ori ch d a e) s = .next u ∧
      s.Results u fun t => .ofRegs (regWrites d ((s.thread t).rv a ||| e.setWidth 32))) ∧
    (s.Bundled (.xori ch d a e) → ∃ u, exec (.xori ch d a e) s = .next u ∧
      s.Results u fun t => .ofRegs (regWrites d ((s.thread t).rv a ^^^ e.setWidth 32))) ∧
    (s.Bundled (.movi ch d m) → ∃ u, exec (.movi ch d m) s = .next u ∧
      s.Results u fun _ => .ofRegs (regWrites d (m.signExtend 32))) ∧
    (s.Bundled (.movhi ch d m) → ∃ u, exec (.movhi ch d m) s = .next u ∧
      s.Results u fun t => .ofRegs (regWrites d (BitVec.ofNat 32 (m.toNat * 2 ^ 13 + ((s.thread t).rv d).toNat % 2 ^ 13)))) ∧
    (s.Bundled (.shi ch d a k w64 amt) → ∃ u, exec (.shi ch d a k w64 amt) s = .next u ∧
      s.Results u fun t => .ofRegs (if w64 then pairWrites d (iopResult (shKindFn k) ((s.thread t).rx a) 0 amt.toNat)
        else regWrites d (iopResult (shKindFn k) ((s.thread t).rv a) 0 amt.toNat)))) ∧
  (∀ (s : State) (ch : Bool) (d a b : Reg) (w64 : Bool) (f : IopFn) (sh : BitVec 3) (sg : Bool) (p : PReg) (k : BitVec 5),
    (s.Bundled (.iop ch d a b w64 f) → ∃ u, exec (.iop ch d a b w64 f) s = .next u ∧
      s.Results u fun t => .ofRegs (
        if w64 then pairWrites d (iopResult f ((s.thread t).rx a) ((s.thread t).rx b) (((s.thread t).rv b).toNat % 64))
        else regWrites d (iopResult f ((s.thread t).rv a) ((s.thread t).rv b) (((s.thread t).rv b).toNat % 32)))) ∧
    (s.Bundled (.lea ch d a b sh sg) → ∃ u, exec (.lea ch d a b sh sg) s = .next u ∧
      s.Results u fun t => .ofRegs (pairWrites d ((s.thread t).rx a +
        (if sg then ((s.thread t).rv b).signExtend 64 else ((s.thread t).rv b).setWidth 64) * BitVec.ofNat 64 (2 ^ sh.toNat)))) ∧
    (s.Bundled (.sel ch d a b p w64) → ∃ u, exec (.sel ch d a b p w64) s = .next u ∧
      s.Results u fun t => .ofRegs (if w64
        then pairWrites d (if (s.thread t).rp p then (s.thread t).rx a else (s.thread t).rx b)
        else regWrites d (if (s.thread t).rp p then (s.thread t).rv a else (s.thread t).rv b))) ∧
    (s.Bundled (.xmovMov ch d a) → ∃ u, exec (.xmovMov ch d a) s = .next u ∧
      s.Results u fun t => .ofRegs (regWrites d ((s.thread t).rv a))) ∧
    (s.Bundled (.xmovRdk ch d k) → ∃ u, exec (.xmovRdk ch d k) s = .next u ∧
      s.Results u fun t => .ofRegs (pairWrites d (if (s.crewOf t).index = 0
        then ((s.teamOf t).kLead)[k.toNat]'k.isLt else ((s.teamOf t).kView)[k.toNat]'k.isLt))) ∧
    (s.Bundled (.xmovRdp ch d) → ∃ (u : State) (w : Nat → Word), exec (.xmovRdp ch d) s = .next u ∧
      (∀ t i, (w t).getLsbD i = (decide (i < 16) && (s.thread t).rp (BitVec.ofNat 4 i))) ∧
      s.Results u fun t => .ofRegs (regWrites d (w t))))

/-- 04 R97: the results of the IOP functions as integers, at 32 and 64 bits: comparisons, high products, shifts, saturation. -/
def Obligations.IopValues : Prop :=
  ∀ w, w = 32 ∨ w = 64 → ∀ (a b : BitVec w) (s : Nat), s < w →
    (iopResult .add a b s).toNat = (a.toNat + b.toNat) % 2 ^ w ∧
    (iopResult .sub a b s).toNat = (a.toNat + (2 ^ w - b.toNat)) % 2 ^ w ∧
    (iopResult .mul a b s).toNat = a.toNat * b.toNat % 2 ^ w ∧
    (iopResult .mulhs a b s).toInt = a.toInt * b.toInt / 2 ^ w ∧
    (iopResult .mulhn a b s).toNat = a.toNat * b.toNat / 2 ^ w ∧
    (iopResult .mins a b s).toInt = min a.toInt b.toInt ∧
    (iopResult .minn a b s).toNat = min a.toNat b.toNat ∧
    (iopResult .maxs a b s).toInt = max a.toInt b.toInt ∧
    (iopResult .maxn a b s).toNat = max a.toNat b.toNat ∧
    iopResult .and a b s = a &&& b ∧ iopResult .or a b s = a ||| b ∧ iopResult .xor a b s = a ^^^ b ∧
    iopResult .andn a b s = a &&& ~~~b ∧
    (iopResult .shl a b s).toNat = a.toNat * 2 ^ s % 2 ^ w ∧
    (iopResult .shr a b s).toNat = a.toNat / 2 ^ s ∧
    (iopResult .sar a b s).toInt = a.toInt / 2 ^ s ∧
    (∀ i < w, (iopResult .rol a b s).getLsbD ((i + s) % w) = a.getLsbD i) ∧
    (∀ i < w, (iopResult .brev a b s).getLsbD (w - 1 - i) = a.getLsbD i) ∧
    (a = 0 → iopResult .clz a b s = BitVec.ofNat w w) ∧
    (a ≠ 0 → 2 ^ (w - 1 - (iopResult .clz a b s).toNat) ≤ a.toNat ∧ a.toNat < 2 ^ (w - (iopResult .clz a b s).toNat)) ∧
    (iopResult .popc a b s).toNat = ((List.range w).filter a.getLsbD).length ∧
    (a.toInt ≠ -(2 ^ (w - 1)) → (iopResult .abs a b s).toInt = |a.toInt|) ∧
    (a.toInt = -(2 ^ (w - 1)) → iopResult .abs a b s = a) ∧
    iopResult .neg a b s = 0 - a ∧
    (iopResult .addss a b s).toInt = max (-(2 ^ (w - 1))) (min (2 ^ (w - 1) - 1) (a.toInt + b.toInt)) ∧
    (iopResult .subss a b s).toInt = max (-(2 ^ (w - 1))) (min (2 ^ (w - 1) - 1) (a.toInt - b.toInt))

/-- 04 R103, R104, 01 R20: the compare and predicate words and XMOV.WRP write predicates in every lane and go on. -/
def Obligations.PredicateWords : Prop :=
  ∀ (s : State) (ch : Bool) (p x y : PReg) (a b : Reg) (r : Cmp) (ty : ITy) (e : BitVec 10) (f : PlopFn),
    (s.Bundled (.icmp ch p a b r ty) → ∃ u, exec (.icmp ch p a b r ty) s = .next u ∧
      s.Results u fun t => .ofPred p (cmpInt r (cmpOperand (s.thread t) ty a) (cmpOperand (s.thread t) ty b))) ∧
    (s.Bundled (.icmpi ch p a r ty e) → ∃ u, exec (.icmpi ch p a r ty e) s = .next u ∧
      s.Results u fun t => .ofPred p (cmpInt r (cmpOperand (s.thread t) ty a)
        (if ty = .s32 ∨ ty = .s64 then e.toInt else (e.toNat : Int)))) ∧
    (s.Bundled (.plop ch p x y f) → ∃ u, exec (.plop ch p x y f) s = .next u ∧
      s.Results u fun t => .ofPred p (match f with
        | .and => (s.thread t).rp x && (s.thread t).rp y
        | .or => (s.thread t).rp x || (s.thread t).rp y
        | .xor => (s.thread t).rp x != (s.thread t).rp y
        | .andn => (s.thread t).rp x && !(s.thread t).rp y
        | .not => !(s.thread t).rp x
        | .mov => (s.thread t).rp x)) ∧
    (s.Bundled (.xmovWrp ch a) → ∃ u, exec (.xmovWrp ch a) s = .next u ∧ s.RegFrame u s.m.cur.lanes ∧
      ∀ t ∈ s.m.cur.lanes, (u.thread t).v = (s.thread t).v ∧ (u.thread t).pc = s.m.cur.after ∧
        ∀ i, i < 16 → i ≠ 0 → (u.thread t).rp (BitVec.ofNat 4 i) = ((s.thread t).rv a).getLsbD i)

/-- 01 R16, R20: v0, x0, y0 and p0 discard what is written to them as a whole and read as zero and true; every other register a
write names holds what was written, and no other register changes. -/
def Obligations.DiscardedWrites : Prop :=
  ∀ (th : Thread) (d q : Reg) (p r : PReg) (w w1 w2 w3 : Word) (x : DWord) (b : Bool),
    (th.writeAll (regWrites 0 w) = th ∧ th.writeAll (pairWrites 0 x) = th ∧ th.writeAll (quadWrites 0 w w1 w2 w3) = th ∧
      th.setP 0 b = th ∧ th.rv 0 = 0 ∧ th.rx 0 = 0 ∧ th.rp 0 = true) ∧
    (d ≠ 0 → (th.writeAll (regWrites d w)).rv q = if q = d then w else th.rv q) ∧
    (d ≠ 0 → d.toNat % 2 = 0 → (th.writeAll (pairWrites d x)).rx d = x ∧
      (q ≠ d → q ≠ d + 1 → (th.writeAll (pairWrites d x)).rv q = th.rv q)) ∧
    (d ≠ 0 → d.toNat % 4 = 0 → (th.writeAll (quadWrites d w w1 w2 w3)).ry d = [w, w1, w2, w3] ∧
      (q ≠ d → q ≠ d + 1 → q ≠ d + 2 → q ≠ d + 3 → (th.writeAll (quadWrites d w w1 w2 w3)).rv q = th.rv q)) ∧
    (p ≠ 0 → (th.setP p b).rp r = if r = p then b else th.rp r)

/-- 01 R23, 04 R106: the reads of special values, shape tags and precedence, FSTAT of 06 R156 among them, write their result in
every lane; XMOV.PREC sets the precedence of the thread's next gather. 01 R23: the special values of a thread. -/
def Obligations.InfoWords : Prop :=
  (∀ (s : State) (ch : Bool) (d a : Reg) (sp : SpecialValue) (e : BitVec 3) (sel : ForkSel),
    (s.Bundled (.xmovRds ch d sp) → ∃ u, exec (.xmovRds ch d sp) s = .next u ∧
      s.Results u fun t => .ofRegs (if sp = .clock then pairWrites d (s.special t sp)
        else regWrites d ((s.special t sp).setWidth 32))) ∧
    (s.Bundled (.xmovShape ch d a) → ∃ u, exec (.xmovShape ch d a) s = .next u ∧
      s.Results u fun t => .ofRegs (regWrites d (match s.srcTag (s.thread t).crew a with
        | .u => 0
        | .a _ _ => 1
        | .g => 2))) ∧
    (s.Bundled (.xmovPrec ch d e) → ∃ u, exec (.xmovPrec ch d e) s = .next u ∧ s.RegFrame u s.m.cur.lanes ∧
      ∀ t ∈ s.m.cur.lanes, u.thread t =
        { ((s.thread t).given (.ofRegs (regWrites d (BitVec.ofNat 32 (s.thread t).prec)))).past s.m.cur with
          precNext := some e.toNat }) ∧
    (s.Bundled (.cwaitFstat ch d sel) → ∃ u, exec (.cwaitFstat ch d sel) s = .next u ∧
      s.Results u fun t => .ofRegs (regWrites d (match sel with
        | .status => BitVec.ofNat 32 ((s.thread t).fork.fdepth.toNat % 8 + 16 * ((s.sparesOf t).length % 16))
        | .opened => (s.thread t).fork.opened
        | .commit => (s.thread t).fork.commit
        | .sqpred => (s.thread t).fork.sqpred
        | .sqmem => (s.thread t).fork.sqmem
        | .sqother => (s.thread t).fork.sqother
        | .plain => (s.thread t).fork.plain)))) ∧
  (∀ (s : State) (t : Nat), let g := s.gridOf t; let th := s.thread t; let core := (s.crewOf t).core
    0 < g.lr.tx → 0 < g.lr.ty → th.index < 2 ^ 32 → (s.teamOf t).index < 2 ^ 32 → 0 < g.lr.gx → 0 < g.lr.gy →
    (s.special t .tidX).toNat + g.lr.tx * ((s.special t .tidY).toNat + g.lr.ty * (s.special t .tidZ).toNat) = th.index ∧
    (s.special t .tidX).toNat < g.lr.tx ∧ (s.special t .tidY).toNat < g.lr.ty ∧
    (s.special t .teamX).toNat + g.lr.gx * ((s.special t .teamY).toNat + g.lr.gy * (s.special t .teamZ).toNat) =
      (s.teamOf t).index ∧
    (core < 192 → (s.special t .core).toNat = core ∧ (s.special t .cluster).toNat = core / 8 ∧
      (s.special t .die).toNat = core / 24) ∧
    (s.special t .seat).toNat = (match g.seat with | .operator => 0 | .owner => 1 | .auditor => 2) ∧
    (s.special t .fdepth).toNat = th.fork.fdepth.toNat)

/-- 01 R18: the shape tag of a register that is written. A write of every live thread of a crew gives the producer tag: of ADDI,
U from a U source and else G; of XMOV.MOV, the source's. A write of some of them keeps U where each value written is that of
every thread not written, A where each is base + lane × stride, and else gives G. No other tag changes, and v0 is always U. -/
def Obligations.TagRule : Prop :=
  ∀ (s : State) (ch : Bool) (d a : Reg) (e : BitVec 13),
    let rule := fun (i : Instr) (v : Nat → Word) (made : Tag → Tag) => s.Bundled i → s.Ends i fun u =>
      ∀ c, (Table.find? s.crews c).isSome = true → (∃ t ∈ s.m.cur.lanes, (s.thread t).crew = c) →
        let w := s.m.cur.lanes.filter fun t => (s.thread t).crew == c
        let rest := (s.liveOf c).filter fun t => !w.contains t
        let old := (s.crew c).tags[d.toNat]'d.isLt
        let new := (u.crew c).tags[d.toNat]'d.isLt
        let same := ∀ t ∈ w, ∀ q ∈ rest, v t = (s.thread q).rv d
        let along := fun (b st : Word) => ∀ t ∈ w, v t = b + BitVec.ofNat 32 (s.thread t).lane * st
        (d ≠ 0 → rest = [] → new = made (s.srcTag c a)) ∧
        (d ≠ 0 → rest ≠ [] → old = .u → (same → new = .u) ∧ (¬ same → new = .g)) ∧
        (d ≠ 0 → rest ≠ [] → ∀ b st, old = .a b st → (along b st → new = .a b st) ∧ (¬ along b st → new = .g)) ∧
        (d ≠ 0 → rest ≠ [] → old = .g → new = .g) ∧
        (∀ r : Reg, r ≠ d ∨ d = 0 → (u.crew c).tags[r.toNat]'r.isLt = (s.crew c).tags[r.toNat]'r.isLt)
    rule (.addi ch d a e) (fun t => (s.thread t).rv a + e.signExtend 32) (fun tag => if tag = .u then .u else .g) ∧
      rule (.xmovMov ch d a) (fun t => (s.thread t).rv a) id ∧
      ∀ (q : State) (c : Nat), q.srcTag c 0 = .u

/-! ## Floating-point words -/

/-- 09 R185-R197: the floating, conversion and dot-product words write their result in every lane where no enabled flag is
raised, OR the flags of each lane into its FSTAT (01 R27), and go on. 01 R28: a FOP, FMA, FUN, FCMP or CVT word of
one thread that raises a flag whose enable bit is set traps: every flag raised is ORed into FSTAT, the destination is not written, the
cause names the first enabled flag and VAL holds every flag raised. The word counts as retired (log 13). -/
def Obligations.FloatWords : Prop :=
  (∀ (s : State) (ch : Bool) (d a b e : Reg) (o : FopOp) (ty : FTy) (rm : Rm) (neg uns sat : Bool) (fn : FunFn) (ft : FunTy)
    (r : FCmpRel) (p : PReg) (dt st : CvtTy),
    let fop := fun t => elemOut ty d (List.zipWith (fopElem o (ftyFmt ty) rm) (elems (s.thread t) ty a) (elems (s.thread t) ty b))
    let fma := fun ty t => fmaLane (s.thread t) ty d a b e neg
    let fun' := fun t => elemOut (funTy ft) d ((elems (s.thread t) (funTy ft) a).map (funElem fn (ftyFmt (funTy ft))))
    let cmp := fun t => fcmpResult r ((ftyFmt ty).decode ((elems (s.thread t) ty a).headD 0))
      ((ftyFmt ty).decode ((elems (s.thread t) ty b).headD 0))
    let fcmp := fun t => (⟨[], [(p, (cmp t).1)], (cmp t).2⟩ : RegOut)
    let cv := fun t => cvtResult dt st rm sat (cvtBits (s.thread t) st a)
    let cvt := fun t => (⟨if cvtWide dt then pairWrites d (cv t).1 else regWrites d ((cv t).1.setWidth 32), [], (cv t).2⟩ : RegOut)
    (s.Bundled (.fop ch d a b o ty rm) → s.Quiet fop → ∃ u, exec (.fop ch d a b o ty rm) s = .next u ∧ s.Results u fop) ∧
    (s.Bundled (.fma32 ch d a b e neg) → s.Quiet (fma .f32) →
      ∃ u, exec (.fma32 ch d a b e neg) s = .next u ∧ s.Results u (fma .f32)) ∧
    (s.Bundled (.fmah ch d a b e neg) → s.Quiet (fma .f16x2) →
      ∃ u, exec (.fmah ch d a b e neg) s = .next u ∧ s.Results u (fma .f16x2)) ∧
    (s.Bundled (.fmab ch d a b e neg) → s.Quiet (fma .bf16x2) →
      ∃ u, exec (.fmab ch d a b e neg) s = .next u ∧ s.Results u (fma .bf16x2)) ∧
    (s.Bundled (.fmad ch d a b e neg) → s.Quiet (fma .f64) →
      ∃ u, exec (.fmad ch d a b e neg) s = .next u ∧ s.Results u (fma .f64)) ∧
    (s.Bundled (.funOp ch d a fn ft) → s.Quiet fun' → ∃ u, exec (.funOp ch d a fn ft) s = .next u ∧ s.Results u fun') ∧
    (s.Bundled (.fcmp ch p a b r ty) → s.Quiet fcmp → ∃ u, exec (.fcmp ch p a b r ty) s = .next u ∧ s.Results u fcmp) ∧
    (s.Bundled (.cvt ch d a dt st rm sat) → s.Quiet cvt → ∃ u, exec (.cvt ch d a dt st rm sat) s = .next u ∧ s.Results u cvt) ∧
    (s.Bundled (.dot4 ch d a b e uns) → ∃ u, exec (.dot4 ch d a b e uns) s = .next u ∧
      s.Results u fun t => .ofRegs (regWrites d (BitVec.ofInt 32 (((s.thread t).rv e).toNat +
        byteInt ((s.thread t).rv a) 0 uns * byteInt ((s.thread t).rv b) 0 uns +
        byteInt ((s.thread t).rv a) 1 uns * byteInt ((s.thread t).rv b) 1 uns +
        byteInt ((s.thread t).rv a) 2 uns * byteInt ((s.thread t).rv b) 2 uns +
        byteInt ((s.thread t).rv a) 3 uns * byteInt ((s.thread t).rv b) 3 uns))))) ∧
  (∀ (s : State) (ch : Bool) (d a b e : Reg) (o : FopOp) (ty : FTy) (rm : Rm) (neg sat : Bool) (fn : FunFn) (ft : FunTy)
    (r : FCmpRel) (p : PReg) (dt st : CvtTy) (t : Nat),
    let th := s.thread t
    let en := s.trapen t
    let traps := fun (i : Instr) (flags : BitVec 5) => s.Solo i t → flags &&& en ≠ 0 → th.handles →
      ∃ u cause, exec i s = .next u ∧ s.TrapFrame u t ∧ (u.thread t).fstat = th.fstat ||| flags ∧
        th.counted.Trapped (u.thread t) s.m.cur cause (flags.setWidth 64) ∧
        (∃ k < 5, cause = 0x040 + k ∧ (flags &&& en).getLsbD (4 - k) = true ∧ ∀ j < k, (flags &&& en).getLsbD (4 - j) = false)
    traps (.fop ch d a b o ty rm) (elemOut ty d (List.zipWith (fopElem o (ftyFmt ty) rm) (elems th ty a) (elems th ty b))).flags ∧
      traps (.fma32 ch d a b e neg) (fmaLane th .f32 d a b e neg).flags ∧
      traps (.fmah ch d a b e neg) (fmaLane th .f16x2 d a b e neg).flags ∧
      traps (.fmab ch d a b e neg) (fmaLane th .bf16x2 d a b e neg).flags ∧
      traps (.fmad ch d a b e neg) (fmaLane th .f64 d a b e neg).flags ∧
      traps (.funOp ch d a fn ft) (elemOut (funTy ft) d ((elems th (funTy ft) a).map (funElem fn (ftyFmt (funTy ft))))).flags ∧
      traps (.fcmp ch p a b r ty) (fcmpResult r ((ftyFmt ty).decode ((elems th ty a).headD 0))
        ((ftyFmt ty).decode ((elems th ty b).headD 0))).2 ∧
      traps (.cvt ch d a dt st rm sat) (cvtResult dt st rm sat (cvtBits th st a)).2)

/-- 08 R161-R163, R169, 09 R186: for each format with infinities, F64, F32, F16, BF16 and E5, a code that stands for a non-zero
number rounds to itself in every mode and raises nothing. In F64, F32, F16 and BF16, the formats of words that add, adding a number and
a NaN gives the canonical NaN, and an exact sum of opposites is +0 but for RDN. -/
def Obligations.RoundingExact : Prop :=
  (∀ f : Fmt, f = Fmt.f64 ∨ f = Fmt.f32 ∨ f = Fmt.f16 ∨ f = Fmt.bf16 ∨ f = Fmt.e5 →
    ∀ (c : Nat) (rm : Rm) (n : Bool) (m : Nat) (e : Int), c < 2 ^ f.w → f.decode c = .num n m e →
    m ≠ 0 → f.round rm n m e false = ⟨c, 0, false⟩) ∧
  ∀ f : Fmt, f = Fmt.f64 ∨ f = Fmt.f32 ∨ f = Fmt.f16 ∨ f = Fmt.bf16 → ∀ (c : Nat) (rm : Rm) (n : Bool) (m : Nat) (e : Int),
    c < 2 ^ f.w → f.decode c = .num n m e →
    (∀ x, f.decode x = .nan false → f.add rm (f.decode c) (f.decode x) = (f.nanCode, 0) ∧
      f.mul rm (f.decode x) (f.decode c) = (f.nanCode, 0)) ∧
    (∀ x, f.decode x = .nan true → f.add rm (f.decode c) (f.decode x) = (f.nanCode, flagNV)) ∧
    (m ≠ 0 → f.add rm (f.decode c) (f.decode c).negate = (f.sign (rm == .rdn), 0))

/-! ## Crew-wide words -/

/-- 04 R116-R118: the crew-wide words combine the values of the crew's live lanes; every lane receives its result. 04 R118: on a
crew whose live lanes all run, REDUX.ADD of integers is their sum modulo 2^32, and the unsigned and the signed minimum and
maximum are those of the live lanes. -/
def Obligations.CrewWords : Prop :=
  (∀ (s : State) (ch : Bool) (d a b : Reg) (k : ShflKind) (imm : Bool) (p q : PReg) (o : ReduxOp) (ty : ReduxTy),
    let live := fun t => s.liveOf (s.thread t).crew
    let yes := fun t => (live t).filter fun x => (s.thread x).rp p
    let r := fun t => s.reduxResult (s.thread t).crew a o ty
    (s.Bundled (.shfl ch d a b k imm) → ∃ (u : State) (src : Nat → Nat), exec (.shfl ch d a b k imm) s = .next u ∧
      (∀ t, let c := if imm then b.toNat else ((s.thread t).rv b).toNat
        let j : Int := match k with
          | .idx => (c % 32 : Nat)
          | .up => ((s.thread t).lane : Int) - c
          | .dn => ((s.thread t).lane : Int) + c
          | .xor => (((s.thread t).lane ^^^ (c % 32) : Nat) : Int)
        (0 ≤ j ∧ j ≤ 31 ∧ (∃ x ∈ live t, ((s.thread x).lane : Int) = j) → src t ∈ live t ∧ ((s.thread (src t)).lane : Int) = j) ∧
        (¬ (0 ≤ j ∧ j ≤ 31 ∧ ∃ x ∈ live t, ((s.thread x).lane : Int) = j) → src t = t)) ∧
      s.Results u fun t => .ofRegs (regWrites d ((s.thread (src t)).rv a))) ∧
    (s.Bundled (.voteAny ch q p) → ∃ u, exec (.voteAny ch q p) s = .next u ∧
      s.Results u fun t => .ofPred q (decide (yes t ≠ []))) ∧
    (s.Bundled (.voteAll ch q p) → ∃ u, exec (.voteAll ch q p) s = .next u ∧
      s.Results u fun t => .ofPred q (decide (yes t = live t))) ∧
    (s.Bundled (.voteBallot ch d p) → ∃ u, exec (.voteBallot ch d p) s = .next u ∧
      s.Results u fun t => .ofRegs (regWrites d (BitVec.ofNat 32 ((yes t).map fun x => 2 ^ (s.thread x).lane).sum))) ∧
    (s.Bundled (.voteElect ch d q p) → ∃ u, exec (.voteElect ch d q p) s = .next u ∧
      s.Results u fun t =>
        let least := ((yes t).head?.map fun x => (s.thread x).lane).getD 32
        ⟨regWrites d (BitVec.ofNat 32 least), [(q, (s.thread t).lane == least)], 0⟩) ∧
    (s.Bundled (.redux ch d a o ty) → s.Quiet (fun t => ⟨regWrites d (BitVec.ofNat 32 (r t).1), [], (r t).2⟩) →
      ∃ u, exec (.redux ch d a o ty) s = .next u ∧ s.Results u fun t => ⟨regWrites d (BitVec.ofNat 32 (r t).1), [], (r t).2⟩)) ∧
  (∀ (s : State) (c : Nat) (a : Reg), s.m.cur.Alone → ((s.liveOf c).map fun t => (s.thread t).lane).Nodup →
    (∀ t ∈ s.liveOf c, (s.thread t).lane < 32) → s.liveOf c ≠ [] →
    let vals := (s.liveOf c).map fun t => ((s.thread t).rv a).toNat
    (s.reduxResult c a .add .n32).1 = vals.sum % 2 ^ 32 ∧ (s.reduxResult c a .add .s32).1 = vals.sum % 2 ^ 32 ∧
    (s.reduxResult c a .max .n32).1 = vals.foldl max 0 ∧
    ((s.reduxResult c a .min .n32).1 ∈ vals ∧ ∀ x ∈ vals, (s.reduxResult c a .min .n32).1 ≤ x) ∧
    (let int := fun (x : Nat) => (BitVec.ofNat 32 x).toInt
      let lo := (s.reduxResult c a .min .s32).1
      let hi := (s.reduxResult c a .max .s32).1
      lo ∈ vals ∧ hi ∈ vals ∧ ∀ x ∈ vals, int lo ≤ int x ∧ int x ≤ int hi))

/-! ## Guards and transfers -/

/-- 02 R48, R52: PB gives each thread a guard: the predicate's value, the count and the mask; it counts as retired once. 02 R48:
word i under a guard runs where its sense is that of the predicate, and the guard ends after its last word. -/
def Obligations.Guards : Prop :=
  (∀ (s : State) (p : PReg) (n : BitVec 3) (mask : BitVec 8), s.Bundled (.pb p n mask) →
    ∃ u, exec (.pb p n mask) s = .next u ∧ s.TurnsFrame u s.m.cur.lanes ∧
      ∀ t ∈ s.m.cur.lanes, u.thread t = { s.thread t with
        pc := s.m.cur.after, guard := ⟨true, (s.thread t).rp p, n.toNat + 1, 0, mask⟩, retired := (s.thread t).retired + 1 }) ∧
  (∀ (pv : Bool) (n : Nat) (mask : BitVec 8) (i : Nat), i < n → n ≤ 8 →
    ((⟨true, pv, n, i, mask⟩ : Guard).runs = true ↔ mask.getLsbD i = pv) ∧
    (i + 1 < n → (⟨true, pv, n, i, mask⟩ : Guard).step 1 = ⟨true, pv, n, i + 1, mask⟩) ∧
    (i + 1 = n → (⟨true, pv, n, i, mask⟩ : Guard).step 1 = Guard.none))

/-- 04 R107, 02 R49, R56: BRA and JMPR take each thread to its target, its guard ended; where BRA's predicate does not match,
the thread goes on. 04 R107, 02 R39: a JMPR or CALLR target with bits 1:0 non-zero faults with the misaligned-access cause;
nothing is pushed. -/
def Obligations.Branches : Prop :=
  (∀ (s : State) (ch : Bool) (p : PReg) (sense : Bool) (disp : BitVec 20) (a : Reg),
    (s.Bundled (.bra ch p sense disp) → ∃ u, exec (.bra ch p sense disp) s = .next u ∧ s.TurnsFrame u s.m.cur.lanes ∧
      ∀ t ∈ s.m.cur.lanes, u.thread t =
        if (s.thread t).rp p = sense then (s.thread t).jumped (s.m.cur.pc + 4 + disp.signExtend 64 * 4)
        else (s.thread t).past s.m.cur) ∧
    (s.Bundled (.jmpr ch a) → (∀ t ∈ s.m.cur.lanes, ((s.thread t).rx a).toNat % 4 = 0) →
      ∃ u, exec (.jmpr ch a) s = .next u ∧ s.TurnsFrame u s.m.cur.lanes ∧
        ∀ t ∈ s.m.cur.lanes, u.thread t = (s.thread t).jumped ((s.thread t).rx a))) ∧
  (∀ (s : State) (ch : Bool) (a : Reg) (t : Nat), ((s.thread t).rx a).toNat % 4 ≠ 0 → (s.thread t).handles →
    (s.Solo (.jmpr ch a) t → ∃ u, exec (.jmpr ch a) s = .next u ∧ s.TrapFrame u t ∧
      (s.thread t).Trapped (u.thread t) s.m.cur fetchMisaligned ((s.thread t).rx a)) ∧
    (s.Solo (.callr ch a) t → ∃ u, exec (.callr ch a) s = .next u ∧ s.TrapFrame u t ∧
      (s.thread t).Trapped (u.thread t) s.m.cur fetchMisaligned ((s.thread t).rx a)))

/-- 04 R107, R108: CALL and CALLR push the address after the call and transfer; RET of a thread with no open fork pops it. 04
R108: a push onto a full return stack spills the oldest address below the slice's top, and the pop that follows gives the
address pushed and refills the stack. -/
def Obligations.Calls : Prop :=
  (∀ (s : State) (ch : Bool) (disp : BitVec 25) (a : Reg) (t : Nat),
    (s.Solo (.call ch disp) t → (s.thread t).stack.length < 16 → ∃ u, exec (.call ch disp) s = .next u ∧ s.TurnFrame u t ∧
      u.thread t = { (s.thread t).jumped (s.m.cur.pc + 4 + disp.signExtend 64 * 4) with
        stack := (s.thread t).stack ++ [s.m.cur.after] }) ∧
    (s.Solo (.callr ch a) t → (s.thread t).stack.length < 16 → ((s.thread t).rx a).toNat % 4 = 0 →
      ∃ u, exec (.callr ch a) s = .next u ∧ s.TurnFrame u t ∧
      u.thread t = { (s.thread t).jumped ((s.thread t).rx a) with stack := (s.thread t).stack ++ [s.m.cur.after] }) ∧
    (s.Solo (.ret ch) t → (s.thread t).fork.recs = [] → (s.thread t).spill = 0 →
      ∀ l r, (s.thread t).stack = l ++ [r] → r.toNat % 4 = 0 → ∃ u, exec (.ret ch) s = .next u ∧ s.TurnFrame u t ∧
      u.thread t = { (s.thread t).jumped r with stack := l }) ∧
    (s.Solo (.ret ch) t → (s.thread t).fork.recs = [] → (s.thread t).stack = [] → (s.thread t).handles →
      ∃ u, exec (.ret ch) s = .next u ∧ s.TrapFrame u t ∧
        (s.thread t).Trapped (u.thread t) s.m.cur Cause.returnUnderflow 0)) ∧
  (∀ (s s1 : State) (t : Nat) (a : DWord), (s.thread t).cont = none → (s.thread t).stack.length = 16 →
    8 * ((s.thread t).spill + 1) ≤ (s.gridOf t).lr.slice → s.push t a = .ok s1 →
    (s1.thread t).spill = (s.thread t).spill + 1 ∧ (s1.thread t).stack = (s.thread t).stack.drop 1 ++ [a] ∧
    ∃ s2, s1.pop t = some (a, s2) ∧ (s2.thread t).stack = (s.thread t).stack ∧ (s2.thread t).spill = (s.thread t).spill)

/-- 06 R141: FCALL pushes the return and transfers; it opens a fork in the lowest spare slot where it can, and otherwise acts as
CALL and counts in `plain`. The continuation holds the thread's state from before the push, going on after the call. -/
def Obligations.ForkableCall : Prop :=
  ∀ (s : State) (ch : Bool) (fd : BitVec 4) (disp : BitVec 21) (t : Nat), s.Solo (.fcall ch fd disp) t →
    let th := s.thread t
    let g := s.gridOf t
    let tg := s.m.cur.pc + 4 + disp.signExtend 64 * 4
    fd.toNat < g.lr.forks.length → th.stack.length < 16 → t < s.handle →
    ((g.replay = true ∨ 4 ≤ th.fork.recs.length ∨ s.sparesOf t = []) →
      ∃ u, exec (.fcall ch fd disp) s = .next u ∧ s.TurnFrame u t ∧
        u.thread t = { th.jumped tg with stack := th.stack ++ [s.m.cur.after], fork := { th.fork with plain := th.fork.plain + 1 } }) ∧
    (g.replay = false → th.fork.recs.length < 4 → ∀ q l, s.sparesOf t = q :: l →
      ∃ (u : State) (f : Fork), exec (.fcall ch fd disp) s = .next u ∧ u.handle = s.handle + 1 ∧
        f.cont = s.handle ∧ f.fd = fd.toNat ∧ f.depth = th.stack.length + th.spill ∧ f.conflict = false ∧
        f.preds.map Prod.fst = ((g.lr.forks.getD fd.toNat ⟨[]⟩).rets.map Prod.fst) ∧
        u.thread t = { th.jumped tg with
          stack := th.stack ++ [s.m.cur.after]
          fork := { th.fork with recs := f :: th.fork.recs, fdepth := th.fork.fdepth + 1, opened := th.fork.opened + 1 } } ∧
        (let c := u.thread s.handle;
          c.pc = s.m.cur.after ∧ c.v = (th.writeAll f.preds).v ∧ c.p = th.p ∧ c.stack = th.stack ∧ c.spill = th.spill ∧
          c.fstat = th.fstat ∧ c.prec = th.prec ∧ c.guard = Guard.none ∧ c.retired = 0 ∧
          c.cont = some ⟨t, q, 0, [], [], false⟩) ∧
        ∀ r, r ≠ t → r ≠ s.handle → u.thread r = s.thread r)

/-- 06 R148, R150: the closing RET of a fork whose named returns differ from their predictions squashes it and returns normally;
one whose predictions hold but that has a conflict does so as well. The counter of the cause rises. 06 R149: the closing RET of
a fork whose predictions hold and that has no conflict makes the continuation's state the thread's; the RET does not retire, and
the slot is free. 06 R148: while a named return has yet to be written by an earlier word, the RET waits to be judged. -/
def Obligations.ForkClose : Prop :=
  (∀ (s : State) (ch : Bool) (t : Nat) (f : Fork) (l : List DWord) (r : DWord), s.Solo (.ret ch) t →
    let th := s.thread t
    th.closing = some f → s.judgeWaits t f = false → f.cont ≠ t → th.spill = 0 → th.stack = l ++ [r] → r.toNat % 4 = 0 →
    (f.preds.any (fun p => th.rv p.1 != p.2) = true → ∃ u, exec (.ret ch) s = .next u ∧ Table.find? u.threads f.cont = none ∧
      u.thread t = { th.jumped r with
        stack := l
        fork := { th.fork with recs := th.fork.recs.drop 1, fdepth := th.fork.fdepth - 1, sqpred := th.fork.sqpred + 1 } }) ∧
    (f.preds.any (fun p => th.rv p.1 != p.2) = false → f.conflict = true →
      ∃ u, exec (.ret ch) s = .next u ∧ Table.find? u.threads f.cont = none ∧
      u.thread t = { th.jumped r with
        stack := l
        fork := { th.fork with recs := th.fork.recs.drop 1, fdepth := th.fork.fdepth - 1, sqmem := th.fork.sqmem + 1 } })) ∧
  (∀ (s : State) (ch : Bool) (t : Nat) (f : Fork) (k : Cont), s.Solo (.ret ch) t →
    let th := s.thread t
    let c := s.thread f.cont
    th.closing = some f → s.judgeWaits t f = false → f.cont ≠ t → c.cont = some k → (s.gridOf t).lr.regs ≤ 64 →
    (∀ r : Reg, (s.gridOf t).lr.regs ≤ r.toNat → c.rv r = th.rv r) →
    f.preds.any (fun p => th.rv p.1 != p.2) = false → f.conflict = false →
    ∃ u, exec (.ret ch) s = .next u ∧ Table.find? u.threads f.cont = none ∧
      (u.thread t).pc = c.pc ∧ (∀ r, (u.thread t).rv r = c.rv r) ∧ (u.thread t).p = c.p ∧ (u.thread t).stack = c.stack ∧
      (u.thread t).spill = c.spill ∧ (u.thread t).guard = c.guard ∧ (u.thread t).fstat = th.fstat ||| c.fstat ∧
      (u.thread t).retired = th.retired + c.retired ∧ (u.thread t).fork.commit = th.fork.commit + 1) ∧
  (∀ (s : State) (ch : Bool) (t : Nat) (f : Fork), s.Solo (.ret ch) t → (s.thread t).closing = some f → s.judgeWaits t f = true →
    (s.thread t).wait = .ready → (s.thread t).wait2 = none →
    s.Ends (.ret ch) fun u => u.thread t = (s.thread t).waitsAt (.ret ch) s.m.cur ∧ ∀ q, q ≠ t → u.thread q = s.thread q)

/-- 06 R155, R157, 04 R109: FGATE has no effect beyond retiring; YIELD marks the thread. FSQ squashes the fork of the
continuation that executes it, and in any other thread the innermost open fork; with none open it does nothing. -/
def Obligations.ForkControl : Prop :=
  ∀ (s : State) (ch : Bool) (t : Nat),
    (s.Bundled (.cwaitFgate ch) → ∃ u, exec (.cwaitFgate ch) s = .next u ∧ s.TurnsFrame u s.m.cur.lanes ∧
      ∀ q ∈ s.m.cur.lanes, u.thread q = (s.thread q).past s.m.cur) ∧
    (s.Bundled (.yieldOp ch) → ∃ u, exec (.yieldOp ch) s = .next u ∧ s.TurnsFrame u s.m.cur.lanes ∧
      ∀ q ∈ s.m.cur.lanes, ∃ m, u.thread q = { (s.thread q).past s.m.cur with mark := some (s.cycle, m) }) ∧
    (s.Solo (.cwaitFsq ch) t → (s.thread t).fork.recs = [] → ∃ u, exec (.cwaitFsq ch) s = .next u ∧ s.TurnFrame u t ∧
      u.thread t = (s.thread t).past s.m.cur) ∧
    (s.Solo (.cwaitFsq ch) t → ∀ f l, (s.thread t).fork.recs = f :: l → f.cont ≠ t →
      ∃ u, exec (.cwaitFsq ch) s = .next u ∧ Table.find? u.threads f.cont = none ∧
      u.thread t = { (s.thread t).past s.m.cur with fork := { (s.thread t).fork with
        recs := l, fdepth := (s.thread t).fork.fdepth - 1, sqother := (s.thread t).fork.sqother + 1 } }) ∧
    (∀ k, s.m.cur.Alone → s.m.cur.lanes = [t] → (Table.find? s.threads t).isSome = true → s.issueCheck (.cwaitFsq ch) t = none →
      (s.thread t).cont = some k → k.owner ≠ t → let o := s.thread k.owner
      (∀ f ∈ o.fork.recs, f.cont ≠ k.owner) → s.Ends (.cwaitFsq ch) fun u => Table.find? u.threads t = none ∧
        u.thread k.owner = { o with fork := { o.fork with
          recs := o.fork.recs.filter fun f => f.cont != t, fdepth := o.fork.fdepth - 1, sqother := o.fork.sqother + 1 } })

/-- 04 R111, 01 R21: an arrival below the target counts, and SYNC waits; the arrival that reaches the target completes the
phase: the count returns to zero, the phase flips, the k writes are published, and SYNC goes on. 01 R21, 04 R106: XMOV.WRK of a
leader crew writes the k register, which the leader crew sees at once; of another crew it takes the k-writer fault and writes
nothing. -/
def Obligations.TeamWords : Prop :=
  (∀ (s : State) (ch : Bool) (idx : BitVec 4) (t : Nat),
    let tm := (s.crewOf t).team
    let b := (s.team tm).bars[barIdx idx]
    let next := fun (u : State) => (u.team tm).bars[barIdx idx]
    t ∈ s.teamLive tm → (s.thread t).wait = .ready → (s.thread t).wait2 = none →
    (b.count + 1 < s.barTarget tm idx.toNat →
      (s.Solo (.barSync ch idx) t → ∃ u, exec (.barSync ch idx) s = .next u ∧ next u = { b with count := b.count + 1 } ∧
        (u.thread t).Alike { (s.thread t).past s.m.cur with wait := .bar idx.toNat }) ∧
      (s.Solo (.barArrive ch idx) t → ∃ u, exec (.barArrive ch idx) s = .next u ∧ next u = { b with count := b.count + 1 } ∧
        (u.thread t).Alike ((s.thread t).past s.m.cur))) ∧
    (s.barTarget tm idx.toNat ≤ b.count + 1 →
      (s.Solo (.barSync ch idx) t → ∃ u, exec (.barSync ch idx) s = .next u ∧ next u = ⟨0, !b.phase, b.done + 1⟩ ∧
        (u.team tm).kView = (s.team tm).kLead ∧ (u.thread t).Alike ((s.thread t).past s.m.cur) ∧
        ∀ q ∈ s.teamLive tm, q ≠ t → (s.thread q).wait = .bar idx.toNat → (s.thread q).wait2 = none → (u.thread q).wait = .ready) ∧
      (s.Solo (.barArrive ch idx) t → ∃ u, exec (.barArrive ch idx) s = .next u ∧ next u = ⟨0, !b.phase, b.done + 1⟩ ∧
        (u.team tm).kView = (s.team tm).kLead ∧ (u.thread t).Alike ((s.thread t).past s.m.cur)))) ∧
  (∀ (s : State) (ch : Bool) (a : Reg) (k : BitVec 5) (t : Nat), s.Solo (.xmovWrk ch a k) t →
    let tm := (s.crewOf t).team
    ((s.crewOf t).index = 0 → ∃ u, exec (.xmovWrk ch a k) s = .next u ∧ u.thread t = (s.thread t).past s.m.cur ∧
      (∀ j : BitVec 5, ((u.team tm).kLead)[j.toNat]'j.isLt =
        if j = k then (s.thread t).rx a else ((s.team tm).kLead)[j.toNat]'j.isLt) ∧
      (u.team tm).kView = (s.team tm).kView ∧ (∀ q, q ≠ tm → u.team q = s.team q) ∧ (∀ q, q ≠ t → u.thread q = s.thread q) ∧
      u.mem = s.mem ∧ u.crews = s.crews) ∧
    ((s.crewOf t).index ≠ 0 → (s.thread t).handles → ∃ u, exec (.xmovWrk ch a k) s = .next u ∧ s.TrapFrame u t ∧
      (s.thread t).Trapped (u.thread t) s.m.cur Cause.kWriter 0))

/-- 04 R110, R114: EXIT clears the live bit of a thread with nothing left to report; CWAIT.ALL goes on where the team has no
child that has not retired, and otherwise leaves the ready set at the next word. 04 R113: LAUNCH.GRID by the team leader
enqueues the child of a record that passes its checks, in the leader's context and seat and one level deeper, and gives its
identifier; any other thread, and a leader at depth 10, takes the fault. -/
def Obligations.ExitAndWait : Prop :=
  (∀ (s : State) (ch : Bool) (t : Nat),
    (s.Solo (.exitOp ch) t → (s.thread t).deferred = [] → ¬ (s.liveOf (s.thread t).crew = [t] ∧ s.tilesOf (s.thread t).crew ≠ []) →
      ∃ u, exec (.exitOp ch) s = .next u ∧ (u.thread t).live = false) ∧
    (s.Solo (.cwaitAll ch) t → s.childrenOf (s.crewOf t).team = [] → ∃ u, exec (.cwaitAll ch) s = .next u ∧
      (u.thread t).Alike ((s.thread t).past s.m.cur) ∧ (∀ q, q ≠ t → (u.thread q).Alike (s.thread q)) ∧ u.mem = s.mem) ∧
    (s.Solo (.cwaitAll ch) t → s.childrenOf (s.crewOf t).team ≠ [] → (s.thread t).wait = .ready →
      ∃ u, exec (.cwaitAll ch) s = .next u ∧ s.TurnFrame u t ∧ u.thread t = { (s.thread t).past s.m.cur with wait := .cwait })) ∧
  (∀ (s : State) (ch : Bool) (d a : Reg) (t : Nat), s.Solo (.launchGrid ch d a) t →
    let g := s.gridOf t
    ((s.thread t).index ≠ 0 → (s.thread t).handles → ∃ u, exec (.launchGrid ch d a) s = .next u ∧ s.TrapFrame u t ∧
      (s.thread t).Trapped (u.thread t) s.m.cur Cause.launchLeader 0) ∧
    ((s.thread t).index = 0 → 10 ≤ g.nest → (s.thread t).handles → ∃ u, exec (.launchGrid ch d a) s = .next u ∧ s.TrapFrame u t ∧
      (s.thread t).Trapped (u.thread t) s.m.cur Cause.nestingDepth 0) ∧
    ((s.thread t).index = 0 → g.nest < 10 → ∀ s1 bs s2 c,
      (∃ p, s.place t (s.crewOf t).core ((s.thread t).rx a) 1024 64 = .ok p) → s.launchRead t ((s.thread t).rx a) 16 = .ok s1 bs →
      (s1.acquire (s1.crewOf t).core .pk).checkRecord (.launch g.key g.seat) g.clusters (bs.take 128) (bs.drop 128) = (s2, .ok c) →
      ∃ u, exec (.launchGrid ch d a) s = .next u ∧ (u.thread t).pc = s.m.cur.after ∧
        (d ≠ 0 → (u.thread t).rv d = BitVec.ofNat 32 s2.fixer.nextGridId) ∧
        u.fixer.nextGridId = s2.fixer.nextGridId + 1 ∧
        (let n := u.grid s2.handle;
          n.id = BitVec.ofNat 32 s2.fixer.nextGridId ∧ n.key = c.key ∧ n.seat = c.seat ∧ n.lr = c.lr ∧ n.nest = g.nest + 1 ∧
          n.parent = some ((s.crewOf t).team, (s2.team (s.crewOf t).team).grid))))

/-! ## Memory -/

/-- 01 R24, R25: the checks of a generic address, in order: window, bound, canonical form, alignment. That the last byte is then
judged by the bound and the canonical form too is the model's choice (log 72). -/
def Obligations.AddressChecks : Prop :=
  ∀ (s : State) (t core n : Nat) (a : DWord), 0 < n → n ≤ 16 →
    let top := a.toNat / 2 ^ 60
    let w := a.toNat / 2 ^ 56 % 16
    let off := a.toNat % 2 ^ 56
    let lr := (s.gridOf t).lr
    (top = 0xD → 5 ≤ w → s.place t core a n n = .error .reservedWindow) ∧
    (top = 0xD → w = 0 → lr.slice ≤ off → s.place t core a n n = .error .windowBound) ∧
    (top = 0xD → w = 1 → 8192 * lr.scratch ≤ off → s.place t core a n n = .error .windowBound) ∧
    (top = 0xD → w = 2 → off / 2 ^ 24 ≠ 0 → s.place t core a n n = .error .windowBound) ∧
    (top = 0xD → w = 4 → 8 * lr.counters ≤ off → s.place t core a n n = .error .windowBound) ∧
    (top = 0xD → w = 0 → off < lr.slice → a.toNat % n ≠ 0 → s.place t core a n n = .error .misaligned) ∧
    (top = 0xD → w = 1 → off < 8192 * lr.scratch → a.toNat % n ≠ 0 → s.place t core a n n = .error .misaligned) ∧
    (top = 0xD → w = 0 → a.toNat % n = 0 → lr.slice < off + n → s.place t core a n n = .error .windowBound) ∧
    (top = 0xD → w = 1 → a.toNat % n = 0 → 8192 * lr.scratch < off + n → s.place t core a n n = .error .windowBound) ∧
    (top = 0xD → w = 1 → off + n ≤ 8192 * lr.scratch → a.toNat % n = 0 →
      s.place t core a n n = .ok (.here (.scratch (s.crewOf t).team core) off)) ∧
    (top = 0xD → w = 0 → off + n ≤ lr.slice → a.toNat % n = 0 → (s.thread t).cont = none →
      s.place t core a n n = .ok (.here (.slice t) off)) ∧
    (top ≠ 0xD → a.toNat / 2 ^ 56 ≠ 0 → a.toNat / 2 ^ 56 ≠ 255 → s.place t core a n n = .error .nonCanonical) ∧
    (top ≠ 0xD → canonical a = true → a.toNat % n ≠ 0 → s.place t core a n n = .error .misaligned) ∧
    (top ≠ 0xD → canonical a = true → a.toNat % n = 0 → canonical (a + BitVec.ofNat 64 (n - 1)) = false →
      s.place t core a n n = .error .nonCanonical) ∧
    (top ≠ 0xD → canonical a = true → canonical (a + BitVec.ofNat 64 (n - 1)) = true → a.toNat % n = 0 →
      s.place t core a n n = .ok (.global a.toNat))

/-- 01 R25, 05 R120: an access that fails a check of its address takes the fault of its kind at issue, VAL the address, and does
nothing else. 05 R135: LDFE and STFE judge the window first: an arrival counter, and a place that has no full-empty bits, fault
whatever else is wrong with the address. -/
def Obligations.AddressFaults : Prop :=
  ∀ (s : State) (ch : Bool) (d b : Reg) (ap : BitVec 5) (w : Width) (off : BitVec 11) (sc : Scope) (o : AtomOp) (t : Nat) (why : Why),
    let am := addrM (s.thread t) ap w off
    let ms := addrMS (s.thread t) ap
    let fails := fun (i : Instr) (a : DWord) (n : Nat) (k : Kind) =>
      s.Solo i t → (s.thread t).handles → s.place t (s.crewOf t).core a n n = .error why →
      ∃ u, exec i s = .next u ∧ s.TrapFrame u t ∧ (s.thread t).Trapped (u.thread t) s.m.cur (why.cause k) a
    (d ≠ 0 → fails (.ld ch d ap w off) am (widthBytes w) .load ∧ fails (.lds ch d ap w off) am (widthBytes w) .load ∧
      fails (.lda ch d ap sc w) ms (widthBytes w) .load) ∧
    fails (.st ch d ap w off) am (widthBytes w) .store ∧ fails (.stl ch d ap sc w) ms (widthBytes w) .store ∧
    fails (.atom ch d ap b sc o) ms (widthBytes (atomWidth o)) .atomic ∧ fails (.cas ch d ap b sc w) ms (widthBytes w) .atomic ∧
    fails (.mwait ch d ap b sc .eq w) ms (widthBytes w) .load ∧ fails (.mwait ch d ap b sc .ne w) ms (widthBytes w) .load ∧
    ((windowOf ms = some 1 ∨ windowOf ms = some 2 ∨ windowOf ms = some 3) →
      fails (.ldfeKeep ch d ap sc w) ms (widthBytes w) .load ∧ fails (.ldfeTake ch d ap sc w) ms (widthBytes w) .load ∧
      fails (.stfeFill ch d ap sc w) ms (widthBytes w) .store ∧ fails (.stfePut ch d ap sc w) ms (widthBytes w) .store) ∧
    (let takes := fun (i : Instr) (why : Why) (k : Kind) => s.Solo i t → (s.thread t).handles →
        ∃ u, exec i s = .next u ∧ s.TrapFrame u t ∧ (s.thread t).Trapped (u.thread t) s.m.cur (why.cause k) ms
      let all := fun (why : Why) => takes (.ldfeKeep ch d ap sc w) why .load ∧ takes (.ldfeTake ch d ap sc w) why .load ∧
        takes (.stfeFill ch d ap sc w) why .store ∧ takes (.stfePut ch d ap sc w) why .store
      (windowOf ms = some 4 → all .counterAccess) ∧
      ((∀ n, windowOf ms = some n → n = 0 ∨ 5 ≤ n) → all .fullEmptyWindow))

/-- 05 R124, R126, R133: a load from a window of the core takes an entry that holds the bytes read, zero- or sign-extended, for its
destination; the thread goes on, and no byte of memory changes. 05 R125: a load whose destination is v0 is a prefetch-touch: no
fault is raised and no register is written; it takes an entry. -/
def Obligations.LocalLoads : Prop :=
  (∀ (s : State) (ch : Bool) (d : Reg) (ap : BitVec 5) (w : Width) (off : BitVec 11) (sc : Scope) (t : Nat) (st : Store) (o : Nat),
    d ≠ 0 → s.FreshId →
    let am := addrM (s.thread t) ap w off
    let ms := addrMS (s.thread t) ap
    let bs := s.localRead st o (widthBytes w)
    let ends := fun (u : State) (ws : List (Reg × Word)) => (u.thread t).Alike ((s.thread t).past s.m.cur) ∧ s.Issued u true t ws ∧
      (∀ q, q ≠ t → (u.thread q).Alike (s.thread q)) ∧ u.crews = s.crews ∧ s.SameLocals u ∧ u.mem = s.mem
    (s.Solo (.ld ch d ap w off) t → s.Local t am (widthBytes w) st o → ∃ u, exec (.ld ch d ap w off) s = .next u ∧
      ends u (loadWrites w d bs)) ∧
    (s.Solo (.lds ch d ap w off) t → s.Local t am (widthBytes w) st o → ∃ u, exec (.lds ch d ap w off) s = .next u ∧
      ends u (regWrites d (BitVec.ofInt 32 (sextN (8 * widthBytes w) (leNat bs))))) ∧
    (s.Solo (.lda ch d ap sc w) t → s.Local t ms (widthBytes w) st o → ∃ u, exec (.lda ch d ap sc w) s = .next u ∧
      ends u (loadWrites w d bs))) ∧
  (∀ (s : State) (ch : Bool) (ap : BitVec 5) (w : Width) (off : BitVec 11) (sc : Scope) (t : Nat), s.FreshId →
    let ends := fun (i : Instr) => s.Solo i t → ∃ u, exec i s = .next u ∧ s.Issued u true t [] ∧
      (u.thread t).Alike ((s.thread t).past s.m.cur) ∧ (∀ q, q ≠ t → (u.thread q).Alike (s.thread q)) ∧ s.SameLocals u
    ends (.ld ch 0 ap w off) ∧ ends (.lds ch 0 ap w off) ∧ ends (.lda ch 0 ap sc w))

/-- 05 R124, R126, 16 R309: a load from main memory, at a global address or in the thread's lane slice, takes an entry with the bytes
that its scope reads: the L1 for LD and LDS, the level that serves SC for LDA; a slice line is read in the L2. -/
def Obligations.GlobalLoads : Prop :=
  ∀ (s r r2 : State) (ch : Bool) (d : Reg) (ap : BitVec 5) (w : Width) (off : BitVec 11) (sc : Scope) (t pa : Nat) (bs : List Byte),
    d ≠ 0 → s.FreshId →
    let am := addrM (s.thread t) ap w off
    let ms := addrMS (s.thread t) ap
    let n := widthBytes w
    let core := (s.crewOf t).core
    let key := (s.gridOf t).accessKey
    let ends := fun (u : State) (ws : List (Reg × Word)) => (u.thread t).pc = s.m.cur.after ∧ (u.thread t).v = (s.thread t).v ∧
      (u.thread t).retired = (s.thread t).retired + 1 ∧ s.Issued u true t ws ∧ (∀ q, q ≠ t → (u.thread q).Alike (s.thread q)) ∧
      u.crews = s.crews ∧ s.SameLocals u
    (s.Solo (.ld ch d ap w off) t → s.newId.2.Global t am n .load r pa → r.globalRead core key pa n .cr = (r2, .ok bs) →
      ∃ u, exec (.ld ch d ap w off) s = .next u ∧ ends u (loadWrites w d bs)) ∧
    (s.Solo (.lds ch d ap w off) t → s.newId.2.Global t am n .load r pa → r.globalRead core key pa n .cr = (r2, .ok bs) →
      ∃ u, exec (.lds ch d ap w off) s = .next u ∧ ends u (loadSigned w d bs)) ∧
    (s.Solo (.lda ch d ap sc w) t → s.newId.2.Global t ms n .load r pa →
      (r.promoteFor t .phys pa sc).globalRead core key pa n sc = (r2, .ok bs) →
      ∃ u, exec (.lda ch d ap sc w) s = .next u ∧ ends u (loadWrites w d bs) ∧ (pa < sliceBase → (u.thread t).strong = some pa))

/-- 05 R124, R126: a store to a window of the core stores the low bytes of its source at the address, and no other byte of any memory
changes; it takes an entry of the store class. -/
def Obligations.LocalStores : Prop :=
  ∀ (s : State) (ch : Bool) (d : Reg) (ap : BitVec 5) (w : Width) (off : BitVec 11) (sc : Scope) (t : Nat) (st : Store) (o : Nat),
    s.FreshId →
    let am := addrM (s.thread t) ap w off
    let ms := addrMS (s.thread t) ap
    let n := widthBytes w
    let ends := fun (u : State) => (u.localMem st).readAll o n = storeBytes (s.thread t) w d ∧ s.SameLocal u st o n ∧
      (u.thread t).pc = s.m.cur.after ∧ (u.thread t).v = (s.thread t).v ∧ (u.thread t).p = (s.thread t).p ∧
      (u.thread t).retired = (s.thread t).retired + 1 ∧ s.Issued u false t []
    (s.Solo (.st ch d ap w off) t → s.Local t am n st o → ∃ u, exec (.st ch d ap w off) s = .next u ∧ ends u ∧ u.mem = s.mem ∧
      u.cores = s.cores ∧ u.dies.map (·.2.l2) = s.dies.map (·.2.l2)) ∧
    (s.Solo (.stl ch d ap sc w) t → s.Local t ms n st o → ∃ u, exec (.stl ch d ap sc w) s = .next u ∧ ends u)

/-- 05 R124, 16 R309, R311: a plain store to main memory completes; where the caches have room for its line it is seen by loads at its
bytes of its core and key, in host memory of its core under any key, and in a lane slice of its die, whose L2 holds the line; every other
byte reads as before, from every core under every key. 05 R126: a store at a scope releases at that scope and then stores at its home;
where neither fails, the thread goes on. -/
def Obligations.GlobalStores : Prop :=
  (∀ (s r : State) (ch : Bool) (d : Reg) (ap : BitVec 5) (w : Width) (off : BitVec 11) (t pa : Nat), s.FreshId →
    let am := addrM (s.thread t) ap w off
    let n := widthBytes w
    let core := (s.crewOf t).core
    let key := (s.gridOf t).accessKey
    s.Solo (.st ch d ap w off) t → s.newId.2.Global t am n .store r pa → pa % n = 0 → r.keyBlocked key = none →
    r.pageRetired pa = false →
    ∃ u, exec (.st ch d ap w off) s = .next u ∧ s.Issued u false t [] ∧ (u.thread t).pc = s.m.cur.after ∧
      (u.thread t).v = (s.thread t).v ∧ (u.thread t).p = (s.thread t).p ∧ s.SameLocals u ∧
      (∀ q, q ≠ t → (u.thread q).Alike (s.thread q)) ∧
      (r.HasRoom core pa → (sliceBase ≤ pa → (r.core core).line (r.tagOf key pa) (pa / 128) = none) → u.mem = r.mem ∧
        (∀ i, i < n → some (u.seen core key (pa + i)) = (storeBytes (s.thread t) w d)[i]?) ∧
        ∀ c k a, ¬ ((c = core ∨ sliceBase ≤ pa ∧ dieOf c = dieOf core) ∧ r.tagOf k pa = r.tagOf key pa ∧ pa ≤ a ∧ a < pa + n) →
          u.seen c k a = r.seen c k a)) ∧
  (∀ (s r r2 : State) (ch : Bool) (d : Reg) (ap : BitVec 5) (w : Width) (sc : Scope) (t pa : Nat), s.FreshId →
    let ms := addrMS (s.thread t) ap
    let core := (s.crewOf t).core
    s.Solo (.stl ch d ap sc w) t → s.newId.2.Global t ms (widthBytes w) .store r pa →
    (r.release core sc).globalWrite core (s.gridOf t).accessKey pa (storeBytes (s.thread t) w d) sc = (r2, none) →
    ∃ u, exec (.stl ch d ap sc w) s = .next u ∧ s.Issued u false t [] ∧ (u.thread t).pc = s.m.cur.after ∧
      (u.thread t).v = (s.thread t).v ∧ s.SameLocals u ∧ u.mem = r2.mem ∧ u.dies = r2.dies ∧ u.cores = r2.cores)

/-- 05 R127: the new values of the atomic operations, as numbers. 05 R127-R130: an atomic at a local window gives the old value
and stores the new one, and changes no other byte; CAS stores only where the old value is the compare value; ADD64 at a counter
adds to it. 05 R127-R129: an atomic at global memory is performed at its home, which gives the old value and takes the new one.
-/
def Obligations.Atomics : Prop :=
  (∀ (o : AtomOp) (m b : Nat), let w := if o.is64 then 64 else 32
    m < 2 ^ w → b < 2 ^ w → (o ≠ .faddf32 → o ≠ .faddbf16x2 → atomResult o m b < 2 ^ w) ∧
    (match o with
      | .add32 | .add64 => atomResult o m b = (m + b) % 2 ^ w
      | .minn32 | .minn64 => atomResult o m b = min m b
      | .maxn32 | .maxn64 => atomResult o m b = max m b
      | .mins32 | .mins64 => (BitVec.ofNat w (atomResult o m b)).toInt = min (BitVec.ofNat w m).toInt (BitVec.ofNat w b).toInt
      | .maxs32 | .maxs64 => (BitVec.ofNat w (atomResult o m b)).toInt = max (BitVec.ofNat w m).toInt (BitVec.ofNat w b).toInt
      | .and32 | .and64 => atomResult o m b = m &&& b
      | .or32 | .or64 => atomResult o m b = m ||| b
      | .xor32 | .xor64 => atomResult o m b = m ^^^ b
      | .xchg32 | .xchg64 => atomResult o m b = b
      | .incw32 | .incw64 => atomResult o m b = if b ≤ m then 0 else m + 1
      | .decw32 | .decw64 => atomResult o m b = if m = 0 ∨ b < m then b else m - 1
      | .faddf32 | .faddbf16x2 => True)) ∧
  (∀ (s : State) (ch : Bool) (d b : Reg) (ap : BitVec 5) (sc : Scope) (o : AtomOp) (w : Width) (t : Nat) (st : Store) (off g : Nat),
    s.FreshId →
    let ms := addrMS (s.thread t) ap
    let na := widthBytes (atomWidth o)
    let ma := leNat (s.localRead st off na)
    let nc := widthBytes w
    let mc := leNat (s.localRead st off nc)
    let goes := fun (u : State) => (u.thread t).pc = s.m.cur.after ∧ (u.thread t).v = (s.thread t).v ∧ u.mem = s.mem
    (s.Solo (.atom ch d ap b sc o) t → s.Local t ms na st off → ∃ u, exec (.atom ch d ap b sc o) s = .next u ∧ goes u ∧
      s.Issued u true t (loadWrites (atomWidth o) d (leBytes na ma)) ∧ s.SameLocal u st off na ∧
      leNat (u.localRead st off na) = atomResult o ma (atomOperand (s.thread t) o.is64 b) % 2 ^ (8 * na)) ∧
    (s.Solo (.cas ch d ap b sc w) t → w = .w32 ∨ w = .w64 → s.Local t ms nc st off → ∃ u, exec (.cas ch d ap b sc w) s = .next u ∧
      goes u ∧ s.Issued u true t (loadWrites w d (leBytes nc mc)) ∧ s.SameLocal u st off nc ∧
      leNat (u.localRead st off nc) = if mc = atomOperand (s.thread t) (w == .w64) d
        then atomOperand (s.thread t) (w == .w64) b else mc) ∧
    (s.Solo (.atom ch d ap b sc .add64) t → s.place t (s.crewOf t).core ms 8 8 = .ok (.here (.counters g) off) →
      s.lockedAt (.counters g) off 8 = false → ((s.grid g).counters).isSome = true →
      ∃ u, exec (.atom ch d ap b sc .add64) s = .next u ∧ goes u ∧ s.SameLocals u ∧
        s.Issued u true t (pairWrites d (s.counter g (off / 8)).value) ∧
        (u.counter g (off / 8)).value = (s.counter g (off / 8)).value + BitVec.ofNat 64 ((s.thread t).rx b).toNat)) ∧
  (∀ (s r r2 : State) (ch : Bool) (d b : Reg) (ap : BitVec 5) (sc : Scope) (o : AtomOp) (w : Width) (t pa m : Nat), s.FreshId →
    let ms := addrMS (s.thread t) ap
    let na := widthBytes (atomWidth o)
    let nc := widthBytes w
    let th := s.thread t
    (s.Solo (.atom ch d ap b sc o) t → s.newId.2.Global t ms na .atomic r pa →
      r.atomicAt t .phys pa na sc (fun x => some (atomResult o x (atomOperand th o.is64 b))) = (r2, .ok m) →
      ∃ u, exec (.atom ch d ap b sc o) s = .next u ∧ s.Issued u true t (loadWrites (atomWidth o) d (leBytes na m)) ∧
        (u.thread t).pc = s.m.cur.after ∧ (u.thread t).v = th.v ∧ (pa < sliceBase → (u.thread t).strong = some pa) ∧ u.mem = r2.mem) ∧
    (s.Solo (.cas ch d ap b sc w) t → s.newId.2.Global t ms nc .atomic r pa →
      r.atomicAt t .phys pa nc sc (fun x => if x = atomOperand th (w == .w64) d then some (atomOperand th (w == .w64) b) else none)
        = (r2, .ok m) →
      ∃ u, exec (.cas ch d ap b sc w) s = .next u ∧ s.Issued u true t (loadWrites w d (leBytes nc m)) ∧
        (u.thread t).pc = s.m.cur.after ∧ (u.thread t).v = th.v ∧ (pa < sliceBase → (u.thread t).strong = some pa) ∧ u.mem = r2.mem))

/-- 05 R134: MWAIT whose condition holds gives the value and goes on; where it does not hold, the thread leaves the ready set at
the word. 05 R132: WAIT.CNT goes on where every count is at most its field, 15 being no limit, and otherwise leaves the ready
set. -/
def Obligations.Waits : Prop :=
  (∀ (s : State) (ch : Bool) (d b : Reg) (ap : BitVec 5) (sc : Scope) (c : WaitCond) (w : Width) (t : Nat) (st : Store) (off : Nat),
    s.FreshId →
    let n := widthBytes w
    let bs := s.localRead st off n
    let x := atomOperand (s.thread t) (w == .w64) b
    let i := Instr.mwait ch d ap b sc c w
    s.Solo i t → s.Local t (addrMS (s.thread t) ap) n st off →
    ((match c with | .ne => leNat bs ≠ x | .eq => leNat bs = x) → ∃ u, exec i s = .next u ∧ s.Issued u true t (loadWrites w d bs) ∧
      (u.thread t).Alike ((s.thread t).past s.m.cur) ∧ s.SameLocals u ∧ u.mem = s.mem) ∧
    (¬ (match c with | .ne => leNat bs ≠ x | .eq => leNat bs = x) → (s.thread t).wait = .ready → ∃ u, exec i s = .next u ∧
      u.thread t = { s.thread t with
        wait := .word i s.m.cur.after false (s.thread t).v, pc := s.m.cur.pc, retired := (s.thread t).retired + 1 } ∧
      s.SameLocals u ∧ u.mem = s.mem ∧ u.eng.txns = s.eng.txns)) ∧
  (∀ (s : State) (ch : Bool) (l c x y : BitVec 4) (t : Nat), s.Solo (.waitCnt ch l c x y) t →
    let crew := (s.thread t).crew
    let ok := fun (lim : BitVec 4) (n : Nat) => lim = 15 ∨ n ≤ lim.toNat
    let all := ok l (s.txnCount t true) ∧ ok c (s.txnCount t false) ∧ ok x (s.copyCount crew) ∧ ok y (s.tilesOf crew).length
    (all → (s.thread t).deferred = [] → ∃ u, exec (.waitCnt ch l c x y) s = .next u ∧
      (u.thread t).Alike ((s.thread t).past s.m.cur) ∧ (∀ q, q ≠ t → (u.thread q).Alike (s.thread q)) ∧ u.mem = s.mem ∧ u.eng = s.eng) ∧
    (¬ all → (s.thread t).wait = .ready → ∃ u, exec (.waitCnt ch l c x y) s = .next u ∧ u.thread t = { s.thread t with
      wait := .word (.waitCnt ch l c x y) s.m.cur.after false (s.thread t).v, pc := s.m.cur.pc
      retired := (s.thread t).retired + 1 } ∧ (∀ q, q ≠ t → u.thread q = s.thread q)))

/-- 05 R135, 01 R26: LDFE of a full granule and STFE complete: TAKE empties the granule and KEEP leaves it full; FILL, and PUT
into an empty granule, store and fill it. LDFE of an empty granule and PUT into a full one wait. -/
def Obligations.FullEmpty : Prop :=
  ∀ (s : State) (ch : Bool) (d : Reg) (ap : BitVec 5) (sc : Scope) (w : Width) (t : Nat) (st : Store) (off : Nat),
    s.FreshId → (∃ tm c, st = .scratch tm c) →
    let n := widthBytes w
    let bs := s.localRead st off n
    let goes := fun (u : State) => (u.thread t).pc = s.m.cur.after ∧ (u.thread t).v = (s.thread t).v ∧ (u.thread t).wait = (s.thread t).wait
    let waits := fun (i : Instr) => ∃ u, exec i s = .next u ∧ u.thread t = { s.thread t with
      wait := .word i s.m.cur.after false (s.thread t).v, pc := s.m.cur.pc, retired := (s.thread t).retired + 1 } ∧
      s.SameLocals u ∧ u.fullSet st = s.fullSet st
    s.Local t (addrMS (s.thread t) ap) n st off →
    (s.Solo (.ldfeKeep ch d ap sc w) t →
      (s.isFull st off = true → ∃ u, exec (.ldfeKeep ch d ap sc w) s = .next u ∧ goes u ∧
        s.Issued u true t (loadWrites w d bs) ∧ s.SameLocals u ∧ u.fullSet st = s.fullSet st) ∧
      (s.isFull st off = false → (s.thread t).wait = .ready → waits (.ldfeKeep ch d ap sc w))) ∧
    (s.Solo (.ldfeTake ch d ap sc w) t →
      (s.isFull st off = true → ∃ u, exec (.ldfeTake ch d ap sc w) s = .next u ∧ goes u ∧
        s.Issued u true t (loadWrites w d bs) ∧ s.SameLocals u ∧ u.isFull st off = false ∧
        ∀ g, g ≠ off / 16 → (u.fullSet st).contains g = (s.fullSet st).contains g) ∧
      (s.isFull st off = false → (s.thread t).wait = .ready → waits (.ldfeTake ch d ap sc w))) ∧
    (s.Solo (.stfeFill ch d ap sc w) t → ∃ u, exec (.stfeFill ch d ap sc w) s = .next u ∧ goes u ∧
        s.Issued u false t [] ∧ s.SameLocal u st off n ∧ u.localRead st off n = storeBytes (s.thread t) w d ∧
        u.isFull st off = true) ∧
    (s.Solo (.stfePut ch d ap sc w) t →
      (s.isFull st off = false → ∃ u, exec (.stfePut ch d ap sc w) s = .next u ∧ goes u ∧
        s.Issued u false t [] ∧ s.SameLocal u st off n ∧ u.localRead st off n = storeBytes (s.thread t) w d ∧
        u.isFull st off = true) ∧
      (s.isFull st off = true → (s.thread t).wait = .ready → waits (.stfePut ch d ap sc w)))

/-- 05 R131: FENCE.AR, FENCE.ACQ and FENCE.REL complete, whatever the scope: the thread goes on, and nothing of any thread, crew or
local store changes. 05 R136, R137: so do CCTL.ISYNC, which empties the core's instruction cache and the crew's loop buffer, and
CCTL.PFX, whatever its address; CCTL.DWB and CCTL.DINV complete where their address passes its checks and its home is ready, and
on a local window they do nothing. 16 R312, 05 R136: a release at CL or wider leaves no dirty byte in its core's L1, an acquire at CL or wider no clean
line; DWB at CL or wider leaves no dirty byte of its line there, DINV not the line. -/
def Obligations.Fences : Prop :=
  ∀ (s : State) (ch : Bool) (sc : Scope) (ap : BitVec 5) (t : Nat),
    let core := (s.crewOf t).core
    let key := (s.gridOf t).accessKey
    let a := addrMS (s.thread t) ap
    let r := s.newId.2.reach t a 1 .store
    let wide := 2 ≤ scopeRank sc
    let keyed := ((s.core core).l1.map fun l => (l.key, l.line)).Nodup
    let goes := fun (u : State) => (u.thread t).Alike ((s.thread t).past s.m.cur) ∧ (∀ q, q ≠ t → (u.thread q).Alike (s.thread q)) ∧
      s.SameLocals u
    let held := fun (u : State) => u.eng = s.eng ∧ u.crews = s.crews
    (s.Solo (.fenceRel ch sc) t → ∃ u, exec (.fenceRel ch sc) s = .next u ∧ goes u ∧ held u ∧
      (keyed → wide → ∀ l ∈ (u.core core).l1, l.dirty = [])) ∧
    (s.Solo (.fenceAcq ch sc) t → ∃ u, exec (.fenceAcq ch sc) s = .next u ∧ goes u ∧ held u ∧
      (wide → ∀ l ∈ (u.core core).l1, l.state ≠ .clean ∧ ∀ e ∈ l.bytes, e.1 ∈ l.dirty)) ∧
    (s.Solo (.fenceAr ch sc) t → ∃ u, exec (.fenceAr ch sc) s = .next u ∧ goes u ∧ held u ∧
      (keyed → wide → ∀ l ∈ (u.core core).l1, l.state ≠ .clean ∧ l.bytes = [])) ∧
    (s.Solo (.cctlIsync ch) t → ∃ u, exec (.cctlIsync ch) s = .next u ∧ u.thread t = (s.thread t).past s.m.cur ∧
      (∀ q, q ≠ t → u.thread q = s.thread q) ∧ s.SameLocals u ∧ (u.core core).icache = [] ∧
      (u.crewOf t).loop = none ∧ u.mem = s.mem ∧ (∀ c, c ≠ core → u.core c = s.core c)) ∧
    (s.Solo (.cctlPfx ch ap sc) t → ∃ u, exec (.cctlPfx ch ap sc) s = .next u ∧ goes u ∧ u.crews = s.crews ∧
      (s.FreshId → s.Issued u false t [])) ∧
    ∀ st off, r.2 = .here st off → st.isCounter = false → (st = .phys → r.1.homeReady off = true) →
      let main := st = .phys ∧ off < sliceBase
      let tag := r.1.tagOf key off
      let free := main → r.1.lockedAt .phys (off / 128 * 128) 128 = false
      let ends := fun (u : State) => goes u ∧ u.crews = s.crews ∧ (s.FreshId → free → s.Issued u false t []) ∧
        (¬ main → u.mem = s.mem ∧ u.cores = s.cores)
      (s.Solo (.cctlDwb ch ap sc) t → ∃ u, exec (.cctlDwb ch ap sc) s = .next u ∧ ends u ∧
        (main → free → wide → ∀ l, (u.core core).line tag (off / 128) = some l → l.dirty = [])) ∧
      (s.Solo (.cctlDinv ch ap sc) t → ∃ u, exec (.cctlDinv ch ap sc) s = .next u ∧ ends u ∧
        (main → free → wide → (u.core core).line tag (off / 128) = none))

/-- 05 R124, R132-R135: load data reach the destinations and free the entry; a store's completion frees its entry; a thread that
waits at an MWAIT of a window of its core, an LDFE or an STFE.PUT whose condition holds goes on after its word, which had been counted,
while its partition has a free entry. -/
def Obligations.MemoryEvents : Prop :=
  ∀ (s : State) (id t : Nat) (x : Txn) (ws : List (Reg × Word)),
    let room := s.entriesUsed (s.crewOf t).core (s.crewOf t).part < 256
    (Table.find? s.eng.txns id = some x → x.load = true → s.txnDone x = true → x.writes = [⟨t, ws⟩] → (Table.find? s.threads t).isSome = true →
      s.eng.muted = [] → (s.thread t).fork.recs = [] →
      ∃ u, exec (.loadDataReturn id) s = .next u ∧ u.thread t = (s.thread t).writeAll ws ∧ (∀ q, q ≠ t → u.thread q = s.thread q) ∧
        Table.find? u.eng.txns id = none ∧ (∀ j, j ≠ id → Table.find? u.eng.txns j = Table.find? s.eng.txns j) ∧ u.mem = s.mem) ∧
    (Table.find? s.eng.txns id = some x → x.load = false → s.txnDone x = true → x.held = [] →
      ∃ u, exec (.storeComplete id) s = .next u ∧ u.threads = s.threads ∧ Table.find? u.eng.txns id = none ∧
        (∀ j, j ≠ id → Table.find? u.eng.txns j = Table.find? s.eng.txns j) ∧ u.mem = s.mem ∧ u.cores = s.cores) ∧
    (∀ (ch : Bool) (d b : Reg) (ap : BitVec 5) (sc : Scope) (w : Width) (after : DWord) (st : Store) (off : Nat),
      let th := s.thread t
      let n := widthBytes w
      let m := leNat (s.localRead st off n)
      let x := atomOperand th (w == .w64) b
      let wakes := fun (i event : Instr) => th.wait = .word i after false th.v → th.wait2 = none →
        (Table.find? s.threads t).isSome = true → th.cont = none → th.halted = false → th.live = true →
        (s.crewOf t).resident = true → (s.gridOf t).status = .live → s.issueCheck i t = none → room →
        s.Ends event fun u => (u.thread t).wait = .ready ∧ (u.thread t).pc = after ∧ (u.thread t).retired = th.retired
      s.Local t (addrMS th ap) n st off →
      (m = x → wakes (.mwait ch d ap b sc .eq w) (.mwaitWake t)) ∧ (m ≠ x → wakes (.mwait ch d ap b sc .ne w) (.mwaitWake t)) ∧
      ((∃ tm c, st = .scratch tm c) ∨ (∃ k e, st = .dieScratch k e) →
        (s.isFull st off = true → wakes (.ldfeKeep ch d ap sc w) (.fullEmptyWake t) ∧ wakes (.ldfeTake ch d ap sc w) (.fullEmptyWake t)) ∧
        (s.isFull st off = false → wakes (.stfePut ch d ap sc w) (.fullEmptyWake t))))

/-- Memory (log 5) holds what was last written to each byte, whatever else is written, and keeps its one canonical form. An L1 holds
one line at most of a key and a number: putting a line in or taking one out keeps that (16 R311). -/
def Obligations.MemoryForm : Prop :=
  (∀ (m : Memory) (a q : Nat) (b : Byte), (m.write a b).read q = if q = a then b else m.read q) ∧
  (∀ (m : Memory) (a : Nat) (bs : List Byte), (m.writeAll a bs).readAll a bs.length = bs ∧
    ∀ q, q < a ∨ a + bs.length ≤ q → (m.writeAll a bs).read q = m.read q) ∧
  (∀ (m : Memory) (a : Nat) (bs : List Byte), m.wf = true → (m.writeAll a bs).wf = true) ∧
  (∀ (m n : Memory), m.wf = true → n.wf = true → (∀ a, m.read a = n.read a) → m = n) ∧
  (∀ (s : State) (pa q : Nat) (b : Byte), (s.setPhysByte pa b).physByte q = if q = pa then b else s.physByte q) ∧
  ∀ (c : Core) (l : L1Line) (key line : Nat), let keys := fun (x : Core) => x.l1.map fun l => (l.key, l.line)
    (keys c).Nodup → (keys (c.putLine l)).Nodup ∧ (keys (c.dropLine key line)).Nodup ∧
      ((c.putLine l).line l.key l.line = some l) ∧ (c.dropLine key line).line key line = none

/-! ## Plates, exposures, trays and accumulators -/

/-- 10 R209, R213: PLOAD that passes its checks loads the core's plate with the image, its scales, super-scales and outliers,
and holds the image's range until it completes; PLOADW loads half of the columns into each plate of the pair. 10 R210-R214:
EXPOSE that passes its checks puts the contributions of its rows of partials to the lines of its tray into flight and counts the
non-finite ones; EXPOSEW exposes both plates of the pair. -/
def Obligations.PlateWords : Prop :=
  (∀ (s r r1 r2 : State) (ch wide : Bool) (ap : BitVec 5) (sl : BitVec 3) (g : Reg) (t : Nat) (d : Slot) (ps : List Spot)
    (out : List (Nat × Word)) (sup : List Word),
    let i := if wide then Instr.tilePloadw ch ap sl g else Instr.tilePload ch ap sl g
    let gv := (s.thread t).rv g
    let k := gv.toNat % 2 ^ 9
    let n := gv.toNat / 2 ^ 16 % 2 ^ 10
    let core := (s.crewOf t).core
    s.Leads i t → s.tileSlot t sl roleB = .ok d → ploadGeom wide d.fmt gv = true → s.holdsPlate t = true →
    (wide = true → core % 2 = 0 ∧ (s.teamOf t).cores.contains (core + 1) = true) →
    s.rangeChecks t [⟨(s.thread t).rx (pairOf ap), operandBytes d.fmt (n * k), 16, .load, [some 1]⟩] Cause.tileWindow = .ok (r, ps) →
    r.tileHeld t ps ps (d.oe || d.ssrc == 2) = false → s.slaved core = false →
    r.outliers t d (n * k) none true = .ok (r1, out) → r1.superWords t d (n * k) = .ok (r2, sup) →
    let img := ps.flatMap r2.spotBytes
    let n0 := if wide then (n + 1) / 2 else n
    ∃ u o, exec i s = .next u ∧ s.CrewDone u 0 (fun _ => []) ∧ s.InFlight u t o ps ∧ o.trays = [] ∧ o.writes = [] ∧
      o.slaves = (if wide then some (core + 1) else none) ∧
      u.plateAt t core = imagePlate d.fmt k n0 0 n img sup out wide ∧
      (wide = true → u.plateAt t (core + 1) = imagePlate d.fmt k (n - n0) n0 n img sup out true)) ∧
  (∀ (s r r1 r2 : State) (ch wide : Bool) (ap tp : BitVec 5) (sl : BitVec 3) (g : Reg) (t : Nat) (d : Slot) (ps : List Spot)
    (out : List (Nat × Word)) (sup : List Word),
    let i := if wide then Instr.tileExposew ch ap sl tp g else Instr.tileExpose ch ap sl tp g
    let th := s.thread t
    let gv := th.rv g
    let m := gv.toNat % 2 ^ 9
    let ts := gv.toNat / 2 ^ 16 % 2 ^ 10
    let core := (s.crewOf t).core
    let b := s.plateAt t core
    let b2 := if wide then s.plateAt t (core + 1) else Plate.empty
    s.Leads i t → s.tileSlot t sl roleA = .ok d → trayGeom gv = true → b.n + b2.n ≤ 32 * ts → s.holdsPlate t = true →
    (wide = true → core % 2 = 0 ∧ (s.teamOf t).cores.contains (core + 1) = true ∧ b2.k ≠ 0 ∧ b.fmt = b2.fmt ∧ b.k = b2.k) →
    b.k ≠ 0 →
    s.rangeChecks t [⟨th.rx (pairOf ap), m * b.k * fmtBits d.fmt / 8, 16, .load, [some 1]⟩, trayRange th tp gv .store]
      Cause.tileWindow = .ok (r, ps) →
    r.tileHeld t ps (ps.take 1) (d.oe || d.ssrc == 2) = false → (wide = false → s.slaved core = false) →
    r.outliers t d (m * b.k) (some 64) false = .ok (r1, out) → r1.superWords t d (m * b.k) = .ok (r2, sup) →
    let a : AOp := ⟨d.fmt, b.k, (ps.take 1).flatMap r2.spotBytes, sup, out⟩
    let rows := (List.range m).map fun row => rowPartials a b row ++ (if wide then rowPartials a b2 row else [])
    ∃ u o, exec i s = .next u ∧ s.CrewDone u 0 (fun _ => []) ∧ s.InFlight u t o ps ∧
      o.trays = trayParts ((ps.drop 1).flatMap Spot.lines) ts rows ∧ o.hold = (ps.drop 1).flatMap Spot.lines ∧ o.writes = [] ∧
      ((u.teamOf t).part core).nonfin = satInc ((r2.teamOf t).part core).nonfin ((rows.map fun x => (x.filter nonFinite).length).sum))

/-- 10 R217, R218: TCVT and TDCVT that pass their checks put the converted operand into flight for their destination; TCVT
counts the outliers it drops, appends the others to the list and writes the super-scales it has computed. 10 R216, R219: TRAYZ
puts zeros for every line of its tray into flight, TRAYFL their write-back, TRAYRD the copying of the lines to its destination; PSTAT
with no tile word of its crew in flight writes the value it selects. -/
def Obligations.Conversions : Prop :=
  (∀ (s r r1 r2 : State) (ch : Bool) (sa da : BitVec 5) (sl : BitVec 3) (g : Reg) (t : Nat) (d : Slot) (ps : List Spot)
    (out : List (Nat × Word)) (sup : List Word),
    let th := s.thread t
    let gv := th.rv g
    let cnt := gv.toNat % 2 ^ 17
    let wt := gv.toNat / 2 ^ 24 % 2 ^ 4
    s.tileSlot t sl roleCvt = .ok d → cvtGeom d.fmt gv = true →
    (s.Leads (.tileTdcvt ch sa sl da g) t →
      s.rangeChecks t [⟨th.rx (pairOf sa), operandBytes d.fmt cnt, 16, .load, tileWindows⟩,
        ⟨th.rx (pairOf da), wideBytes wt cnt, 16, .store, tileWindows⟩] Cause.tileWindow = .ok (r, ps) →
      r.tileHeld t ps (ps.take 1) (d.oe || d.ssrc == 2) = false → r.outliers t d cnt none false = .ok (r1, out) →
      r1.superWords t d cnt = .ok (r2, sup) →
      ∃ u o, exec (.tileTdcvt ch sa sl da g) s = .next u ∧ s.CrewDone u 0 (fun _ => []) ∧ s.InFlight u t o ps ∧ o.append = none ∧
        (let bs := (ps.take 1).flatMap r2.spotBytes;
          o.writes = (ps.drop 1).map fun p => ⟨p.store, p.off,
            packCodes (fmtBits wt) (tdcvt d wt cnt bs (bs.drop (cnt * fmtBits d.fmt / 8)) sup out), true, 0⟩)) ∧
    (s.Leads (.tileTcvt ch sa sl da g) t →
      s.rangeChecks t [⟨th.rx (pairOf sa), wideBytes wt cnt, 16, .load, tileWindows⟩,
        ⟨th.rx (pairOf da), operandBytes d.fmt cnt, 16, .store, tileWindows⟩] Cause.tileWindow = .ok (r, ps) →
      r.tileHeld t ps (ps.take 1) (d.ssrc == 2) = false →
      (d.oe = true → (r.kReg t d.outk).toNat % 8 = 0) →
      (d.clip ≠ 0 ∧ d.ssrc = 2 → (r.kReg t d.sk).toNat % 4 = 0 ∧ r2 = r ∧ sup = []) →
      (¬ (d.clip ≠ 0 ∧ d.ssrc = 2) → r.superWords t d cnt = .ok (r2, sup)) →
      ∃ u o, exec (.tileTcvt ch sa sl da g) s = .next u ∧ s.CrewDone u 0 (fun _ => []) ∧ s.InFlight u t o ps ∧
        (let c := tcvt d ((List.range cnt).map (wideVal wt ((ps.take 1).flatMap r2.spotBytes))) sup
            fun b => (Config.freeWord (r2.m.free + b)).toNat % 256;
          o.writes = ((ps.drop 1).map fun p => ⟨p.store, p.off, packCodes (fmtBits d.fmt) c.codes ++ c.scales, true, 0⟩) ∧
          o.append = (if d.oe then some (r.kReg t d.outk, c.outliers) else none) ∧
          o.gwrites = (if d.clip ≠ 0 ∧ d.ssrc = 2
            then c.supers.zipIdx.map fun x => (r.kReg t d.sk + BitVec.ofNat 64 (4 * x.2), leBytes 4 x.1.toNat) else []) ∧
          ((u.teamOf t).part (s.crewOf t).core).dropped = satInc ((r2.teamOf t).part (s.crewOf t).core).dropped c.dropped))) ∧
  (∀ (s r : State) (ch : Bool) (tp da : BitVec 5) (g d : Reg) (sel : PstatSel) (t : Nat) (ps : List Spot),
    let th := s.thread t
    let gv := th.rv g
    let size := gv.toNat % 2 ^ 9 * (gv.toNat / 2 ^ 16 % 2 ^ 10) * 128
    let lines := ps.flatMap Spot.lines
    (s.Leads (.tileTrayz ch tp g) t → s.traySpots t gv [trayRange th tp gv .store] = .ok (r, ps) →
      ∃ u o, exec (.tileTrayz ch tp g) s = .next u ∧ s.CrewDone u 0 (fun _ => []) ∧ s.InFlight u t o ps ∧
        o.writes = lines.map fun l => ⟨.phys, l.2, List.replicate 128 0, false, l.1⟩) ∧
    (s.Leads (.tileTrayfl ch tp g) t → s.traySpots t gv [trayRange th tp gv .store] = .ok (r, ps) →
      ∃ u o, exec (.tileTrayfl ch tp g) s = .next u ∧ s.CrewDone u 0 (fun _ => []) ∧ s.InFlight u t o ps ∧
        o.flush = lines.map fun l => (l.1, l.2 / 128)) ∧
    (s.Leads (.tileTrayrd ch tp da g) t →
      s.traySpots t gv [trayRange th tp gv .load, ⟨th.rx (pairOf da), size, 16, .store, tileWindows⟩] = .ok (r, ps) →
      ∃ u o, exec (.tileTrayrd ch tp da g) s = .next u ∧ s.CrewDone u 0 (fun _ => []) ∧ s.InFlight u t o ps ∧
        o.writes = [] ∧ ∀ p l, ps.drop 1 = p :: l → o.copyOut = some ((ps.take 1).flatMap Spot.lines, p.store, p.off)) ∧
    (s.Leads (.tilePstat ch d sel) t → s.tilesOf (s.thread t).crew = [] → (∀ q ∈ s.m.cur.lanes, (s.thread q).deferred = []) →
      ∃ u, exec (.tilePstat ch d sel) s = .next u ∧ s.Results u fun q => .ofRegs (regWrites d (s.pstat q sel))))

/-- 11 R227, R228, R230, R232: the words on one accumulator that touch no memory: QRST sets it, QCLR empties it, QCNT reads its
counts, QAPP appends a reflector to a block with room, and QSPILL of an empty block does nothing. 11 R232, R236: QSAVE puts the
accumulator's image into flight, QLOAD sets the accumulator from a valid image, and QSPILL of a block that holds reflectors
writes its record as a panel. -/
def Obligations.Accumulators : Prop :=
  (∀ (s : State) (ch : Bool) (q : BitVec 3) (a b d p : Reg) (t : Nat),
    let x := s.qaccOf t q
    let th := s.thread t
    let cfg := (th.rv a).toNat
    let n := cfg % 2 ^ 9
    q.toNat < (s.gridOf t).lr.qacc →
    (s.Leads (.qaccQrst ch q a p) t → n ≠ 0 → n ≤ 256 → cfg / 2 ^ 9 % 2 ^ 7 = 0 → cfg / 2 ^ 17 = 0 → s.lanesLive t n = true →
      ∃ u, exec (.qaccQrst ch q a p) s = .next u ∧ s.CrewDone u 0 (fun _ => []) ∧
        u.qaccOf t q = { Acc.unset with n := n, pol := cfg.testBit 16, chain := th.rx p } ∧
        ∀ q', q' ≠ q → u.qaccOf t q' = s.qaccOf t q') ∧
    (s.Leads (.qaccQclr ch q) t → s.lanesLive t x.n = true → ∃ u, exec (.qaccQclr ch q) s = .next u ∧
      s.CrewDone u 0 (fun _ => []) ∧ u.qaccOf t q = { x with k := 0, pc := 0, base := 0, v := [], t := [] } ∧
      ∀ q', q' ≠ q → u.qaccOf t q' = s.qaccOf t q') ∧
    (s.Leads (.qaccQcnt ch q d) t → s.lanesLive t x.n = true → ∃ u, exec (.qaccQcnt ch q d) s = .next u ∧
      s.CrewDone u 0 (fun _ => regWrites d (BitVec.ofNat 32 (x.n + 2 ^ 16 * x.k + 2 ^ 24 * x.pc + (if x.pol then 2 ^ 31 else 0)))) ∧
      u.teams = s.teams ∧ u.mem = s.mem) ∧
    (s.Leads (.qaccQspill ch q) t → s.lanesLive t x.n = true → x.n ≠ 0 → x.k = 0 → ∃ u, exec (.qaccQspill ch q) s = .next u ∧
      s.CrewDone u 0 (fun _ => []) ∧ u.teams = s.teams ∧ u.mem = s.mem) ∧
    (s.Leads (.qaccQapp ch q a b) t → s.lanesLive t x.n = true → x.n ≠ 0 → x.k < 32 →
      let r := x.append (s.readVec t a x.n) (th.rv b).toNat
      r.2 &&& s.trapen t = 0 → ∃ u, exec (.qaccQapp ch q a b) s = .next u ∧ s.CrewDone u r.2 (fun _ => []) ∧
        u.qaccOf t q = r.1 ∧ r.1.k = x.k + 1 ∧ ∀ q', q' ≠ q → u.qaccOf t q' = s.qaccOf t q')) ∧
  (∀ (s r r2 : State) (ch : Bool) (q : BitVec 3) (ap : BitVec 5) (t : Nat) (ps : List Spot) (p : Spot) (bs : List Byte) (a : Acc),
    let x := s.qaccOf t q
    let th := s.thread t
    let range := fun (k : Kind) => (⟨th.rx (pairOf ap), imageBytes, 16, k, panelWindows⟩ : TRange)
    q.toNat < (s.gridOf t).lr.qacc → s.lanesLive t x.n = true →
    (s.Leads (.qaccQsave ch q ap) t → x.n ≠ 0 → r.tileHeld t ps [] false = false → s.rangeChecks t [range .store] Cause.tileWindow = .ok (r, ps) →
      ∃ u o, exec (.qaccQsave ch q ap) s = .next u ∧ s.CrewDone u 0 (fun _ => []) ∧ s.InFlight u t o ps ∧
        o.writes = ps.flatMap fun p => p.writes x.image true) ∧
    (s.Leads (.qaccQload ch q ap) t → s.rangeChecks t [range .load] Cause.tileWindow = .ok (r, ps) → ps = [p] →
      r.tileHeld t ps ps false = false → r.readSpot t .cr p = (r2, .ok bs) → Acc.ofImage bs = some a →
      ∃ u o, exec (.qaccQload ch q ap) s = .next u ∧ s.CrewDone u 0 (fun _ => []) ∧ s.InFlight u t o ps ∧ u.qaccOf t q = a) ∧
    (s.Leads (.qaccQspill ch q) t → x.n ≠ 0 → x.k ≠ 0 → x.pc < 15 →
      s.rangeChecks t [x.panelRange x.pc .store] Cause.tileWindow = .ok (r, ps) → r.tileHeld t ps [] false = false →
      ∃ u o, exec (.qaccQspill ch q) s = .next u ∧ s.CrewDone u 0 (fun _ => []) ∧ s.InFlight u t o ps ∧
        o.writes = (ps.flatMap fun p => p.writes x.record false) ∧
        u.qaccOf t q = { x with pc := x.pc + 1, base := x.base + x.k, k := 0, v := [], t := [] }))

/-- 11 R229, R233, R234: QGEN writes the reflector of a column with its τ and β; the register forms of QAPL, QAPLT, QAPR and
QAPRT write the vector that Q or its transpose makes of theirs, panels included; the accumulator is as it was. -/
def Obligations.ReflectorWords : Prop :=
  ∀ (s r r2 : State) (ch : Bool) (q : BitVec 3) (d a : Reg) (t : Nat) (ps : List Spot) (pn : List Block),
    let x := s.qaccOf t q
    let vec := s.readVec t a x.n
    q.toNat < (s.gridOf t).lr.qacc → x.n ≠ 0 → s.lanesLive t x.n = true →
    (s.Leads (.qaccQgen ch q d a) t → x.base + x.k < x.n →
      let h := qgen x.n (x.base + x.k) vec
      let d1 := d + BitVec.ofNat 6 ((x.n + 31) / 32)
      h.2.2.2 &&& s.trapen t = 0 → ∃ u, exec (.qaccQgen ch q d a) s = .next u ∧ u.teams = s.teams ∧ u.mem = s.mem ∧
        s.CrewDone u h.2.2.2 fun lane =>
          vecRegs d x.n lane h.1 ++ [(d1, BitVec.ofNat 32 h.2.1), (d1 + 1, BitVec.ofNat 32 h.2.2.1)]) ∧
    (s.rangeChecks t ((List.range x.pc).map fun j => x.panelRange j .load) Cause.tileWindow = .ok (r, ps) →
      (r.eng.tiles.any fun e => ps.any e.2.willWrite) = false → r.readPanels t x.n ps = (r2, .ok pn) →
      let goes := fun (i : Instr) (tr : Bool) => s.Leads i t → (applyQ x.n tr x.block pn vec).2 &&& s.trapen t = 0 →
        ∃ u, exec i s = .next u ∧ u.teams = s.teams ∧
          s.CrewDone u (applyQ x.n tr x.block pn vec).2 fun lane => vecRegs d x.n lane (applyQ x.n tr x.block pn vec).1
      goes (.qaccQaplReg ch q d a) false ∧ goes (.qaccQapltReg ch q d a) true ∧ goes (.qaccQaprReg ch q d a) true ∧
        goes (.qaccQaprtReg ch q d a) false)

/-- 11 R235: the tile forms put the transformed tile into flight: QAPL and QAPLT transform its columns, QAPR and QAPRT its rows.
-/
def Obligations.TileForms : Prop :=
  ∀ (s r r2 : State) (ch : Bool) (q : BitVec 3) (ap : BitVec 5) (g : Reg) (t : Nat) (ps : List Spot) (pn : List Block),
    let x := s.qaccOf t q
    let th := s.thread t
    let c := (th.rv g).toNat
    q.toNat < (s.gridOf t).lr.qacc → x.n ≠ 0 → s.lanesLive t x.n = true → c ≠ 0 → c ≤ 256 →
    s.rangeChecks t (⟨th.rx (pairOf ap), 4 * x.n * c, 16, .store, [some 1]⟩ ::
      (List.range x.pc).map fun j => x.panelRange j .load) Cause.tileWindow = .ok (r, ps) →
    r.tileHeld t ps ps false = false → r.readPanels t x.n (ps.drop 1) = (r2, .ok pn) →
    let bs := (ps.take 1).flatMap r2.spotBytes
    let tile := (List.range (x.n * c)).map fun i => wordAt bs (4 * i)
    let goes := fun (i : Instr) (right tr : Bool) => s.Leads i t → (tileApply x.n c right tr x.block pn tile).2 &&& s.trapen t = 0 →
      ∃ u o, exec i s = .next u ∧ s.CrewDone u (tileApply x.n c right tr x.block pn tile).2 (fun _ => []) ∧ s.InFlight u t o ps ∧
        o.qacc = true ∧ o.writes = (ps.take 1).flatMap fun p =>
          p.writes ((tileApply x.n c right tr x.block pn tile).1.flatMap (leBytes 4)) false
    goes (.qaccQaplTile ch q ap g) false false ∧ goes (.qaccQapltTile ch q ap g) false true ∧
      goes (.qaccQaprTile ch q ap g) true true ∧ goes (.qaccQaprtTile ch q ap g) true false

/-! ## Copies and transfers -/

/-- 13 R244, R245: COPY, COPY2D and HALO that pass their checks put one copy into flight for their crew, HALO with the barrier
phase it waits for; a geometry outside the limits faults. -/
def Obligations.Copies : Prop :=
  ∀ (s : State) (ch : Bool) (d a b : Reg) (t : Nat),
    let th := s.thread t
    let src := quadPair th a false
    let dst := quadPair th a true
    let len := (th.rv b).toNat
    let g := copyGeom th b
    let flies := fun (i : Instr) (w rows ss ds : Nat) (halo : Option (Nat × Nat)) => s.copyFull t = false → s.Leads i t →
      ∃ u o, exec i s = .next u ∧ s.CrewDone u 0 (fun _ => []) ∧ u.mem = s.mem ∧ u.teams = s.teams ∧
        Table.find? u.eng.copies s.eng.nextId = some o ∧ o.core = (s.crewOf t).core ∧ o.crew = th.crew ∧
        o.key = (s.gridOf t).accessKey ∧ o.dreg = d ∧ o.src = src ∧ o.dst = dst ∧ o.width = w ∧ o.rows = rows ∧ o.sstr = ss ∧
        o.dstr = ds ∧ o.halo = halo ∧ o.accepted = false ∧ o.done = [] ∧ o.failed = none
    (len % 16 = 0 → 16 ≤ len → len ≤ 2 ^ 30 →
      s.xChecks t [⟨src, len, 16, .load, copyWindows⟩, ⟨dst, len, 16, .store, copyWindows⟩] = none →
      flies (.xferCopy ch d a b) len 1 0 0 none) ∧
    (copyGeomOk th b false = true → s.xChecks t (rowRanges src g.w g.rows g.sstr .load copyWindows ++
        rowRanges dst g.w g.rows g.dstr .store copyWindows) = none →
      flies (.xferCopy2d ch d a b) g.w g.rows g.sstr g.dstr none) ∧
    (copyGeomOk th b true = true → s.xChecks t (⟨src, 1, 16, .load, [some 2]⟩ ::
        rowRanges dst g.w g.rows g.dstr .store [some 1, some 2]) = none →
      (∀ r ∈ rowRanges src g.w g.rows g.sstr .load [some 2], s.inShare t r = true) →
      flies (.xferHalo ch d a b) g.w g.rows g.sstr g.dstr
        (some (g.bar, ((s.teamOf t).bars[g.bar % 16]'(Nat.mod_lt _ (by decide))).done))) ∧
    (∀ i, (i = .xferCopy ch d a b ∧ ¬ (len % 16 = 0 ∧ 16 ≤ len ∧ len ≤ 2 ^ 30)) ∨
        (i = .xferCopy2d ch d a b ∧ copyGeomOk th b false = false) ∨ (i = .xferHalo ch d a b ∧ copyGeomOk th b true = false) →
      s.Solo i t → th.handles → ∃ u, exec i s = .next u ∧ s.TrapFrame u t ∧ th.Trapped (u.thread t) s.m.cur Cause.copyGeometry 0)

/-- 13 R250, R253, R256: BXFER and BXMC that pass their checks put one transfer into flight, for their crew or with ONE for
their thread: to the peer of the selector, or to every member of a group of the context. RATOM puts one atomic of every lane
into flight. 13 R254, R255: ARMC sets a counter's target, and with Z its value to zero; ACWAIT of a counter that has reached its
target gives the value in every lane, and else every lane waits at the word. An address outside the counters' window faults. -/
def Obligations.Transfers : Prop :=
  (∀ (s : State) (ch : Bool) (d a b : Reg) (ap : BitVec 5) (op : AtomOp) (t : Nat),
    let th := s.thread t
    let src := quadPair th a false
    let len := (quadWord th a 3).toNat
    let sel := quadWord th b 0
    let id := s.eng.nextId
    let holds := fun (u : State) (mc : Bool) (one : Option Nat) (peers : List Nat) => ∃ o, Table.find? u.eng.xfers id = some o ∧
      o.mc = mc ∧ o.one = one ∧ o.core = (s.crewOf t).core ∧ o.crew = th.crew ∧ o.key = (s.gridOf t).key ∧ o.dreg = d ∧
      o.src = src ∧ o.off = (quadWord th a 2).toNat ∧ o.len = len ∧ o.sel = sel ∧ o.members = peers.map (fun p => ⟨p, 0, none⟩) ∧
      o.accepted = false ∧ o.sent = 0
    let crew := fun (i : Instr) (mc : Bool) (peers : List Nat) => s.Leads i t → ∃ u, exec i s = .next u ∧
      s.CrewDone u 0 (fun _ => []) ∧ u.mem = s.mem ∧ holds u mc none peers
    let lane := fun (i : Instr) (mc : Bool) (peers : List Nat) => s.Solo i t → ∃ u, exec i s = .next u ∧ s.Goes u t [] ∧
      u.mem = s.mem ∧ holds u mc (some t) peers
    s.copyFull t = false →
    (xferGeomOk th a b false = true → s.xChecks t [⟨src, len, 16, .load, copyWindows⟩] = none →
      crew (.xferBxfer ch d a b) false [sel.toNat % 1024] ∧ lane (.xferBxferOne ch d a b) false [sel.toNat % 1024]) ∧
    (xferGeomOk th a b true = true → s.xChecks t [⟨src, len, 16, .load, copyWindows⟩] = none →
      ∀ g, Table.find? s.fab.groups (sel.toNat % 256) = some g → g.key = (s.gridOf t).key →
      s.xChecks t [⟨quadPair th b true, 4 * g.members.length, 4, .store, [none, some 1]⟩] = none →
      crew (.xferBxmc ch d a b) true g.members ∧ lane (.xferBxmcOne ch d a b) true g.members) ∧
    (s.Leads (.xferRatom ch d ap op) t → (∀ q ∈ s.m.cur.lanes, ratomSelOk (s.thread q) ap = true) →
      ∃ u o, exec (.xferRatom ch d ap op) s = .next u ∧ s.CrewDone u 0 (fun _ => []) ∧ u.mem = s.mem ∧
        Table.find? u.eng.ratoms id = some o ∧ o.op = op ∧ o.dreg = d ∧ o.key = (s.gridOf t).key ∧ o.accepted = false ∧
        o.lanes.map (·.thread) = s.m.cur.lanes ∧ ∀ l ∈ o.lanes,
          let x := ((s.thread l.thread).rx (pairOf ap)).toNat
          l.lane = (s.thread l.thread).lane ∧ l.peer = x % 1024 ∧ l.map = x / 2 ^ 16 % 32 ∧ l.off = x / 2 ^ 32 ∧
            l.operand = BitVec.ofNat 64 (atomOperand (s.thread l.thread) op.is64 d) ∧ l.reply = none)) ∧
  (∀ (s : State) (ch : Bool) (d a b : Reg) (t g i : Nat),
    let th := s.thread t
    let c := s.counter g i
    let armed := fun (u : State) (v : DWord) => s.CrewDone u 0 (fun _ => []) ∧ u.mem = s.mem ∧ u.counter g i = ⟨v, th.rx b⟩ ∧
      ∀ j, j ≠ i → u.counter g j = s.counter g j
    (s.counterAt t (th.rx a) .store = .ok (g, i) → ((s.grid g).counters).isSome = true →
      (s.Leads (.xferArmc ch a b) t → ∃ u, exec (.xferArmc ch a b) s = .next u ∧ armed u c.value) ∧
      (s.Leads (.xferArmcZ ch a b) t → ∃ u, exec (.xferArmcZ ch a b) s = .next u ∧ armed u 0)) ∧
    (s.counterAt t (th.rx a) .load = .ok (g, i) → s.Leads (.xferAcwait ch d a) t → Table.find? s.eng.woken t = none →
      (c.target.toNat ≤ c.value.toNat → ∃ u, exec (.xferAcwait ch d a) s = .next u ∧
        s.CrewDone u 0 (fun _ => pairWrites d c.value)) ∧
      (c.value.toNat < c.target.toNat → (∀ q ∈ s.m.cur.lanes, (s.thread q).wait = .ready) →
        ∃ u, exec (.xferAcwait ch d a) s = .next u ∧ u.mem = s.mem ∧ u.grids = s.grids ∧
          ∀ q ∈ s.m.cur.lanes, u.thread q = (s.thread q).waitsAt (.xferAcwait ch d a) s.m.cur)) ∧
    (th.handles → let at8 := s.place t (s.crewOf t).core (th.rx a) 8 8
      let faults := fun (i : Instr) (cause : Nat) => s.Solo i t → ∃ u, exec i s = .next u ∧ s.TrapFrame u t ∧
        th.Trapped (u.thread t) s.m.cur cause (th.rx a)
      (∀ p, at8 = .ok p → windowOf (th.rx a) ≠ some 4 → faults (.xferArmc ch a b) Cause.transferWindow ∧
        faults (.xferArmcZ ch a b) Cause.transferWindow ∧ faults (.xferAcwait ch d a) Cause.transferWindow) ∧
      (∀ w : Why, at8 = .error w → faults (.xferArmc ch a b) (w.cause .store) ∧
        faults (.xferArmcZ ch a b) (w.cause .store) ∧ faults (.xferAcwait ch d a) (w.cause .load))))

/-! ## System words -/

/-- 14 R262, R263, R278, R279: SEATQ, FEATQ, CSRR, CTRRD and CTXRD give their values; a seat that the row of a register, or the
rule of a word, does not grant takes the seat-denied fault. 01 R30, 14 R264: what CSRR reads in registers of thread scope and of
the device. -/
def Obligations.SysReads : Prop :=
  (∀ (s : State) (ch : Bool) (d a b : Reg) (idx : BitVec 12) (t : Nat),
    let g := s.gridOf t
    let th := s.thread t
    let gives := fun (i : Instr) (ws : List (Reg × Word)) => ∃ u, exec i s = .next u ∧ s.Results u fun _ => .ofRegs ws
    let denied := fun (i : Instr) => th.handles → ∃ u, exec i s = .next u ∧ s.TrapFrame u t ∧
      th.Trapped (u.thread t) s.m.cur Cause.seatDenied 0
    (s.SysSolo (.sysSeatq ch d) t → ∃ w : Word, gives (.sysSeatq ch d) (regWrites d w) ∧ (g.key < 2 ^ 11 → g.aud < 4 →
      w.toNat % 4 = (match g.seat with | .operator => 0 | .owner => 1 | .auditor => 2) ∧
      w.getLsbD 2 = (g.seat != .owner) ∧ w.toNat / 8 % 4 = (if g.seat = .auditor then g.aud else 0) ∧
      w.toNat / 2 ^ 8 % 4 = s.consentOf g.key ∧ w.toNat / 2 ^ 16 = g.key)) ∧
    (s.SysSolo (.sysFeatq ch d) t → ∃ w : Nat → Word, gives (.sysFeatq ch d) (quadWrites d (w 0) (w 1) (w 2) (w 3)) ∧
      ∀ j, j < 128 → (w (j / 32)).getLsbD (j % 32) = s.ctl.neg.getLsbD j) ∧
    (s.SysSolo (.sysCsrr ch d idx) t →
      (csrGrants idx.toNat g.seat false = true → gives (.sysCsrr ch d idx)
        (if csrIs64 idx.toNat then pairWrites d (s.csrRead t idx.toNat) else regWrites d ((s.csrRead t idx.toNat).setWidth 32))) ∧
      (csrGrants idx.toNat g.seat false = false → denied (.sysCsrr ch d idx))) ∧
    (s.SysSolo (.sysCtrrd ch d a b) t → let i := (th.rv b).toNat
      (g.seat ≠ .operator → (th.rv a).toNat = g.key → (s.ctx? g.key).isSome = true →
        (0xC00 ≤ i ∧ i ≤ 0xC0A) ∨ (0xC10 ≤ i ∧ i ≤ 0xC19) → gives (.sysCtrrd ch d a b) (pairWrites d (s.csrCount g.key i))) ∧
      (g.seat = .operator ∨ (th.rv a).toNat ≠ g.key → denied (.sysCtrrd ch d a b))) ∧
    (s.SysSolo (.sysCtxrd ch d a b) t → ∀ c h f, let xa := (th.rx a).toNat; let xb := (th.rx b).toNat
      xa % 2 ^ 11 = g.key → xa / 2 ^ 11 % 2 ^ 21 = 0 → g.seat = .owner → s.ctx? g.key = some c →
      (xb / 2 ^ 60 = 0 → xb % 2 ^ 16 = 0 → gives (.sysCtxrd ch d a b) (pairWrites d (BitVec.ofNat 64 (s.ctxStatus g.key c)))) ∧
      (s.gridById g.key (xa / 2 ^ 32) = some h → s.findThread h (xb / 2 ^ 32 % 2 ^ 28) (xb / 2 ^ 16 % 2 ^ 16) = some f →
        (xb / 2 ^ 60 = 1 → xb % 2 ^ 16 ≤ 7 →
          (f.th.lastRec = none → gives (.sysCtxrd ch d a b) (pairWrites d 0)) ∧
          ∀ x, f.th.lastRec = some x → gives (.sysCtxrd ch d a b)
            (pairWrites d (BitVec.ofNat 64 (leNat (((x.bytes true).drop (8 * (xb % 2 ^ 16))).take 8))))) ∧
        (f.still = false → th.handles → 2 ≤ xb / 2 ^ 60 → xb / 2 ^ 60 ≤ 5 → ∃ u, exec (.sysCtxrd ch d a b) s = .next u ∧
          s.TrapFrame u t ∧ th.Trapped (u.thread t) s.m.cur Cause.contextBusy 0) ∧
        (f.still = true →
          (∀ r : Reg, xb / 2 ^ 60 = 2 → xb % 2 ^ 16 = r.toNat → r.toNat < (s.grid h).lr.regs → gives (.sysCtxrd ch d a b)
            (pairWrites d (BitVec.ofNat 64 ((f.th.rv r).toNat + 2 ^ 32 * (if r = 0 then Tag.u else f.tags[r.toNat]'r.isLt).code)))) ∧
          (xb / 2 ^ 60 = 3 → xb % 2 ^ 16 = 0 → gives (.sysCtxrd ch d a b)
            (pairWrites d (BitVec.ofNat 64 (f.th.p ||| 1).toNat))) ∧
          (xb / 2 ^ 60 = 4 → xb % 2 ^ 16 = 0 → gives (.sysCtxrd ch d a b) (pairWrites d f.th.pc)) ∧
          (∀ n : Fin 32, xb / 2 ^ 60 = 5 → xb % 2 ^ 16 = n.val → gives (.sysCtxrd ch d a b) (pairWrites d f.team.kLead[n])))))) ∧
  (∀ (s : State) (t : Nat), let th := s.thread t; let l := (s.gridOf t).lr
    (s.csrRead t 0x000).toNat = th.fstat.toNat ∧ (s.csrRead t 0x001).toNat = l.trapen.toNat ∧
    (th.stack.length < 2 ^ 16 → th.spill < 2 ^ 16 → (s.csrRead t 0x003).toNat = th.stack.length + 2 ^ 16 * th.spill) ∧
    (th.retired.toNat < 2 ^ 64 → (s.csrRead t 0x005).toNat = th.retired.toNat) ∧
    s.csrRead t 0x020 = th.trap.tvec ∧ s.csrRead t 0x021 = th.trap.tepc ∧ (s.csrRead t 0x022).toNat = th.trap.tcause.toNat ∧
    s.csrRead t 0x023 = th.trap.tval ∧ (s.csrRead t 0x024).getLsbD 0 = th.trap.inh ∧ (s.csrRead t 0x024).getLsbD 1 = th.trap.bps ∧
    (s.csrRead t 0x024).getLsbD 2 = th.trap.one ∧ s.csrRead t 0x026 = th.trap.tscr ∧
    (s.csrRead t 0x801).getLsbD 0 = s.fab.en ∧ (s.csrRead t 0x802).toNat = s.fab.freply.toNat ∧
    (s.csrRead t 0x888).getLsbD 0 = s.ctl.locked ∧ (s.csrRead t 0x8B8).toNat = s.ctl.pwrlim.toNat ∧
    s.csrRead t 0x880 = s.ctl.fnReady)

/-- 14 R263: CSRW of a register that its seat does not grant takes the seat-denied fault, and a value that breaks the layout the
reserved-field fault; neither writes anything. A granted register takes the value: FSTAT (01 R30), TVEC, TEPC, TSCR and TGUARD
(14 R264), FLOGBASE, FLOGSIZE and FLOGHEAD (20 R355, R356), HALTHOLD (20 R358), DBGCTL, DBGCMD and DBGSEL (25 R419, R422,
R424), CSCTL, CSBASE, CSSIZE, CSHEAD and CSASSIGN (25 R426), the RXB and RXL registers (13 R248, R249), PEERID, FABCTL and
FREPLY (22 R392), ALARMPOL (24 R414), the FEATREQ registers (26 R440), PWRCAP and PWRLIM (26 R444). A receive mapping with packets
judged against it waits. That a DBGSEL of KIND 4 to 15 with another bit set breaks the layout is log 57. -/
def Obligations.CsrWrites : Prop :=
  ∀ (s : State) (ch : Bool) (a : Reg) (idx : BitVec 12) (t : Nat), s.SysSolo (.sysCsrw ch a idx) t →
    let g := s.gridOf t
    let th := s.thread t
    let i := idx.toNat
    let v : DWord := if csrIs64 i then th.rx a else (th.rv a).setWidth 64
    let n := (i - 0x7C0) / 2
    let goes := fun (f : State → Prop) => ∃ u, exec (.sysCsrw ch a idx) s = .next u ∧ f u
    let faults := fun (cause : Nat) => th.handles → goes fun u => s.TrapFrame u t ∧ th.Trapped (u.thread t) s.m.cur cause 0
    let takes := fun (ok : Prop) (f : State → Prop) => (ok → goes fun u => s.Goes u t [] ∧ f u) ∧ (¬ok → faults Cause.reservedField)
    let holds := fun (ok : Prop) (f : Ctx → Ctx → Prop) => ∀ c, s.ctx? g.key = some c →
      takes ok fun u => ∃ c', u.ctx? g.key = some c' ∧ f c c'
    let k := v.toNat / 2 ^ 60
    (csrGrants i g.seat true = false → faults Cause.seatDenied) ∧
    (i = 0x025 → let n := v.toNat
      let ok := n = 0 ∨ n % 2 = 1 ∧ n < 2 ^ 17 ∧ 1 ≤ n / 4 % 16 ∧ n / 4 % 16 ≤ 8 ∧ n / 64 % 8 < n / 4 % 16
      (ok → goes fun u => u.thread t = { th.past s.m.cur with trap := { th.trap with
        tguard := ⟨n % 2 == 1, n / 2 % 2 == 1, n / 4 % 16, n / 64 % 8, BitVec.ofNat 8 (n / 512)⟩ } }) ∧
      (¬ok → faults Cause.reservedField)) ∧
    (i = 0x000 → v.toNat < 32 → goes fun u => u.thread t = { th.past s.m.cur with fstat := v.setWidth 5 } ∧
      ∀ q, q ≠ t → u.thread q = s.thread q) ∧
    (i = 0x000 → 32 ≤ v.toNat → faults Cause.reservedField) ∧
    (i = 0x020 → goes fun u => u.thread t = { th.past s.m.cur with trap := { th.trap with tvec := v } }) ∧
    (i = 0x021 → goes fun u => u.thread t = { th.past s.m.cur with trap := { th.trap with tepc := v } }) ∧
    (i = 0x026 → goes fun u => u.thread t = { th.past s.m.cur with trap := { th.trap with tscr := v } }) ∧
    (g.seat = .owner →
      (i = 0x410 → holds (v.toNat % 4096 = 0) fun c c' => c'.flog = { c.flog with base := v, tail := 0, head := 0 }) ∧
      (i = 0x411 → holds (∃ j, 4 ≤ j ∧ j ≤ 12 ∧ v.toNat = 2 ^ j) fun c c' =>
        c'.flog = { c.flog with size := v.setWidth 32, tail := 0, head := 0 }) ∧
      (i = 0x413 → holds True fun c c' => c'.flog = { c.flog with head := v.setWidth 32 }) ∧
      (i = 0x416 → holds True fun _ c' => c'.halthold = v.setWidth 32) ∧
      (i = 0x420 → 16 ≤ v.toNat → faults Cause.reservedField) ∧
      (i = 0x420 → v.toNat < 16 → ∀ c, s.ctx? g.key = some c → goes fun u => ∃ c', u.ctx? g.key = some c' ∧
        c'.att = v.getLsbD 0 ∧ c'.allhold = v.getLsbD 1 ∧ c'.stopreq = (v.getLsbD 0 && v.getLsbD 2)) ∧
      (i = 0x421 → 2 ^ 20 ≤ v.toNat ∨ v.getLsbD 15 = true ∨ v.toNat / 2 ^ 16 = 0 ∨ 4 ≤ v.toNat / 2 ^ 16 →
        faults Cause.reservedField) ∧
      (i = 0x421 → v.toNat / 2 ^ 16 = 3 → v.getLsbD 15 = false → goes fun u =>
        ∀ c ∈ s.ctxCrews g.key, (u.crew c).held = none) ∧
      (i = 0x421 → v.toNat / 2 ^ 16 = 1 ∨ v.toNat / 2 ^ 16 = 2 → v.getLsbD 15 = false →
        (∀ c ∈ s.ctxCrews g.key, (s.crew c).loc = v.toNat % 2 ^ 15 → (s.crew c).held = none) →
        goes fun u => s.Goes u t [] ∧ u.crews = s.crews) ∧
      (i = 0x422 → holds ((k = 0 → v.toNat / 2 ^ 57 % 8 = 0) ∧ (k = 1 → v.toNat / 2 ^ 12 % 2 ^ 48 = 0) ∧
        (k = 2 → v.toNat / 2 ^ 20 % 2 ^ 40 = 0 ∧ v.toNat / 2 ^ 15 % 2 = 0) ∧ (k = 3 → v.toNat / 2 ^ 15 % 2 ^ 45 = 0) ∧
        (4 ≤ k → v.toNat % 2 ^ 60 = 0)) fun _ c' => c'.dbgsel = v) ∧
      (i = 0x424 → let sp := v.toNat / 2 ^ 8
        holds (v.toNat / 2 ^ 5 % 8 = 0 ∧ (8 ≤ sp ∧ sp ≤ 24 ∨ sp = 0 ∧ v.toNat % 2 = 0)) fun _ c' => c'.csctl = v.setWidth 32) ∧
      (i = 0x425 → holds (v.toNat % 4096 = 0) fun c c' => c'.cslog = { c.cslog with base := v }) ∧
      (i = 0x426 → holds (∃ j, 10 ≤ j ∧ j ≤ 24 ∧ v.toNat = 2 ^ j) fun c c' => c'.cslog = { c.cslog with size := v.setWidth 32 }) ∧
      (i = 0x428 → holds True fun c c' => c'.cslog = { c.cslog with head := v.setWidth 32 })) ∧
    (g.seat = .operator →
      (i = 0x800 → takes (s.fab.en = false ∧ v.toNat / 2 ^ 10 % 2 ^ 6 = 0 ∧ v.toNat < 2 ^ 24) fun u =>
        u.fab = { s.fab with peerId := v.toNat % 2 ^ 10 }) ∧
      (i = 0x801 → v.toNat < 2 → goes fun u => u.fab.en = (v.toNat == 1)) ∧
      (i = 0x801 → 2 ≤ v.toNat → faults Cause.reservedField) ∧
      (i = 0x802 → takes (1 ≤ v.toNat ∧ v.toNat ≤ 2 ^ 20) fun u => u.fab = { s.fab with freply := v.setWidth 32 }) ∧
      (i = 0x820 → takes (v.toNat < 2 ^ 16) fun u => u.ctl = { s.ctl with alarmPol := v.setWidth 32 }) ∧
      (0x860 ≤ i → i < 0x868 → takes (v.toNat / 2 ^ 11 % 2 ^ 20 = 0) fun u =>
        (u.die (i - 0x860)).csassign = v.setWidth 32) ∧
      (i = 0x886 → s.ctl.locked = false → goes fun u => s.Goes u t [] ∧
        u.ctl = { s.ctl with featReq := (s.ctl.featReq >>> 64).setWidth 64 ++ v }) ∧
      (i = 0x887 → s.ctl.locked = false → goes fun u => s.Goes u t [] ∧
        u.ctl = { s.ctl with featReq := v ++ s.ctl.featReq.setWidth 64 }) ∧
      (0x8A0 ≤ i → i < 0x8B8 → takes (v.toNat < 2) fun u =>
        u.ctl = { s.ctl with pwrcap := Table.set s.ctl.pwrcap (i - 0x8A0) (v.setWidth 32) }) ∧
      (i = 0x8B8 → takes (600 ≤ v.toNat ∧ v.toNat ≤ 2400) fun u => u.ctl = { s.ctl with pwrlim := v.setWidth 32 })) ∧
    (0x7C0 ≤ i → i < 0x800 → g.seat = .owner → (s.ctx? g.key).isSome = true →
      rxOk (s.rxMap g.key n) (i % 2 == 1) v.toNat = true →
      (s.rxBusy g.key n = false → goes fun u => s.Goes u t [] ∧
        u.rxMap g.key n = if i % 2 = 1 then { s.rxMap g.key n with l := v, grid := some (s.teamOf t).grid }
          else { s.rxMap g.key n with b := v }) ∧
      (s.rxBusy g.key n = true → th.wait = .ready → goes fun u => (u.thread t).wait = .mapping s.eng.nextId ∧
        (u.thread t).pc = s.m.cur.pc ∧ u.rxMap g.key n = s.rxMap g.key n))

/-- 14 R272-R277, R280: the operator's words. PLACE accepts a record that passes its checks and gives the grid's identifier, and
a handle that names no image the context-absent cause (for CKPT the model's reading, log 53); PREEMPT, RESET, CKPT and SCRUB hold their late results and stop what they
name; MGSET sets and clears a group; RCPT writes the receipt and gives its length. -/
def Obligations.OperatorWords : Prop :=
  ∀ (s r r2 : State) (ch rp l : Bool) (d a b : Reg) (t : Nat),
    let th := s.thread t
    let xa := th.rx a
    let xb := th.rx b
    let va := (th.rv a).toNat
    let vb := (th.rv b).toNat
    let id := s.eng.nextId
    let cause := fun (c : Nat) => pairWrites d (BitVec.ofNat 64 (c * 2 ^ 32))
    let late := fun (u : State) (k : SysKind) => Table.find? u.eng.sys id = some ⟨k, t, d, none⟩
    let gives := fun (i : Instr) (ws : List (Reg × Word)) => ∃ u, exec i s = .next u ∧ s.Results u fun _ => .ofRegs ws
    (s.SysSolo (.sysPlace ch d a b rp) t → vb < 2 ^ 24 → s.fixerReady = true → ∀ h bs c, s.fixerReads 0 xa = (r, .ok (h, bs)) →
      r.checkRecord .place (clustersOf vb) h bs = (r2, .ok c) → ∃ u, exec (.sysPlace ch d a b rp) s = .next u ∧
        (u.thread t).pc = s.m.cur.after ∧ (u.thread t).v = (th.writeAll (pairWrites d ((BitVec.ofNat 32 r2.fixer.nextGridId).setWidth 64))).v ∧
        (u.grid r2.handle).id = BitVec.ofNat 32 r2.fixer.nextGridId ∧ (u.grid r2.handle).lr = c.lr ∧
        (u.grid r2.handle).key = c.key ∧ (u.grid r2.handle).seat = c.seat ∧ (u.grid r2.handle).replay = rp ∧
        (u.grid r2.handle).clusters = clustersOf vb ∧ u.fixer.nextGridId = r2.fixer.nextGridId + 1) ∧
    (s.SysSolo (.sysPlaceRs ch d a b rp) t → vb < 2 ^ 24 → placeHeld s true xa = false →
      (Table.find? s.fixer.images (xa.toNat % 2 ^ 32) = none → gives (.sysPlaceRs ch d a b rp) (cause Cause.contextAbsent)) ∧
      ∀ img c, Table.find? s.fixer.images (xa.toNat % 2 ^ 32) = some img → s.ctx? img.key = some c → c.quarantined = false →
        ∃ u, exec (.sysPlaceRs ch d a b rp) s = .next u ∧ Table.find? u.fixer.images (xa.toNat % 2 ^ 32) = none) ∧
    (let key := xa.toNat % 2 ^ 11; let gid := xa.toNat / 2 ^ 32
      xa.toNat / 2 ^ 11 % 2 ^ 21 = 0 →
      (s.SysSolo (.sysPreempt ch d a) t → s.ctx? key = none → gives (.sysPreempt ch d a) (cause Cause.contextAbsent)) ∧
      ∀ c, s.ctx? key = some c →
      (s.SysSolo (.sysPreempt ch d a) t → c.consent % 2 = 0 → gives (.sysPreempt ch d a) (cause Cause.consentRefused)) ∧
      (c.consent % 2 = 1 → ∀ g, s.gridById key gid = some g → (s.grid g).status = .live → (s.grid g).armed = none →
        (s.SysSolo (.sysPreempt ch d a) t → ∃ u, exec (.sysPreempt ch d a) s = .next u ∧ late u (.preempt g) ∧
          (u.grid g).status = .stopping id) ∧
        (s.SysSolo (.sysPreemptAt ch d a b) t → ∃ u, exec (.sysPreemptAt ch d a b) s = .next u ∧ late u (.preempt g) ∧
          ((s.retiredCount key).toNat < xb.toNat → s.Goes u t [] ∧
            u.grid g = { s.grid g with armed := some (xb, id), met := false }) ∧
          (xb.toNat ≤ (s.retiredCount key).toNat → (u.grid g).status = .stopping id)))) ∧
    (s.SysSolo (.sysReset ch d a) t → 0 < va → va < 2 ^ 11 →
      (∀ e ∈ s.grids, e.2.status ≠ .stopping id ∧ ∀ n, e.2.armed ≠ some (n, id)) →
      (s.ctx? va = none → gives (.sysReset ch d a) (cause Cause.contextAbsent)) ∧
      ((s.ctx? va).isSome = true → ∃ u, exec (.sysReset ch d a) s = .next u ∧ late u (.reset va) ∧
        ∀ h g, Table.find? s.grids h = some g → g.key = va → (u.grid h).status = .stopping id ∨
          ∃ m, g.status = .preempted m)) ∧
    (s.SysSolo (.sysCkpt ch d a b) t →
      (Table.find? s.fixer.images va = none → gives (.sysCkpt ch d a b) (cause Cause.contextAbsent)) ∧
      ∀ img, Table.find? s.fixer.images va = some img →
        (s.consentOf img.key < 2 → gives (.sysCkpt ch d a b) (cause Cause.consentRefused)) ∧
        (2 ≤ s.consentOf img.key → s.flashUsable vb = true → ∃ u, exec (.sysCkpt ch d a b) s = .next u ∧ s.Goes u t [] ∧
          late u (.ckpt va vb))) ∧
    (s.SysSolo (.sysCkptRs ch d a b) t → s.flashUsable vb = true → ∃ u, exec (.sysCkptRs ch d a b) s = .next u ∧ s.Goes u t [] ∧
      late u (.ckptRs va vb)) ∧
    (s.SysSolo (.sysScrub ch d a b) t → xa.toNat % 4096 = 0 → xb.toNat % 4096 = 0 → 4096 ≤ xb.toNat → xb.toNat ≤ 2 ^ 40 →
      ∃ u, exec (.sysScrub ch d a b) s = .next u ∧ s.Goes u t [] ∧ late u (.scrub xa.toNat xb.toNat) ∧ u.mem = s.mem) ∧
    (s.SysSolo (.sysMgset ch a b) t → va / 2 ^ 27 % 2 ^ 4 = 0 → va / 2 ^ 8 % 2 ^ 8 = 0 →
      (va / 2 ^ 31 = 0 → ∃ u, exec (.sysMgset ch a b) s = .next u ∧ s.Goes u t [] ∧ Table.find? u.fab.groups (va % 256) = none ∧
        ∀ n, n ≠ va % 256 → Table.find? u.fab.groups n = Table.find? s.fab.groups n) ∧
      ∀ p bs, va / 2 ^ 31 = 1 → windowOf xb = none → s.place t (s.crewOf t).core xb 128 16 = .ok p → s.sysRead t xb 8 = .ok r bs →
        ∃ u, exec (.sysMgset ch a b) s = .next u ∧ (u.thread t).pc = s.m.cur.after ∧
          Table.find? u.fab.groups (va % 256) = some ⟨va / 2 ^ 16 % 2 ^ 11, membersOf bs⟩) ∧
    (s.SysSolo (.sysRcpt ch d a b l) t → ∀ k p bs, Table.find? s.fixer.receipts vb = some k →
      (s.gridOf t).seat = .operator ∨ k.key = (s.gridOf t).key → windowOf xa = none ∨ windowOf xa = some 1 →
      let n := 256 + (if l then 8 * k.pages.length else 0)
      s.place t (s.crewOf t).core xa n 64 = .ok p → s.sysWrite t xa (chunks 8 (n / 8) (s.receiptBytes k vb l)) = .ok r bs →
        ∃ u, exec (.sysRcpt ch d a b l) s = .next u ∧ u.mem = r.mem ∧ (u.thread t).pc = s.m.cur.after ∧
          (u.thread t).v = (th.writeAll (regWrites d (BitVec.ofNat 32 n))).v)

/-- 14 R266-R271: TRAP, and BRK with no debugger attached, retire and enter the handler, which resumes at the next word; without
a handler the thread halts and its grid with it. BRK holds the crew of an attached context. TRET returns to TEPC with the guard
saved; outside a handler it faults. BPSET arms a comparator on every core of the team, and BPCLR frees it. -/
def Obligations.TrapWords : Prop :=
  ∀ (s : State) (ch : Bool) (tag : BitVec 12) (tg : BitVec 16) (n : BitVec 4) (k : BitVec 3) (a b : Reg) (t : Nat),
    let th := s.thread t
    let g := s.gridOf t
    let enters := fun (i : Instr) (cause : Nat) (val : DWord) => th.handles → ∃ u, exec i s = .next u ∧ s.TrapFrame u t ∧
      (u.thread t).pc = th.trap.tvec ∧ (u.thread t).guard = Guard.none ∧
      (u.thread t).trap = { th.trap with tepc := s.m.cur.after, tcause := BitVec.ofNat 32 cause, tval := val,
                                         tguard := th.guard.step 1, inh := true, one := false, bps := false } ∧
      (u.thread t).v = th.v ∧ (u.thread t).p = th.p ∧ (u.thread t).stack = th.stack ∧ (u.thread t).retired = th.retired + 1
    let halts := fun (i : Instr) => th.trap.tvec = 0 ∨ th.trap.inh = true → g.status = .live →
      (∀ q f, f ∈ (s.thread q).fork.recs → f.cont ≠ t) → ∃ u till, exec i s = .next u ∧ (u.thread t).halted = true ∧
        s.cycle ≤ till ∧ (u.grid (s.teamOf t).grid).status = .halted till
    (s.SysSolo (.sysTrap ch tag n) t → enters (.sysTrap ch tag n) (0x150 + n.toNat) (tag.setWidth 64) ∧
      halts (.sysTrap ch tag n)) ∧
    (s.SysSolo (.sysBrk ch tg) t → s.attached t = false → enters (.sysBrk ch tg) 0x141 (tg.setWidth 64) ∧ halts (.sysBrk ch tg)) ∧
    (s.SysSolo (.sysBrk ch tg) t → s.attached t = true → (s.crewOf t).held = none → ∃ u, exec (.sysBrk ch tg) s = .next u ∧
      (u.thread t).pc = s.m.cur.after ∧ (u.thread t).v = th.v ∧ (u.thread t).trap = th.trap ∧ (u.crewOf t).held = some .brk) ∧
    (s.SysSolo (.sysTret ch) t → th.trap.inh = true → ∃ u, exec (.sysTret ch) s = .next u ∧ s.TurnFrame u t ∧
      u.thread t = { th with pc := th.trap.tepc, guard := th.trap.tguard, trap := { th.trap with inh := false }
                             retired := th.retired + 1 }) ∧
    (s.SysSolo (.sysTret ch) t → th.handles → ∃ u, exec (.sysTret ch) s = .next u ∧ s.TrapFrame u t ∧
      th.Trapped (u.thread t) s.m.cur Cause.tretOutside 0) ∧
    (s.SysSolo (.sysBpset ch k a b) t → bpOk (th.rx a) (th.rv b) = true →
      ((th.rv b).getLsbD 11 = true → (th.rv b).toNat % 64 < g.lr.regs) →
      s.bpBusy (s.teamOf t).cores k.toNat g.key = false → ∃ u, exec (.sysBpset ch k a b) s = .next u ∧ s.Goes u t [] ∧
        (∀ c ∈ (s.teamOf t).cores, Table.find? (u.core c).comps k.toNat = some ⟨th.rx a, th.rv b, g.key⟩) ∧
        ∀ c, c ∉ (s.teamOf t).cores → u.core c = s.core c) ∧
    (s.SysSolo (.sysBpclr ch k) t → s.bpBusy (s.teamOf t).cores k.toNat g.key = false →
      ∃ u, exec (.sysBpclr ch k) s = .next u ∧ s.Goes u t [] ∧
        (∀ c ∈ (s.teamOf t).cores, Table.find? (u.core c).comps k.toNat = none) ∧
        ∀ c, c ∉ (s.teamOf t).cores → u.core c = s.core c)

/-! ## Events -/

/-- 17 R339, R340, R345, R347, 04 R115: a cycle passes; where no crew's threads stand at two crew-wide words, nothing traps, and a
precedence that XMOV.PREC set takes effect; a thread whose wait count has
reached 4,096 leads; a yield mark ends when every other thread has issued or after 64 cycles; a context that has waited 2^24
cycles is noticed. -/
def Obligations.GathererEvents : Prop :=
  ∀ (s : State) (t key : Nat),
    (s.Ends .issueCycle fun u => u.cycle = s.cycle + 1 ∧
      let of := fun c q => ((s.thread q).crew = c ∧ (s.thread q).live = true) ∨ ∃ x, (s.crew c).arrival = some x ∧ q ∈ x.2
      ((∀ c a b, of c a → of c b → s.needsCrew a = true → s.needsCrew b = true → (s.thread a).pc = (s.thread b).pc) →
        u.mem = s.mem ∧ u.eng = s.eng ∧
        ∀ q, (u.thread q).prec = (s.thread q).precNext.getD (s.thread q).prec ∧ (u.thread q).pc = (s.thread q).pc ∧
          (u.thread q).v = (s.thread q).v)) ∧
    (4096 ≤ (s.thread t).waitCnt → s.Ends (.starvation t) fun u => u.thread t = { s.thread t with starving := true } ∧
      ∀ q, q ≠ t → u.thread q = s.thread q) ∧
    ((s.thread t).waitCnt < 4096 → exec (.starvation t) s = .next s) ∧
    (∀ c others, (s.thread t).mark = some (c, others) →
      (others = [] ∨ c + 64 ≤ s.cycle → s.Ends (.yieldMarkExpire t) fun u => u.thread t = { s.thread t with mark := none } ∧
        ∀ q, q ≠ t → u.thread q = s.thread q) ∧
      (others ≠ [] → s.cycle < c + 64 → exec (.yieldMarkExpire t) s = .next s)) ∧
    (∀ c, s.ctx? key = some c →
      (c.stall < 2 ^ 24 → exec (.stallNotice key) s = .next s) ∧
      (2 ^ 24 ≤ c.stall → s.Ends (.stallNotice key) fun u => u.crews = s.crews ∧ u.teams = s.teams ∧
        ∃ c', u.ctx? key = some c' ∧ c'.stall = 0 ∧ c'.noticed = true))

/-- 10 R206-R208, R214-R216: the contributions of a word to a line merge once no earlier word of its core acts on the line, and
the line is then held; a line that cannot be brought fails the word. A word whose contributions have merged completes once no
earlier word of its core acts first: its bytes and full-empty bits are written, its locks are free, and a failed word is to be
reported by every live thread of its crew, in issue order. -/
def Obligations.TileEvents : Prop :=
  ∀ (s r : State) (id line : Nat) (o : TileOp), Table.find? s.eng.tiles id = some o →
    let key := (s.tileGrid o).accessKey
    let tag := s.tagOf key (128 * line)
    let d := dieOf o.core
    (∀ p, o.trays.find? (fun p => p.line == line) = some p →
      (s.mergeWaits id o line = true → exec (.trayMerge id line) s = .next s) ∧
      (s.mergeWaits id o line = false → s.mergeFill o.core key line = (r, false) → s.Ends (.trayMerge id line) fun u =>
        Table.find? u.eng.tiles id = some { o with trays := [], failed := lowerFail o.failed (BitVec.ofNat 64 p.va) }) ∧
      (s.mergeWaits id o line = false → s.mergeFill o.core key line = (r, true) →
        (s.Ends (.trayMerge id line) fun u =>
          Table.find? u.eng.tiles id = some { o with trays := o.trays.filter fun q => !(q == p) } ∧
            ∃ l, (u.die d).line tag line = some l ∧ l.held = true) ∧
        ∀ pa w l bs, p.partials = [(pa, w)] → pa / 128 = line → pa % 4 = 0 → (r.core o.core).line tag line = none →
          r.unitPoisoned pa = false → (r.die d).line tag line = some l → (l.bytes.getAll (pa / 32 * 32) 32).isSome = true →
          l.bytes.getAll pa 4 = some bs → s.Ends (.trayMerge id line) fun u => ∃ l', (u.die d).line tag line = some l' ∧
            l'.bytes.getAll pa 4 = some (leBytes 4 (addF32 (leNat bs) w.toNat)))) ∧
    (let ends := if o.qacc then Instr.qaccWordComplete id else .tileWordComplete id;
      (o.trays ≠ [] → exec ends s = .next s) ∧
      (exec (if o.qacc then .tileWordComplete id else .qaccWordComplete id) s = .next s) ∧
      (s.tileWaits id o = true → exec ends s = .next s) ∧
      (o.trays = [] → o.gwrites = [] → o.append = none → o.flush = [] → o.undo = none → o.copyOut = none → o.hold = [] →
        s.tileWaits id o = false → (s.crew o.crew).threads.Nodup →
        ∀ w tm c, o.writes = [w] → w.store = .scratch tm c → s.Ends ends fun u =>
          Table.find? u.eng.tiles id = none ∧ (u.core o.core).locks = (s.core o.core).locks.filter (fun l => l.op != id) ∧
          u.localRead w.store w.off w.bytes.length = w.bytes ∧
          (w.fill = true → ∀ g, w.off ≤ 16 * g → 16 * g + 16 ≤ w.off + w.bytes.length → (u.fullSet w.store).contains g = true) ∧
          (o.failed = none → ∀ q, (u.thread q).deferred = (s.thread q).deferred) ∧
          ∀ a, o.failed = some a → ∀ q ∈ s.liveOf o.crew, (u.thread q).deferred =
            insertFailure (s.thread q).deferred ⟨if o.qacc then Cause.accumulatorFailed else Cause.tileFailed, a, id⟩))

/-- 13 R246, R252, R256, R258, 22 R387-R392: an engine accepts a copy, and a RATOM once no earlier one of its threads to the same
address is unanswered; a sector is written whole, and the last one ends the copy with the word of its sectors and bytes; a reply
whose tag names the transfer, a failure or the bound ends a BXFER with its word; a packet's completion is kept, and the packet is
resent no more; a stale completion is counted and does nothing; a lane of RATOM takes its value, or traps once every lane has
replied. The bytes of a BXFER that passes the bound are those its completions tell. The VAL of 0 of a RATOM's trap is the model's
choice (log 42), and so is the cycle from which the reply bound runs (log 71). -/
def Obligations.TransferEvents : Prop :=
  ∀ (s r r2 : State) (id k t : Nat),
    (∀ o, Table.find? s.eng.copies id = some o → o.accepted = false → s.Ends (.xferCommandAccept id) fun u =>
      Table.find? u.eng.copies id = some { o with accepted := true } ∧ u.mem = s.mem ∧ u.threads = s.threads) ∧
    (∀ o p i, Table.find? s.eng.copies id = none → s.eng.xfers = [(id, o)] → o.accepted = false → o.srcFail = none → o.mc = false →
      o.members = [⟨p, i, none⟩] → s.TakeAll (s.opTakers o.crew o.one) → s.fab.en = false → s.Ends (.xferCommandAccept id) fun u =>
        u.eng.xfers = [] ∧ u.m.out = s.m.out ∧
        s.Gave u (s.opTakers o.crew o.one) (pairWrites o.dreg (negativeStatus Cause.replyTimeout 0))) ∧
    (∀ o g, Table.find? s.eng.copies id = some o → o.accepted = true → o.pending = none → o.failed = none → k < o.sectors →
      o.resume ≤ k → k ∉ o.done → k ∉ o.stalled → s.haloReady o = true → ¬ (o.started ≤ k ∧ s.copyStopped o = true) →
      s.sectorRead o (s.opThread o.crew o.one) (o.granules k) = .ok r g → r.sectorWrite o g = (r2, none) →
      ((∃ j < o.sectors, j ≠ k ∧ o.resume ≤ j ∧ j ∉ o.done) → s.Ends (.copySectorComplete id k) fun u => u.mem = r2.mem ∧
        u.threads = r2.threads ∧
        Table.find? u.eng.copies id = some { o with done := insertNat o.done k, started := max o.started (k + 1) }) ∧
      ((∀ j < o.sectors, j = k ∨ j < o.resume ∨ j ∈ o.done) → r2.TakeAll (r2.opTakers o.crew o.one) →
        s.Ends (.copySectorComplete id k) fun u => u.mem = r2.mem ∧ Table.find? u.eng.copies id = none ∧
          r2.Gave u (r2.opTakers o.crew o.one) (pairWrites o.dreg (BitVec.ofNat 64 (o.sectors * 2 ^ 42 + o.len))))) ∧
    (∀ o, Table.find? s.eng.copies id = none → Table.find? s.eng.xfers id = none → Table.find? s.eng.ratoms id = some o →
      s.ratomWaits id o = true → exec (.xferCommandAccept id) s = .next s) ∧
    (∀ o peer inc c b (tag : FabricTag), s.OneXfer id o peer inc → let ts := s.opTakers o.crew o.one
      (tag.req.xid = o.xid → tag.src = peer → tag.incs.sinc = inc → inc = s.incOf peer → tag.incs.dinc = s.ownInc →
        (s.Ends (.transferReply tag.req tag.src tag.incs true c b) fun u => u.eng.xfers = [] ∧
          s.Gave u ts (pairWrites o.dreg (BitVec.ofNat 64 (2 ^ 53 + b)))) ∧
        (s.Ends (.transferReply tag.req tag.src tag.incs false c b) fun u => u.eng.xfers = [] ∧
          s.Gave u ts (pairWrites o.dreg (negativeStatus c b))) ∧
        (∀ fl off w, ((∀ a ∈ o.acks, a.1 = peer → a.2.1 ≠ off) → s.Ends (.packetWriteCompletion tag fl off w) fun u =>
            u.eng.xfers = [(id, { o with acks := o.acks ++ [(peer, off, w)]
                                         flying := o.flying.filter fun f => !(f.1 == peer && f.2.2.off == off) })] ∧
            u.threads = s.threads) ∧
          ((∃ a ∈ o.acks, a.1 = peer ∧ a.2.1 = off) → exec (.packetWriteCompletion tag fl off w) s = .next s))) ∧
      (tag.incs.dinc ≠ s.ownInc ∨ tag.incs.sinc ≠ s.incOf tag.src →
        (∀ p, s.Ends (.transferReply tag.req tag.src tag.incs p c b) fun u => u.eng = s.eng ∧ u.threads = s.threads ∧
          u.fab = { s.fab with stale := s.fab.stale + 1 }) ∧
        (∀ fl off w, s.Ends (.packetWriteCompletion tag fl off w) fun u => u.eng = s.eng ∧ u.threads = s.threads ∧
          u.fab = { s.fab with stale := s.fab.stale + 1 })) ∧
      (o.started + s.fab.freply.toNat * 1024 ≤ s.cycle → s.Ends (.replyBoundExpire o.xid peer) fun u => u.eng.xfers = [] ∧
        s.Gave u ts (pairWrites o.dreg (negativeStatus Cause.replyTimeout (o.ackedBy peer)))) ∧
      (s.cycle < o.started + s.fab.freply.toNat * 1024 → exec (.replyBoundExpire o.xid peer) s = .next s)) ∧
    (∀ o l (tag : FabricTag), Table.find? s.eng.ratoms id = some o → o.accepted = true → o.lanes = [l] → l.thread = t → l.reply = none →
      (∀ e ∈ s.eng.ratoms, e ≠ (id, o) → ∀ m ∈ e.2.lanes, m.xid ≠ l.xid) → s.TakeAll [t] →
      tag.req.xid = l.xid → tag.src = l.peer → tag.incs.sinc = l.inc → l.inc = s.incOf l.peer → tag.incs.dinc = s.ownInc →
      (∀ c v, s.Ends (.ratomReply tag true c v) fun u => Table.find? u.eng.ratoms id = none ∧
        s.Gave u [t] (if o.op.is64 then pairWrites o.dreg v else regWrites o.dreg (v.setWidth 32))) ∧
      (∀ c v, 0 < c → c < 2 ^ 9 → (s.thread t).halted = false → (s.thread t).handles →
        s.Ends (.ratomReply tag false c v) fun u => Table.find? u.eng.ratoms id = none ∧
          (u.thread t).pc = (s.thread t).trap.tvec ∧ (u.thread t).v = (s.thread t).v ∧
          (u.thread t).trap.tepc = o.after ∧ (u.thread t).trap.tcause = BitVec.ofNat 32 c ∧ (u.thread t).trap.tval = 0))

/-- 13 R251, R252, R256, 22 R384-R389: a hub drops what reaches it while the fabric is off, counts a request to another
incarnation as stale and one of another kind or of more than 256 bytes as dropped, and discards a repeated packet; a packet is
written and answered, or refused; a remote atomic gives the old value; an announcement of a new incarnation, or the loss of the
last station, ends what is outstanding, and a packet that a station carried as it goes down is resent on the next one; the first
enabling of the fabric after a reset takes the next incarnation; a station that is not ready stays down. That a completion carries the
domain and the mapping of its request is the model's choice (log 15), and so is that a good flit clears a station's count of failed
ones (log 41). -/
def Obligations.FabricEvents : Prop :=
  ∀ (s r r2 r3 : State) (p : FabricPacket) (a : FabricAtomic) (k pa st : Nat),
    let m := s.rxMap k p.map
    let ma := s.rxMap k a.map
    let n := if a.op.is64 then 8 else 4
    let va := ma.base + a.off
    (s.fab.en = false → exec (.transferPacketArrival p) s = .next s ∧ exec (.remoteAtomicArrival a) s = .next s ∧
      ∀ x y, exec (.incarnationAnnouncement x y) s = .next s) ∧
    (s.fab.en = true → 1 < p.kind ∨ 256 < p.data.length → s.Ends (.transferPacketArrival p) fun u => u.mem = s.mem ∧
      u.eng = s.eng ∧ u.m = s.m ∧ u.fab = { s.fab with dropped := s.fab.dropped + 1 }) ∧
    (s.fab.en = true → p.kind ≤ 1 → p.data.length ≤ 256 → p.dinc ≠ s.ownInc → s.Ends (.transferPacketArrival p) fun u =>
      u.mem = s.mem ∧ u.eng = s.eng ∧ u.m = s.m ∧ u.fab = { s.fab with stale := s.fab.stale + 1 }) ∧
    (s.fab.en = true → p.kind ≤ 1 → p.data.length ≤ 256 → p.dinc = s.ownInc → p.sinc = s.incOf p.src →
      s.fab.peerv.contains p.src = true → s.isRepeat p = true → exec (.transferPacketArrival p) s = .next s) ∧
    (s.fab.en = true → p.kind = 0 → p.data.length ≤ 256 → p.dinc = s.ownInc → p.sinc = s.incOf p.src →
      s.fab.peerv.contains p.src = true → s.keyOfDomain p.dom = some k → s.isRepeat p = false →
      (∀ e ∈ s.eng.recvs, e.isOf p.src p.sinc p.xid = true → e.ended = true) → p.npkts = 1 → p.hasFlag = false →
      p.src ≠ s.fab.peerId →
      let ack := s.backTag 0 p.src p.dom p.map p.xid
      (m.v = true → m.wr = true → p.base + p.off + p.data.length ≤ m.bytes → m.ce = false →
        s.agentPut k (m.base + p.base + p.off) p.data = .done r → s.Ends (.transferPacketArrival p) fun u => u.mem = r.mem ∧
          u.m.out = s.m.out ++ [.written p.src ack p.off true, .reply p.src (s.backTag 3 p.src p.dom p.map p.xid) 0 p.data.length]) ∧
      (m.v = true → m.wr = true → p.base + p.off + p.data.length ≤ m.bytes → m.ce = false →
        s.agentPut k (m.base + p.base + p.off) p.data = .held → s.Ends (.transferPacketArrival p) fun u => u.mem = s.mem ∧
          u.m.out = s.m.out ∧ ∃ h ∈ u.eng.heldPkts, h.pkt = p ∧ h.key = k) ∧
      let nak := s.backTag 4 p.src p.dom p.map p.xid
      (m.v = false ∨ m.wr = false → s.Ends (.transferPacketArrival p) fun u => u.mem = s.mem ∧
        u.m.out = s.m.out ++ [.written p.src ack p.off false, .reply p.src nak Cause.mappingDenied 0]) ∧
      (m.v = true → m.wr = true → m.bytes < p.base + p.off + p.data.length → s.Ends (.transferPacketArrival p) fun u =>
        u.mem = s.mem ∧
        u.m.out = s.m.out ++ [.written p.src ack p.off false, .reply p.src nak Cause.mappingBound 0])) ∧
    (s.fab.en = true → a.dinc = s.ownInc → a.sinc = s.incOf a.src → s.fab.peerv.contains a.src = true →
      s.keyOfDomain a.dom = some k → a.src ≠ s.fab.peerId →
      (ma.v = true → ma.at' = true → a.off + n ≤ ma.bytes → va % n = 0 → s.deviceTranslate k va .atomic = (r, .ok pa) →
        r.engineHeld pa n = false → ∀ bs, (r.dropEverywhere (pa / 128)).agentRead k pa n = (r2, .ok bs) →
        r2.agentWrite k pa (leBytes n (atomResult a.op (leNat bs) (a.operand.toNat % 2 ^ (8 * n)))) = (r3, none) →
        s.Ends (.remoteAtomicArrival a) fun u => u.mem = r3.mem ∧
          u.m.out = s.m.out ++ [.atomReply a.src (s.backTag 3 a.src a.dom a.map a.xid) 0 (BitVec.ofNat 64 (leNat bs))]) ∧
      (ma.v = false ∨ ma.at' = false → s.Ends (.remoteAtomicArrival a) fun u => u.mem = s.mem ∧
        u.m.out = s.m.out ++ [.atomReply a.src (s.backTag 4 a.src a.dom a.map a.xid) Cause.mappingDenied 0])) ∧
    (∀ id o x y, s.fab.en = true → s.fab.peerv.contains x = true → x ≠ s.fab.peerId → s.OneXfer id o x (s.incOf x) →
      y % 256 ≠ s.incOf x → s.Ends (.incarnationAnnouncement x y) fun u => u.incOf x = y % 256 ∧ u.eng.xfers = [] ∧
        s.Gave u (s.opTakers o.crew o.one) (pairWrites o.dreg (negativeStatus Cause.peerReset 0))) ∧
    (s.fab.up.contains st = true →
      (s.Ends (.ualinkFlitReceive st true true) fun u => Table.find? u.fab.fails st = none ∧ u.fab.dropped = s.fab.dropped ∧
        u.fab.up = s.fab.up) ∧
      (s.Ends (.ualinkFlitReceive st true false) fun u => u.fab.dropped = s.fab.dropped + 1 ∧ u.fab.up = s.fab.up) ∧
      ∀ b, let c := Table.getD s.fab.fails st 0
        (c < 2 → s.Ends (.ualinkFlitReceive st false b) fun u => Table.find? u.fab.fails st = some (c + 1) ∧
          u.fab.up = s.fab.up ∧ u.threads = s.threads) ∧
        (2 ≤ c → (∃ x ∈ s.fab.up, x ≠ st) → s.Ends (.ualinkFlitReceive st false b) fun u => st ∉ u.fab.up ∧
          u.fab.downs = s.fab.downs + 1 ∧ u.ctl.alarmCnt = satInc s.ctl.alarmCnt 1 ∧
          ∀ t, (s.thread t).Alike (u.thread t))) ∧
    (s.fab.up.contains st = false → ∀ b c, exec (.ualinkFlitReceive st b c) s = .next s) ∧
    (st < 48 → (6 ≤ s.trust.stage → s.fnReady (16 + st / 4) = true → s.Ends (.stationUpOrDown st true) fun u =>
        u.threads = s.threads ∧ ∀ x, x ∈ u.fab.up ↔ x = st ∨ x ∈ s.fab.up) ∧
      (s.trust.stage < 6 ∨ s.fnReady (16 + st / 4) = false → exec (.stationUpOrDown st true) s = .next s) ∧
      ((∃ x ∈ s.fab.up, x ≠ st) → s.Ends (.stationUpOrDown st false) fun u => u.threads = s.threads ∧
        ∀ x, x ∈ u.fab.up ↔ x ≠ st ∧ x ∈ s.fab.up) ∧
      (∀ id o x pk y, st ∈ s.fab.up → s.eng.xfers = [(id, o)] → o.flying = [(x, st, pk)] →
        (s.modFab fun f => { f with up := f.up.filter (· != st) }).stationFor (o.xid + pk.off / 256) = some y →
        s.Ends (.stationUpOrDown st false) fun u => u.threads = s.threads ∧ u.m.out = s.m.out ++ [.packet x y (packetTag pk) pk]) ∧
      ∀ id o x i, st ∈ s.fab.up → (∀ y ∈ s.fab.up, y = st) → x ≠ s.fab.peerId → s.OneXfer id o x i →
        s.Ends (.stationUpOrDown st false) fun u => u.fab.up = [] ∧ u.eng.xfers = [] ∧
        s.Gave u (s.opTakers o.crew o.one) (pairWrites o.dreg (negativeStatus Cause.replyTimeout (o.ackedBy x)))) ∧
    (s.HostOpen → s.fab.en = true → exec .fabricEnable s = .next s) ∧
    (s.HostOpen → s.fab.en = false → s.Ends .fabricEnable fun u => u.fab.en = true ∧ u.mem = s.mem ∧
      u.trust.inc = (if s.fab.joined = true then s.trust.inc else (s.trust.inc + 1) % 256) ∧
      ∀ x ∈ s.fab.peerv, x ≠ s.fab.peerId → Out.announce x (fabricTag 5 u.trust.inc (s.incOf x) s.fab.peerId 0 0 0) ∈ u.m.out) ∧
    (s.HostOpen → ∀ i (v : Word), let w := v &&& 0x8000FFFF
      let dup := w.getLsbD 31 = true ∧ ∃ e ∈ s.fab.domains, e.1 ≠ i ∧ e.2.getLsbD 31 = true ∧ e.2.toNat % 2 ^ 16 = w.toNat % 2 ^ 16
      (2048 ≤ i ∨ dup → exec (.domainTableWrite i v) s = .next s) ∧
      (i < 2048 → ¬ dup → s.Ends (.domainTableWrite i v) fun u => Table.find? u.fab.domains i = some w ∧
        ∀ j, j ≠ i → Table.find? u.fab.domains j = Table.find? s.fab.domains j))

/-- 17 R322-R324, 15 R300, 22 R398: a doorbell reads what waits in a ring, and waits behind the host accesses that are held; an entry that breaks its layout or its order completes as
failed and stops the ring; NOP completes as it starts, FENCE when every earlier command has, GRID starts the grid of its record
or fails with the cause; the oldest command's record is written once it has its result. -/
def Obligations.QueueEvents : Prop :=
  ∀ (s r r2 : State) (q : Nat) (tail : Word), q < 4095 →
    let x := s.queue q
    let y := { x with tail := tail }
    let a := x.base.toNat + 64 * (x.head.toNat % x.size.toNat)
    (6 ≤ s.trust.stage → s.fab.held ≠ [] → s.Ends (.queueDoorbell q tail) fun u => u.fab.held = s.fab.held ++ [.queueDoorbell q tail] ∧
      u.queues = s.queues ∧ u.mem = s.mem) ∧
    (6 ≤ s.trust.stage → s.fab.held = [] → x.en = false → s.Ends (.queueDoorbell q tail) fun u => u.queue q = y ∧ u.mem = s.mem) ∧
    (∀ b, 6 ≤ s.trust.stage → s.fab.held = [] → (s.setQueue q y).ringReadable q = true → y.waiting = 1 → x.qseq.toNat < 2 ^ 48 →
      (s.setQueue q y).deviceRead 0 a 2 64 = (r, .ok b) →
      (cmdBad b x.qseq.toNat = false → s.Ends (.queueDoorbell q tail) fun u => u.queue q =
        { y with head := x.head + 1, stopped := false, cmds := x.cmds ++ [cmdOf b false]
                 qseq := BitVec.ofNat 64 ((x.qseq.toNat + 1) % 2 ^ 48) }) ∧
      (cmdBad b x.qseq.toNat = true → s.Ends (.queueDoorbell q tail) fun u => (u.queue q).stopped = true ∧
        (u.queue q).head = x.head + 1 ∧ (u.queue q).cmds = x.cmds ++ [cmdOf b true])) ∧
    (s.HostOpen → x.stopped = false → exec (.queueRestart q) s = .next s) ∧
    (s.HostOpen → x.stopped = true → x.en = false → s.Ends (.queueRestart q) fun u => u.queue q = { x with stopped := false } ∧ u.mem = s.mem) ∧
    (∀ c pre post, s.nextCmd q = some c → x.cmds = pre ++ c :: post → (∀ e ∈ pre, e.started = true) → c.started = false →
      (c.kind = 0 → s.Ends (.commandNop q) fun u => (u.queue q).cmds =
        pre ++ { c with started := true, result := some (0, false, 0) } :: post) ∧
      (c.kind ≠ 0 → exec (.commandNop q) s = .next s) ∧
      (c.kind = 2 → c.result = none → post = [] → (∀ e ∈ pre, e.result.isSome = true) → s.Ends (.commandFence q) fun u =>
        (u.queue q).cmds = pre ++ [{ c with started := true, result := some (0, false, 0) }]) ∧
      (c.kind = 2 → post = [] → (∀ e ∈ pre, e.kind ≠ 2) → (∃ e ∈ pre, e.result = none) → s.Ends (.commandFence q) fun u =>
        (u.queue q).cmds = pre ++ [{ c with started := true }]) ∧
      (c.kind = 1 → ∀ h b, s.fixerReads x.key c.record = (r, .ok (h, b)) → let cl := clustersOf (c.clust &&& x.clust.toNat)
        (∀ i, r.checkRecord (.queue x.key) cl h b = (r2, .ok i) → s.Ends (.commandGrid q) fun u =>
          (∃ e ∈ (u.queue q).cmds, e.seq = c.seq ∧ e.started = true ∧ e.grid = some r2.handle) ∧
          u.fixer.nextGridId = r2.fixer.nextGridId + 1 ∧
          (let g := u.grid r2.handle;
            g.id = BitVec.ofNat 32 r2.fixer.nextGridId ∧ g.key = i.key ∧ g.seat = i.seat ∧ g.lr = i.lr ∧ g.nest = 1 ∧
            g.parent = none ∧ g.queue = q ∧ g.seq = c.seq ∧ g.clusters = cl ∧ g.status = .live)) ∧
        (∀ e, r.checkRecord (.queue x.key) cl h b = (r2, .error e) → s.Ends (.commandGrid q) fun u => u.grids = r2.grids ∧
          ∃ d ∈ (u.queue q).cmds, d.seq = c.seq ∧ d.started = true ∧ d.result = some (e, false, 0)))) ∧
    (x.cmds = [] → exec (.completionRecordWrite q) s = .next s) ∧
    (∀ c l, x.cmds = c :: l → (c.result = none → exec (.completionRecordWrite q) s = .next s) ∧
      ∀ cause halt id, c.result = some (cause, halt, id) →
        (c.done = 0 → s.Ends (.completionRecordWrite q) fun u => (u.queue q).cmds = l ∧ u.mem = s.mem) ∧
        (c.done ≠ 0 → canonical c.done = true → (∀ h < 16, (s.hart h).mode = 0) →
          ((s.setQueue q { x with cmds := l }).releaseAll).deviceWrite x.key c.done.toNat (doneBytes c.seq cause halt id) = (r, none) →
          s.Ends (.completionRecordWrite q) fun u => (u.queue q).cmds = l ∧ u.mem = r.mem))

/-- 17 R329-R334: the fixer places the team that is next, resident with the grid's k registers and its threads at the entry; a
team whose threads have exited is released, a grid whose teams have gone retires and its command has its result; a team that
waits for its children may be parked. -/
def Obligations.PlacementEvents : Prop :=
  ∀ (s : State) (grid team cl : Nat) (cores : List Nat),
    let g := s.grid grid
    (∀ w, s.nextWork g.key = some w →
      (w.grid = grid → w.index = team → w.saved = none → (s.clustersFor w).contains cl = true →
        (s.coresFor w cl).contains cores = true → s.Ends (.teamPlacement grid team cl cores) fun u =>
          let t := u.team s.handle
          t.grid = grid ∧ t.index = team ∧ t.status = .resident ∧ t.cluster = cl ∧ t.cores = cores ∧ t.kLead = g.lr.k ∧
          t.kView = g.lr.k ∧ t.crews.length = g.lr.crews ∧ (u.grid grid).nextTeam = team + 1 ∧
          (∀ c ∈ t.crews, (u.crew c).team = s.handle ∧ (u.crew c).resident = true) ∧
          ∀ c ∈ t.crews, ∀ q ∈ (u.crew c).threads, (u.thread q).live = true ∧ (u.thread q).crew = c ∧
            (u.thread q).pc = g.lr.codebase + g.lr.entry) ∧
      (w.grid ≠ grid ∨ w.index ≠ team → exec (.teamPlacement grid team cl cores) s = .next s)) ∧
    (s.teamEnded team = true → s.Ends (.teamRelease team) fun u => Table.find? u.teams team = none ∧
      (∀ e ∈ u.crews, e.2.team ≠ team) ∧ u.grids = s.grids) ∧
    (s.teamEnded team = false → exec (.teamRelease team) s = .next s) ∧
    (s.gridEnded grid = true → g.armed = none → s.Ends (.gridRetire grid) fun u => Table.find? u.grids grid = none ∧
      (∀ h, h ≠ grid → Table.find? u.grids h = Table.find? s.grids h) ∧
      ∀ q c, (s.queue q).cmds = [c] → c.grid = some grid → c.result = none →
        (u.queue q).cmds = [{ c with result := some (0, g.haltSeen, g.id) }]) ∧
    (s.gridEnded grid = false → exec (.gridRetire grid) s = .next s) ∧
    (s.canPark team = true → s.teamQuiet team = true → s.copiesSettled team = true → (∀ t ∈ s.teamLive team, (s.thread t).deferred = []) →
      s.Ends (.teamPark team) fun u => (u.team team).status = .parked ∧ (∀ c ∈ (s.team team).crews, (u.crew c).resident = false) ∧
        u.grids = s.grids) ∧
    (s.canPark team = false ∨ s.teamQuiet team = false ∨ s.copiesSettled team = false → exec (.teamPark team) s = .next s)

/-- 14 R273-R276, 20 R358, 21 R378, 24 R413: a grid stops at its target; its image is sealed and its teams leave the cores; a
halted grid goes when its hold is over; RESET ends with the context gone and a receipt, SCRUB with a receipt of its counts, a
checkpoint with its version or its cause. The length that a RESET's receipt gives, its clean units times 64 bytes, is the model's choice
(log 62). An image and a checkpoint each take a fresh nonce, and a checkpoint under another image
key is not restored (24 R405). -/
def Obligations.StopEvents : Prop :=
  ∀ (s r : State) (grid id t : Nat) (d : Reg),
    let g := s.grid grid
    (∀ target op, g.armed = some (target, op) → g.status = .live →
      (target.toNat ≤ (s.retiredCount g.key).toNat → s.Ends (.preemptTargetReached grid) fun u =>
        (u.grid grid).status = .stopping op ∧ (u.grid grid).armed = none ∧ u.teams = s.teams) ∧
      ((s.retiredCount g.key).toNat < target.toNat → exec (.preemptTargetReached grid) s = .next s)) ∧
    (∀ op o, g.status = .stopping op → Table.find? s.eng.sys op = some o → o.kind = .preempt grid →
      s.gridsQuiet (s.stopped op) = true → s.Ends (.imageSealed grid) fun u =>
        (u.grid grid).status = .preempted s.fixer.nextHandle ∧ Table.find? u.eng.sys op = none ∧
        (∃ i, Table.find? u.fixer.images s.fixer.nextHandle = some i ∧ i.key = g.key ∧ i.ctxid = s.ctxidOf g.key ∧
          i.sealed = s.sealOf g.key ∧ i.nonce = (s.drawNonce g.key).1) ∧
        ∀ e ∈ u.teams, e.2.grid ≠ grid) ∧
    (g.status = .live → exec (.imageSealed grid) s = .next s) ∧
    (s.holdOver grid = true → s.Ends (.haltHoldExpire grid) fun u => Table.find? u.grids grid = none) ∧
    (s.holdOver grid = false → exec (.haltHoldExpire grid) s = .next s) ∧
    (∀ key, Table.find? s.eng.sys id = some ⟨.reset key, t, d, none⟩ →
      let quiet := s.gridsQuiet (s.grids.keysWhere fun _ g => g.key == key)
      (quiet = false → exec (.resetScrubComplete id) s = .next s) ∧
      (quiet = true → (s.ctx? key).isSome = true → s.Ends (.resetScrubComplete id) fun u => u.ctx? key = none ∧
        Table.find? u.eng.sys id = none ∧
        ∃ k, Table.find? u.fixer.receipts s.fixer.nextHandle = some k ∧ k.kind = 1 ∧ k.key = key ∧
          k.length = k.clean * 64)) ∧
    (∀ base len, Table.find? s.eng.sys id = some ⟨.scrub base len, t, d, none⟩ → r.TakeAll [t] →
      (∀ c, s.scrubPages ⟨0, 0, 0, 0, []⟩ (len / 4096) base = (r, .ok c) → s.Ends (.scrubComplete id) fun u => u.mem = r.mem ∧
        Table.find? u.fixer.receipts r.fixer.nextHandle = some ⟨0, 0, BitVec.ofNat 64 base, BitVec.ofNat 64 len,
          BitVec.ofNat 64 c.clean, BitVec.ofNat 64 c.corr, BitVec.ofNat 64 c.uncorr, BitVec.ofNat 64 c.skipped, c.pages⟩ ∧
        r.Gave u [t] (pairWrites d (BitVec.ofNat 64 r.fixer.nextHandle))) ∧
      (∀ e, s.scrubPages ⟨0, 0, 0, 0, []⟩ (len / 4096) base = (r, .error e) → s.Ends (.scrubComplete id) fun u => u.mem = r.mem ∧
        r.Gave u [t] (pairWrites d (BitVec.ofNat 64 (e * 2 ^ 32))))) ∧
    (∀ h ns i, s.eng.sys = [(id, ⟨.ckpt h ns, t, d, none⟩)] → Table.find? s.fixer.images h = some i → s.TakeAll [t] →
      let v := (Table.getD s.trust.versions ns 0 + 1) % 2 ^ 32
      (s.Ends (.ckptComplete id true) fun u => Table.find? u.trust.versions ns = some v ∧
        Table.find? u.trust.nvme ns = some ⟨v, i, (s.drawNonce i.key).1⟩ ∧ s.Gave u [t] (pairWrites d (BitVec.ofNat 64 v))) ∧
      (s.Ends (.ckptComplete id false) fun u => u.trust = s.trust ∧
        s.Gave u [t] (pairWrites d (BitVec.ofNat 64 (Cause.flashFailure * 2 ^ 32))))) ∧
    (∀ v ns c, s.eng.sys = [(id, ⟨.ckptRs v ns, t, d, none⟩)] → Table.find? s.trust.nvme ns = some c → s.TakeAll [t] →
      (c.version ≠ v → s.Ends (.ckptComplete id true) fun u => u.fixer = s.fixer ∧
        s.Gave u [t] (pairWrites d (BitVec.ofNat 64 (Cause.checkpointVersion * 2 ^ 32)))) ∧
      (∀ key x, c.version = v → v = Table.getD s.trust.versions ns 0 → s.ctxs = [(key, x)] → x.ctxid = c.image.ctxid →
        x.quarantined = false → c.image.sealed.sameImageKey x.sealed = false → s.Ends (.ckptComplete id true) fun u =>
          u.fixer = s.fixer ∧ s.Gave u [t] (pairWrites d (BitVec.ofNat 64 (Cause.imageSeal * 2 ^ 32)))) ∧
      (∀ key x, c.version = v → v = Table.getD s.trust.versions ns 0 → s.ctxs = [(key, x)] → x.ctxid = c.image.ctxid →
        x.quarantined = false → c.image.sealed.sameImageKey x.sealed = true → 2 ≤ x.consent % 4 → s.Ends (.ckptComplete id true) fun u =>
          (∃ i, Table.find? u.fixer.images s.fixer.nextHandle = some i ∧ i.key = key ∧ i.ctxid = c.image.ctxid) ∧
          s.Gave u [t] (pairWrites d (BitVec.ofNat 64 s.fixer.nextHandle))))

/-- 20 R356, R371-R375, 22 R396, R398, 26 R443, 13 R249: the answer of a page-fault record lets its thread go on or makes its fault
final, and a fault that has waited too long is final; a lost record is posted again; a shootdown leaves no translation it names, writes
its word and raises its interrupt; a write through BAR0 does what the register does, nothing in reset, and waits behind an earlier
write that is held; a log whose base or size is written is empty. -/
def Obligations.PagingEvents : Prop :=
  ∀ (s r : State) (id t : Nat) (v : DWord), id < 2 ^ 32 →
    let late := fun (n : Nat) => n + s.xl.pfbound.toNat * 1024 < s.cycle
    let bar := fun (i : Instr) => (s.trust.stage < 6 → exec i s = .next s) ∧
      (6 ≤ s.trust.stage → (∃ j ∈ s.fab.held, heldWrite j = true) → s.Ends i fun u =>
        u = s.modFab fun f => { f with held := f.held ++ [i] })
    (bar (.pageFaultResponse v) ∧ bar (.shootdownRequest t) ∧ bar (.queueDoorbell t (v.setWidth 32)) ∧ bar (.queueRestart t) ∧
      bar .fabricEnable ∧ bar (.domainTableWrite t (v.setWidth 32)) ∧ bar (.featureLock (v.setWidth 32)) ∧
      bar (.csassignWrite t (v.setWidth 32)) ∧ ∀ x w, bar (.registerWrite x w v)) ∧
    (s.HostOpen → Table.find? s.xl.pages (v.toNat % 2 ^ 32) = none → exec (.pageFaultResponse v) s = .next s) ∧
    (∀ p th cause a after one w, Table.find? s.xl.pages id = some p → s.threads = [(t, th)] →
      th.wait = .page id cause a none after one w → s.eng.copies = [] → s.eng.xfers = [] → s.eng.heldPkts = [] →
      (∀ x ∈ s.eng.recvs, x.wait = none) →
      let final := fun (i : Instr) => cause < 2 ^ 9 → th.handles → s.Ends i fun u =>
        (u.thread t).pc = th.trap.tvec ∧ (u.thread t).v = th.v ∧ (u.thread t).trap.tepc = th.pc ∧
        (u.thread t).trap.tcause = BitVec.ofNat 32 cause ∧ (u.thread t).trap.tval = a ∧ Table.find? u.xl.pages id = none
      (s.HostOpen → (s.endPage id).rewalk p (.thread t) (s.crewOf t).core cause a = (r, none) →
        s.Ends (.pageFaultResponse (BitVec.ofNat 64 id)) fun u => u.thread t = { th with wait := .ready } ∧
          Table.find? u.xl.pages id = none) ∧
      (s.HostOpen → final (.pageFaultResponse (BitVec.ofNat 64 (id + 2 ^ 32)))) ∧
      (late p.started → late (p.startOf (.thread t)) → final (.pageFaultBoundExpire id))) ∧
    (Table.find? s.xl.pages id = none → exec (.pageFaultBoundExpire id) s = .next s) ∧
    (∀ p, Table.find? s.xl.pages id = some p →
      (¬ late p.started → (∀ x, ¬ late (p.startOf x)) → s.eng.heldPkts = [] → (∀ x ∈ s.eng.recvs, x.wait = none) →
        exec (.pageFaultBoundExpire id) s = .next s) ∧
      (p.posted = false → p.lostAt + 1024 ≤ s.cycle → s.xl.pfr.room = true → s.hostBlocked (s.xl.pfr.slot 32) = false →
        s.Ends (.pageFaultRepost id) fun u => Table.find? u.xl.pages id = some { p with posted := true } ∧
          u.xl.pfr.tail = s.xl.pfr.tail + 1 ∧ u.physBytes (s.xl.pfr.slot 32) 32 = p.bytes id) ∧
      (p.posted = true ∨ s.cycle < p.lostAt + 1024 → exec (.pageFaultRepost id) s = .next s)) ∧
    (s.HostOpen → exec (.shootdownRequest 0) s = .next s) ∧
    (let l := s.xl.sdr;
      let a := l.base.toNat + 64 * (l.head.toNat % l.size.toNat);
      let b := s.physBytes a 64;
      s.HostOpen → s.xl.shoot = none → l.base ≠ 0 → l.size ≠ 0 → l.tail ≠ l.head → s.hostBlocked a = false → s.Ends (.shootdownRequest 1) fun u =>
        u.xl.shoot = some (a, shootBad b, s.eng.nextId) ∧ u.mem = s.mem ∧
        (shootBad b = false → (∀ c, ∀ e ∈ (u.core c).tlb, shootNames b (e.root % 2 ^ 44) e.va (2 ^ e.bits) = false) ∧
          ∀ d, ∀ e ∈ (u.die d).tlb, shootNames b (e.root % 2 ^ 44) e.va (2 ^ e.bits) = false)) ∧
    (s.xl.shoot = none → exec .shootdownFinish s = .next s) ∧
    (∀ a bad born, s.xl.shoot = some (a, bad, born) → s.shootReady born = true → s.hostBlocked a = false →
      s.xl.sdr.tail = s.xl.sdr.head + 1 → let b := s.releaseAll.physBytes a 64
      s.Ends .shootdownFinish fun u => u.xl.shoot = none ∧ u.xl.sdr.head = s.xl.sdr.head + 1 ∧
        u.physBytes (a + 44) 4 = leBytes 4 (if bad then 3 else 1) ∧
        (cmdField b 32 8 ≠ 0 → Out.msi (cmdField b 32 8) (cmdField b 40 4) ∈ u.m.out)) ∧
    (s.HostOpen → exec (.registerWrite 0x10060 8 v) s = exec (.pageFaultResponse v) s ∧
      exec (.registerWrite 0x20000 4 v) s = exec (.shootdownRequest (v.toNat % 2 ^ 32)) s ∧
      (∀ k < 2048, exec (.registerWrite (0x30000 + 4 * k) 4 v) s = exec (.domainTableWrite k (v.setWidth 32)) s) ∧
      (∀ q < 4095, exec (.registerWrite (0x40000 + 64 * q + 0x10) 4 v) s = exec (.queueDoorbell q (v.setWidth 32)) s) ∧
      (s.Ends (.registerWrite 0x10068 4 v) fun u => u.xl.pfbound = v.setWidth 32) ∧
      ∀ k < 2048, s.Ends (.registerWrite (0x11000 + 8 * k) 8 v) fun u =>
        (u.root k).toNat = v.toNat / 2 ^ 60 * 2 ^ 60 + v.toNat % 2 ^ 44) ∧
    (∀ key c, s.ctx? key = some c → v.toNat % 4096 = 0 → s.Ends (.faultLogReset key false v) fun u => u.mem = s.mem ∧
      ∃ c', u.ctx? key = some c' ∧ c'.flog = { c.flog with base := v, tail := 0, head := 0 }) ∧
    (∀ w, Table.find? s.eng.rx id = some w → (s.ctx? w.key).isSome = true →
      (s.rxBusy w.key w.n = true → exec (.receiveMappingWrite id) s = .next s) ∧
      (s.rxBusy w.key w.n = false → (s.thread w.thread).wait = .mapping id → (s.thread w.thread).wait2 = none →
        s.Ends (.receiveMappingWrite id) fun u => Table.find? u.eng.rx id = none ∧ (u.thread w.thread).wait = .ready ∧
          (u.thread w.thread).pc = w.after ∧
          u.rxMap w.key w.n = if w.isLen then { s.rxMap w.key w.n with l := w.value, grid := some w.grid }
            else { s.rxMap w.key w.n with b := w.value }))

/-- 22 R393, R394, R399, 26 R438, 15 R300: host accesses read and write device memory under the key of their stream, and return poisoned
data where a read fails; an access whose home is not ready is held; a host's store to its own memory takes effect there; a port that is
ready goes up, with the base of the device-memory window that its host's decoder has (the model's choice, log 15), or down; a frame is
dropped without an association or at a port that is not ready, counted where its tag fails, and else delivered. Which ports are those of
which hub is the model's choice (log 86). -/
def Obligations.HostEvents : Prop :=
  ∀ (s r : State) (port stream addr hart : Nat) (data : List Byte),
    let key := s.streamKey port stream
    (∀ w, sliceBase ≤ addr → exec (.hostMemAccess port stream addr w data) s = .next s) ∧
    (addr < sliceBase → s.devOff addr = none → exec (.hostMemAccess port stream addr false data) s = .next s ∧
      s.Ends (.hostMemAccess port stream addr true data) fun u => u.mem = (s.setPhys addr data).mem ∧ u.m = s.m) ∧
    (∀ w, (s.devOff addr).isSome = true → s.fab.ports.contains port = false →
      exec (.hostMemAccess port stream addr w data) s = .next s) ∧
    (addr < sliceBase → (s.devOff addr).isSome = true → s.fab.ports.contains port = true → stream ≤ 15 →
      (s.homeReady addr = true →
        (∀ b, s.agentRead key (addr / 64 * 64) 64 = (r, .ok b) → s.Ends (.hostMemAccess port stream addr false data) fun u =>
          u.mem = r.mem ∧ u.m.out = s.m.out ++ [.hostData port (some b)]) ∧
        (∀ w, s.agentRead key (addr / 64 * 64) 64 = (r, .error w) → s.Ends (.hostMemAccess port stream addr false data) fun u =>
          u.mem = r.mem ∧ u.m.out = s.m.out ++ [.hostData port none]) ∧
        (data ≠ [] → addr % 64 + data.length ≤ 64 → s.Ends (.hostMemAccess port stream addr true data) fun u =>
          u.mem = (s.agentWrite key addr data).1.mem ∧ u.m.out = s.m.out)) ∧
      (∀ w, s.homeReady addr = false → s.Ends (.hostMemAccess port stream addr w data) fun u => u.mem = s.mem ∧ u.m = s.m ∧
        u.fab.held = s.fab.held ++ [.hostMemAccess port stream addr w data])) ∧
    (port ≤ 1 → (∀ base, (6 ≤ s.trust.stage → s.fnReady (30 + port) = true → s.Ends (.hostPortUpOrDown port (some base)) fun u =>
          u.fab.dmwin = base ∧ ∀ x, x ∈ u.fab.ports ↔ x = port ∨ x ∈ s.fab.ports) ∧
        (s.trust.stage < 6 ∨ s.fnReady (30 + port) = false → exec (.hostPortUpOrDown port (some base)) s = .next s)) ∧
      s.Ends (.hostPortUpOrDown port none) fun u => u.fab.dmwin = s.fab.dmwin ∧
        ∀ x, x ∈ u.fab.ports ↔ x ≠ port ∧ x ∈ s.fab.ports) ∧
    (port < 32 → 6 ≤ s.trust.stage → s.Ends (.secureAssociationInstall port) fun u => ∀ x, x ∈ u.fab.secure ↔ x = port ∨ x ∈ s.fab.secure) ∧
    (∀ a b, port ∉ s.fab.secure ∨ s.fnReady (28 + port / 16) = false →
      exec (.ethernetFrameReceive port hart a b data addr) s = .next s) ∧
    (port ∈ s.fab.secure → s.fnReady (28 + port / 16) = true → data.length ≤ 9216 →
      (∀ a b, a = false ∨ b = false → s.Ends (.ethernetFrameReceive port hart a b data addr) fun u =>
        u.fab = { s.fab with ethDrop := s.fab.ethDrop + 1 } ∧ u.m = s.m) ∧
      (hart < 16 → (s.hart hart).released = true → (s.hart hart).mode = 0 → hartBlock addr = false →
        s.Ends (.ethernetFrameReceive port hart true true data addr) fun u => u.m.out = s.m.out ++ [.deliver hart 0 (hartStamp hart) data] ∧
          u.fab = s.fab ∧ 0 ∈ (u.hart hart).pending)) ∧
    (hart < 16 → (s.hart hart).released = true → ∀ q,
      ((s.hart hart).mode = 0 → hartBlock addr = false → s.Ends (.nvmeCompletion hart q data addr) fun u =>
        u.m.out = s.m.out ++ [.deliver hart 1 (hartStamp hart) data] ∧ 0 ∈ (u.hart hart).pending) ∧
      ((s.hart hart).mode = 2 → s.Ends (.nvmeCompletion hart q data addr) fun u => u.m = s.m ∧
        u.hart hart = { s.hart hart with dropped := (s.hart hart).dropped + 1 }))

/-- 22 R401, 25 R418, R433-R436, 24 R416, 26 R440: a hart that has been released, in M-mode, takes a seat that its context admits, and
sets up its log; recording and replay start, and end; a timer read gives the live value, or in replay the value logged; a replayed entry
is delivered at its count, and every delivery carries the stamp of its hart. A hart that is not released, or not in M-mode, writes none of
its registers. That a write of `hrec` clears END, and that a base or a size that breaks its rule is ignored, is the model's choice
(log 46), and so is that an interrupt identity other than that of the shootdown ring reaches every hart (log 85). -/
def Obligations.HartEvents : Prop :=
  ∀ (s r : State) (hart : Nat) (v : DWord), hart < 16 → let h := s.hart hart
    (h.released = false ∨ h.prv ≠ 3 → exec (.hseatWrite hart v) s = .next s ∧ exec (.hrecWrite hart v) s = .next s ∧
      ∀ w, exec (.hrlheadWrite hart w) s = .next s) ∧
    (s.HostOpen → h.released = true → h.mode = 0 → 1 < v.toNat % 2 ^ 32 → s.Ends (.shootdownRequest (v.toNat % 2 ^ 32)) fun u =>
      (v.toNat % 2 ^ 32) ∈ (u.hart hart).pending) ∧
    (h.released = true → h.prv = 3 → s.seatAllowed hart (v.toNat % 2 ^ 15) = true → s.Ends (.hseatWrite hart v) fun u => u.hart hart =
      { h with hseat := BitVec.ofNat 64 (v.toNat % 2 ^ 15) } ∧ ∀ q, q ≠ hart → u.hart q = s.hart q) ∧
    (s.seatAllowed hart (v.toNat % 2 ^ 15) = false → exec (.hseatWrite hart v) s = .next s) ∧
    (v.toNat % 4 = 3 → exec (.hrecWrite hart v) s = .next s) ∧
    (h.released = true → h.prv = 3 → v.toNat % 4 ≠ 3 → h.backlog = [] → s.Ends (.hrecWrite hart v) fun u => u.hart hart =
      { h with mode := v.toNat % 4, ended := false }) ∧
    (h.released = true → h.prv = 3 → h.backlog = [] →
      let sets := fun (r : HartLogReg) (h' : Hart) => s.Ends (.hrlheadWrite hart ⟨r, v⟩) fun u => u.hart hart = h' ∧ u.mem = s.mem
      let size := ∃ j, 16 ≤ j ∧ j ≤ 32 ∧ v.toNat = 2 ^ j
      sets .tail { h with tail := v } ∧ sets .head { h with head := v } ∧
        (v.toNat % 4096 = 0 → sets .base { h with base := v }) ∧ (v.toNat % 4096 ≠ 0 → sets .base h) ∧
        (size → sets .size { h with size := v }) ∧ (¬ size → sets .size h)) ∧
    (h.released = false → exec (.timeOrCycleRead hart v) s = .next s) ∧
    (h.released = true → h.mode = 0 → s.Ends (.timeOrCycleRead hart v) fun u => (u.hart hart).timer = v ∧
      u.m.out = s.m.out ++ [.hartValue hart (hartStamp hart) v]) ∧
    (h.released = true → h.mode = 2 → ∀ b p, s.nextEntry hart = (r, some (b, p)) → cmdField b 0 1 = 3 →
      s.Ends (.timeOrCycleRead hart v) fun u => (u.hart hart).timer = BitVec.ofNat 64 (cmdField b 16 8) ∧
        (u.hart hart).minstret = BitVec.ofNat 64 (cmdField b 8 8) ∧
        (u.hart hart).head = h.head + BitVec.ofNat 64 (entryBytes (cmdField b 2 2))) ∧
    (h.released = false ∨ h.mode ≠ 2 → exec (.replayEventDelivery hart) s = .next s) ∧
    (h.released = true → h.mode = 2 → s.nextEntry hart = (r, none) → h.logUsed < 32 → s.Ends (.replayEventDelivery hart) fun u =>
      (u.hart hart).mode = 0 ∧ (u.hart hart).ended = true) ∧
    (h.released = true → h.mode = 2 → ∀ b p, s.nextEntry hart = (r, some (b, p)) → cmdField b 0 1 ≤ 2 → hartBlock (cmdField b 24 8) = false →
      s.Ends (.replayEventDelivery hart) fun u =>
      u.m.out = s.m.out ++ [.deliver hart (cmdField b 0 1) (hartStamp hart) p] ∧ (u.hart hart).minstret = BitVec.ofNat 64 (cmdField b 8 8) ∧
      (cmdField b 16 8) ∈ (u.hart hart).pending)

/-- 24 R407, R408, 26 R438-R444, 16 R319: a device reset with images that verify extends MR0 to MR5 and reaches step 6, and
stops at the first image that does not, whose header is not 128 bytes or whose length, digest or signature is not the header's
(the layout of the header is the model's choice, log 74); a hart in M-mode extends a register through the mailbox; the lock of the features happens once, keeps what is offered and its dependences, and
releases the service cores. -/
def Obligations.BootEvents : Prop :=
  ∀ (s : State) (b : BootImages) (n : Nat) (v : Word) (dig : BitVec 256),
    (s.trust.railsOk = false → exec (.deviceReset b) s = .next s) ∧
    (s.trust.railsOk = true → s.Ends (.deviceReset b) fun u =>
      let chain := bootChain b
      u.trust.boots = s.trust.boots + 1 ∧ u.ctl.locked = false ∧ u.grids = [] ∧ u.mem.host = s.mem.host ∧
      u.trust.versions = s.trust.versions ∧
      ((∀ x ∈ chain, x.2 = true) → u.trust.stage = 6 ∧ u.trust.failed = none ∧ u.trust.platform = platformRequest b ∧
        ∀ i < 6, u.mr i = Config.sha256 (digestBytes 0 ++ (chain.getD i ([], false)).1)) ∧
      ∀ i < 6, (∀ j < i, (chain.getD j ([], false)).2 = true) → (chain.getD i ([], true)).2 = false →
        u.trust.failed = some (i + 1) ∧ u.trust.stage = i ∧ u.mr i = 0) ∧
    ((bootChain b).getD 0 ([], true) = (b.romDigest, b.fusesOk) ∧
      ∀ j < 5, let x := bootStage b (j + 2)
        ((bootChain b).getD (j + 1) ([], true)).1 = stageDigest x ∧
        (x.header.length ≠ 128 ∨ x.image.length ≠ stageLength x ∨ digestBytes (Config.sha256 x.image) ≠ stageDigest x ∨
            Config.ecdsaVerify (if j = 2 ∨ j = 3 then platformKey b else Config.spemusKey) (x.header.take 64)
              (x.header.drop 64) = false →
          ((bootChain b).getD (j + 1) ([], true)).2 = false)) ∧
    (s.Ends .railsStable fun u => u = { s with trust := { s.trust with railsOk := true } }) ∧
    (∀ c, s.trust.boots = 0 ∨ s.trust.failed.isSome = true → exec (.functionReady c n) s = .next s) ∧
    (s.trust.boots ≠ 0 → s.trust.failed = none →
      (n < 192 → (s.core n).ready = false → s.Ends (.functionReady true n) fun u => (u.core n).ready = true ∧
        (u.core n).start = s.cycle ∧ ∀ c, c ≠ n → u.core c = s.core c) ∧
      (n < 36 → s.Ends (.functionReady false n) fun u => ∀ i < 64, u.ctl.fnReady.getLsbD i = (s.ctl.fnReady.getLsbD i || i == n))) ∧
    (let locks := fun (i : Instr) (req : BitVec 128) => s.ctl.locked = false → s.trust.stage = 6 → s.trust.fogged = false → s.Ends i fun u =>
        u.ctl.locked = true ∧ u.trust.stage = 7 ∧ (∀ h < 16, (u.hart h).released = true) ∧ u.ctl.neg.getLsbD 0 = true ∧
        (∀ j, u.ctl.neg.getLsbD j = true → j < 9 ∧ (j = 0 ∨ req.getLsbD j = true)) ∧
        (u.ctl.neg.getLsbD 4 = (req.getLsbD 4 && req.getLsbD 3)) ∧ (u.ctl.neg.getLsbD 7 = (req.getLsbD 7 && req.getLsbD 6)) ∧
        (∀ j, j ∈ [1, 2, 3, 5, 6, 8] → u.ctl.neg.getLsbD j = req.getLsbD j);
      (s.HostOpen → locks (.featureLock 1) s.ctl.featReq) ∧
      (s.trust.stage6 + 2 ^ 30 ≤ s.cycle → locks .featureLockTimeout s.trust.platform)) ∧
    (s.HostOpen → v ≠ 1 ∨ s.ctl.locked = true ∨ s.trust.fogged = true → exec (.featureLock v) s = .next s) ∧
    (s.ctl.locked = true ∨ s.trust.fogged = true ∨ s.cycle < s.trust.stage6 + 2 ^ 30 → exec .featureLockTimeout s = .next s) ∧
    (s.mailboxOpen = false ∨ s.trust.mbbusy = true → exec (.mailboxExtend dig v) s = .next s) ∧
    (s.mailboxOpen = true → s.trust.mbbusy = false → v.getLsbD 31 = true → let i := v.toNat % 16
      (7 ≤ i → v.toNat / 2 ^ 4 % 2 ^ 4 = 1 → v.toNat / 2 ^ 8 % 2 ^ 23 = 0 → s.Ends (.mailboxExtend dig v) fun u =>
        u.trust.mberr = false ∧ u.trust.mbbusy = false ∧ u.mr i = Config.sha256 (digestBytes (s.mr i) ++ digestBytes dig) ∧ ∀ j, j ≠ i → u.mr j = s.mr j) ∧
      (i < 7 → s.Ends (.mailboxExtend dig v) fun u => u.trust.mberr = true ∧ u.trust.mr = s.trust.mr)) ∧
    (let x := s.patrolUnit n (Table.getD s.mem.patrol n 0);
      let e := Table.getD s.mem.symErr x 0;
      let room := Table.getD s.mem.retCount n 0 < 8192;
      (s.fnReady n = false → exec (.patrolScrubStep n) s = .next s) ∧
      (n < 8 → s.fnReady n = true →
        (s.Ends (.patrolScrubStep n) fun u => Table.getD u.mem.patrol n 0 = x + 1) ∧
        (x ∈ s.mem.poison → room → s.Ends (.patrolScrubStep n) fun u => x / 64 ∈ u.mem.retired) ∧
        (x ∉ s.mem.poison → e = 0 → s.Ends (.patrolScrubStep n) fun u => u.mem = { s.mem with
          symErr := Table.erase s.mem.symErr x, patrol := Table.set s.mem.patrol n (x + 1) }) ∧
        (x ∉ s.mem.poison → 1 ≤ e → e ≤ 3 → s.Ends (.patrolScrubStep n) fun u => Table.getD u.mem.symErr x 0 = 0 ∧
          u.mem.poison = s.mem.poison ∧ Table.getD u.mem.ctr (4 * n) 0 = Table.getD s.mem.ctr (4 * n) 0 + 1) ∧
        (x ∉ s.mem.poison → 4 ≤ e → e ≤ 5 → room → s.Ends (.patrolScrubStep n) fun u => x ∈ u.mem.poison ∧
          x / 64 ∈ u.mem.retired ∧ Table.getD u.mem.ctr (4 * n + 1) 0 = Table.getD s.mem.ctr (4 * n + 1) 0 + 1))) ∧
    (s.Ends .powerLimitExceeded fun u => ∀ c, u.clusterCap c = true) ∧
    (n < 8 → s.Ends (.dieOvertemp n) fun u => ∀ c, c / 3 = n → u.clusterCap c = true) ∧
    (s.Ends (.forcedCapLift none) fun u => u.ctl = { s.ctl with overLim := false }) ∧
    (s.Ends (.forcedCapLift (some n)) fun u => ∀ d, d ∈ u.ctl.hot ↔ d ≠ n ∧ d ∈ s.ctl.hot)

/-- 24 R407, R409, R410: the SPDM messages in their order on a port; a message out of order receives an ERROR and changes
nothing; measurements give the registers, or after a failed boot the failed step; a session opens, finishes, changes its keys
and ends. The codes and the bodies of the messages, their order, what an ERROR answers, what a device tells after a failed boot, and the
port of the ERROR of a message that names no open session are the model's, from DSP0274 (log 15, PRESUMED). -/
def Obligations.SpdmEvents : Prop :=
  ∀ (s : State) (port : Nat) (nonce key : List Byte) (sess : Nat),
    let told := fun (u : State) (code : Nat) (body : List Byte) => u.m.out = s.m.out ++ [.spdm port code body]
    let wrong := fun (i : Instr) => s.Ends i fun u => told u 0x7F [] ∧ u.trust = s.trust ∧ u.ctxs = s.ctxs
    (s.trust.boots = 0 → exec (.getVersion port) s = .next s) ∧
    (s.trust.boots ≠ 0 → s.trust.failed = none → 6 ≤ s.trust.stage → port ≤ 2 → let st := s.spdmStage port
      (s.Ends (.getVersion port) fun u => u.spdmStage port = 1 ∧ told u 0x04 (leBytes 2 0x1300)) ∧
      (st = 0 → wrong (.getCapabilities port)) ∧
      (1 ≤ st → s.Ends (.getCapabilities port) fun u => u.spdmStage port = 2 ∧ told u 0x61 capabilities) ∧
      (st < 2 → wrong (.negotiateAlgorithms port true)) ∧ wrong (.negotiateAlgorithms port false) ∧
      (2 ≤ st → s.Ends (.negotiateAlgorithms port true) fun u => u.spdmStage port = 3 ∧ told u 0x63 algorithms) ∧
      (st < 3 → wrong (.getDigests port) ∧ wrong (.getCertificate port 0) ∧ wrong (.challenge port nonce) ∧
        wrong (.getMeasurements port 1) ∧ wrong (.keyExchange port key)) ∧
      (3 ≤ st →
        (s.Ends (.getDigests port) fun u => told u 0x01 (digestBytes (Config.sha256 s.chain)) ∧ u.trust = s.trust) ∧
        (s.Ends (.getCertificate port 0) fun u => told u 0x02 s.chain ∧ u.trust = s.trust) ∧
        (∀ slot, slot ≠ 0 → wrong (.getCertificate port slot)) ∧
        (s.Ends (.challenge port nonce) fun u => let body := digestBytes (Config.sha256 s.chain) ++ nonce
          told u 0x03 (body ++ Config.ecdsaSign s.trust.aliasKey.1 body) ∧ u.trust = s.trust) ∧
        (∀ i, 1 ≤ i → i ≤ 16 → s.trust.fogged = false → s.Ends (.getMeasurements port i) fun u => let body := digestBytes (s.mr (i - 1))
          told u 0x60 (body ++ Config.ecdsaSign s.trust.aliasKey.1 body) ∧ u.trust = s.trust) ∧
        (s.Ends (.keyExchange port key) fun u => u.trust.nextSess = s.trust.nextSess + 1 ∧
          ∃ x, Table.find? u.trust.sessions s.trust.nextSess = some x ∧ x.port = port ∧ x.reqKey = key ∧ x.finished = false ∧
            x.mutualAuth = false))) ∧
    (∀ step, s.trust.boots ≠ 0 → s.trust.failed = some step → (s.Ends (.getMeasurements 2 1) fun u =>
        u.m.out = s.m.out ++ [.spdm 2 0x60 [BitVec.ofNat 8 step]]) ∧
      exec (.getDigests port) s = .next s ∧ exec (.keyExchange port key) s = .next s) ∧
    (∀ x, Table.find? s.trust.sessions sess = some x →
      (x.finished = false → ∀ b, s.Ends (.finish sess b) fun u => u.m.out = s.m.out ++ [.spdm x.port 0x65 []] ∧
        Table.find? u.trust.sessions sess = some { x with finished := true, mutualAuth := b }) ∧
      (x.finished = true → s.Ends (.keyUpdate sess) fun u => u.m.out = s.m.out ++ [.spdm x.port 0x68 []] ∧
        Table.find? u.trust.sessions sess = some { x with epoch := x.epoch + 1 }) ∧
      (s.Ends (.endSession sess) fun u => u.m.out = s.m.out ++ [.spdm x.port 0x6C []] ∧
        Table.find? u.trust.sessions sess = none)) ∧
    (Table.find? s.trust.sessions sess = none → ∀ b,
      (6 ≤ s.trust.stage → let lost := fun (i : Instr) => s.Ends i fun u => u.m.out = s.m.out ++ [.spdm 2 0x7F []] ∧
          u.trust = s.trust ∧ u.ctxs = s.ctxs
        lost (.finish sess b) ∧ lost (.keyUpdate sess) ∧ lost (.endSession sess)) ∧
      (s.trust.stage < 6 → exec (.finish sess b) s = .next s ∧ exec (.keyUpdate sess) s = .next s ∧
        exec (.endSession sess) s = .next s))

/-- 24 R406, R410, R411, R414, R416, 22 R395: the vendor requests in a session with mutual authentication, and their ERROR
elsewhere; a stream is keyed and bound to a context; an alarm of level 3 fogs the device: nothing runs, every key is erased,
every slot is free. The codes 0x7E and 0x7F are the model's, from DSP0274 (log 15, PRESUMED); that a count report carries its signature
after the value is log 49, and that a fog ends what is in flight, and does nothing before boot step 6, is log 48. -/
def Obligations.VendorEvents : Prop :=
  ∀ (s : State) (sess key port stream index consent harts : Nat) (cs h body : List Byte) (auds : List (List Byte)) (x : Session),
    Table.find? s.trust.sessions sess = some x →
    let told := fun (u : State) (b : List Byte) => u.m.out = s.m.out ++ [.spdm x.port 0x7E b]
    let wrong := fun (i : Instr) => s.Ends i fun u => u.m.out = s.m.out ++ [.spdm x.port 0x7F []] ∧ u.ctxs = s.ctxs ∧
      u.trust = s.trust ∧ u.fab = s.fab
    let open_ := x.finished = true ∧ x.mutualAuth = true
    (¬ open_ → wrong (.createContext sess cs consent harts auds) ∧ wrong (.contextInfo sess key) ∧
      wrong (.countReport sess key index) ∧ wrong (.sealRecord sess key h body) ∧ wrong (.bindStream sess key port stream)) ∧
    (open_ →
      (cs.length = 32 → consent < 4 → harts < 2 ^ 16 → auds.length = 4 → (∀ a ∈ auds, a.length = 32) →
        ∀ k, 1 ≤ k → k < 2048 → s.ctx? k = none → (∀ j, 1 ≤ j → j < k → (s.ctx? j).isSome = true) →
        s.Ends (.createContext sess cs consent harts auds) fun u =>
          let c := Ctx.create (.owner k (digestOf cs)) consent harts (auds.map digestOf) x.keyHash
            (Config.hkdf (digestOf cs) "ublen-id")
          u.ctx? k = some c ∧ told u (leBytes 2 k ++ digestBytes c.ctxid) ∧ ∀ j, j ≠ k → u.ctx? j = s.ctx? j) ∧
      (∀ c, s.ctx? key = some c → key ≠ 0 →
        (c.ownedBy x = true → s.Ends (.contextInfo sess key) fun u => told u (c.record key) ∧ u.ctxs = s.ctxs) ∧
        (c.ownedBy x = false → wrong (.contextInfo sess key)) ∧
        (counterDefined index = true → c.ownedBy x = true ∨ (c.auditor x).isSome = true →
          s.Ends (.countReport sess key index) fun u => let b := leBytes 8 (s.csrCount key index).toNat
            told u (b ++ Config.ecdsaSign s.trust.aliasKey.1 b) ∧ u.ctxs = s.ctxs) ∧
        (h.length = headerSize → body.length = plainSize → ctxKey h = key → sealSeat c x h = true →
          headerBad h sealedSize true = false → s.Ends (.sealRecord sess key h body) fun u =>
            (∃ c', u.ctx? key = some c' ∧ c' = { c with recNonce := c.recNonce + 1 }) ∧
            let n := c.recNonce % 2 ^ 95 + 2 ^ 95
            let h2 := h.take 64 ++ leBytes 12 n ++ h.drop 76
            let e := Config.gcmSeal (recKey c.sealed) (BitVec.ofNat 96 n) h2 body
            told u (h2 ++ e.1 ++ e.2)) ∧
        (∀ st, Table.find? s.fab.streams (16 * port + stream) = some st → c.ownedBy x = true → port ≤ 1 → 1 ≤ stream →
          stream ≤ 15 → st.session = sess → st.bound = none → s.Ends (.bindStream sess key port stream) fun u =>
            Table.find? u.fab.streams (16 * port + stream) = some ⟨sess, some key⟩ ∧ told u (leBytes 2 key ++ leBytes 1 stream)))) ∧
    (x.finished = true → port ≤ 1 → stream ≤ 15 → s.Ends (.ideKeySetup sess port stream) fun u =>
      Table.find? u.fab.streams (16 * port + stream) = some ⟨sess, none⟩) ∧
    (let fogs := fun (i : Instr) => 6 ≤ s.trust.stage → s.trust.fogged = false → s.Ends i fun u => u.trust.fogged = true ∧
        u.threads = [] ∧ u.grids = [] ∧ u.ctxs = [] ∧ u.eng = Engines.reset ∧ (∀ n, (u.hart n).released = false) ∧
        ∀ k, u.keyBlocked k = some .fogged;
      fogs .glitchDetect ∧ fogs .tamperDetect ∧ fogs .ucieTagFailure)

/-- 25 R419-R428: a command releases the held crew that its LOC names, for one bundle or for good, and another LOC does nothing;
detaching releases every crew; CSASSIGN gives a die's sheet to a context and discards what another context's holds; a record
leaves for the ring, or is counted lost. -/
def Obligations.DebugEvents : Prop :=
  ∀ (s r : State) (key loc die : Nat) (v : Word),
    (let found := (s.ctxCrews key).find? fun c => (s.crew c).loc == loc && (s.crew c).held.isSome;
      (found = none → exec (.debugResume key loc) s = .next s ∧ exec (.debugStep key loc) s = .next s) ∧
      ∀ c, found = some c →
        (s.Ends (.debugResume key loc) fun u => u.crew c = { s.crew c with held := none, stepping := false } ∧
          ∀ q, q ≠ c → u.crew q = s.crew q) ∧
        (s.Ends (.debugStep key loc) fun u => u.crew c = { s.crew c with held := none, stepping := true } ∧
          ∀ q, q ≠ c → u.crew q = s.crew q)) ∧
    (s.Ends (.debugResumeAll key) fun u => ∀ c ∈ s.ctxCrews key, (u.crew c).held = none) ∧
    (∀ c, s.ctx? key = some c →
      (s.Ends (.debugDetach key) fun u => u.ctx? key = some { c with att := false, stopreq := false } ∧
        ∀ q ∈ s.ctxCrews key, (u.crew q).held = none ∧ (u.crew q).stepping = false) ∧
      (c.att = true → s.Ends (.debugStopRequest key) fun u => u.ctx? key = some { c with stopreq := true } ∧ u.crews = s.crews)) ∧
    (s.HostOpen → die < 8 → v.toNat / 2 ^ 11 % 2 ^ 20 = 0 →
      ((s.die die).csassign = v → exec (.csassignWrite die v) s = .next s) ∧
      ((s.die die).csassign ≠ v → s.Ends (.csassignWrite die v) fun u => (u.die die).csassign = v ∧ (u.die die).sheet = [] ∧
        ∀ k c, (s.die die).assign = some k → s.ctx? k = some c → ∃ c', u.ctx? k = some c' ∧
          c'.cslog = { c.cslog with lost := satInc c.cslog.lost (s.die die).sheet.length })) ∧
    (s.HostOpen → 8 ≤ die ∨ v.toNat / 2 ^ 11 % 2 ^ 20 ≠ 0 → exec (.csassignWrite die v) s = .next s) ∧
    (∀ core, dieOf core ≠ die → exec (.contactSheetSample die core) s = .next s) ∧
    (∀ core c slot queue seq, dieOf core = die → (s.die die).assign = some key → s.ctx? key = some c → c.csctl.getLsbD 0 = true →
      (s.die die).sheet.length < 2 ^ 17 →
      let part := ((s.die die).rotor + 5) % 6
      let p := Table.getD (s.core core).parts part Partition.reset
      p.stamp = (key, slot, queue, seq) →
      s.Ends (.contactSheetSample die core) fun u => ∃ x, (u.die die).sheet = (s.die die).sheet ++ [x] ∧ x.type = 0 ∧
        x.die = die ∧ x.engine = core ∧ x.clock = s.cycle ∧ (p.empty = false → x.value = p.pc) ∧ x.queue = queue ∧ x.seq = seq ∧
        x.info = core + 2 ^ 8 * part + 2 ^ 11 * slot + 2 ^ 16 * sampleClass p.cls) ∧
    ((s.die die).sheet = [] → exec (.contactSheetDrain die) s = .next s) ∧
    (∀ x l c, (s.die die).sheet = x :: l → (s.die die).assign = some key → s.ctx? key = some c →
      (c.cslog.room = false → s.Ends (.contactSheetDrain die) fun u => (u.die die).sheet = l ∧
        u.ctx? key = some { c with cslog := c.cslog.dropped }) ∧
      (c.cslog.room = true → (s.modDie die fun d => { d with sheet := l }).deviceWrite key (c.cslog.slot 32) x.bytes = (r, none) →
        s.Ends (.contactSheetDrain die) fun u => u.mem = r.mem ∧
          ∃ c', u.ctx? key = some c' ∧ c'.cslog.tail = c.cslog.tail + 1))

/-! ## Issue, the step and the encoding -/

/-- 02 R61: a check at issue that stops a word makes its thread take the cause, with no other effect: a prefix or crew-wide word
under a guard, then a register the kernel has not allocated, then a misaligned pair or quad, then a seat without the right. A
continuation freezes there, and at a word that it may not run (06 R146). -/
def Obligations.IssueChecks : Prop :=
  ∀ (s : State) (i : Instr) (t : Nat), (encode i).isSome = true → s.m.cur.Alone → s.m.cur.lanes = [t] →
    (Table.find? s.threads t).isSome = true →
    let th := s.thread t
    let g := s.gridOf t
    let stops := fun (c : Nat) => th.cont = none → th.handles → s.Ends i fun u =>
      s.TrapFrame u t ∧ th.Trapped (u.thread t) s.m.cur c 0
    let covered := th.guard.active = true ∧ (i.crewWide = true ∨ i.pipe = .prefixWord)
    let outside := (∃ o ∈ i.opds, ∃ r ∈ o.regs, g.lr.regs ≤ r) ∨ ∃ r ∈ s.qaccRegs i t, g.lr.regs ≤ r
    let odd := ∃ o ∈ i.opds, o.misaligned = true
    (covered → stops Cause.guardCover) ∧
    (¬ covered → outside → stops Cause.unallocatedRegister) ∧
    (¬ covered → ¬ outside → odd → stops Cause.misalignedRegister) ∧
    (¬ covered → ¬ outside → ¬ odd → i.allowed g.seat = false → stops Cause.seatDenied) ∧
    (¬ covered → ¬ outside → ¬ odd → i.allowed g.seat = true → s.issueCheck i t = none) ∧
    (∀ k, th.cont = some k → (s.issueCheck i t).isSome = true ∨ i.freezes = true → s.Ends i fun u =>
      u.thread t = { th with pc := s.m.cur.pc, alone := false, cont := some { k with frozen := true } } ∧
      (∀ q, q ≠ t → u.thread q = s.thread q) ∧ u.mem = s.mem ∧ u.crews = s.crews ∧ u.teams = s.teams)

/-- 02 R40, R41, R61: a step with a bundle of one thread in issue fetches the word at its PC and runs exec of the instruction it
decodes to, once the issue is counted; then the targets of armed grids are compared (21 R378), and a crew that steps is held
(25 R422). A step with no bundle takes the next event of the inbox (log 7). What meets a tower that is not ready has not happened: the
event waits, and the bundle's thread is held (26 R439). Where the rails have left their bands the step is the model's fault (26 R443). -/
def Obligations.StepRunsDecoded : Prop :=
  ∀ (s : State), (s.trust.railsBad = true → step s = .fault .railsOutOfBand) ∧
    (s.trust.railsBad = false → s.toDiscard = none → s.m.issueQ = [] → ∀ i l u, s.m.inbox = i :: l →
      let s0 := s.modM fun m => { m with inbox := l }
      exec i s0 = .next u → (u.m.unready = false → step s = .next u) ∧
        (u.m.unready = true → step s = .next (s0.modM fun m => { m with later := m.later ++ [i] }))) ∧
    (s.trust.railsBad = false → s.toDiscard = none → ∀ (b : Bundle) (l : List Bundle) (t : Nat) (f : State) (w : Nat)
      (i : Instr), s.m.issueQ = b :: l → b.lanes = [t] →
      let sq := s.modM fun m => { m with issueQ := l }
      let s0 := sq.leaveLoop t b.pc
      let cur := { Cur.none with core := b.core, part := b.part, pc := b.pc, after := b.pc + 4, lanes := [t] }
      sq.basicReady t = true → (sq.thread t).pc = b.pc →
      s0.getWords t b.pc (s0.thread t).unchained = (f, .words w none false) → w / 2 ^ 31 % 2 = 0 →
      decodeCause f.ctl.neg w = .ok (.instr i) → (f.thread t).guard.active = false →
      f.crewWhole [t] ⟨decoded f.ctl.neg w none false, false, false⟩ = true →
      ((f.thread t).passes = true ∨ f.hits b.core (s0.bundleKey [t]) b.pc [t] = false) →
      (∀ p, exec i (f.setCur { cur with probe := true }) = .next p → p.m.cur.early = []) →
      ∃ s1 s2, exec i s1 = .next s2 ∧
        (let u := ((s2.compareTargets [t]).setCur Cur.none).stepDone (f.crewsOf [t]);
          step s = .next (if u.m.unready = true then sq.modM fun m => { m with waits := m.waits ++ [t] } else u)) ∧
        s1.m.cur = cur ∧ s1.m.cur.Alone ∧ (s1.thread t).v = (f.thread t).v ∧ (s1.thread t).p = (f.thread t).p ∧
        (s1.thread t).pc = b.pc ∧ (s1.thread t).stack = (f.thread t).stack ∧
        s1.issueCheck i t = (f.setCur cur).issueCheck i t ∧
        s1.mem = f.mem ∧ s1.teams = f.teams ∧ s1.grids = f.grids ∧
        ∀ c, ∃ parts, s1.core c = { f.core c with parts := parts })

/-- 02 R61, R39-R53: words written out from the encodings decode to what they stand for, and an undefined one to its cause. -/
def Obligations.DecodeWords : Prop :=
  decodeWord 0x86286064 = .ok (.addi true 5 3 100) ∧
  decodeWord 0x40391004 = .ok (.ld false 7 4 .w32 4) ∧
  decodeWord 0x02640400 = .ok (.pb 3 1 1) ∧
  decodeWord 0x0630C001 = .ok (.addi false 6 6 1) ∧
  decodeWord 0x0630DFFF = .ok (.addi false 6 6 0x1FFF) ∧
  decodeWord 0x603FFFFA = .ok (.bra false 1 true 0xFFFFA) ∧
  decodeWord 0x00000000 = .error .illegalWord ∧
  decodeWord 0x7E000000 = .error .illegalWord ∧
  decodeWord 0x38000000 = .error .reservedOpcode

/-- 02 R37, R53: every well-formed instruction that has a word decodes from it, in 32 bits and as bytes; and a word that decodes
is the one its instruction encodes to, so that no two words mean the same. -/
def Obligations.RoundTrip : Prop :=
  (∀ (i : Instr) (w : Nat), i.wellFormed = true → encode i = some w → w < 2 ^ 32 ∧ decodeWord w = .ok i ∧
    ∀ l, decodeBytes (bytesOfWord w ++ l) = .ok (i, l)) ∧
  (∀ (w : Nat) (i : Instr), w < 2 ^ 32 → decodeWord w = .ok i → i.wellFormed = true ∧ encode i = some w)

/-- 26 R444, 20 R375, 24 R405, 25 R418, 22 R400: what reset leaves. PWRLIM reads 2400 and every PWRCAP 0; every register of the
translation block is zero; key slot 0 is live and every other free; the PLACE count is 1; every hseat is 0; memory is in its
canonical form. Nothing runs and nothing is in flight, and every byte of memory reads 0 (the model's choice, logs 5 and 6). -/
def Obligations.ResetState : Prop :=
  let s := State.reset
  (∀ t i, 0x8A0 ≤ i → i < 0x8B8 → s.csrRead t i = 0) ∧ (∀ t, s.csrRead t 0x8B8 = 2400) ∧
    s.xl.oflog = LogRegs.zero ∧ s.xl.pfr = LogRegs.zero ∧ s.xl.sdr = LogRegs.zero ∧ s.xl.pfbound = 0 ∧ (∀ k, s.root k = 0) ∧
    (s.ctx? 0).isSome = true ∧ (∀ k, k ≠ 0 → s.ctx? k = none) ∧ s.fixer.placeCount = 1 ∧ (∀ h, (s.hart h).hseat = 0) ∧
    s.Canonical ∧ s.threads = [] ∧ s.crews = [] ∧ s.teams = [] ∧ s.grids = [] ∧ s.eng.txns = [] ∧ s.m.inbox = [] ∧
    (∀ c, (s.core c).l1 = []) ∧ (∀ pa, s.physByte pa = 0) ∧ s.cycle = 0

/-- Every step keeps the canonical form of device and host memory, whatever it runs (log 5). -/
def Obligations.StepKeepsMemoryForm : Prop :=
  ∀ s s' : State, s.Canonical → step s = .next s' → s'.Canonical
end

