-- ==== Sys2Proof/Laws/Cells.lean ====
section
/-! SUPPORT. Memories: a byte read after a write, and the canonical form, which every operation keeps. -/

namespace Sys2Proof.Machine

/-! ## Reading after writing -/

theorem Cells.get_put (m : Cells) (a q : Nat) (b : Byte) :
    Cells.get (Cells.put m a b) q = if q = a then some b else Cells.get m q := by
  induction m with
  | nil =>
    by_cases h : q = a
    · simp [Cells.put, Cells.get, h]
    · simp [Cells.put, Cells.get, h, Ne.symm h]
  | cons e r ih =>
    obtain ⟨x, c⟩ := e
    simp only [Cells.put]
    split
    · by_cases h : q = a
      · simp [Cells.get, h]
      · simp [Cells.get, h, Ne.symm h]
    · split
      · next h1 =>
        subst h1
        by_cases h : q = a
        · simp [Cells.get, h]
        · simp [Cells.get, h, Ne.symm h]
      · by_cases h : x = q
        · subst h
          have : ¬ x = a := fun h => by simp_all
          simp [Cells.get, this]
        · simp [Cells.get, h, ih]

/-- Every listed address is above a bound. -/
def Cells.above (n : Nat) (m : Cells) : Prop := ∀ c ∈ m, n < c.1

theorem Cells.sorted_cons (x : Nat) (b : Byte) (r : Cells) :
    Cells.sorted ((x, b) :: r) = true ↔ Cells.above x r ∧ Cells.sorted r = true := by
  induction r generalizing x b with
  | nil => simp [Cells.sorted, Cells.above]
  | cons e r ih =>
    obtain ⟨y, c⟩ := e
    simp only [Cells.sorted, Bool.and_eq_true, decide_eq_true_eq]
    constructor
    · rintro ⟨h, hs⟩
      refine ⟨?_, hs⟩
      intro d hd
      rcases List.mem_cons.1 hd with rfl | hd
      · exact h
      · exact lt_trans h (((ih y c).1 hs).1 d hd)
    · rintro ⟨h, hs⟩
      exact ⟨h (y, c) List.mem_cons_self, hs⟩

theorem Cells.get_above {n : Nat} {m : Cells} (h : Cells.above n m) {a : Nat} (ha : a ≤ n) : Cells.get m a = none := by
  induction m with
  | nil => rfl
  | cons e r ih =>
    obtain ⟨x, c⟩ := e
    have hx : n < x := h (x, c) List.mem_cons_self
    have : ¬ x = a := by omega
    simp only [Cells.get, this, if_false]
    exact ih fun d hd => h d (List.mem_cons_of_mem _ hd)

theorem Cells.get_del (m : Cells) (a q : Nat) :
    Cells.get (Cells.del m a) q = if q = a then none else Cells.get m q := by
  induction m with
  | nil => simp [Cells.del, Cells.get]
  | cons e r ih =>
    obtain ⟨x, c⟩ := e
    simp only [Cells.del]
    split
    · next h =>
      subst h
      by_cases hq : q = x
      · rw [ih]; simp [hq]
      · rw [ih]; simp [Cells.get, hq, Ne.symm hq]
    · next h =>
      by_cases hq : x = q
      · subst hq
        simp [Cells.get, h]
      · simp [Cells.get, hq, ih]

/-- A byte of a memory after a write of one byte. -/
theorem Memory.read_write (m : Memory) (a q : Nat) (b : Byte) :
    (Memory.write m a b).read q = if q = a then b else m.read q := by
  by_cases hb : b = Memory.blank
  · by_cases h : q = a <;> simp [Memory.write, Memory.read, hb, Cells.get_del, h]
  · by_cases h : q = a <;> simp [Memory.write, Memory.read, hb, Cells.get_put, h]

/-! ## The canonical form -/

theorem Cells.above_put {n a : Nat} {m : Cells} (b : Byte) (h : Cells.above n m) (ha : n < a) :
    Cells.above n (Cells.put m a b) := by
  induction m with
  | nil => intro d hd; simp [Cells.put] at hd; subst hd; exact ha
  | cons e r ih =>
    obtain ⟨x, c⟩ := e
    have hx : n < x := h (x, c) List.mem_cons_self
    have hr : Cells.above n r := fun d hd => h d (List.mem_cons_of_mem _ hd)
    simp only [Cells.put]
    split
    · intro d hd
      simp only [List.mem_cons] at hd
      rcases hd with rfl | rfl | hd
      · exact ha
      · exact hx
      · exact hr d hd
    · split
      · intro d hd
        simp only [List.mem_cons] at hd
        rcases hd with rfl | hd
        · exact ha
        · exact hr d hd
      · intro d hd
        simp only [List.mem_cons] at hd
        rcases hd with rfl | hd
        · exact hx
        · exact ih hr d hd

theorem Cells.sorted_put (m : Cells) (a : Nat) (b : Byte) (h : Cells.sorted m = true) :
    Cells.sorted (Cells.put m a b) = true := by
  induction m with
  | nil => rfl
  | cons e r ih =>
    obtain ⟨x, c⟩ := e
    have hr := (Cells.sorted_cons x c r).1 h
    simp only [Cells.put]
    split
    · next h1 =>
      refine (Cells.sorted_cons _ _ _).2 ⟨?_, h⟩
      intro d hd
      rcases List.mem_cons.1 hd with rfl | hd
      · exact h1
      · exact lt_trans h1 (hr.1 d hd)
    · split
      · next h1 =>
        subst h1
        exact (Cells.sorted_cons _ _ _).2 hr
      · next h1 h2 => exact (Cells.sorted_cons _ _ _).2 ⟨Cells.above_put b hr.1 (by omega), ih hr.2⟩

theorem Cells.mem_del {m : Cells} {a : Nat} {d : Host.Cell} (h : d ∈ Cells.del m a) : d ∈ m := by
  induction m with
  | nil => simp [Cells.del] at h
  | cons e r ih =>
    obtain ⟨x, c⟩ := e
    simp only [Cells.del] at h
    split at h
    · exact List.mem_cons_of_mem _ (ih h)
    · rcases List.mem_cons.1 h with rfl | h
      · exact List.mem_cons_self
      · exact List.mem_cons_of_mem _ (ih h)

theorem Cells.sorted_del (m : Cells) (a : Nat) (h : Cells.sorted m = true) : Cells.sorted (Cells.del m a) = true := by
  induction m with
  | nil => rfl
  | cons e r ih =>
    obtain ⟨x, c⟩ := e
    have hr := (Cells.sorted_cons x c r).1 h
    simp only [Cells.del]
    split
    · exact ih hr.2
    · exact (Cells.sorted_cons _ _ _).2 ⟨fun d hd => hr.1 d (Cells.mem_del hd), ih hr.2⟩

theorem Cells.mem_put {m : Cells} {a : Nat} {b : Byte} {d : Host.Cell} (h : d ∈ Cells.put m a b) : d = (a, b) ∨ d ∈ m := by
  induction m with
  | nil => simpa [Cells.put] using h
  | cons e r ih =>
    obtain ⟨x, c⟩ := e
    simp only [Cells.put] at h
    split at h
    · simpa using h
    · split at h
      · rcases List.mem_cons.1 h with h | h
        · exact .inl h
        · exact .inr (List.mem_cons_of_mem _ h)
      · rcases List.mem_cons.1 h with h | h
        · exact .inr (h ▸ List.mem_cons_self)
        · exact (ih h).imp id (List.mem_cons_of_mem _)

/-- Writing a byte keeps the canonical form. -/
theorem Memory.wf_write (m : Memory) (a : Nat) (b : Byte) (h : m.wf = true) : (Memory.write m a b).wf = true := by
  simp only [Memory.wf, Bool.and_eq_true, List.all_eq_true, bne_iff_ne] at h ⊢
  simp only [Memory.write]
  split
  · exact ⟨Cells.sorted_del m a h.1, fun c hc => h.2 c (Cells.mem_del hc)⟩
  · next hb =>
    refine ⟨Cells.sorted_put m a b h.1, fun c hc => ?_⟩
    rcases Cells.mem_put hc with rfl | hc
    · exact hb
    · exact h.2 c hc

/-- Writing bytes keeps the canonical form. -/
theorem Memory.wf_writeAll (m : Memory) (a : Nat) (bs : List Byte) (h : m.wf = true) : (Memory.writeAll m a bs).wf = true := by
  induction bs generalizing m a with
  | nil => exact h
  | cons b r ih => exact ih _ _ (Memory.wf_write m a b h)

theorem Cells.sorted_filter (p : Host.Cell → Bool) (m : Cells) (h : Cells.sorted m = true) : Cells.sorted (m.filter p) = true := by
  induction m with
  | nil => rfl
  | cons e r ih =>
    have hr := (Cells.sorted_cons e.1 e.2 r).1 h
    rw [List.filter_cons]
    split
    · exact (Cells.sorted_cons _ _ _).2 ⟨fun d hd => hr.1 d (List.mem_filter.1 hd).1, ih hr.2⟩
    · exact ih hr.2

/-- Dropping bytes keeps the canonical form. -/
theorem Memory.wf_filter (m : Memory) (p : Host.Cell → Bool) (h : m.wf = true) : Memory.wf (m.filter p) = true := by
  simp only [Memory.wf, Bool.and_eq_true, List.all_eq_true, bne_iff_ne] at h ⊢
  exact ⟨Cells.sorted_filter p m h.1, fun c hc => h.2 c (List.mem_filter.1 hc).1⟩

/-- A byte of a memory after a write of bytes at successive addresses. -/
theorem Memory.read_writeAll (m : Memory) (a q : Nat) (bs : List Byte) :
    (Memory.writeAll m a bs).read q = if a ≤ q ∧ q < a + bs.length then bs.getD (q - a) 0 else m.read q := by
  induction bs generalizing m a with
  | nil =>
    have : ¬ (a ≤ q ∧ q < a + ([] : List Byte).length) := by simp
    rw [if_neg this]; rfl
  | cons b r ih =>
    simp only [Memory.writeAll, ih, Memory.read_write, List.length_cons]
    by_cases h1 : q = a
    · subst h1
      simp
    · by_cases h2 : a ≤ q ∧ q < a + (r.length + 1)
      · have h3 : a + 1 ≤ q ∧ q < a + 1 + r.length := by omega
        rw [if_pos h3, if_pos h2]
        obtain ⟨k, hk⟩ : ∃ k, q - a = k + 1 := ⟨q - a - 1, by omega⟩
        have hk' : q - (a + 1) = k := by omega
        rw [hk, hk']
        simp
      · have h3 : ¬ (a + 1 ≤ q ∧ q < a + 1 + r.length) := by omega
        rw [if_neg h3, if_neg h2, if_neg h1]

end Sys2Proof.Machine
end

