-- ==== Sys2Proof/Laws/Table.lean ====
section
/-! SUPPORT. What the operations of tables give: a table read after a set, a change or a removal. -/

namespace Sys2Proof.Machine

variable {α : Type}

@[simp] theorem Table.find?_set_self (t : Table α) (k : Nat) (a : α) : Table.find? (Table.set t k a) k = some a := by
  induction t with
  | nil => simp [Table.set, Table.find?]
  | cons e r ih =>
    obtain ⟨x, b⟩ := e
    by_cases h1 : k < x
    · simp [Table.set, Table.find?, h1]
    · by_cases h2 : k = x
      · simp [Table.set, Table.find?, h2]
      · simp [Table.set, Table.find?, h1, h2, ih, Ne.symm h2]

theorem Table.find?_set_ne (t : Table α) {k q : Nat} (a : α) (h : q ≠ k) :
    Table.find? (Table.set t k a) q = Table.find? t q := by
  induction t with
  | nil => simp [Table.set, Table.find?, Ne.symm h]
  | cons e r ih =>
    obtain ⟨x, b⟩ := e
    by_cases h1 : k < x
    · simp [Table.set, Table.find?, h1, Ne.symm h]
    · by_cases h2 : k = x
      · subst h2
        simp [Table.set, Table.find?, Ne.symm h]
      · by_cases h3 : x = q
        · subst h3
          simp [Table.set, Table.find?, h1, h2]
        · simp [Table.set, Table.find?, h1, h2, h3, ih]

theorem Table.find?_set (t : Table α) (k q : Nat) (a : α) :
    Table.find? (Table.set t k a) q = if q = k then some a else Table.find? t q := by
  by_cases h : q = k
  · simp [h]
  · simp [h, Table.find?_set_ne]

@[simp] theorem Table.getD_set_self (t : Table α) (k : Nat) (a d : α) : Table.getD (Table.set t k a) k d = a := by
  simp [Table.getD]

theorem Table.getD_set_ne (t : Table α) {k q : Nat} (a d : α) (h : q ≠ k) :
    Table.getD (Table.set t k a) q d = Table.getD t q d := by
  simp [Table.getD, Table.find?_set_ne _ _ h]

theorem Table.getD_set (t : Table α) (k q : Nat) (a d : α) :
    Table.getD (Table.set t k a) q d = if q = k then a else Table.getD t q d := by
  by_cases h : q = k
  · simp [h]
  · simp [h, Table.getD_set_ne]

theorem Table.find?_modify (t : Table α) (k q : Nat) (f : α → α) :
    Table.find? (Table.modify t k f) q = if q = k then (Table.find? t q).map f else Table.find? t q := by
  induction t with
  | nil => simp [Table.modify, Table.find?]
  | cons e r ih =>
    obtain ⟨x, b⟩ := e
    have ih' : Table.find? (List.map (fun e => if e.1 = k then (e.1, f e.2) else e) r) q =
        if q = k then (Table.find? r q).map f else Table.find? r q := ih
    by_cases h1 : x = k
    · by_cases h2 : x = q
      · simp [Table.modify, Table.find?, h2, ← h1]
      · have : ¬ q = k := fun h => h2 (by omega)
        simp only [Table.modify, List.map_cons, Table.find?, h1, if_true, this, if_false] at ih' ⊢
        rw [if_neg (fun h => this h.symm), if_neg (fun h => this h.symm)]
        exact ih'
    · by_cases h2 : x = q
      · have : ¬ q = k := fun h => h1 (by omega)
        simp [Table.modify, Table.find?, h2, this]
      · simp [Table.modify, Table.find?, h1, h2]
        exact ih'

theorem Table.find?_erase_self (t : Table α) (k : Nat) : Table.find? (Table.erase t k) k = none := by
  induction t with
  | nil => rfl
  | cons e r ih =>
    obtain ⟨x, b⟩ := e
    have ih' : Table.find? (List.filter (fun e => e.1 != k) r) k = none := ih
    by_cases h : x = k
    · simp [Table.erase, h, ih']
    · simp [Table.erase, Table.find?, h, ih']

theorem Table.find?_erase_ne (t : Table α) {k q : Nat} (h : q ≠ k) : Table.find? (Table.erase t k) q = Table.find? t q := by
  induction t with
  | nil => rfl
  | cons e r ih =>
    obtain ⟨x, b⟩ := e
    have ih' : Table.find? (List.filter (fun e => e.1 != k) r) q = Table.find? r q := ih
    by_cases h1 : x = k
    · subst h1
      simp [Table.erase, Table.find?, Ne.symm h, ih']
    · by_cases h2 : x = q
      · subst h2
        simp [Table.erase, Table.find?, h1]
      · simp [Table.erase, Table.find?, h1, h2, ih']

theorem Table.getD_modify (t : Table α) (k q : Nat) (f : α → α) (d : α) :
    Table.getD (Table.modify t k f) q d = if q = k then ((Table.find? t q).map f).getD d else Table.getD t q d := by
  by_cases h : q = k <;> simp [Table.getD, Table.find?_modify, h]

end Sys2Proof.Machine
end

