-- ==== Sys2Proof/Laws/State.lean ====
section
/-! SUPPORT. What each update of a part of the state leaves as it was, and what it gives: one lemma for each field and each update. -/

namespace Sys2Proof.Machine

/-! ### `setThread` -/

@[simp] theorem State.setThread_cycle (s : State) (t : Nat) (x : Thread) : (s.setThread t x).cycle = s.cycle := rfl
@[simp] theorem State.setThread_handle (s : State) (t : Nat) (x : Thread) : (s.setThread t x).handle = s.handle := rfl
@[simp] theorem State.setThread_age (s : State) (t : Nat) (x : Thread) : (s.setThread t x).age = s.age := rfl
@[simp] theorem State.setThread_crews (s : State) (t : Nat) (x : Thread) : (s.setThread t x).crews = s.crews := rfl
@[simp] theorem State.setThread_teams (s : State) (t : Nat) (x : Thread) : (s.setThread t x).teams = s.teams := rfl
@[simp] theorem State.setThread_grids (s : State) (t : Nat) (x : Thread) : (s.setThread t x).grids = s.grids := rfl
@[simp] theorem State.setThread_ctxs (s : State) (t : Nat) (x : Thread) : (s.setThread t x).ctxs = s.ctxs := rfl
@[simp] theorem State.setThread_cores (s : State) (t : Nat) (x : Thread) : (s.setThread t x).cores = s.cores := rfl
@[simp] theorem State.setThread_dies (s : State) (t : Nat) (x : Thread) : (s.setThread t x).dies = s.dies := rfl
@[simp] theorem State.setThread_mem (s : State) (t : Nat) (x : Thread) : (s.setThread t x).mem = s.mem := rfl
@[simp] theorem State.setThread_eng (s : State) (t : Nat) (x : Thread) : (s.setThread t x).eng = s.eng := rfl
@[simp] theorem State.setThread_fixer (s : State) (t : Nat) (x : Thread) : (s.setThread t x).fixer = s.fixer := rfl
@[simp] theorem State.setThread_xl (s : State) (t : Nat) (x : Thread) : (s.setThread t x).xl = s.xl := rfl
@[simp] theorem State.setThread_queues (s : State) (t : Nat) (x : Thread) : (s.setThread t x).queues = s.queues := rfl
@[simp] theorem State.setThread_fab (s : State) (t : Nat) (x : Thread) : (s.setThread t x).fab = s.fab := rfl
@[simp] theorem State.setThread_trust (s : State) (t : Nat) (x : Thread) : (s.setThread t x).trust = s.trust := rfl
@[simp] theorem State.setThread_harts (s : State) (t : Nat) (x : Thread) : (s.setThread t x).harts = s.harts := rfl
@[simp] theorem State.setThread_ctl (s : State) (t : Nat) (x : Thread) : (s.setThread t x).ctl = s.ctl := rfl
@[simp] theorem State.setThread_m (s : State) (t : Nat) (x : Thread) : (s.setThread t x).m = s.m := rfl
@[simp] theorem State.setThread_at_crew (s : State) (t : Nat) (x : Thread) (y : Nat) : (s.setThread t x).crew y = s.crew y := rfl
@[simp] theorem State.setThread_at_team (s : State) (t : Nat) (x : Thread) (y : Nat) : (s.setThread t x).team y = s.team y := rfl
@[simp] theorem State.setThread_at_grid (s : State) (t : Nat) (x : Thread) (y : Nat) : (s.setThread t x).grid y = s.grid y := rfl
@[simp] theorem State.setThread_at_core (s : State) (t : Nat) (x : Thread) (y : Nat) : (s.setThread t x).core y = s.core y := rfl
@[simp] theorem State.setThread_at_die (s : State) (t : Nat) (x : Thread) (y : Nat) : (s.setThread t x).die y = s.die y := rfl
@[simp] theorem State.setThread_at_ctx (s : State) (t : Nat) (x : Thread) (y : Nat) : (s.setThread t x).ctx? y = s.ctx? y := rfl

/-! ### `modThread` -/

@[simp] theorem State.modThread_cycle (s : State) (t : Nat) (f : Thread → Thread) : (s.modThread t f).cycle = s.cycle := rfl
@[simp] theorem State.modThread_handle (s : State) (t : Nat) (f : Thread → Thread) : (s.modThread t f).handle = s.handle := rfl
@[simp] theorem State.modThread_age (s : State) (t : Nat) (f : Thread → Thread) : (s.modThread t f).age = s.age := rfl
@[simp] theorem State.modThread_crews (s : State) (t : Nat) (f : Thread → Thread) : (s.modThread t f).crews = s.crews := rfl
@[simp] theorem State.modThread_teams (s : State) (t : Nat) (f : Thread → Thread) : (s.modThread t f).teams = s.teams := rfl
@[simp] theorem State.modThread_grids (s : State) (t : Nat) (f : Thread → Thread) : (s.modThread t f).grids = s.grids := rfl
@[simp] theorem State.modThread_ctxs (s : State) (t : Nat) (f : Thread → Thread) : (s.modThread t f).ctxs = s.ctxs := rfl
@[simp] theorem State.modThread_cores (s : State) (t : Nat) (f : Thread → Thread) : (s.modThread t f).cores = s.cores := rfl
@[simp] theorem State.modThread_dies (s : State) (t : Nat) (f : Thread → Thread) : (s.modThread t f).dies = s.dies := rfl
@[simp] theorem State.modThread_mem (s : State) (t : Nat) (f : Thread → Thread) : (s.modThread t f).mem = s.mem := rfl
@[simp] theorem State.modThread_eng (s : State) (t : Nat) (f : Thread → Thread) : (s.modThread t f).eng = s.eng := rfl
@[simp] theorem State.modThread_fixer (s : State) (t : Nat) (f : Thread → Thread) : (s.modThread t f).fixer = s.fixer := rfl
@[simp] theorem State.modThread_xl (s : State) (t : Nat) (f : Thread → Thread) : (s.modThread t f).xl = s.xl := rfl
@[simp] theorem State.modThread_queues (s : State) (t : Nat) (f : Thread → Thread) : (s.modThread t f).queues = s.queues := rfl
@[simp] theorem State.modThread_fab (s : State) (t : Nat) (f : Thread → Thread) : (s.modThread t f).fab = s.fab := rfl
@[simp] theorem State.modThread_trust (s : State) (t : Nat) (f : Thread → Thread) : (s.modThread t f).trust = s.trust := rfl
@[simp] theorem State.modThread_harts (s : State) (t : Nat) (f : Thread → Thread) : (s.modThread t f).harts = s.harts := rfl
@[simp] theorem State.modThread_ctl (s : State) (t : Nat) (f : Thread → Thread) : (s.modThread t f).ctl = s.ctl := rfl
@[simp] theorem State.modThread_m (s : State) (t : Nat) (f : Thread → Thread) : (s.modThread t f).m = s.m := rfl
@[simp] theorem State.modThread_at_crew (s : State) (t : Nat) (f : Thread → Thread) (y : Nat) : (s.modThread t f).crew y = s.crew y := rfl
@[simp] theorem State.modThread_at_team (s : State) (t : Nat) (f : Thread → Thread) (y : Nat) : (s.modThread t f).team y = s.team y := rfl
@[simp] theorem State.modThread_at_grid (s : State) (t : Nat) (f : Thread → Thread) (y : Nat) : (s.modThread t f).grid y = s.grid y := rfl
@[simp] theorem State.modThread_at_core (s : State) (t : Nat) (f : Thread → Thread) (y : Nat) : (s.modThread t f).core y = s.core y := rfl
@[simp] theorem State.modThread_at_die (s : State) (t : Nat) (f : Thread → Thread) (y : Nat) : (s.modThread t f).die y = s.die y := rfl
@[simp] theorem State.modThread_at_ctx (s : State) (t : Nat) (f : Thread → Thread) (y : Nat) : (s.modThread t f).ctx? y = s.ctx? y := rfl

/-! ### `setCrew` -/

@[simp] theorem State.setCrew_cycle (s : State) (c : Nat) (x : Crew) : (s.setCrew c x).cycle = s.cycle := rfl
@[simp] theorem State.setCrew_handle (s : State) (c : Nat) (x : Crew) : (s.setCrew c x).handle = s.handle := rfl
@[simp] theorem State.setCrew_age (s : State) (c : Nat) (x : Crew) : (s.setCrew c x).age = s.age := rfl
@[simp] theorem State.setCrew_threads (s : State) (c : Nat) (x : Crew) : (s.setCrew c x).threads = s.threads := rfl
@[simp] theorem State.setCrew_teams (s : State) (c : Nat) (x : Crew) : (s.setCrew c x).teams = s.teams := rfl
@[simp] theorem State.setCrew_grids (s : State) (c : Nat) (x : Crew) : (s.setCrew c x).grids = s.grids := rfl
@[simp] theorem State.setCrew_ctxs (s : State) (c : Nat) (x : Crew) : (s.setCrew c x).ctxs = s.ctxs := rfl
@[simp] theorem State.setCrew_cores (s : State) (c : Nat) (x : Crew) : (s.setCrew c x).cores = s.cores := rfl
@[simp] theorem State.setCrew_dies (s : State) (c : Nat) (x : Crew) : (s.setCrew c x).dies = s.dies := rfl
@[simp] theorem State.setCrew_mem (s : State) (c : Nat) (x : Crew) : (s.setCrew c x).mem = s.mem := rfl
@[simp] theorem State.setCrew_eng (s : State) (c : Nat) (x : Crew) : (s.setCrew c x).eng = s.eng := rfl
@[simp] theorem State.setCrew_fixer (s : State) (c : Nat) (x : Crew) : (s.setCrew c x).fixer = s.fixer := rfl
@[simp] theorem State.setCrew_xl (s : State) (c : Nat) (x : Crew) : (s.setCrew c x).xl = s.xl := rfl
@[simp] theorem State.setCrew_queues (s : State) (c : Nat) (x : Crew) : (s.setCrew c x).queues = s.queues := rfl
@[simp] theorem State.setCrew_fab (s : State) (c : Nat) (x : Crew) : (s.setCrew c x).fab = s.fab := rfl
@[simp] theorem State.setCrew_trust (s : State) (c : Nat) (x : Crew) : (s.setCrew c x).trust = s.trust := rfl
@[simp] theorem State.setCrew_harts (s : State) (c : Nat) (x : Crew) : (s.setCrew c x).harts = s.harts := rfl
@[simp] theorem State.setCrew_ctl (s : State) (c : Nat) (x : Crew) : (s.setCrew c x).ctl = s.ctl := rfl
@[simp] theorem State.setCrew_m (s : State) (c : Nat) (x : Crew) : (s.setCrew c x).m = s.m := rfl
@[simp] theorem State.setCrew_at_thread (s : State) (c : Nat) (x : Crew) (y : Nat) : (s.setCrew c x).thread y = s.thread y := rfl
@[simp] theorem State.setCrew_at_team (s : State) (c : Nat) (x : Crew) (y : Nat) : (s.setCrew c x).team y = s.team y := rfl
@[simp] theorem State.setCrew_at_grid (s : State) (c : Nat) (x : Crew) (y : Nat) : (s.setCrew c x).grid y = s.grid y := rfl
@[simp] theorem State.setCrew_at_core (s : State) (c : Nat) (x : Crew) (y : Nat) : (s.setCrew c x).core y = s.core y := rfl
@[simp] theorem State.setCrew_at_die (s : State) (c : Nat) (x : Crew) (y : Nat) : (s.setCrew c x).die y = s.die y := rfl
@[simp] theorem State.setCrew_at_ctx (s : State) (c : Nat) (x : Crew) (y : Nat) : (s.setCrew c x).ctx? y = s.ctx? y := rfl

/-! ### `modCrew` -/

@[simp] theorem State.modCrew_cycle (s : State) (c : Nat) (f : Crew → Crew) : (s.modCrew c f).cycle = s.cycle := rfl
@[simp] theorem State.modCrew_handle (s : State) (c : Nat) (f : Crew → Crew) : (s.modCrew c f).handle = s.handle := rfl
@[simp] theorem State.modCrew_age (s : State) (c : Nat) (f : Crew → Crew) : (s.modCrew c f).age = s.age := rfl
@[simp] theorem State.modCrew_threads (s : State) (c : Nat) (f : Crew → Crew) : (s.modCrew c f).threads = s.threads := rfl
@[simp] theorem State.modCrew_teams (s : State) (c : Nat) (f : Crew → Crew) : (s.modCrew c f).teams = s.teams := rfl
@[simp] theorem State.modCrew_grids (s : State) (c : Nat) (f : Crew → Crew) : (s.modCrew c f).grids = s.grids := rfl
@[simp] theorem State.modCrew_ctxs (s : State) (c : Nat) (f : Crew → Crew) : (s.modCrew c f).ctxs = s.ctxs := rfl
@[simp] theorem State.modCrew_cores (s : State) (c : Nat) (f : Crew → Crew) : (s.modCrew c f).cores = s.cores := rfl
@[simp] theorem State.modCrew_dies (s : State) (c : Nat) (f : Crew → Crew) : (s.modCrew c f).dies = s.dies := rfl
@[simp] theorem State.modCrew_mem (s : State) (c : Nat) (f : Crew → Crew) : (s.modCrew c f).mem = s.mem := rfl
@[simp] theorem State.modCrew_eng (s : State) (c : Nat) (f : Crew → Crew) : (s.modCrew c f).eng = s.eng := rfl
@[simp] theorem State.modCrew_fixer (s : State) (c : Nat) (f : Crew → Crew) : (s.modCrew c f).fixer = s.fixer := rfl
@[simp] theorem State.modCrew_xl (s : State) (c : Nat) (f : Crew → Crew) : (s.modCrew c f).xl = s.xl := rfl
@[simp] theorem State.modCrew_queues (s : State) (c : Nat) (f : Crew → Crew) : (s.modCrew c f).queues = s.queues := rfl
@[simp] theorem State.modCrew_fab (s : State) (c : Nat) (f : Crew → Crew) : (s.modCrew c f).fab = s.fab := rfl
@[simp] theorem State.modCrew_trust (s : State) (c : Nat) (f : Crew → Crew) : (s.modCrew c f).trust = s.trust := rfl
@[simp] theorem State.modCrew_harts (s : State) (c : Nat) (f : Crew → Crew) : (s.modCrew c f).harts = s.harts := rfl
@[simp] theorem State.modCrew_ctl (s : State) (c : Nat) (f : Crew → Crew) : (s.modCrew c f).ctl = s.ctl := rfl
@[simp] theorem State.modCrew_m (s : State) (c : Nat) (f : Crew → Crew) : (s.modCrew c f).m = s.m := rfl
@[simp] theorem State.modCrew_at_thread (s : State) (c : Nat) (f : Crew → Crew) (y : Nat) : (s.modCrew c f).thread y = s.thread y := rfl
@[simp] theorem State.modCrew_at_team (s : State) (c : Nat) (f : Crew → Crew) (y : Nat) : (s.modCrew c f).team y = s.team y := rfl
@[simp] theorem State.modCrew_at_grid (s : State) (c : Nat) (f : Crew → Crew) (y : Nat) : (s.modCrew c f).grid y = s.grid y := rfl
@[simp] theorem State.modCrew_at_core (s : State) (c : Nat) (f : Crew → Crew) (y : Nat) : (s.modCrew c f).core y = s.core y := rfl
@[simp] theorem State.modCrew_at_die (s : State) (c : Nat) (f : Crew → Crew) (y : Nat) : (s.modCrew c f).die y = s.die y := rfl
@[simp] theorem State.modCrew_at_ctx (s : State) (c : Nat) (f : Crew → Crew) (y : Nat) : (s.modCrew c f).ctx? y = s.ctx? y := rfl

/-! ### `setTeam` -/

@[simp] theorem State.setTeam_cycle (s : State) (t : Nat) (x : Team) : (s.setTeam t x).cycle = s.cycle := rfl
@[simp] theorem State.setTeam_handle (s : State) (t : Nat) (x : Team) : (s.setTeam t x).handle = s.handle := rfl
@[simp] theorem State.setTeam_age (s : State) (t : Nat) (x : Team) : (s.setTeam t x).age = s.age := rfl
@[simp] theorem State.setTeam_threads (s : State) (t : Nat) (x : Team) : (s.setTeam t x).threads = s.threads := rfl
@[simp] theorem State.setTeam_crews (s : State) (t : Nat) (x : Team) : (s.setTeam t x).crews = s.crews := rfl
@[simp] theorem State.setTeam_grids (s : State) (t : Nat) (x : Team) : (s.setTeam t x).grids = s.grids := rfl
@[simp] theorem State.setTeam_ctxs (s : State) (t : Nat) (x : Team) : (s.setTeam t x).ctxs = s.ctxs := rfl
@[simp] theorem State.setTeam_cores (s : State) (t : Nat) (x : Team) : (s.setTeam t x).cores = s.cores := rfl
@[simp] theorem State.setTeam_dies (s : State) (t : Nat) (x : Team) : (s.setTeam t x).dies = s.dies := rfl
@[simp] theorem State.setTeam_mem (s : State) (t : Nat) (x : Team) : (s.setTeam t x).mem = s.mem := rfl
@[simp] theorem State.setTeam_eng (s : State) (t : Nat) (x : Team) : (s.setTeam t x).eng = s.eng := rfl
@[simp] theorem State.setTeam_fixer (s : State) (t : Nat) (x : Team) : (s.setTeam t x).fixer = s.fixer := rfl
@[simp] theorem State.setTeam_xl (s : State) (t : Nat) (x : Team) : (s.setTeam t x).xl = s.xl := rfl
@[simp] theorem State.setTeam_queues (s : State) (t : Nat) (x : Team) : (s.setTeam t x).queues = s.queues := rfl
@[simp] theorem State.setTeam_fab (s : State) (t : Nat) (x : Team) : (s.setTeam t x).fab = s.fab := rfl
@[simp] theorem State.setTeam_trust (s : State) (t : Nat) (x : Team) : (s.setTeam t x).trust = s.trust := rfl
@[simp] theorem State.setTeam_harts (s : State) (t : Nat) (x : Team) : (s.setTeam t x).harts = s.harts := rfl
@[simp] theorem State.setTeam_ctl (s : State) (t : Nat) (x : Team) : (s.setTeam t x).ctl = s.ctl := rfl
@[simp] theorem State.setTeam_m (s : State) (t : Nat) (x : Team) : (s.setTeam t x).m = s.m := rfl
@[simp] theorem State.setTeam_at_thread (s : State) (t : Nat) (x : Team) (y : Nat) : (s.setTeam t x).thread y = s.thread y := rfl
@[simp] theorem State.setTeam_at_crew (s : State) (t : Nat) (x : Team) (y : Nat) : (s.setTeam t x).crew y = s.crew y := rfl
@[simp] theorem State.setTeam_at_grid (s : State) (t : Nat) (x : Team) (y : Nat) : (s.setTeam t x).grid y = s.grid y := rfl
@[simp] theorem State.setTeam_at_core (s : State) (t : Nat) (x : Team) (y : Nat) : (s.setTeam t x).core y = s.core y := rfl
@[simp] theorem State.setTeam_at_die (s : State) (t : Nat) (x : Team) (y : Nat) : (s.setTeam t x).die y = s.die y := rfl
@[simp] theorem State.setTeam_at_ctx (s : State) (t : Nat) (x : Team) (y : Nat) : (s.setTeam t x).ctx? y = s.ctx? y := rfl

/-! ### `modTeam` -/

@[simp] theorem State.modTeam_cycle (s : State) (t : Nat) (f : Team → Team) : (s.modTeam t f).cycle = s.cycle := rfl
@[simp] theorem State.modTeam_handle (s : State) (t : Nat) (f : Team → Team) : (s.modTeam t f).handle = s.handle := rfl
@[simp] theorem State.modTeam_age (s : State) (t : Nat) (f : Team → Team) : (s.modTeam t f).age = s.age := rfl
@[simp] theorem State.modTeam_threads (s : State) (t : Nat) (f : Team → Team) : (s.modTeam t f).threads = s.threads := rfl
@[simp] theorem State.modTeam_crews (s : State) (t : Nat) (f : Team → Team) : (s.modTeam t f).crews = s.crews := rfl
@[simp] theorem State.modTeam_grids (s : State) (t : Nat) (f : Team → Team) : (s.modTeam t f).grids = s.grids := rfl
@[simp] theorem State.modTeam_ctxs (s : State) (t : Nat) (f : Team → Team) : (s.modTeam t f).ctxs = s.ctxs := rfl
@[simp] theorem State.modTeam_cores (s : State) (t : Nat) (f : Team → Team) : (s.modTeam t f).cores = s.cores := rfl
@[simp] theorem State.modTeam_dies (s : State) (t : Nat) (f : Team → Team) : (s.modTeam t f).dies = s.dies := rfl
@[simp] theorem State.modTeam_mem (s : State) (t : Nat) (f : Team → Team) : (s.modTeam t f).mem = s.mem := rfl
@[simp] theorem State.modTeam_eng (s : State) (t : Nat) (f : Team → Team) : (s.modTeam t f).eng = s.eng := rfl
@[simp] theorem State.modTeam_fixer (s : State) (t : Nat) (f : Team → Team) : (s.modTeam t f).fixer = s.fixer := rfl
@[simp] theorem State.modTeam_xl (s : State) (t : Nat) (f : Team → Team) : (s.modTeam t f).xl = s.xl := rfl
@[simp] theorem State.modTeam_queues (s : State) (t : Nat) (f : Team → Team) : (s.modTeam t f).queues = s.queues := rfl
@[simp] theorem State.modTeam_fab (s : State) (t : Nat) (f : Team → Team) : (s.modTeam t f).fab = s.fab := rfl
@[simp] theorem State.modTeam_trust (s : State) (t : Nat) (f : Team → Team) : (s.modTeam t f).trust = s.trust := rfl
@[simp] theorem State.modTeam_harts (s : State) (t : Nat) (f : Team → Team) : (s.modTeam t f).harts = s.harts := rfl
@[simp] theorem State.modTeam_ctl (s : State) (t : Nat) (f : Team → Team) : (s.modTeam t f).ctl = s.ctl := rfl
@[simp] theorem State.modTeam_m (s : State) (t : Nat) (f : Team → Team) : (s.modTeam t f).m = s.m := rfl
@[simp] theorem State.modTeam_at_thread (s : State) (t : Nat) (f : Team → Team) (y : Nat) : (s.modTeam t f).thread y = s.thread y := rfl
@[simp] theorem State.modTeam_at_crew (s : State) (t : Nat) (f : Team → Team) (y : Nat) : (s.modTeam t f).crew y = s.crew y := rfl
@[simp] theorem State.modTeam_at_grid (s : State) (t : Nat) (f : Team → Team) (y : Nat) : (s.modTeam t f).grid y = s.grid y := rfl
@[simp] theorem State.modTeam_at_core (s : State) (t : Nat) (f : Team → Team) (y : Nat) : (s.modTeam t f).core y = s.core y := rfl
@[simp] theorem State.modTeam_at_die (s : State) (t : Nat) (f : Team → Team) (y : Nat) : (s.modTeam t f).die y = s.die y := rfl
@[simp] theorem State.modTeam_at_ctx (s : State) (t : Nat) (f : Team → Team) (y : Nat) : (s.modTeam t f).ctx? y = s.ctx? y := rfl

/-! ### `setGrid` -/

@[simp] theorem State.setGrid_cycle (s : State) (g : Nat) (x : Grid) : (s.setGrid g x).cycle = s.cycle := rfl
@[simp] theorem State.setGrid_handle (s : State) (g : Nat) (x : Grid) : (s.setGrid g x).handle = s.handle := rfl
@[simp] theorem State.setGrid_age (s : State) (g : Nat) (x : Grid) : (s.setGrid g x).age = s.age := rfl
@[simp] theorem State.setGrid_threads (s : State) (g : Nat) (x : Grid) : (s.setGrid g x).threads = s.threads := rfl
@[simp] theorem State.setGrid_crews (s : State) (g : Nat) (x : Grid) : (s.setGrid g x).crews = s.crews := rfl
@[simp] theorem State.setGrid_teams (s : State) (g : Nat) (x : Grid) : (s.setGrid g x).teams = s.teams := rfl
@[simp] theorem State.setGrid_ctxs (s : State) (g : Nat) (x : Grid) : (s.setGrid g x).ctxs = s.ctxs := rfl
@[simp] theorem State.setGrid_cores (s : State) (g : Nat) (x : Grid) : (s.setGrid g x).cores = s.cores := rfl
@[simp] theorem State.setGrid_dies (s : State) (g : Nat) (x : Grid) : (s.setGrid g x).dies = s.dies := rfl
@[simp] theorem State.setGrid_mem (s : State) (g : Nat) (x : Grid) : (s.setGrid g x).mem = s.mem := rfl
@[simp] theorem State.setGrid_eng (s : State) (g : Nat) (x : Grid) : (s.setGrid g x).eng = s.eng := rfl
@[simp] theorem State.setGrid_fixer (s : State) (g : Nat) (x : Grid) : (s.setGrid g x).fixer = s.fixer := rfl
@[simp] theorem State.setGrid_xl (s : State) (g : Nat) (x : Grid) : (s.setGrid g x).xl = s.xl := rfl
@[simp] theorem State.setGrid_queues (s : State) (g : Nat) (x : Grid) : (s.setGrid g x).queues = s.queues := rfl
@[simp] theorem State.setGrid_fab (s : State) (g : Nat) (x : Grid) : (s.setGrid g x).fab = s.fab := rfl
@[simp] theorem State.setGrid_trust (s : State) (g : Nat) (x : Grid) : (s.setGrid g x).trust = s.trust := rfl
@[simp] theorem State.setGrid_harts (s : State) (g : Nat) (x : Grid) : (s.setGrid g x).harts = s.harts := rfl
@[simp] theorem State.setGrid_ctl (s : State) (g : Nat) (x : Grid) : (s.setGrid g x).ctl = s.ctl := rfl
@[simp] theorem State.setGrid_m (s : State) (g : Nat) (x : Grid) : (s.setGrid g x).m = s.m := rfl
@[simp] theorem State.setGrid_at_thread (s : State) (g : Nat) (x : Grid) (y : Nat) : (s.setGrid g x).thread y = s.thread y := rfl
@[simp] theorem State.setGrid_at_crew (s : State) (g : Nat) (x : Grid) (y : Nat) : (s.setGrid g x).crew y = s.crew y := rfl
@[simp] theorem State.setGrid_at_team (s : State) (g : Nat) (x : Grid) (y : Nat) : (s.setGrid g x).team y = s.team y := rfl
@[simp] theorem State.setGrid_at_core (s : State) (g : Nat) (x : Grid) (y : Nat) : (s.setGrid g x).core y = s.core y := rfl
@[simp] theorem State.setGrid_at_die (s : State) (g : Nat) (x : Grid) (y : Nat) : (s.setGrid g x).die y = s.die y := rfl
@[simp] theorem State.setGrid_at_ctx (s : State) (g : Nat) (x : Grid) (y : Nat) : (s.setGrid g x).ctx? y = s.ctx? y := rfl

/-! ### `modGrid` -/

@[simp] theorem State.modGrid_cycle (s : State) (g : Nat) (f : Grid → Grid) : (s.modGrid g f).cycle = s.cycle := rfl
@[simp] theorem State.modGrid_handle (s : State) (g : Nat) (f : Grid → Grid) : (s.modGrid g f).handle = s.handle := rfl
@[simp] theorem State.modGrid_age (s : State) (g : Nat) (f : Grid → Grid) : (s.modGrid g f).age = s.age := rfl
@[simp] theorem State.modGrid_threads (s : State) (g : Nat) (f : Grid → Grid) : (s.modGrid g f).threads = s.threads := rfl
@[simp] theorem State.modGrid_crews (s : State) (g : Nat) (f : Grid → Grid) : (s.modGrid g f).crews = s.crews := rfl
@[simp] theorem State.modGrid_teams (s : State) (g : Nat) (f : Grid → Grid) : (s.modGrid g f).teams = s.teams := rfl
@[simp] theorem State.modGrid_ctxs (s : State) (g : Nat) (f : Grid → Grid) : (s.modGrid g f).ctxs = s.ctxs := rfl
@[simp] theorem State.modGrid_cores (s : State) (g : Nat) (f : Grid → Grid) : (s.modGrid g f).cores = s.cores := rfl
@[simp] theorem State.modGrid_dies (s : State) (g : Nat) (f : Grid → Grid) : (s.modGrid g f).dies = s.dies := rfl
@[simp] theorem State.modGrid_mem (s : State) (g : Nat) (f : Grid → Grid) : (s.modGrid g f).mem = s.mem := rfl
@[simp] theorem State.modGrid_eng (s : State) (g : Nat) (f : Grid → Grid) : (s.modGrid g f).eng = s.eng := rfl
@[simp] theorem State.modGrid_fixer (s : State) (g : Nat) (f : Grid → Grid) : (s.modGrid g f).fixer = s.fixer := rfl
@[simp] theorem State.modGrid_xl (s : State) (g : Nat) (f : Grid → Grid) : (s.modGrid g f).xl = s.xl := rfl
@[simp] theorem State.modGrid_queues (s : State) (g : Nat) (f : Grid → Grid) : (s.modGrid g f).queues = s.queues := rfl
@[simp] theorem State.modGrid_fab (s : State) (g : Nat) (f : Grid → Grid) : (s.modGrid g f).fab = s.fab := rfl
@[simp] theorem State.modGrid_trust (s : State) (g : Nat) (f : Grid → Grid) : (s.modGrid g f).trust = s.trust := rfl
@[simp] theorem State.modGrid_harts (s : State) (g : Nat) (f : Grid → Grid) : (s.modGrid g f).harts = s.harts := rfl
@[simp] theorem State.modGrid_ctl (s : State) (g : Nat) (f : Grid → Grid) : (s.modGrid g f).ctl = s.ctl := rfl
@[simp] theorem State.modGrid_m (s : State) (g : Nat) (f : Grid → Grid) : (s.modGrid g f).m = s.m := rfl
@[simp] theorem State.modGrid_at_thread (s : State) (g : Nat) (f : Grid → Grid) (y : Nat) : (s.modGrid g f).thread y = s.thread y := rfl
@[simp] theorem State.modGrid_at_crew (s : State) (g : Nat) (f : Grid → Grid) (y : Nat) : (s.modGrid g f).crew y = s.crew y := rfl
@[simp] theorem State.modGrid_at_team (s : State) (g : Nat) (f : Grid → Grid) (y : Nat) : (s.modGrid g f).team y = s.team y := rfl
@[simp] theorem State.modGrid_at_core (s : State) (g : Nat) (f : Grid → Grid) (y : Nat) : (s.modGrid g f).core y = s.core y := rfl
@[simp] theorem State.modGrid_at_die (s : State) (g : Nat) (f : Grid → Grid) (y : Nat) : (s.modGrid g f).die y = s.die y := rfl
@[simp] theorem State.modGrid_at_ctx (s : State) (g : Nat) (f : Grid → Grid) (y : Nat) : (s.modGrid g f).ctx? y = s.ctx? y := rfl

/-! ### `setCore` -/

@[simp] theorem State.setCore_cycle (s : State) (c : Nat) (x : Core) : (s.setCore c x).cycle = s.cycle := rfl
@[simp] theorem State.setCore_handle (s : State) (c : Nat) (x : Core) : (s.setCore c x).handle = s.handle := rfl
@[simp] theorem State.setCore_age (s : State) (c : Nat) (x : Core) : (s.setCore c x).age = s.age := rfl
@[simp] theorem State.setCore_threads (s : State) (c : Nat) (x : Core) : (s.setCore c x).threads = s.threads := rfl
@[simp] theorem State.setCore_crews (s : State) (c : Nat) (x : Core) : (s.setCore c x).crews = s.crews := rfl
@[simp] theorem State.setCore_teams (s : State) (c : Nat) (x : Core) : (s.setCore c x).teams = s.teams := rfl
@[simp] theorem State.setCore_grids (s : State) (c : Nat) (x : Core) : (s.setCore c x).grids = s.grids := rfl
@[simp] theorem State.setCore_ctxs (s : State) (c : Nat) (x : Core) : (s.setCore c x).ctxs = s.ctxs := rfl
@[simp] theorem State.setCore_dies (s : State) (c : Nat) (x : Core) : (s.setCore c x).dies = s.dies := rfl
@[simp] theorem State.setCore_mem (s : State) (c : Nat) (x : Core) : (s.setCore c x).mem = s.mem := rfl
@[simp] theorem State.setCore_eng (s : State) (c : Nat) (x : Core) : (s.setCore c x).eng = s.eng := rfl
@[simp] theorem State.setCore_fixer (s : State) (c : Nat) (x : Core) : (s.setCore c x).fixer = s.fixer := rfl
@[simp] theorem State.setCore_xl (s : State) (c : Nat) (x : Core) : (s.setCore c x).xl = s.xl := rfl
@[simp] theorem State.setCore_queues (s : State) (c : Nat) (x : Core) : (s.setCore c x).queues = s.queues := rfl
@[simp] theorem State.setCore_fab (s : State) (c : Nat) (x : Core) : (s.setCore c x).fab = s.fab := rfl
@[simp] theorem State.setCore_trust (s : State) (c : Nat) (x : Core) : (s.setCore c x).trust = s.trust := rfl
@[simp] theorem State.setCore_harts (s : State) (c : Nat) (x : Core) : (s.setCore c x).harts = s.harts := rfl
@[simp] theorem State.setCore_ctl (s : State) (c : Nat) (x : Core) : (s.setCore c x).ctl = s.ctl := rfl
@[simp] theorem State.setCore_m (s : State) (c : Nat) (x : Core) : (s.setCore c x).m = s.m := rfl
@[simp] theorem State.setCore_at_thread (s : State) (c : Nat) (x : Core) (y : Nat) : (s.setCore c x).thread y = s.thread y := rfl
@[simp] theorem State.setCore_at_crew (s : State) (c : Nat) (x : Core) (y : Nat) : (s.setCore c x).crew y = s.crew y := rfl
@[simp] theorem State.setCore_at_team (s : State) (c : Nat) (x : Core) (y : Nat) : (s.setCore c x).team y = s.team y := rfl
@[simp] theorem State.setCore_at_grid (s : State) (c : Nat) (x : Core) (y : Nat) : (s.setCore c x).grid y = s.grid y := rfl
@[simp] theorem State.setCore_at_die (s : State) (c : Nat) (x : Core) (y : Nat) : (s.setCore c x).die y = s.die y := rfl
@[simp] theorem State.setCore_at_ctx (s : State) (c : Nat) (x : Core) (y : Nat) : (s.setCore c x).ctx? y = s.ctx? y := rfl

/-! ### `modCore` -/

@[simp] theorem State.modCore_cycle (s : State) (c : Nat) (f : Core → Core) : (s.modCore c f).cycle = s.cycle := rfl
@[simp] theorem State.modCore_handle (s : State) (c : Nat) (f : Core → Core) : (s.modCore c f).handle = s.handle := rfl
@[simp] theorem State.modCore_age (s : State) (c : Nat) (f : Core → Core) : (s.modCore c f).age = s.age := rfl
@[simp] theorem State.modCore_threads (s : State) (c : Nat) (f : Core → Core) : (s.modCore c f).threads = s.threads := rfl
@[simp] theorem State.modCore_crews (s : State) (c : Nat) (f : Core → Core) : (s.modCore c f).crews = s.crews := rfl
@[simp] theorem State.modCore_teams (s : State) (c : Nat) (f : Core → Core) : (s.modCore c f).teams = s.teams := rfl
@[simp] theorem State.modCore_grids (s : State) (c : Nat) (f : Core → Core) : (s.modCore c f).grids = s.grids := rfl
@[simp] theorem State.modCore_ctxs (s : State) (c : Nat) (f : Core → Core) : (s.modCore c f).ctxs = s.ctxs := rfl
@[simp] theorem State.modCore_dies (s : State) (c : Nat) (f : Core → Core) : (s.modCore c f).dies = s.dies := rfl
@[simp] theorem State.modCore_mem (s : State) (c : Nat) (f : Core → Core) : (s.modCore c f).mem = s.mem := rfl
@[simp] theorem State.modCore_eng (s : State) (c : Nat) (f : Core → Core) : (s.modCore c f).eng = s.eng := rfl
@[simp] theorem State.modCore_fixer (s : State) (c : Nat) (f : Core → Core) : (s.modCore c f).fixer = s.fixer := rfl
@[simp] theorem State.modCore_xl (s : State) (c : Nat) (f : Core → Core) : (s.modCore c f).xl = s.xl := rfl
@[simp] theorem State.modCore_queues (s : State) (c : Nat) (f : Core → Core) : (s.modCore c f).queues = s.queues := rfl
@[simp] theorem State.modCore_fab (s : State) (c : Nat) (f : Core → Core) : (s.modCore c f).fab = s.fab := rfl
@[simp] theorem State.modCore_trust (s : State) (c : Nat) (f : Core → Core) : (s.modCore c f).trust = s.trust := rfl
@[simp] theorem State.modCore_harts (s : State) (c : Nat) (f : Core → Core) : (s.modCore c f).harts = s.harts := rfl
@[simp] theorem State.modCore_ctl (s : State) (c : Nat) (f : Core → Core) : (s.modCore c f).ctl = s.ctl := rfl
@[simp] theorem State.modCore_m (s : State) (c : Nat) (f : Core → Core) : (s.modCore c f).m = s.m := rfl
@[simp] theorem State.modCore_at_thread (s : State) (c : Nat) (f : Core → Core) (y : Nat) : (s.modCore c f).thread y = s.thread y := rfl
@[simp] theorem State.modCore_at_crew (s : State) (c : Nat) (f : Core → Core) (y : Nat) : (s.modCore c f).crew y = s.crew y := rfl
@[simp] theorem State.modCore_at_team (s : State) (c : Nat) (f : Core → Core) (y : Nat) : (s.modCore c f).team y = s.team y := rfl
@[simp] theorem State.modCore_at_grid (s : State) (c : Nat) (f : Core → Core) (y : Nat) : (s.modCore c f).grid y = s.grid y := rfl
@[simp] theorem State.modCore_at_die (s : State) (c : Nat) (f : Core → Core) (y : Nat) : (s.modCore c f).die y = s.die y := rfl
@[simp] theorem State.modCore_at_ctx (s : State) (c : Nat) (f : Core → Core) (y : Nat) : (s.modCore c f).ctx? y = s.ctx? y := rfl

/-! ### `setDie` -/

@[simp] theorem State.setDie_cycle (s : State) (d : Nat) (x : Die) : (s.setDie d x).cycle = s.cycle := rfl
@[simp] theorem State.setDie_handle (s : State) (d : Nat) (x : Die) : (s.setDie d x).handle = s.handle := rfl
@[simp] theorem State.setDie_age (s : State) (d : Nat) (x : Die) : (s.setDie d x).age = s.age := rfl
@[simp] theorem State.setDie_threads (s : State) (d : Nat) (x : Die) : (s.setDie d x).threads = s.threads := rfl
@[simp] theorem State.setDie_crews (s : State) (d : Nat) (x : Die) : (s.setDie d x).crews = s.crews := rfl
@[simp] theorem State.setDie_teams (s : State) (d : Nat) (x : Die) : (s.setDie d x).teams = s.teams := rfl
@[simp] theorem State.setDie_grids (s : State) (d : Nat) (x : Die) : (s.setDie d x).grids = s.grids := rfl
@[simp] theorem State.setDie_ctxs (s : State) (d : Nat) (x : Die) : (s.setDie d x).ctxs = s.ctxs := rfl
@[simp] theorem State.setDie_cores (s : State) (d : Nat) (x : Die) : (s.setDie d x).cores = s.cores := rfl
@[simp] theorem State.setDie_mem (s : State) (d : Nat) (x : Die) : (s.setDie d x).mem = s.mem := rfl
@[simp] theorem State.setDie_eng (s : State) (d : Nat) (x : Die) : (s.setDie d x).eng = s.eng := rfl
@[simp] theorem State.setDie_fixer (s : State) (d : Nat) (x : Die) : (s.setDie d x).fixer = s.fixer := rfl
@[simp] theorem State.setDie_xl (s : State) (d : Nat) (x : Die) : (s.setDie d x).xl = s.xl := rfl
@[simp] theorem State.setDie_queues (s : State) (d : Nat) (x : Die) : (s.setDie d x).queues = s.queues := rfl
@[simp] theorem State.setDie_fab (s : State) (d : Nat) (x : Die) : (s.setDie d x).fab = s.fab := rfl
@[simp] theorem State.setDie_trust (s : State) (d : Nat) (x : Die) : (s.setDie d x).trust = s.trust := rfl
@[simp] theorem State.setDie_harts (s : State) (d : Nat) (x : Die) : (s.setDie d x).harts = s.harts := rfl
@[simp] theorem State.setDie_ctl (s : State) (d : Nat) (x : Die) : (s.setDie d x).ctl = s.ctl := rfl
@[simp] theorem State.setDie_m (s : State) (d : Nat) (x : Die) : (s.setDie d x).m = s.m := rfl
@[simp] theorem State.setDie_at_thread (s : State) (d : Nat) (x : Die) (y : Nat) : (s.setDie d x).thread y = s.thread y := rfl
@[simp] theorem State.setDie_at_crew (s : State) (d : Nat) (x : Die) (y : Nat) : (s.setDie d x).crew y = s.crew y := rfl
@[simp] theorem State.setDie_at_team (s : State) (d : Nat) (x : Die) (y : Nat) : (s.setDie d x).team y = s.team y := rfl
@[simp] theorem State.setDie_at_grid (s : State) (d : Nat) (x : Die) (y : Nat) : (s.setDie d x).grid y = s.grid y := rfl
@[simp] theorem State.setDie_at_core (s : State) (d : Nat) (x : Die) (y : Nat) : (s.setDie d x).core y = s.core y := rfl
@[simp] theorem State.setDie_at_ctx (s : State) (d : Nat) (x : Die) (y : Nat) : (s.setDie d x).ctx? y = s.ctx? y := rfl

/-! ### `modDie` -/

@[simp] theorem State.modDie_cycle (s : State) (d : Nat) (f : Die → Die) : (s.modDie d f).cycle = s.cycle := rfl
@[simp] theorem State.modDie_handle (s : State) (d : Nat) (f : Die → Die) : (s.modDie d f).handle = s.handle := rfl
@[simp] theorem State.modDie_age (s : State) (d : Nat) (f : Die → Die) : (s.modDie d f).age = s.age := rfl
@[simp] theorem State.modDie_threads (s : State) (d : Nat) (f : Die → Die) : (s.modDie d f).threads = s.threads := rfl
@[simp] theorem State.modDie_crews (s : State) (d : Nat) (f : Die → Die) : (s.modDie d f).crews = s.crews := rfl
@[simp] theorem State.modDie_teams (s : State) (d : Nat) (f : Die → Die) : (s.modDie d f).teams = s.teams := rfl
@[simp] theorem State.modDie_grids (s : State) (d : Nat) (f : Die → Die) : (s.modDie d f).grids = s.grids := rfl
@[simp] theorem State.modDie_ctxs (s : State) (d : Nat) (f : Die → Die) : (s.modDie d f).ctxs = s.ctxs := rfl
@[simp] theorem State.modDie_cores (s : State) (d : Nat) (f : Die → Die) : (s.modDie d f).cores = s.cores := rfl
@[simp] theorem State.modDie_mem (s : State) (d : Nat) (f : Die → Die) : (s.modDie d f).mem = s.mem := rfl
@[simp] theorem State.modDie_eng (s : State) (d : Nat) (f : Die → Die) : (s.modDie d f).eng = s.eng := rfl
@[simp] theorem State.modDie_fixer (s : State) (d : Nat) (f : Die → Die) : (s.modDie d f).fixer = s.fixer := rfl
@[simp] theorem State.modDie_xl (s : State) (d : Nat) (f : Die → Die) : (s.modDie d f).xl = s.xl := rfl
@[simp] theorem State.modDie_queues (s : State) (d : Nat) (f : Die → Die) : (s.modDie d f).queues = s.queues := rfl
@[simp] theorem State.modDie_fab (s : State) (d : Nat) (f : Die → Die) : (s.modDie d f).fab = s.fab := rfl
@[simp] theorem State.modDie_trust (s : State) (d : Nat) (f : Die → Die) : (s.modDie d f).trust = s.trust := rfl
@[simp] theorem State.modDie_harts (s : State) (d : Nat) (f : Die → Die) : (s.modDie d f).harts = s.harts := rfl
@[simp] theorem State.modDie_ctl (s : State) (d : Nat) (f : Die → Die) : (s.modDie d f).ctl = s.ctl := rfl
@[simp] theorem State.modDie_m (s : State) (d : Nat) (f : Die → Die) : (s.modDie d f).m = s.m := rfl
@[simp] theorem State.modDie_at_thread (s : State) (d : Nat) (f : Die → Die) (y : Nat) : (s.modDie d f).thread y = s.thread y := rfl
@[simp] theorem State.modDie_at_crew (s : State) (d : Nat) (f : Die → Die) (y : Nat) : (s.modDie d f).crew y = s.crew y := rfl
@[simp] theorem State.modDie_at_team (s : State) (d : Nat) (f : Die → Die) (y : Nat) : (s.modDie d f).team y = s.team y := rfl
@[simp] theorem State.modDie_at_grid (s : State) (d : Nat) (f : Die → Die) (y : Nat) : (s.modDie d f).grid y = s.grid y := rfl
@[simp] theorem State.modDie_at_core (s : State) (d : Nat) (f : Die → Die) (y : Nat) : (s.modDie d f).core y = s.core y := rfl
@[simp] theorem State.modDie_at_ctx (s : State) (d : Nat) (f : Die → Die) (y : Nat) : (s.modDie d f).ctx? y = s.ctx? y := rfl

/-! ### `modCtx` -/

@[simp] theorem State.modCtx_cycle (s : State) (k : Nat) (f : Ctx → Ctx) : (s.modCtx k f).cycle = s.cycle := rfl
@[simp] theorem State.modCtx_handle (s : State) (k : Nat) (f : Ctx → Ctx) : (s.modCtx k f).handle = s.handle := rfl
@[simp] theorem State.modCtx_age (s : State) (k : Nat) (f : Ctx → Ctx) : (s.modCtx k f).age = s.age := rfl
@[simp] theorem State.modCtx_threads (s : State) (k : Nat) (f : Ctx → Ctx) : (s.modCtx k f).threads = s.threads := rfl
@[simp] theorem State.modCtx_crews (s : State) (k : Nat) (f : Ctx → Ctx) : (s.modCtx k f).crews = s.crews := rfl
@[simp] theorem State.modCtx_teams (s : State) (k : Nat) (f : Ctx → Ctx) : (s.modCtx k f).teams = s.teams := rfl
@[simp] theorem State.modCtx_grids (s : State) (k : Nat) (f : Ctx → Ctx) : (s.modCtx k f).grids = s.grids := rfl
@[simp] theorem State.modCtx_cores (s : State) (k : Nat) (f : Ctx → Ctx) : (s.modCtx k f).cores = s.cores := rfl
@[simp] theorem State.modCtx_dies (s : State) (k : Nat) (f : Ctx → Ctx) : (s.modCtx k f).dies = s.dies := rfl
@[simp] theorem State.modCtx_mem (s : State) (k : Nat) (f : Ctx → Ctx) : (s.modCtx k f).mem = s.mem := rfl
@[simp] theorem State.modCtx_eng (s : State) (k : Nat) (f : Ctx → Ctx) : (s.modCtx k f).eng = s.eng := rfl
@[simp] theorem State.modCtx_fixer (s : State) (k : Nat) (f : Ctx → Ctx) : (s.modCtx k f).fixer = s.fixer := rfl
@[simp] theorem State.modCtx_xl (s : State) (k : Nat) (f : Ctx → Ctx) : (s.modCtx k f).xl = s.xl := rfl
@[simp] theorem State.modCtx_queues (s : State) (k : Nat) (f : Ctx → Ctx) : (s.modCtx k f).queues = s.queues := rfl
@[simp] theorem State.modCtx_fab (s : State) (k : Nat) (f : Ctx → Ctx) : (s.modCtx k f).fab = s.fab := rfl
@[simp] theorem State.modCtx_trust (s : State) (k : Nat) (f : Ctx → Ctx) : (s.modCtx k f).trust = s.trust := rfl
@[simp] theorem State.modCtx_harts (s : State) (k : Nat) (f : Ctx → Ctx) : (s.modCtx k f).harts = s.harts := rfl
@[simp] theorem State.modCtx_ctl (s : State) (k : Nat) (f : Ctx → Ctx) : (s.modCtx k f).ctl = s.ctl := rfl
@[simp] theorem State.modCtx_m (s : State) (k : Nat) (f : Ctx → Ctx) : (s.modCtx k f).m = s.m := rfl
@[simp] theorem State.modCtx_at_thread (s : State) (k : Nat) (f : Ctx → Ctx) (y : Nat) : (s.modCtx k f).thread y = s.thread y := rfl
@[simp] theorem State.modCtx_at_crew (s : State) (k : Nat) (f : Ctx → Ctx) (y : Nat) : (s.modCtx k f).crew y = s.crew y := rfl
@[simp] theorem State.modCtx_at_team (s : State) (k : Nat) (f : Ctx → Ctx) (y : Nat) : (s.modCtx k f).team y = s.team y := rfl
@[simp] theorem State.modCtx_at_grid (s : State) (k : Nat) (f : Ctx → Ctx) (y : Nat) : (s.modCtx k f).grid y = s.grid y := rfl
@[simp] theorem State.modCtx_at_core (s : State) (k : Nat) (f : Ctx → Ctx) (y : Nat) : (s.modCtx k f).core y = s.core y := rfl
@[simp] theorem State.modCtx_at_die (s : State) (k : Nat) (f : Ctx → Ctx) (y : Nat) : (s.modCtx k f).die y = s.die y := rfl

/-! ### `count` -/

@[simp] theorem State.count_cycle (s : State) (k i n : Nat) : (s.count k i n).cycle = s.cycle := rfl
@[simp] theorem State.count_handle (s : State) (k i n : Nat) : (s.count k i n).handle = s.handle := rfl
@[simp] theorem State.count_age (s : State) (k i n : Nat) : (s.count k i n).age = s.age := rfl
@[simp] theorem State.count_threads (s : State) (k i n : Nat) : (s.count k i n).threads = s.threads := rfl
@[simp] theorem State.count_crews (s : State) (k i n : Nat) : (s.count k i n).crews = s.crews := rfl
@[simp] theorem State.count_teams (s : State) (k i n : Nat) : (s.count k i n).teams = s.teams := rfl
@[simp] theorem State.count_grids (s : State) (k i n : Nat) : (s.count k i n).grids = s.grids := rfl
@[simp] theorem State.count_cores (s : State) (k i n : Nat) : (s.count k i n).cores = s.cores := rfl
@[simp] theorem State.count_dies (s : State) (k i n : Nat) : (s.count k i n).dies = s.dies := rfl
@[simp] theorem State.count_mem (s : State) (k i n : Nat) : (s.count k i n).mem = s.mem := rfl
@[simp] theorem State.count_eng (s : State) (k i n : Nat) : (s.count k i n).eng = s.eng := rfl
@[simp] theorem State.count_fixer (s : State) (k i n : Nat) : (s.count k i n).fixer = s.fixer := rfl
@[simp] theorem State.count_xl (s : State) (k i n : Nat) : (s.count k i n).xl = s.xl := rfl
@[simp] theorem State.count_queues (s : State) (k i n : Nat) : (s.count k i n).queues = s.queues := rfl
@[simp] theorem State.count_fab (s : State) (k i n : Nat) : (s.count k i n).fab = s.fab := rfl
@[simp] theorem State.count_trust (s : State) (k i n : Nat) : (s.count k i n).trust = s.trust := rfl
@[simp] theorem State.count_harts (s : State) (k i n : Nat) : (s.count k i n).harts = s.harts := rfl
@[simp] theorem State.count_ctl (s : State) (k i n : Nat) : (s.count k i n).ctl = s.ctl := rfl
@[simp] theorem State.count_m (s : State) (k i n : Nat) : (s.count k i n).m = s.m := rfl
@[simp] theorem State.count_at_thread (s : State) (k i n : Nat) (y : Nat) : (s.count k i n).thread y = s.thread y := rfl
@[simp] theorem State.count_at_crew (s : State) (k i n : Nat) (y : Nat) : (s.count k i n).crew y = s.crew y := rfl
@[simp] theorem State.count_at_team (s : State) (k i n : Nat) (y : Nat) : (s.count k i n).team y = s.team y := rfl
@[simp] theorem State.count_at_grid (s : State) (k i n : Nat) (y : Nat) : (s.count k i n).grid y = s.grid y := rfl
@[simp] theorem State.count_at_core (s : State) (k i n : Nat) (y : Nat) : (s.count k i n).core y = s.core y := rfl
@[simp] theorem State.count_at_die (s : State) (k i n : Nat) (y : Nat) : (s.count k i n).die y = s.die y := rfl

/-! ### `setHart` -/

@[simp] theorem State.setHart_cycle (s : State) (h : Nat) (x : Hart) : (s.setHart h x).cycle = s.cycle := rfl
@[simp] theorem State.setHart_handle (s : State) (h : Nat) (x : Hart) : (s.setHart h x).handle = s.handle := rfl
@[simp] theorem State.setHart_age (s : State) (h : Nat) (x : Hart) : (s.setHart h x).age = s.age := rfl
@[simp] theorem State.setHart_threads (s : State) (h : Nat) (x : Hart) : (s.setHart h x).threads = s.threads := rfl
@[simp] theorem State.setHart_crews (s : State) (h : Nat) (x : Hart) : (s.setHart h x).crews = s.crews := rfl
@[simp] theorem State.setHart_teams (s : State) (h : Nat) (x : Hart) : (s.setHart h x).teams = s.teams := rfl
@[simp] theorem State.setHart_grids (s : State) (h : Nat) (x : Hart) : (s.setHart h x).grids = s.grids := rfl
@[simp] theorem State.setHart_ctxs (s : State) (h : Nat) (x : Hart) : (s.setHart h x).ctxs = s.ctxs := rfl
@[simp] theorem State.setHart_cores (s : State) (h : Nat) (x : Hart) : (s.setHart h x).cores = s.cores := rfl
@[simp] theorem State.setHart_dies (s : State) (h : Nat) (x : Hart) : (s.setHart h x).dies = s.dies := rfl
@[simp] theorem State.setHart_mem (s : State) (h : Nat) (x : Hart) : (s.setHart h x).mem = s.mem := rfl
@[simp] theorem State.setHart_eng (s : State) (h : Nat) (x : Hart) : (s.setHart h x).eng = s.eng := rfl
@[simp] theorem State.setHart_fixer (s : State) (h : Nat) (x : Hart) : (s.setHart h x).fixer = s.fixer := rfl
@[simp] theorem State.setHart_xl (s : State) (h : Nat) (x : Hart) : (s.setHart h x).xl = s.xl := rfl
@[simp] theorem State.setHart_queues (s : State) (h : Nat) (x : Hart) : (s.setHart h x).queues = s.queues := rfl
@[simp] theorem State.setHart_fab (s : State) (h : Nat) (x : Hart) : (s.setHart h x).fab = s.fab := rfl
@[simp] theorem State.setHart_trust (s : State) (h : Nat) (x : Hart) : (s.setHart h x).trust = s.trust := rfl
@[simp] theorem State.setHart_ctl (s : State) (h : Nat) (x : Hart) : (s.setHart h x).ctl = s.ctl := rfl
@[simp] theorem State.setHart_m (s : State) (h : Nat) (x : Hart) : (s.setHart h x).m = s.m := rfl
@[simp] theorem State.setHart_at_thread (s : State) (h : Nat) (x : Hart) (y : Nat) : (s.setHart h x).thread y = s.thread y := rfl
@[simp] theorem State.setHart_at_crew (s : State) (h : Nat) (x : Hart) (y : Nat) : (s.setHart h x).crew y = s.crew y := rfl
@[simp] theorem State.setHart_at_team (s : State) (h : Nat) (x : Hart) (y : Nat) : (s.setHart h x).team y = s.team y := rfl
@[simp] theorem State.setHart_at_grid (s : State) (h : Nat) (x : Hart) (y : Nat) : (s.setHart h x).grid y = s.grid y := rfl
@[simp] theorem State.setHart_at_core (s : State) (h : Nat) (x : Hart) (y : Nat) : (s.setHart h x).core y = s.core y := rfl
@[simp] theorem State.setHart_at_die (s : State) (h : Nat) (x : Hart) (y : Nat) : (s.setHart h x).die y = s.die y := rfl
@[simp] theorem State.setHart_at_ctx (s : State) (h : Nat) (x : Hart) (y : Nat) : (s.setHart h x).ctx? y = s.ctx? y := rfl

/-! ### `setQueue` -/

@[simp] theorem State.setQueue_cycle (s : State) (q : Nat) (x : Queue) : (s.setQueue q x).cycle = s.cycle := rfl
@[simp] theorem State.setQueue_handle (s : State) (q : Nat) (x : Queue) : (s.setQueue q x).handle = s.handle := rfl
@[simp] theorem State.setQueue_age (s : State) (q : Nat) (x : Queue) : (s.setQueue q x).age = s.age := rfl
@[simp] theorem State.setQueue_threads (s : State) (q : Nat) (x : Queue) : (s.setQueue q x).threads = s.threads := rfl
@[simp] theorem State.setQueue_crews (s : State) (q : Nat) (x : Queue) : (s.setQueue q x).crews = s.crews := rfl
@[simp] theorem State.setQueue_teams (s : State) (q : Nat) (x : Queue) : (s.setQueue q x).teams = s.teams := rfl
@[simp] theorem State.setQueue_grids (s : State) (q : Nat) (x : Queue) : (s.setQueue q x).grids = s.grids := rfl
@[simp] theorem State.setQueue_ctxs (s : State) (q : Nat) (x : Queue) : (s.setQueue q x).ctxs = s.ctxs := rfl
@[simp] theorem State.setQueue_cores (s : State) (q : Nat) (x : Queue) : (s.setQueue q x).cores = s.cores := rfl
@[simp] theorem State.setQueue_dies (s : State) (q : Nat) (x : Queue) : (s.setQueue q x).dies = s.dies := rfl
@[simp] theorem State.setQueue_mem (s : State) (q : Nat) (x : Queue) : (s.setQueue q x).mem = s.mem := rfl
@[simp] theorem State.setQueue_eng (s : State) (q : Nat) (x : Queue) : (s.setQueue q x).eng = s.eng := rfl
@[simp] theorem State.setQueue_fixer (s : State) (q : Nat) (x : Queue) : (s.setQueue q x).fixer = s.fixer := rfl
@[simp] theorem State.setQueue_xl (s : State) (q : Nat) (x : Queue) : (s.setQueue q x).xl = s.xl := rfl
@[simp] theorem State.setQueue_fab (s : State) (q : Nat) (x : Queue) : (s.setQueue q x).fab = s.fab := rfl
@[simp] theorem State.setQueue_trust (s : State) (q : Nat) (x : Queue) : (s.setQueue q x).trust = s.trust := rfl
@[simp] theorem State.setQueue_harts (s : State) (q : Nat) (x : Queue) : (s.setQueue q x).harts = s.harts := rfl
@[simp] theorem State.setQueue_ctl (s : State) (q : Nat) (x : Queue) : (s.setQueue q x).ctl = s.ctl := rfl
@[simp] theorem State.setQueue_m (s : State) (q : Nat) (x : Queue) : (s.setQueue q x).m = s.m := rfl
@[simp] theorem State.setQueue_at_thread (s : State) (q : Nat) (x : Queue) (y : Nat) : (s.setQueue q x).thread y = s.thread y := rfl
@[simp] theorem State.setQueue_at_crew (s : State) (q : Nat) (x : Queue) (y : Nat) : (s.setQueue q x).crew y = s.crew y := rfl
@[simp] theorem State.setQueue_at_team (s : State) (q : Nat) (x : Queue) (y : Nat) : (s.setQueue q x).team y = s.team y := rfl
@[simp] theorem State.setQueue_at_grid (s : State) (q : Nat) (x : Queue) (y : Nat) : (s.setQueue q x).grid y = s.grid y := rfl
@[simp] theorem State.setQueue_at_core (s : State) (q : Nat) (x : Queue) (y : Nat) : (s.setQueue q x).core y = s.core y := rfl
@[simp] theorem State.setQueue_at_die (s : State) (q : Nat) (x : Queue) (y : Nat) : (s.setQueue q x).die y = s.die y := rfl
@[simp] theorem State.setQueue_at_ctx (s : State) (q : Nat) (x : Queue) (y : Nat) : (s.setQueue q x).ctx? y = s.ctx? y := rfl

/-! ### `modEng` -/

@[simp] theorem State.modEng_cycle (s : State) (f : Engines → Engines) : (s.modEng f).cycle = s.cycle := rfl
@[simp] theorem State.modEng_handle (s : State) (f : Engines → Engines) : (s.modEng f).handle = s.handle := rfl
@[simp] theorem State.modEng_age (s : State) (f : Engines → Engines) : (s.modEng f).age = s.age := rfl
@[simp] theorem State.modEng_threads (s : State) (f : Engines → Engines) : (s.modEng f).threads = s.threads := rfl
@[simp] theorem State.modEng_crews (s : State) (f : Engines → Engines) : (s.modEng f).crews = s.crews := rfl
@[simp] theorem State.modEng_teams (s : State) (f : Engines → Engines) : (s.modEng f).teams = s.teams := rfl
@[simp] theorem State.modEng_grids (s : State) (f : Engines → Engines) : (s.modEng f).grids = s.grids := rfl
@[simp] theorem State.modEng_ctxs (s : State) (f : Engines → Engines) : (s.modEng f).ctxs = s.ctxs := rfl
@[simp] theorem State.modEng_cores (s : State) (f : Engines → Engines) : (s.modEng f).cores = s.cores := rfl
@[simp] theorem State.modEng_dies (s : State) (f : Engines → Engines) : (s.modEng f).dies = s.dies := rfl
@[simp] theorem State.modEng_mem (s : State) (f : Engines → Engines) : (s.modEng f).mem = s.mem := rfl
@[simp] theorem State.modEng_fixer (s : State) (f : Engines → Engines) : (s.modEng f).fixer = s.fixer := rfl
@[simp] theorem State.modEng_xl (s : State) (f : Engines → Engines) : (s.modEng f).xl = s.xl := rfl
@[simp] theorem State.modEng_queues (s : State) (f : Engines → Engines) : (s.modEng f).queues = s.queues := rfl
@[simp] theorem State.modEng_fab (s : State) (f : Engines → Engines) : (s.modEng f).fab = s.fab := rfl
@[simp] theorem State.modEng_trust (s : State) (f : Engines → Engines) : (s.modEng f).trust = s.trust := rfl
@[simp] theorem State.modEng_harts (s : State) (f : Engines → Engines) : (s.modEng f).harts = s.harts := rfl
@[simp] theorem State.modEng_ctl (s : State) (f : Engines → Engines) : (s.modEng f).ctl = s.ctl := rfl
@[simp] theorem State.modEng_m (s : State) (f : Engines → Engines) : (s.modEng f).m = s.m := rfl
@[simp] theorem State.modEng_at_thread (s : State) (f : Engines → Engines) (y : Nat) : (s.modEng f).thread y = s.thread y := rfl
@[simp] theorem State.modEng_at_crew (s : State) (f : Engines → Engines) (y : Nat) : (s.modEng f).crew y = s.crew y := rfl
@[simp] theorem State.modEng_at_team (s : State) (f : Engines → Engines) (y : Nat) : (s.modEng f).team y = s.team y := rfl
@[simp] theorem State.modEng_at_grid (s : State) (f : Engines → Engines) (y : Nat) : (s.modEng f).grid y = s.grid y := rfl
@[simp] theorem State.modEng_at_core (s : State) (f : Engines → Engines) (y : Nat) : (s.modEng f).core y = s.core y := rfl
@[simp] theorem State.modEng_at_die (s : State) (f : Engines → Engines) (y : Nat) : (s.modEng f).die y = s.die y := rfl
@[simp] theorem State.modEng_at_ctx (s : State) (f : Engines → Engines) (y : Nat) : (s.modEng f).ctx? y = s.ctx? y := rfl

/-! ### `modM` -/

@[simp] theorem State.modM_cycle (s : State) (f : Model → Model) : (s.modM f).cycle = s.cycle := rfl
@[simp] theorem State.modM_handle (s : State) (f : Model → Model) : (s.modM f).handle = s.handle := rfl
@[simp] theorem State.modM_age (s : State) (f : Model → Model) : (s.modM f).age = s.age := rfl
@[simp] theorem State.modM_threads (s : State) (f : Model → Model) : (s.modM f).threads = s.threads := rfl
@[simp] theorem State.modM_crews (s : State) (f : Model → Model) : (s.modM f).crews = s.crews := rfl
@[simp] theorem State.modM_teams (s : State) (f : Model → Model) : (s.modM f).teams = s.teams := rfl
@[simp] theorem State.modM_grids (s : State) (f : Model → Model) : (s.modM f).grids = s.grids := rfl
@[simp] theorem State.modM_ctxs (s : State) (f : Model → Model) : (s.modM f).ctxs = s.ctxs := rfl
@[simp] theorem State.modM_cores (s : State) (f : Model → Model) : (s.modM f).cores = s.cores := rfl
@[simp] theorem State.modM_dies (s : State) (f : Model → Model) : (s.modM f).dies = s.dies := rfl
@[simp] theorem State.modM_mem (s : State) (f : Model → Model) : (s.modM f).mem = s.mem := rfl
@[simp] theorem State.modM_eng (s : State) (f : Model → Model) : (s.modM f).eng = s.eng := rfl
@[simp] theorem State.modM_fixer (s : State) (f : Model → Model) : (s.modM f).fixer = s.fixer := rfl
@[simp] theorem State.modM_xl (s : State) (f : Model → Model) : (s.modM f).xl = s.xl := rfl
@[simp] theorem State.modM_queues (s : State) (f : Model → Model) : (s.modM f).queues = s.queues := rfl
@[simp] theorem State.modM_fab (s : State) (f : Model → Model) : (s.modM f).fab = s.fab := rfl
@[simp] theorem State.modM_trust (s : State) (f : Model → Model) : (s.modM f).trust = s.trust := rfl
@[simp] theorem State.modM_harts (s : State) (f : Model → Model) : (s.modM f).harts = s.harts := rfl
@[simp] theorem State.modM_ctl (s : State) (f : Model → Model) : (s.modM f).ctl = s.ctl := rfl
@[simp] theorem State.modM_at_thread (s : State) (f : Model → Model) (y : Nat) : (s.modM f).thread y = s.thread y := rfl
@[simp] theorem State.modM_at_crew (s : State) (f : Model → Model) (y : Nat) : (s.modM f).crew y = s.crew y := rfl
@[simp] theorem State.modM_at_team (s : State) (f : Model → Model) (y : Nat) : (s.modM f).team y = s.team y := rfl
@[simp] theorem State.modM_at_grid (s : State) (f : Model → Model) (y : Nat) : (s.modM f).grid y = s.grid y := rfl
@[simp] theorem State.modM_at_core (s : State) (f : Model → Model) (y : Nat) : (s.modM f).core y = s.core y := rfl
@[simp] theorem State.modM_at_die (s : State) (f : Model → Model) (y : Nat) : (s.modM f).die y = s.die y := rfl
@[simp] theorem State.modM_at_ctx (s : State) (f : Model → Model) (y : Nat) : (s.modM f).ctx? y = s.ctx? y := rfl

/-! ### `modCur` -/

@[simp] theorem State.modCur_cycle (s : State) (f : Cur → Cur) : (s.modCur f).cycle = s.cycle := rfl
@[simp] theorem State.modCur_handle (s : State) (f : Cur → Cur) : (s.modCur f).handle = s.handle := rfl
@[simp] theorem State.modCur_age (s : State) (f : Cur → Cur) : (s.modCur f).age = s.age := rfl
@[simp] theorem State.modCur_threads (s : State) (f : Cur → Cur) : (s.modCur f).threads = s.threads := rfl
@[simp] theorem State.modCur_crews (s : State) (f : Cur → Cur) : (s.modCur f).crews = s.crews := rfl
@[simp] theorem State.modCur_teams (s : State) (f : Cur → Cur) : (s.modCur f).teams = s.teams := rfl
@[simp] theorem State.modCur_grids (s : State) (f : Cur → Cur) : (s.modCur f).grids = s.grids := rfl
@[simp] theorem State.modCur_ctxs (s : State) (f : Cur → Cur) : (s.modCur f).ctxs = s.ctxs := rfl
@[simp] theorem State.modCur_cores (s : State) (f : Cur → Cur) : (s.modCur f).cores = s.cores := rfl
@[simp] theorem State.modCur_dies (s : State) (f : Cur → Cur) : (s.modCur f).dies = s.dies := rfl
@[simp] theorem State.modCur_mem (s : State) (f : Cur → Cur) : (s.modCur f).mem = s.mem := rfl
@[simp] theorem State.modCur_eng (s : State) (f : Cur → Cur) : (s.modCur f).eng = s.eng := rfl
@[simp] theorem State.modCur_fixer (s : State) (f : Cur → Cur) : (s.modCur f).fixer = s.fixer := rfl
@[simp] theorem State.modCur_xl (s : State) (f : Cur → Cur) : (s.modCur f).xl = s.xl := rfl
@[simp] theorem State.modCur_queues (s : State) (f : Cur → Cur) : (s.modCur f).queues = s.queues := rfl
@[simp] theorem State.modCur_fab (s : State) (f : Cur → Cur) : (s.modCur f).fab = s.fab := rfl
@[simp] theorem State.modCur_trust (s : State) (f : Cur → Cur) : (s.modCur f).trust = s.trust := rfl
@[simp] theorem State.modCur_harts (s : State) (f : Cur → Cur) : (s.modCur f).harts = s.harts := rfl
@[simp] theorem State.modCur_ctl (s : State) (f : Cur → Cur) : (s.modCur f).ctl = s.ctl := rfl
@[simp] theorem State.modCur_at_thread (s : State) (f : Cur → Cur) (y : Nat) : (s.modCur f).thread y = s.thread y := rfl
@[simp] theorem State.modCur_at_crew (s : State) (f : Cur → Cur) (y : Nat) : (s.modCur f).crew y = s.crew y := rfl
@[simp] theorem State.modCur_at_team (s : State) (f : Cur → Cur) (y : Nat) : (s.modCur f).team y = s.team y := rfl
@[simp] theorem State.modCur_at_grid (s : State) (f : Cur → Cur) (y : Nat) : (s.modCur f).grid y = s.grid y := rfl
@[simp] theorem State.modCur_at_core (s : State) (f : Cur → Cur) (y : Nat) : (s.modCur f).core y = s.core y := rfl
@[simp] theorem State.modCur_at_die (s : State) (f : Cur → Cur) (y : Nat) : (s.modCur f).die y = s.die y := rfl
@[simp] theorem State.modCur_at_ctx (s : State) (f : Cur → Cur) (y : Nat) : (s.modCur f).ctx? y = s.ctx? y := rfl

/-! ### `setCur` -/

@[simp] theorem State.setCur_cycle (s : State) (c : Cur) : (s.setCur c).cycle = s.cycle := rfl
@[simp] theorem State.setCur_handle (s : State) (c : Cur) : (s.setCur c).handle = s.handle := rfl
@[simp] theorem State.setCur_age (s : State) (c : Cur) : (s.setCur c).age = s.age := rfl
@[simp] theorem State.setCur_threads (s : State) (c : Cur) : (s.setCur c).threads = s.threads := rfl
@[simp] theorem State.setCur_crews (s : State) (c : Cur) : (s.setCur c).crews = s.crews := rfl
@[simp] theorem State.setCur_teams (s : State) (c : Cur) : (s.setCur c).teams = s.teams := rfl
@[simp] theorem State.setCur_grids (s : State) (c : Cur) : (s.setCur c).grids = s.grids := rfl
@[simp] theorem State.setCur_ctxs (s : State) (c : Cur) : (s.setCur c).ctxs = s.ctxs := rfl
@[simp] theorem State.setCur_cores (s : State) (c : Cur) : (s.setCur c).cores = s.cores := rfl
@[simp] theorem State.setCur_dies (s : State) (c : Cur) : (s.setCur c).dies = s.dies := rfl
@[simp] theorem State.setCur_mem (s : State) (c : Cur) : (s.setCur c).mem = s.mem := rfl
@[simp] theorem State.setCur_eng (s : State) (c : Cur) : (s.setCur c).eng = s.eng := rfl
@[simp] theorem State.setCur_fixer (s : State) (c : Cur) : (s.setCur c).fixer = s.fixer := rfl
@[simp] theorem State.setCur_xl (s : State) (c : Cur) : (s.setCur c).xl = s.xl := rfl
@[simp] theorem State.setCur_queues (s : State) (c : Cur) : (s.setCur c).queues = s.queues := rfl
@[simp] theorem State.setCur_fab (s : State) (c : Cur) : (s.setCur c).fab = s.fab := rfl
@[simp] theorem State.setCur_trust (s : State) (c : Cur) : (s.setCur c).trust = s.trust := rfl
@[simp] theorem State.setCur_harts (s : State) (c : Cur) : (s.setCur c).harts = s.harts := rfl
@[simp] theorem State.setCur_ctl (s : State) (c : Cur) : (s.setCur c).ctl = s.ctl := rfl
@[simp] theorem State.setCur_at_thread (s : State) (c : Cur) (y : Nat) : (s.setCur c).thread y = s.thread y := rfl
@[simp] theorem State.setCur_at_crew (s : State) (c : Cur) (y : Nat) : (s.setCur c).crew y = s.crew y := rfl
@[simp] theorem State.setCur_at_team (s : State) (c : Cur) (y : Nat) : (s.setCur c).team y = s.team y := rfl
@[simp] theorem State.setCur_at_grid (s : State) (c : Cur) (y : Nat) : (s.setCur c).grid y = s.grid y := rfl
@[simp] theorem State.setCur_at_core (s : State) (c : Cur) (y : Nat) : (s.setCur c).core y = s.core y := rfl
@[simp] theorem State.setCur_at_die (s : State) (c : Cur) (y : Nat) : (s.setCur c).die y = s.die y := rfl
@[simp] theorem State.setCur_at_ctx (s : State) (c : Cur) (y : Nat) : (s.setCur c).ctx? y = s.ctx? y := rfl

/-! ### `emit` -/

@[simp] theorem State.emit_cycle (s : State) (o : Out) : (s.emit o).cycle = s.cycle := rfl
@[simp] theorem State.emit_handle (s : State) (o : Out) : (s.emit o).handle = s.handle := rfl
@[simp] theorem State.emit_age (s : State) (o : Out) : (s.emit o).age = s.age := rfl
@[simp] theorem State.emit_threads (s : State) (o : Out) : (s.emit o).threads = s.threads := rfl
@[simp] theorem State.emit_crews (s : State) (o : Out) : (s.emit o).crews = s.crews := rfl
@[simp] theorem State.emit_teams (s : State) (o : Out) : (s.emit o).teams = s.teams := rfl
@[simp] theorem State.emit_grids (s : State) (o : Out) : (s.emit o).grids = s.grids := rfl
@[simp] theorem State.emit_ctxs (s : State) (o : Out) : (s.emit o).ctxs = s.ctxs := rfl
@[simp] theorem State.emit_cores (s : State) (o : Out) : (s.emit o).cores = s.cores := rfl
@[simp] theorem State.emit_dies (s : State) (o : Out) : (s.emit o).dies = s.dies := rfl
@[simp] theorem State.emit_mem (s : State) (o : Out) : (s.emit o).mem = s.mem := rfl
@[simp] theorem State.emit_eng (s : State) (o : Out) : (s.emit o).eng = s.eng := rfl
@[simp] theorem State.emit_fixer (s : State) (o : Out) : (s.emit o).fixer = s.fixer := rfl
@[simp] theorem State.emit_xl (s : State) (o : Out) : (s.emit o).xl = s.xl := rfl
@[simp] theorem State.emit_queues (s : State) (o : Out) : (s.emit o).queues = s.queues := rfl
@[simp] theorem State.emit_fab (s : State) (o : Out) : (s.emit o).fab = s.fab := rfl
@[simp] theorem State.emit_trust (s : State) (o : Out) : (s.emit o).trust = s.trust := rfl
@[simp] theorem State.emit_harts (s : State) (o : Out) : (s.emit o).harts = s.harts := rfl
@[simp] theorem State.emit_ctl (s : State) (o : Out) : (s.emit o).ctl = s.ctl := rfl
@[simp] theorem State.emit_at_thread (s : State) (o : Out) (y : Nat) : (s.emit o).thread y = s.thread y := rfl
@[simp] theorem State.emit_at_crew (s : State) (o : Out) (y : Nat) : (s.emit o).crew y = s.crew y := rfl
@[simp] theorem State.emit_at_team (s : State) (o : Out) (y : Nat) : (s.emit o).team y = s.team y := rfl
@[simp] theorem State.emit_at_grid (s : State) (o : Out) (y : Nat) : (s.emit o).grid y = s.grid y := rfl
@[simp] theorem State.emit_at_core (s : State) (o : Out) (y : Nat) : (s.emit o).core y = s.core y := rfl
@[simp] theorem State.emit_at_die (s : State) (o : Out) (y : Nat) : (s.emit o).die y = s.die y := rfl
@[simp] theorem State.emit_at_ctx (s : State) (o : Out) (y : Nat) : (s.emit o).ctx? y = s.ctx? y := rfl

/-! ### The part that an update changes -/

theorem State.thread_setThread (s : State) (k q : Nat) (x : Thread) :
    (s.setThread k x).thread q = if q = k then x else s.thread q := by
  simp [State.setThread, State.thread, Table.getD_set]
@[simp] theorem State.thread_setThread_self (s : State) (k : Nat) (x : Thread) : (s.setThread k x).thread k = x := by
  simp [State.setThread, State.thread]
@[simp] theorem State.thread_modThread_self (s : State) (k : Nat) (f : Thread → Thread) : (s.modThread k f).thread k = f (s.thread k) := by
  simp [State.modThread]
theorem State.thread_setThread_ne (s : State) {k q : Nat} (x : Thread) (h : q ≠ k) : (s.setThread k x).thread q = s.thread q := by
  simp [State.thread_setThread, h]
theorem State.thread_modThread_ne (s : State) {k q : Nat} (f : Thread → Thread) (h : q ≠ k) : (s.modThread k f).thread q = s.thread q := by
  simp [State.modThread, State.thread_setThread, h]

theorem State.crew_setCrew (s : State) (k q : Nat) (x : Crew) :
    (s.setCrew k x).crew q = if q = k then x else s.crew q := by
  simp [State.setCrew, State.crew, Table.getD_set]
@[simp] theorem State.crew_setCrew_self (s : State) (k : Nat) (x : Crew) : (s.setCrew k x).crew k = x := by
  simp [State.setCrew, State.crew]
@[simp] theorem State.crew_modCrew_self (s : State) (k : Nat) (f : Crew → Crew) : (s.modCrew k f).crew k = f (s.crew k) := by
  simp [State.modCrew]
theorem State.crew_setCrew_ne (s : State) {k q : Nat} (x : Crew) (h : q ≠ k) : (s.setCrew k x).crew q = s.crew q := by
  simp [State.crew_setCrew, h]
theorem State.crew_modCrew_ne (s : State) {k q : Nat} (f : Crew → Crew) (h : q ≠ k) : (s.modCrew k f).crew q = s.crew q := by
  simp [State.modCrew, State.crew_setCrew, h]

theorem State.team_setTeam (s : State) (k q : Nat) (x : Team) :
    (s.setTeam k x).team q = if q = k then x else s.team q := by
  simp [State.setTeam, State.team, Table.getD_set]
@[simp] theorem State.team_setTeam_self (s : State) (k : Nat) (x : Team) : (s.setTeam k x).team k = x := by
  simp [State.setTeam, State.team]
@[simp] theorem State.team_modTeam_self (s : State) (k : Nat) (f : Team → Team) : (s.modTeam k f).team k = f (s.team k) := by
  simp [State.modTeam]
theorem State.team_setTeam_ne (s : State) {k q : Nat} (x : Team) (h : q ≠ k) : (s.setTeam k x).team q = s.team q := by
  simp [State.team_setTeam, h]
theorem State.team_modTeam_ne (s : State) {k q : Nat} (f : Team → Team) (h : q ≠ k) : (s.modTeam k f).team q = s.team q := by
  simp [State.modTeam, State.team_setTeam, h]

theorem State.grid_setGrid (s : State) (k q : Nat) (x : Grid) :
    (s.setGrid k x).grid q = if q = k then x else s.grid q := by
  simp [State.setGrid, State.grid, Table.getD_set]
@[simp] theorem State.grid_setGrid_self (s : State) (k : Nat) (x : Grid) : (s.setGrid k x).grid k = x := by
  simp [State.setGrid, State.grid]
@[simp] theorem State.grid_modGrid_self (s : State) (k : Nat) (f : Grid → Grid) : (s.modGrid k f).grid k = f (s.grid k) := by
  simp [State.modGrid]
theorem State.grid_setGrid_ne (s : State) {k q : Nat} (x : Grid) (h : q ≠ k) : (s.setGrid k x).grid q = s.grid q := by
  simp [State.grid_setGrid, h]
theorem State.grid_modGrid_ne (s : State) {k q : Nat} (f : Grid → Grid) (h : q ≠ k) : (s.modGrid k f).grid q = s.grid q := by
  simp [State.modGrid, State.grid_setGrid, h]

theorem State.core_setCore (s : State) (k q : Nat) (x : Core) :
    (s.setCore k x).core q = if q = k then x else s.core q := by
  simp [State.setCore, State.core, Table.getD_set]
@[simp] theorem State.core_setCore_self (s : State) (k : Nat) (x : Core) : (s.setCore k x).core k = x := by
  simp [State.setCore, State.core]
@[simp] theorem State.core_modCore_self (s : State) (k : Nat) (f : Core → Core) : (s.modCore k f).core k = f (s.core k) := by
  simp [State.modCore]
theorem State.core_setCore_ne (s : State) {k q : Nat} (x : Core) (h : q ≠ k) : (s.setCore k x).core q = s.core q := by
  simp [State.core_setCore, h]
theorem State.core_modCore_ne (s : State) {k q : Nat} (f : Core → Core) (h : q ≠ k) : (s.modCore k f).core q = s.core q := by
  simp [State.modCore, State.core_setCore, h]

theorem State.die_setDie (s : State) (k q : Nat) (x : Die) :
    (s.setDie k x).die q = if q = k then x else s.die q := by
  simp [State.setDie, State.die, Table.getD_set]
@[simp] theorem State.die_setDie_self (s : State) (k : Nat) (x : Die) : (s.setDie k x).die k = x := by
  simp [State.setDie, State.die]
@[simp] theorem State.die_modDie_self (s : State) (k : Nat) (f : Die → Die) : (s.modDie k f).die k = f (s.die k) := by
  simp [State.modDie]
theorem State.die_setDie_ne (s : State) {k q : Nat} (x : Die) (h : q ≠ k) : (s.setDie k x).die q = s.die q := by
  simp [State.die_setDie, h]
theorem State.die_modDie_ne (s : State) {k q : Nat} (f : Die → Die) (h : q ≠ k) : (s.modDie k f).die q = s.die q := by
  simp [State.modDie, State.die_setDie, h]

@[simp] theorem State.modEng_eng (s : State) (f : Engines → Engines) : (s.modEng f).eng = f s.eng := rfl
@[simp] theorem State.modM_m (s : State) (f : Model → Model) : (s.modM f).m = f s.m := rfl
@[simp] theorem State.setCur_cur (s : State) (c : Cur) : (s.setCur c).m.cur = c := rfl
@[simp] theorem State.modCur_cur (s : State) (f : Cur → Cur) : (s.modCur f).m.cur = f s.m.cur := rfl
@[simp] theorem State.emit_out (s : State) (o : Out) : (s.emit o).m.out = s.m.out ++ [o] := rfl
@[simp] theorem State.emit_cur (s : State) (o : Out) : (s.emit o).m.cur = s.m.cur := rfl

/-- A context after a change of one. -/
theorem State.ctx?_modCtx (s : State) (k q : Nat) (f : Ctx → Ctx) :
    (s.modCtx k f).ctx? q = if q = k then (s.ctx? q).map f else s.ctx? q := by
  simp [State.modCtx, State.ctx?, Table.find?_modify]

/-! ### Registers of a thread -/

@[simp] theorem Thread.rv_zero (th : Thread) : th.rv 0 = 0 := by simp [Thread.rv]
@[simp] theorem Thread.rx_zero (th : Thread) : th.rx 0 = 0 := by simp [Thread.rx]
@[simp] theorem Thread.rp_zero (th : Thread) : th.rp 0 = true := by simp [Thread.rp]

/-- A register after a write of one. -/
theorem Thread.rv_setV (th : Thread) (r q : Reg) (w : Word) : (th.setV r w).rv q = if q = r ∧ r ≠ 0 then w else th.rv q := by
  unfold Thread.setV Thread.rv
  by_cases hr : r = 0
  · rw [if_pos hr, if_neg (fun h : q = r ∧ r ≠ 0 => h.2 hr)]
  · rw [if_neg hr]
    by_cases hq : q = 0
    · rw [if_pos hq, if_pos hq, if_neg (fun h : q = r ∧ r ≠ 0 => hr (h.1.symm.trans hq))]
    · rw [if_neg hq, if_neg hq]
      by_cases h : q = r
      · subst h
        rw [if_pos (⟨rfl, hr⟩ : q = q ∧ q ≠ 0)]
        exact Vector.getElem_set_self q.isLt
      · rw [if_neg (fun e : q = r ∧ r ≠ 0 => h e.1)]
        exact Vector.getElem_set_ne r.isLt q.isLt (fun e => h (BitVec.eq_of_toNat_eq e.symm))

/-- A predicate after a write of one. -/
theorem Thread.rp_setP (th : Thread) (p q : PReg) (b : Bool) : (th.setP p b).rp q = if q = p ∧ p ≠ 0 then b else th.rp q := by
  unfold Thread.setP Thread.rp
  by_cases hp : p = 0
  · rw [if_pos hp, if_neg (fun h : q = p ∧ p ≠ 0 => h.2 hp)]
  · rw [if_neg hp]
    by_cases hq : q = 0
    · rw [if_pos hq, if_pos hq, if_neg (fun h : q = p ∧ p ≠ 0 => hp (h.1.symm.trans hq))]
    · rw [if_neg hq, if_neg hq]
      have h1 : q.toNat < 16 := q.isLt
      have h2 : p.toNat < 16 := p.isLt
      by_cases h : q = p
      · subst h
        rw [if_pos (⟨rfl, hp⟩ : q = q ∧ q ≠ 0)]
        cases b <;> simp [h1]
      · rw [if_neg (fun e : q = p ∧ p ≠ 0 => h e.1)]
        have hn : ¬ q.toNat = p.toNat := fun e => h (BitVec.eq_of_toNat_eq e)
        cases b <;> simp [h1] <;> intros <;> omega

@[simp] theorem Thread.setV_crew (th : Thread) (r : Reg) (w : Word) : (th.setV r w).crew = th.crew := by
  unfold Thread.setV; split <;> rfl
@[simp] theorem Thread.writeAll_crew (th : Thread) (l : List (Reg × Word)) : (th.writeAll l).crew = th.crew := by
  induction l generalizing th with
  | nil => rfl
  | cons e r ih => exact (ih _).trans (Thread.setV_crew th e.1 e.2)
@[simp] theorem Thread.setV_lane (th : Thread) (r : Reg) (w : Word) : (th.setV r w).lane = th.lane := by
  unfold Thread.setV; split <;> rfl
@[simp] theorem Thread.writeAll_lane (th : Thread) (l : List (Reg × Word)) : (th.writeAll l).lane = th.lane := by
  induction l generalizing th with
  | nil => rfl
  | cons e r ih => exact (ih _).trans (Thread.setV_lane th e.1 e.2)
@[simp] theorem Thread.setV_index (th : Thread) (r : Reg) (w : Word) : (th.setV r w).index = th.index := by
  unfold Thread.setV; split <;> rfl
@[simp] theorem Thread.writeAll_index (th : Thread) (l : List (Reg × Word)) : (th.writeAll l).index = th.index := by
  induction l generalizing th with
  | nil => rfl
  | cons e r ih => exact (ih _).trans (Thread.setV_index th e.1 e.2)
@[simp] theorem Thread.setV_pc (th : Thread) (r : Reg) (w : Word) : (th.setV r w).pc = th.pc := by
  unfold Thread.setV; split <;> rfl
@[simp] theorem Thread.writeAll_pc (th : Thread) (l : List (Reg × Word)) : (th.writeAll l).pc = th.pc := by
  induction l generalizing th with
  | nil => rfl
  | cons e r ih => exact (ih _).trans (Thread.setV_pc th e.1 e.2)
@[simp] theorem Thread.setV_stack (th : Thread) (r : Reg) (w : Word) : (th.setV r w).stack = th.stack := by
  unfold Thread.setV; split <;> rfl
@[simp] theorem Thread.writeAll_stack (th : Thread) (l : List (Reg × Word)) : (th.writeAll l).stack = th.stack := by
  induction l generalizing th with
  | nil => rfl
  | cons e r ih => exact (ih _).trans (Thread.setV_stack th e.1 e.2)
@[simp] theorem Thread.setV_spill (th : Thread) (r : Reg) (w : Word) : (th.setV r w).spill = th.spill := by
  unfold Thread.setV; split <;> rfl
@[simp] theorem Thread.writeAll_spill (th : Thread) (l : List (Reg × Word)) : (th.writeAll l).spill = th.spill := by
  induction l generalizing th with
  | nil => rfl
  | cons e r ih => exact (ih _).trans (Thread.setV_spill th e.1 e.2)
@[simp] theorem Thread.setV_prec (th : Thread) (r : Reg) (w : Word) : (th.setV r w).prec = th.prec := by
  unfold Thread.setV; split <;> rfl
@[simp] theorem Thread.writeAll_prec (th : Thread) (l : List (Reg × Word)) : (th.writeAll l).prec = th.prec := by
  induction l generalizing th with
  | nil => rfl
  | cons e r ih => exact (ih _).trans (Thread.setV_prec th e.1 e.2)
@[simp] theorem Thread.setV_precNext (th : Thread) (r : Reg) (w : Word) : (th.setV r w).precNext = th.precNext := by
  unfold Thread.setV; split <;> rfl
@[simp] theorem Thread.writeAll_precNext (th : Thread) (l : List (Reg × Word)) : (th.writeAll l).precNext = th.precNext := by
  induction l generalizing th with
  | nil => rfl
  | cons e r ih => exact (ih _).trans (Thread.setV_precNext th e.1 e.2)
@[simp] theorem Thread.setV_p (th : Thread) (r : Reg) (w : Word) : (th.setV r w).p = th.p := by
  unfold Thread.setV; split <;> rfl
@[simp] theorem Thread.writeAll_p (th : Thread) (l : List (Reg × Word)) : (th.writeAll l).p = th.p := by
  induction l generalizing th with
  | nil => rfl
  | cons e r ih => exact (ih _).trans (Thread.setV_p th e.1 e.2)
@[simp] theorem Thread.setV_fstat (th : Thread) (r : Reg) (w : Word) : (th.setV r w).fstat = th.fstat := by
  unfold Thread.setV; split <;> rfl
@[simp] theorem Thread.writeAll_fstat (th : Thread) (l : List (Reg × Word)) : (th.writeAll l).fstat = th.fstat := by
  induction l generalizing th with
  | nil => rfl
  | cons e r ih => exact (ih _).trans (Thread.setV_fstat th e.1 e.2)
@[simp] theorem Thread.setV_live (th : Thread) (r : Reg) (w : Word) : (th.setV r w).live = th.live := by
  unfold Thread.setV; split <;> rfl
@[simp] theorem Thread.writeAll_live (th : Thread) (l : List (Reg × Word)) : (th.writeAll l).live = th.live := by
  induction l generalizing th with
  | nil => rfl
  | cons e r ih => exact (ih _).trans (Thread.setV_live th e.1 e.2)
@[simp] theorem Thread.setV_guard (th : Thread) (r : Reg) (w : Word) : (th.setV r w).guard = th.guard := by
  unfold Thread.setV; split <;> rfl
@[simp] theorem Thread.writeAll_guard (th : Thread) (l : List (Reg × Word)) : (th.writeAll l).guard = th.guard := by
  induction l generalizing th with
  | nil => rfl
  | cons e r ih => exact (ih _).trans (Thread.setV_guard th e.1 e.2)
@[simp] theorem Thread.setV_trap (th : Thread) (r : Reg) (w : Word) : (th.setV r w).trap = th.trap := by
  unfold Thread.setV; split <;> rfl
@[simp] theorem Thread.writeAll_trap (th : Thread) (l : List (Reg × Word)) : (th.writeAll l).trap = th.trap := by
  induction l generalizing th with
  | nil => rfl
  | cons e r ih => exact (ih _).trans (Thread.setV_trap th e.1 e.2)
@[simp] theorem Thread.setV_alone (th : Thread) (r : Reg) (w : Word) : (th.setV r w).alone = th.alone := by
  unfold Thread.setV; split <;> rfl
@[simp] theorem Thread.writeAll_alone (th : Thread) (l : List (Reg × Word)) : (th.writeAll l).alone = th.alone := by
  induction l generalizing th with
  | nil => rfl
  | cons e r ih => exact (ih _).trans (Thread.setV_alone th e.1 e.2)
@[simp] theorem Thread.setV_fork (th : Thread) (r : Reg) (w : Word) : (th.setV r w).fork = th.fork := by
  unfold Thread.setV; split <;> rfl
@[simp] theorem Thread.writeAll_fork (th : Thread) (l : List (Reg × Word)) : (th.writeAll l).fork = th.fork := by
  induction l generalizing th with
  | nil => rfl
  | cons e r ih => exact (ih _).trans (Thread.setV_fork th e.1 e.2)
@[simp] theorem Thread.setV_retired (th : Thread) (r : Reg) (w : Word) : (th.setV r w).retired = th.retired := by
  unfold Thread.setV; split <;> rfl
@[simp] theorem Thread.writeAll_retired (th : Thread) (l : List (Reg × Word)) : (th.writeAll l).retired = th.retired := by
  induction l generalizing th with
  | nil => rfl
  | cons e r ih => exact (ih _).trans (Thread.setV_retired th e.1 e.2)
@[simp] theorem Thread.setV_pass (th : Thread) (r : Reg) (w : Word) : (th.setV r w).pass = th.pass := by
  unfold Thread.setV; split <;> rfl
@[simp] theorem Thread.writeAll_pass (th : Thread) (l : List (Reg × Word)) : (th.writeAll l).pass = th.pass := by
  induction l generalizing th with
  | nil => rfl
  | cons e r ih => exact (ih _).trans (Thread.setV_pass th e.1 e.2)
@[simp] theorem Thread.setV_wait (th : Thread) (r : Reg) (w : Word) : (th.setV r w).wait = th.wait := by
  unfold Thread.setV; split <;> rfl
@[simp] theorem Thread.writeAll_wait (th : Thread) (l : List (Reg × Word)) : (th.writeAll l).wait = th.wait := by
  induction l generalizing th with
  | nil => rfl
  | cons e r ih => exact (ih _).trans (Thread.setV_wait th e.1 e.2)
@[simp] theorem Thread.setV_wait2 (th : Thread) (r : Reg) (w : Word) : (th.setV r w).wait2 = th.wait2 := by
  unfold Thread.setV; split <;> rfl
@[simp] theorem Thread.writeAll_wait2 (th : Thread) (l : List (Reg × Word)) : (th.writeAll l).wait2 = th.wait2 := by
  induction l generalizing th with
  | nil => rfl
  | cons e r ih => exact (ih _).trans (Thread.setV_wait2 th e.1 e.2)
@[simp] theorem Thread.setV_waitCnt (th : Thread) (r : Reg) (w : Word) : (th.setV r w).waitCnt = th.waitCnt := by
  unfold Thread.setV; split <;> rfl
@[simp] theorem Thread.writeAll_waitCnt (th : Thread) (l : List (Reg × Word)) : (th.writeAll l).waitCnt = th.waitCnt := by
  induction l generalizing th with
  | nil => rfl
  | cons e r ih => exact (ih _).trans (Thread.setV_waitCnt th e.1 e.2)
@[simp] theorem Thread.setV_starving (th : Thread) (r : Reg) (w : Word) : (th.setV r w).starving = th.starving := by
  unfold Thread.setV; split <;> rfl
@[simp] theorem Thread.writeAll_starving (th : Thread) (l : List (Reg × Word)) : (th.writeAll l).starving = th.starving := by
  induction l generalizing th with
  | nil => rfl
  | cons e r ih => exact (ih _).trans (Thread.setV_starving th e.1 e.2)
@[simp] theorem Thread.setV_mark (th : Thread) (r : Reg) (w : Word) : (th.setV r w).mark = th.mark := by
  unfold Thread.setV; split <;> rfl
@[simp] theorem Thread.writeAll_mark (th : Thread) (l : List (Reg × Word)) : (th.writeAll l).mark = th.mark := by
  induction l generalizing th with
  | nil => rfl
  | cons e r ih => exact (ih _).trans (Thread.setV_mark th e.1 e.2)
@[simp] theorem Thread.setV_halted (th : Thread) (r : Reg) (w : Word) : (th.setV r w).halted = th.halted := by
  unfold Thread.setV; split <;> rfl
@[simp] theorem Thread.writeAll_halted (th : Thread) (l : List (Reg × Word)) : (th.writeAll l).halted = th.halted := by
  induction l generalizing th with
  | nil => rfl
  | cons e r ih => exact (ih _).trans (Thread.setV_halted th e.1 e.2)
@[simp] theorem Thread.setV_lastRec (th : Thread) (r : Reg) (w : Word) : (th.setV r w).lastRec = th.lastRec := by
  unfold Thread.setV; split <;> rfl
@[simp] theorem Thread.writeAll_lastRec (th : Thread) (l : List (Reg × Word)) : (th.writeAll l).lastRec = th.lastRec := by
  induction l generalizing th with
  | nil => rfl
  | cons e r ih => exact (ih _).trans (Thread.setV_lastRec th e.1 e.2)
@[simp] theorem Thread.setV_strong (th : Thread) (r : Reg) (w : Word) : (th.setV r w).strong = th.strong := by
  unfold Thread.setV; split <;> rfl
@[simp] theorem Thread.writeAll_strong (th : Thread) (l : List (Reg × Word)) : (th.writeAll l).strong = th.strong := by
  induction l generalizing th with
  | nil => rfl
  | cons e r ih => exact (ih _).trans (Thread.setV_strong th e.1 e.2)
@[simp] theorem Thread.setV_deferred (th : Thread) (r : Reg) (w : Word) : (th.setV r w).deferred = th.deferred := by
  unfold Thread.setV; split <;> rfl
@[simp] theorem Thread.writeAll_deferred (th : Thread) (l : List (Reg × Word)) : (th.writeAll l).deferred = th.deferred := by
  induction l generalizing th with
  | nil => rfl
  | cons e r ih => exact (ih _).trans (Thread.setV_deferred th e.1 e.2)
@[simp] theorem Thread.setV_trayFail (th : Thread) (r : Reg) (w : Word) : (th.setV r w).trayFail = th.trayFail := by
  unfold Thread.setV; split <;> rfl
@[simp] theorem Thread.writeAll_trayFail (th : Thread) (l : List (Reg × Word)) : (th.writeAll l).trayFail = th.trayFail := by
  induction l generalizing th with
  | nil => rfl
  | cons e r ih => exact (ih _).trans (Thread.setV_trayFail th e.1 e.2)
@[simp] theorem Thread.setV_cont (th : Thread) (r : Reg) (w : Word) : (th.setV r w).cont = th.cont := by
  unfold Thread.setV; split <;> rfl
@[simp] theorem Thread.writeAll_cont (th : Thread) (l : List (Reg × Word)) : (th.writeAll l).cont = th.cont := by
  induction l generalizing th with
  | nil => rfl
  | cons e r ih => exact (ih _).trans (Thread.setV_cont th e.1 e.2)

@[simp] theorem Thread.setP_crew (th : Thread) (p : PReg) (b : Bool) : (th.setP p b).crew = th.crew := by
  unfold Thread.setP; split
  · rfl
  · split <;> rfl
@[simp] theorem Thread.setPs_crew (th : Thread) (l : List (PReg × Bool)) : (th.setPs l).crew = th.crew := by
  induction l generalizing th with
  | nil => rfl
  | cons e r ih => exact (ih _).trans (Thread.setP_crew th e.1 e.2)
@[simp] theorem Thread.setP_lane (th : Thread) (p : PReg) (b : Bool) : (th.setP p b).lane = th.lane := by
  unfold Thread.setP; split
  · rfl
  · split <;> rfl
@[simp] theorem Thread.setPs_lane (th : Thread) (l : List (PReg × Bool)) : (th.setPs l).lane = th.lane := by
  induction l generalizing th with
  | nil => rfl
  | cons e r ih => exact (ih _).trans (Thread.setP_lane th e.1 e.2)
@[simp] theorem Thread.setP_index (th : Thread) (p : PReg) (b : Bool) : (th.setP p b).index = th.index := by
  unfold Thread.setP; split
  · rfl
  · split <;> rfl
@[simp] theorem Thread.setPs_index (th : Thread) (l : List (PReg × Bool)) : (th.setPs l).index = th.index := by
  induction l generalizing th with
  | nil => rfl
  | cons e r ih => exact (ih _).trans (Thread.setP_index th e.1 e.2)
@[simp] theorem Thread.setP_pc (th : Thread) (p : PReg) (b : Bool) : (th.setP p b).pc = th.pc := by
  unfold Thread.setP; split
  · rfl
  · split <;> rfl
@[simp] theorem Thread.setPs_pc (th : Thread) (l : List (PReg × Bool)) : (th.setPs l).pc = th.pc := by
  induction l generalizing th with
  | nil => rfl
  | cons e r ih => exact (ih _).trans (Thread.setP_pc th e.1 e.2)
@[simp] theorem Thread.setP_stack (th : Thread) (p : PReg) (b : Bool) : (th.setP p b).stack = th.stack := by
  unfold Thread.setP; split
  · rfl
  · split <;> rfl
@[simp] theorem Thread.setPs_stack (th : Thread) (l : List (PReg × Bool)) : (th.setPs l).stack = th.stack := by
  induction l generalizing th with
  | nil => rfl
  | cons e r ih => exact (ih _).trans (Thread.setP_stack th e.1 e.2)
@[simp] theorem Thread.setP_spill (th : Thread) (p : PReg) (b : Bool) : (th.setP p b).spill = th.spill := by
  unfold Thread.setP; split
  · rfl
  · split <;> rfl
@[simp] theorem Thread.setPs_spill (th : Thread) (l : List (PReg × Bool)) : (th.setPs l).spill = th.spill := by
  induction l generalizing th with
  | nil => rfl
  | cons e r ih => exact (ih _).trans (Thread.setP_spill th e.1 e.2)
@[simp] theorem Thread.setP_prec (th : Thread) (p : PReg) (b : Bool) : (th.setP p b).prec = th.prec := by
  unfold Thread.setP; split
  · rfl
  · split <;> rfl
@[simp] theorem Thread.setPs_prec (th : Thread) (l : List (PReg × Bool)) : (th.setPs l).prec = th.prec := by
  induction l generalizing th with
  | nil => rfl
  | cons e r ih => exact (ih _).trans (Thread.setP_prec th e.1 e.2)
@[simp] theorem Thread.setP_precNext (th : Thread) (p : PReg) (b : Bool) : (th.setP p b).precNext = th.precNext := by
  unfold Thread.setP; split
  · rfl
  · split <;> rfl
@[simp] theorem Thread.setPs_precNext (th : Thread) (l : List (PReg × Bool)) : (th.setPs l).precNext = th.precNext := by
  induction l generalizing th with
  | nil => rfl
  | cons e r ih => exact (ih _).trans (Thread.setP_precNext th e.1 e.2)
@[simp] theorem Thread.setP_v (th : Thread) (p : PReg) (b : Bool) : (th.setP p b).v = th.v := by
  unfold Thread.setP; split
  · rfl
  · split <;> rfl
@[simp] theorem Thread.setPs_v (th : Thread) (l : List (PReg × Bool)) : (th.setPs l).v = th.v := by
  induction l generalizing th with
  | nil => rfl
  | cons e r ih => exact (ih _).trans (Thread.setP_v th e.1 e.2)
@[simp] theorem Thread.setP_fstat (th : Thread) (p : PReg) (b : Bool) : (th.setP p b).fstat = th.fstat := by
  unfold Thread.setP; split
  · rfl
  · split <;> rfl
@[simp] theorem Thread.setPs_fstat (th : Thread) (l : List (PReg × Bool)) : (th.setPs l).fstat = th.fstat := by
  induction l generalizing th with
  | nil => rfl
  | cons e r ih => exact (ih _).trans (Thread.setP_fstat th e.1 e.2)
@[simp] theorem Thread.setP_live (th : Thread) (p : PReg) (b : Bool) : (th.setP p b).live = th.live := by
  unfold Thread.setP; split
  · rfl
  · split <;> rfl
@[simp] theorem Thread.setPs_live (th : Thread) (l : List (PReg × Bool)) : (th.setPs l).live = th.live := by
  induction l generalizing th with
  | nil => rfl
  | cons e r ih => exact (ih _).trans (Thread.setP_live th e.1 e.2)
@[simp] theorem Thread.setP_guard (th : Thread) (p : PReg) (b : Bool) : (th.setP p b).guard = th.guard := by
  unfold Thread.setP; split
  · rfl
  · split <;> rfl
@[simp] theorem Thread.setPs_guard (th : Thread) (l : List (PReg × Bool)) : (th.setPs l).guard = th.guard := by
  induction l generalizing th with
  | nil => rfl
  | cons e r ih => exact (ih _).trans (Thread.setP_guard th e.1 e.2)
@[simp] theorem Thread.setP_trap (th : Thread) (p : PReg) (b : Bool) : (th.setP p b).trap = th.trap := by
  unfold Thread.setP; split
  · rfl
  · split <;> rfl
@[simp] theorem Thread.setPs_trap (th : Thread) (l : List (PReg × Bool)) : (th.setPs l).trap = th.trap := by
  induction l generalizing th with
  | nil => rfl
  | cons e r ih => exact (ih _).trans (Thread.setP_trap th e.1 e.2)
@[simp] theorem Thread.setP_alone (th : Thread) (p : PReg) (b : Bool) : (th.setP p b).alone = th.alone := by
  unfold Thread.setP; split
  · rfl
  · split <;> rfl
@[simp] theorem Thread.setPs_alone (th : Thread) (l : List (PReg × Bool)) : (th.setPs l).alone = th.alone := by
  induction l generalizing th with
  | nil => rfl
  | cons e r ih => exact (ih _).trans (Thread.setP_alone th e.1 e.2)
@[simp] theorem Thread.setP_fork (th : Thread) (p : PReg) (b : Bool) : (th.setP p b).fork = th.fork := by
  unfold Thread.setP; split
  · rfl
  · split <;> rfl
@[simp] theorem Thread.setPs_fork (th : Thread) (l : List (PReg × Bool)) : (th.setPs l).fork = th.fork := by
  induction l generalizing th with
  | nil => rfl
  | cons e r ih => exact (ih _).trans (Thread.setP_fork th e.1 e.2)
@[simp] theorem Thread.setP_retired (th : Thread) (p : PReg) (b : Bool) : (th.setP p b).retired = th.retired := by
  unfold Thread.setP; split
  · rfl
  · split <;> rfl
@[simp] theorem Thread.setPs_retired (th : Thread) (l : List (PReg × Bool)) : (th.setPs l).retired = th.retired := by
  induction l generalizing th with
  | nil => rfl
  | cons e r ih => exact (ih _).trans (Thread.setP_retired th e.1 e.2)
@[simp] theorem Thread.setP_pass (th : Thread) (p : PReg) (b : Bool) : (th.setP p b).pass = th.pass := by
  unfold Thread.setP; split
  · rfl
  · split <;> rfl
@[simp] theorem Thread.setPs_pass (th : Thread) (l : List (PReg × Bool)) : (th.setPs l).pass = th.pass := by
  induction l generalizing th with
  | nil => rfl
  | cons e r ih => exact (ih _).trans (Thread.setP_pass th e.1 e.2)
@[simp] theorem Thread.setP_wait (th : Thread) (p : PReg) (b : Bool) : (th.setP p b).wait = th.wait := by
  unfold Thread.setP; split
  · rfl
  · split <;> rfl
@[simp] theorem Thread.setPs_wait (th : Thread) (l : List (PReg × Bool)) : (th.setPs l).wait = th.wait := by
  induction l generalizing th with
  | nil => rfl
  | cons e r ih => exact (ih _).trans (Thread.setP_wait th e.1 e.2)
@[simp] theorem Thread.setP_wait2 (th : Thread) (p : PReg) (b : Bool) : (th.setP p b).wait2 = th.wait2 := by
  unfold Thread.setP; split
  · rfl
  · split <;> rfl
@[simp] theorem Thread.setPs_wait2 (th : Thread) (l : List (PReg × Bool)) : (th.setPs l).wait2 = th.wait2 := by
  induction l generalizing th with
  | nil => rfl
  | cons e r ih => exact (ih _).trans (Thread.setP_wait2 th e.1 e.2)
@[simp] theorem Thread.setP_waitCnt (th : Thread) (p : PReg) (b : Bool) : (th.setP p b).waitCnt = th.waitCnt := by
  unfold Thread.setP; split
  · rfl
  · split <;> rfl
@[simp] theorem Thread.setPs_waitCnt (th : Thread) (l : List (PReg × Bool)) : (th.setPs l).waitCnt = th.waitCnt := by
  induction l generalizing th with
  | nil => rfl
  | cons e r ih => exact (ih _).trans (Thread.setP_waitCnt th e.1 e.2)
@[simp] theorem Thread.setP_starving (th : Thread) (p : PReg) (b : Bool) : (th.setP p b).starving = th.starving := by
  unfold Thread.setP; split
  · rfl
  · split <;> rfl
@[simp] theorem Thread.setPs_starving (th : Thread) (l : List (PReg × Bool)) : (th.setPs l).starving = th.starving := by
  induction l generalizing th with
  | nil => rfl
  | cons e r ih => exact (ih _).trans (Thread.setP_starving th e.1 e.2)
@[simp] theorem Thread.setP_mark (th : Thread) (p : PReg) (b : Bool) : (th.setP p b).mark = th.mark := by
  unfold Thread.setP; split
  · rfl
  · split <;> rfl
@[simp] theorem Thread.setPs_mark (th : Thread) (l : List (PReg × Bool)) : (th.setPs l).mark = th.mark := by
  induction l generalizing th with
  | nil => rfl
  | cons e r ih => exact (ih _).trans (Thread.setP_mark th e.1 e.2)
@[simp] theorem Thread.setP_halted (th : Thread) (p : PReg) (b : Bool) : (th.setP p b).halted = th.halted := by
  unfold Thread.setP; split
  · rfl
  · split <;> rfl
@[simp] theorem Thread.setPs_halted (th : Thread) (l : List (PReg × Bool)) : (th.setPs l).halted = th.halted := by
  induction l generalizing th with
  | nil => rfl
  | cons e r ih => exact (ih _).trans (Thread.setP_halted th e.1 e.2)
@[simp] theorem Thread.setP_lastRec (th : Thread) (p : PReg) (b : Bool) : (th.setP p b).lastRec = th.lastRec := by
  unfold Thread.setP; split
  · rfl
  · split <;> rfl
@[simp] theorem Thread.setPs_lastRec (th : Thread) (l : List (PReg × Bool)) : (th.setPs l).lastRec = th.lastRec := by
  induction l generalizing th with
  | nil => rfl
  | cons e r ih => exact (ih _).trans (Thread.setP_lastRec th e.1 e.2)
@[simp] theorem Thread.setP_strong (th : Thread) (p : PReg) (b : Bool) : (th.setP p b).strong = th.strong := by
  unfold Thread.setP; split
  · rfl
  · split <;> rfl
@[simp] theorem Thread.setPs_strong (th : Thread) (l : List (PReg × Bool)) : (th.setPs l).strong = th.strong := by
  induction l generalizing th with
  | nil => rfl
  | cons e r ih => exact (ih _).trans (Thread.setP_strong th e.1 e.2)
@[simp] theorem Thread.setP_deferred (th : Thread) (p : PReg) (b : Bool) : (th.setP p b).deferred = th.deferred := by
  unfold Thread.setP; split
  · rfl
  · split <;> rfl
@[simp] theorem Thread.setPs_deferred (th : Thread) (l : List (PReg × Bool)) : (th.setPs l).deferred = th.deferred := by
  induction l generalizing th with
  | nil => rfl
  | cons e r ih => exact (ih _).trans (Thread.setP_deferred th e.1 e.2)
@[simp] theorem Thread.setP_trayFail (th : Thread) (p : PReg) (b : Bool) : (th.setP p b).trayFail = th.trayFail := by
  unfold Thread.setP; split
  · rfl
  · split <;> rfl
@[simp] theorem Thread.setPs_trayFail (th : Thread) (l : List (PReg × Bool)) : (th.setPs l).trayFail = th.trayFail := by
  induction l generalizing th with
  | nil => rfl
  | cons e r ih => exact (ih _).trans (Thread.setP_trayFail th e.1 e.2)
@[simp] theorem Thread.setP_cont (th : Thread) (p : PReg) (b : Bool) : (th.setP p b).cont = th.cont := by
  unfold Thread.setP; split
  · rfl
  · split <;> rfl
@[simp] theorem Thread.setPs_cont (th : Thread) (l : List (PReg × Bool)) : (th.setPs l).cont = th.cont := by
  induction l generalizing th with
  | nil => rfl
  | cons e r ih => exact (ih _).trans (Thread.setP_cont th e.1 e.2)

end Sys2Proof.Machine
end

