-- ==== Sys2Proof/Laws/Ops.lean ====
section
/-! SUPPORT. What the shared operations do, said once: the advance of a thread, register writes with their tags, and the run of a
register word over its bundle. -/

namespace Sys2Proof.Machine

/-! ## Contexts -/

theorem Ctx.counted_refl (c : Ctx) : c.counted c := ⟨c.ctr, rfl, fun _ _ => rfl⟩

theorem Ctx.counted_trans {a b c : Ctx} (h1 : a.counted b) (h2 : b.counted c) : a.counted c := by
  obtain ⟨x, rfl, hx⟩ := h1
  obtain ⟨y, rfl, hy⟩ := h2
  exact ⟨y, rfl, fun i hi => (hy i hi).trans (hx i hi)⟩

theorem Ctx.counted_bump (c : Ctx) (n : Nat) : c.counted (c.bump 0 n) :=
  ⟨_, rfl, fun _ hi => Table.getD_set_ne _ _ _ hi⟩

theorem State.sameCtxs_refl (s : State) : s.SameCtxs s := by
  intro k
  cases h : s.ctx? k with
  | none => trivial
  | some c => exact c.counted_refl

theorem State.sameCtxs_of_eq {s s' : State} (h : s'.ctxs = s.ctxs) : s.SameCtxs s' := by
  intro k
  have : s'.ctx? k = s.ctx? k := by simp [State.ctx?, h]
  rw [this]
  exact s.sameCtxs_refl k

theorem State.sameCtxs_trans {a b c : State} (h1 : a.SameCtxs b) (h2 : b.SameCtxs c) : a.SameCtxs c := by
  intro k
  have x := h1 k
  have y := h2 k
  cases ha : a.ctx? k <;> cases hb : b.ctx? k <;> cases hc : c.ctx? k <;> simp_all
  exact Ctx.counted_trans x y

theorem State.sameCtxs_count (s : State) (k n : Nat) : s.SameCtxs (s.count k 0 n) := by
  intro q
  rw [State.count, State.ctx?_modCtx]
  by_cases h : q = k
  · rw [if_pos h]
    cases s.ctx? q with
    | none => trivial
    | some c => exact c.counted_bump n
  · rw [if_neg h]
    exact s.sameCtxs_refl q

/-! ## The rest of the state -/

theorem State.sameRest_refl (s : State) : s.SameRest s := ⟨rfl, rfl, rfl, rfl, rfl, rfl, rfl, rfl, rfl, rfl, rfl, rfl, rfl, rfl⟩

theorem State.SameRest.trans {a b c : State} (h : a.SameRest b) (k : b.SameRest c) : a.SameRest c :=
  ⟨k.1.trans h.1, k.2.trans h.2, k.3.trans h.3, k.4.trans h.4, k.5.trans h.5, k.6.trans h.6, k.7.trans h.7, k.8.trans h.8,
    k.9.trans h.9, k.10.trans h.10, k.11.trans h.11, k.12.trans h.12, k.13.trans h.13, k.14.trans h.14⟩

theorem State.sameRest_modThread (s : State) (t : Nat) (f : Thread → Thread) : s.SameRest (s.modThread t f) :=
  ⟨rfl, rfl, rfl, rfl, rfl, rfl, rfl, rfl, rfl, rfl, rfl, rfl, rfl, rfl⟩

theorem State.sameRest_modCrew (s : State) (c : Nat) (f : Crew → Crew) : s.SameRest (s.modCrew c f) :=
  ⟨rfl, rfl, rfl, rfl, rfl, rfl, rfl, rfl, rfl, rfl, rfl, rfl, rfl, rfl⟩

theorem State.sameRest_count (s : State) (k i n : Nat) : s.SameRest (s.count k i n) :=
  ⟨rfl, rfl, rfl, rfl, rfl, rfl, rfl, rfl, rfl, rfl, rfl, rfl, rfl, rfl⟩

/-! ## Retiring and going on -/

/-- Retiring a word changes the thread's count, and its context's. -/
theorem State.retire_spec (s : State) (t : Nat) :
    (s.retire t).threads = (s.modThread t fun th => { th with retired := th.retired + 1 }).threads ∧
    (s.retire t).crews = s.crews ∧ (s.retire t).eng = s.eng ∧ (s.retire t).handle = s.handle ∧ (s.retire t).age = s.age ∧
    s.SameCtxs (s.retire t) ∧ s.SameRest (s.retire t) := by
  unfold State.retire
  dsimp only
  split
  · exact ⟨rfl, rfl, rfl, rfl, rfl, State.sameCtxs_of_eq rfl, State.sameRest_modThread _ _ _⟩
  · exact ⟨rfl, rfl, rfl, rfl, rfl, State.sameCtxs_trans (State.sameCtxs_of_eq rfl) (State.sameCtxs_count _ _ _),
      (State.sameRest_modThread _ _ _).trans (State.sameRest_count _ _ _ _)⟩

theorem State.thread_retire (s : State) (t q : Nat) :
    (s.retire t).thread q = if q = t then { s.thread t with retired := (s.thread t).retired + 1 } else s.thread q := by
  have h : (s.retire t).thread q = (s.modThread t fun th => { th with retired := th.retired + 1 }).thread q := by
    simp [State.thread, (s.retire_spec t).1]
  rw [h, State.modThread, State.thread_setThread]

/-- Outside a pair no other word has trapped, frozen or waits. -/
theorem State.pair_alone {s : State} (h : s.m.cur.Alone) (t : Nat) :
    s.pairTrapped t = false ∧ s.pairStopped t = false ∧ s.pairWaits t = false := by
  obtain ⟨h1, h2, _⟩ := h
  simp [State.pairTrapped, State.pairStopped, State.pairWaits, h1, h2]

/-- What going on past a word does, for a word of its own. -/
theorem State.advance_spec (s : State) (t : Nat) (h : s.m.cur.Alone) :
    (s.advance t).thread t = (s.thread t).past s.m.cur ∧ (∀ q, q ≠ t → (s.advance t).thread q = s.thread q) ∧
    (s.advance t).crews = s.crews ∧ (s.advance t).eng = s.eng ∧ s.SameCtxs (s.advance t) ∧ s.SameRest (s.advance t) := by
  have hp := (State.pair_alone h t).2.1
  have hw := (State.pair_alone h t).2.2
  obtain ⟨h1, h2, h3, h4, h5, h6⟩ := h
  unfold State.advance
  simp only [hp, hw, Bool.or_false, Bool.false_eq_true, if_false]
  generalize hs : (s.modThread t fun th =>
    { th with pc := if s.m.cur.second then th.pc else s.m.cur.after, guard := s.m.cur.used t th.guard, trayFail := false }) = s1
  have r := s1.retire_spec t
  have e1 : s1.thread t = { s.thread t with pc := s.m.cur.after, guard := (s.thread t).guard.step 1, trayFail := false } := by
    rw [← hs]; simp [h2, Cur.used, h5, h1]
  have e2 : ∀ q, q ≠ t → s1.thread q = s.thread q := fun q hq => by rw [← hs]; exact State.thread_modThread_ne _ _ hq
  refine ⟨?_, ?_, ?_, ?_, ?_, ?_⟩
  · rw [State.thread_retire, if_pos rfl, e1]
    rfl
  · intro q hq
    rw [State.thread_retire, if_neg hq, e2 q hq]
  · rw [r.2.1, ← hs]
    rfl
  · rw [r.2.2.1, ← hs]
    rfl
  · exact State.sameCtxs_trans (State.sameCtxs_of_eq (by rw [← hs]; rfl)) r.2.2.2.2.2.1
  · exact State.SameRest.trans (by rw [← hs]; exact State.sameRest_modThread _ _ _) r.2.2.2.2.2.2

/-! ## The checks at issue read little of the state -/

/-- The guard over the word in issue depends on the word in issue and on the thread's guard. -/
theorem State.wordGuard_congr {s s' : State} {t : Nat} (hm : s'.m = s.m) (hg : (s'.thread t).guard = (s.thread t).guard) :
    s'.wordGuard t = s.wordGuard t := by
  simp [State.wordGuard, hm, hg]

/-- Outside a pair the guard over the word in issue is the thread's. -/
theorem State.wordGuard_alone {s : State} (h : s.m.cur.Alone) (t : Nat) : s.wordGuard t = (s.thread t).guard := by
  simp [State.wordGuard, Cur.before, h.1, h.2.1]

/-- The checks at issue depend on the guard over the word, on the thread's crew, on the crews' teams and cores, and on teams and grids. -/
theorem State.issueCheck_congr {s s' : State} (i : Instr) {t : Nat} (hg : s'.wordGuard t = s.wordGuard t)
    (hc : (s'.thread t).crew = (s.thread t).crew) (ht : ∀ c, (s'.crew c).team = (s.crew c).team)
    (hk : ∀ c, (s'.crew c).core = (s.crew c).core) (hm : s'.teams = s.teams) (hr : s'.grids = s.grids) :
    s'.issueCheck i t = s.issueCheck i t := by
  have e1 : s'.teamOf t = s.teamOf t := by simp [State.teamOf, State.crewOf, State.team, hc, ht, hm]
  have e2 : s'.gridOf t = s.gridOf t := by simp [State.gridOf, State.grid, e1, hr]
  have e3 : (s'.crewOf t).core = (s.crewOf t).core := by simp [State.crewOf, hc, hk]
  have e4 : ∀ q, s'.qaccOf t q = s.qaccOf t q := fun q => by simp [State.qaccOf, e1, e3]
  have e5 : s'.qaccRegs i t = s.qaccRegs i t := by unfold State.qaccRegs; simp [e4]
  simp [State.issueCheck, e2, e5, hg]

/-! ## Register writes and their tags -/

/-- Setting tags of one crew, register by register, leaves everything else. -/
theorem State.tagFold_spec (c : Nat) (g : Reg → Vector Tag 64 → Vector Tag 64) (l : List Reg) (s : State) :
    let r := l.foldl (fun s r => s.modCrew c fun cr => { cr with tags := g r cr.tags }) s
    r.threads = s.threads ∧ r.ctxs = s.ctxs ∧ r.eng = s.eng ∧ (∀ q, q ≠ c → r.crew q = s.crew q) ∧
      (∃ tags, r.crew c = { s.crew c with tags := tags }) ∧ s.SameRest r := by
  induction l generalizing s with
  | nil => exact ⟨rfl, rfl, rfl, fun _ _ => rfl, ⟨_, rfl⟩, State.sameRest_refl _⟩
  | cons x l ih =>
    obtain ⟨a, b, d, e, ⟨tags, f⟩, h⟩ := ih (s.modCrew c fun cr => { cr with tags := g x cr.tags })
    refine ⟨a, b, d, fun q hq => (e q hq).trans (State.crew_modCrew_ne _ _ hq), ⟨tags, ?_⟩,
      (State.sameRest_modCrew s c _).trans h⟩
    rw [List.foldl_cons, f, State.crew_modCrew_self]

/-- Writing tags leaves everything but the tags of one crew. -/
theorem State.retagCrew_spec (s0 s1 : State) (ws : List LaneWrite) (c : Nat) (prod : Nat → Reg → Tag) :
    let r := State.retagCrew s0 s1 ws c prod
    r.threads = s1.threads ∧ r.ctxs = s1.ctxs ∧ r.eng = s1.eng ∧ (∀ q, q ≠ c → r.crew q = s1.crew q) ∧
      (∃ tags, r.crew c = { s1.crew c with tags := tags }) ∧ s1.SameRest r := by
  unfold State.retagCrew
  extract_lets mine regs
  exact State.tagFold_spec c (fun r tags => tags.set r.toNat (newTag s0 s1 c
    ((mine.filter fun x => x.regs.any fun e => e.1 == r).map (·.thread)) r (prod c r)) r.isLt) regs s1

/-- A crew but for the tags of its registers. -/
def Crew.retagged (c c' : Crew) : Prop := ∃ tags, c' = { c with tags := tags }

theorem Crew.retagged_trans {a b c : Crew} (h : a.retagged b) (k : b.retagged c) : a.retagged c := by
  obtain ⟨x, rfl⟩ := h
  obtain ⟨y, rfl⟩ := k
  exact ⟨y, rfl⟩

/-- The writes of the lanes to one thread. -/
def laneRegs (ws : List LaneWrite) (t : Nat) : List (Reg × Word) := (ws.filter fun w => w.thread == t).flatMap (·.regs)

theorem Thread.writeAll_append (th : Thread) (a b : List (Reg × Word)) : th.writeAll (a ++ b) = (th.writeAll a).writeAll b := by
  induction a generalizing th with
  | nil => rfl
  | cons e r ih => exact ih _

/-- Register writes of lanes, the tags apart. -/
theorem State.writeFold_spec (ws : List LaneWrite) (s : State) :
    let r := ws.foldl (fun s w => s.modThread w.thread fun th => th.writeAll w.regs) s
    (∀ t, r.thread t = (s.thread t).writeAll (laneRegs ws t)) ∧ r.crews = s.crews ∧ r.ctxs = s.ctxs ∧ r.eng = s.eng ∧ s.SameRest r := by
  induction ws generalizing s with
  | nil => exact ⟨fun _ => rfl, rfl, rfl, rfl, State.sameRest_refl _⟩
  | cons w l ih =>
    obtain ⟨a, b, d, e, f⟩ := ih (s.modThread w.thread fun th => th.writeAll w.regs)
    refine ⟨fun t => (a t).trans ?_, b, d, e, (State.sameRest_modThread s _ _).trans f⟩
    by_cases h : t = w.thread
    · subst h
      rw [State.thread_modThread_self, ← Thread.writeAll_append]
      simp [laneRegs]
    · rw [State.thread_modThread_ne _ _ h]
      have : ¬ w.thread = t := fun e => h e.symm
      simp [laneRegs, this]

/-- What the register writes of lanes do: the registers, the tags of the crews, and nothing else. -/
theorem State.writeLanes_spec (s : State) (ws : List LaneWrite) (prod : Nat → Reg → Tag) :
    let r := s.writeLanes ws prod
    (∀ t, r.thread t = (s.thread t).writeAll (laneRegs ws t)) ∧ (∀ c, (s.crew c).retagged (r.crew c)) ∧
      r.ctxs = s.ctxs ∧ r.eng = s.eng ∧ s.SameRest r := by
  unfold State.writeLanes
  dsimp only
  obtain ⟨a, b, d, e, f⟩ := State.writeFold_spec ws s
  generalize hr : ws.foldl (fun s w => s.modThread w.thread fun th => th.writeAll w.regs) s = r1 at a b d e f
  generalize (List.map (fun w : LaneWrite => (s.thread w.thread).crew) ws).eraseDups = cs
  have key : ∀ (cs : List Nat) (q : State), q.threads = r1.threads → (∀ c, (s.crew c).retagged (q.crew c)) → q.ctxs = s.ctxs →
      q.eng = s.eng → s.SameRest q →
      let r := cs.foldl (fun q c => State.retagCrew s q ws c prod) q
      r.threads = r1.threads ∧ (∀ c, (s.crew c).retagged (r.crew c)) ∧ r.ctxs = s.ctxs ∧ r.eng = s.eng ∧ s.SameRest r := by
    intro cs
    induction cs with
    | nil => intro q h1 h2 h3 h4 h5; exact ⟨h1, h2, h3, h4, h5⟩
    | cons c cs ih =>
      intro q h1 h2 h3 h4 h5
      obtain ⟨k1, k2, k3, k4, k5, k6⟩ := State.retagCrew_spec s q ws c prod
      refine ih _ (k1.trans h1) ?_ (k2.trans h3) (k3.trans h4) (h5.trans k6)
      intro x
      by_cases hx : x = c
      · subst hx
        exact Crew.retagged_trans (h2 x) k5
      · rw [k4 x hx]
        exact h2 x
  obtain ⟨g1, g2, g3, g4, g5⟩ := key cs r1 rfl (fun c => ⟨_, by rw [State.crew, b]; rfl⟩) d e f
  refine ⟨fun t => ?_, g2, g3, g4, g5⟩
  rw [← a t]
  simp only [State.thread, g1]

/-! ## A register word in its lanes -/

/-- A thread stays where it is under a change of one. -/
theorem State.isSome_modThread (s : State) (t q : Nat) (f : Thread → Thread) (h : (Table.find? s.threads q).isSome = true) :
    (Table.find? (s.modThread t f).threads q).isSome = true := by
  simp only [State.modThread, State.setThread, Table.find?_set]
  split
  · rfl
  · exact h

theorem State.isSome_advance (s : State) (t q : Nat) (h : (Table.find? s.threads q).isSome = true) :
    (Table.find? (s.advance t).threads q).isSome = true := by
  unfold State.advance
  dsimp only
  rw [(State.retire_spec _ t).1]
  exact State.isSome_modThread _ _ _ _ (State.isSome_modThread _ _ _ _ h)

/-- A word runs in a thread of a state that differs only in what the checks at issue do not read. -/
theorem State.Runs.congr {s s' : State} {i : Instr} {t : Nat} (h : s.Runs i t)
    (he : (Table.find? s.threads t).isSome = true → (Table.find? s'.threads t).isSome = true)
    (hk : (s'.thread t).cont = (s.thread t).cont) (hg : (s'.thread t).guard = (s.thread t).guard)
    (hc : (s'.thread t).crew = (s.thread t).crew) (ht : ∀ c, (s.crew c).retagged (s'.crew c)) (hr : s.SameRest s') :
    s'.Runs i t := by
  refine ⟨he h.1, hk.trans h.2.1, ?_⟩
  rw [State.issueCheck_congr i (State.wordGuard_congr hr.model hg) hc (fun c => ?_) (fun c => ?_) hr.teams hr.grids]
  · exact h.2.2
  · obtain ⟨tags, e⟩ := ht c
    rw [e]
  · obtain ⟨tags, e⟩ := ht c
    rw [e]

/-- The trap-enable mask reads the grid of the thread. -/
theorem State.trapen_congr {s s' : State} {t : Nat} (hc : (s'.thread t).crew = (s.thread t).crew)
    (ht : ∀ c, (s.crew c).retagged (s'.crew c)) (hr : s.SameRest s') : s'.trapen t = s.trapen t := by
  obtain ⟨tags, e⟩ := ht (s.thread t).crew
  simp [State.trapen, State.gridOf, State.teamOf, State.crewOf, hc, e, State.team, State.grid, hr.teams, hr.grids]

theorem Crew.retagged_refl (c : Crew) : c.retagged c := ⟨_, rfl⟩

theorem State.retagged_of_eq {s s' : State} (h : s'.crews = s.crews) (c : Nat) : (s.crew c).retagged (s'.crew c) := by
  simp only [State.crew, h]
  exact Crew.retagged_refl _

/-- One lane of a register word that performs. -/
theorem State.regLane_spec (i : Instr) (outs : List (Nat × RegOut)) (s : State) (t : Nat) (o : RegOut) (ha : s.m.cur.Alone)
    (hr : s.Runs i t) (ho : (outs.find? fun e => e.1 == t).map Prod.snd = some o) (hf : o.flags &&& s.trapen t = 0) :
    let r := s.runLane i (regLane outs) t
    r.thread t = (({ s.thread t with fstat := (s.thread t).fstat ||| o.flags } : Thread).setPs o.preds).past s.m.cur ∧
      (∀ q, q ≠ t → r.thread q = s.thread q) ∧ r.crews = s.crews ∧ r.eng = s.eng ∧ s.SameCtxs r ∧ s.SameRest r ∧
      ∀ q, (Table.find? s.threads q).isSome = true → (Table.find? r.threads q).isSome = true := by
  obtain ⟨h1, h2, h3, h4, h5, h6, h7, h8⟩ := ha
  obtain ⟨r1, r2, r3⟩ := hr
  obtain ⟨th, hth⟩ := Option.isSome_iff_exists.1 r1
  obtain ⟨e, he, heo⟩ := Option.map_eq_some_iff.1 ho
  have hw : s.pairWaits t = false := by simp [State.pairWaits, h1, h2]
  have hl : regLane outs s t = .done ((s.modThread t fun th => { th with fstat := th.fstat ||| o.flags }).modThread t
      fun th => th.setPs o.preds) := by
    obtain ⟨x, y⟩ := e
    simp only at heo
    subst heo
    simp [regLane, he, hf]
  unfold State.runLane
  simp only [hth, Option.isNone_some, Bool.false_eq_true, if_false, r3, Thread.isCont, r2, Option.isSome_none, Bool.false_and, hw,
    hl, h3]
  have ha : ((s.modThread t fun th => { th with fstat := th.fstat ||| o.flags }).modThread t
      fun th => th.setPs o.preds).m.cur.Alone := ⟨h1, h2, h3, h4, h5, h6, h7, h8⟩
  obtain ⟨a1, a2, a3, a4, a5, a6⟩ := State.advance_spec _ t ha
  refine ⟨?_, fun q hq => ?_, a3, a4, State.sameCtxs_trans (State.sameCtxs_of_eq rfl) a5, State.SameRest.trans
    ((State.sameRest_modThread s _ _).trans (State.sameRest_modThread _ _ _)) a6, fun q hq => ?_⟩
  · rw [a1, State.thread_modThread_self, State.thread_modThread_self]
    simp only [State.modThread_m, r2]
  · rw [a2 q hq, State.thread_modThread_ne _ _ hq, State.thread_modThread_ne _ _ hq]
  · exact State.isSome_advance _ _ _ (State.isSome_modThread _ _ _ _ (State.isSome_modThread _ _ _ _ hq))

/-- The lanes of a register word that performs in each. -/
theorem State.regLanes_spec (i : Instr) (outs : List (Nat × RegOut)) (g : Nat → RegOut) (l : List Nat) (s : State)
    (hn : l.Nodup) (ha : s.m.cur.Alone) (hr : ∀ t ∈ l, s.Runs i t)
    (ho : ∀ t ∈ l, (outs.find? fun e => e.1 == t).map Prod.snd = some (g t)) (hf : ∀ t ∈ l, (g t).flags &&& s.trapen t = 0) :
    let r := l.foldl (fun s t => s.runLane i (regLane outs) t) s
    (∀ t ∈ l, r.thread t =
      (({ s.thread t with fstat := (s.thread t).fstat ||| (g t).flags } : Thread).setPs (g t).preds).past s.m.cur) ∧
      (∀ q, q ∉ l → r.thread q = s.thread q) ∧ r.crews = s.crews ∧ r.eng = s.eng ∧ s.SameCtxs r ∧ s.SameRest r := by
  induction l generalizing s with
  | nil => exact ⟨fun t h => absurd h (by simp), fun _ _ => rfl, rfl, rfl, s.sameCtxs_refl, s.sameRest_refl⟩
  | cons x l ih =>
    obtain ⟨hx, hl⟩ := List.nodup_cons.1 hn
    have hxm : x ∈ x :: l := List.mem_cons_self
    obtain ⟨a1, a2, a3, a4, a5, a6, a7⟩ := State.regLane_spec i outs s x (g x) ha (hr x hxm) (ho x hxm) (hf x hxm)
    rw [List.foldl_cons]
    generalize s.runLane i (regLane outs) x = s1 at a1 a2 a3 a4 a5 a6 a7
    have hcr : ∀ c, (s.crew c).retagged (s1.crew c) := State.retagged_of_eq a3
    have hne : ∀ t ∈ l, t ≠ x := fun t ht e => hx (e ▸ ht)
    obtain ⟨b1, b2, b3, b4, b5, b6⟩ := ih s1 hl (by rw [a6.model]; exact ha)
      (fun t ht => (hr t (List.mem_cons_of_mem _ ht)).congr (a7 t) (by rw [a2 t (hne t ht)]) (by rw [a2 t (hne t ht)])
        (by rw [a2 t (hne t ht)]) hcr a6)
      (fun t ht => ho t (List.mem_cons_of_mem _ ht))
      (fun t ht => by rw [State.trapen_congr (by rw [a2 t (hne t ht)]) hcr a6]; exact hf t (List.mem_cons_of_mem _ ht))
    refine ⟨fun t ht => ?_, fun q hq => ?_, b3.trans a3, b4.trans a4, State.sameCtxs_trans a5 b5, a6.trans b6⟩
    · rcases List.mem_cons.1 ht with rfl | ht
      · rw [b2 t hx, a1]
      · rw [b1 t ht, a2 t (hne t ht), a6.model]
    · rw [b2 q (fun h => hq (List.mem_cons_of_mem _ h)), a2 q (fun h => hq (h ▸ hxm))]

/-- Where the results of the lanes are found. -/
theorem outs_find (l : List Nat) (g : Nat → RegOut) (t : Nat) (h : t ∈ l) :
    (((l.map fun t => (t, g t)).find? fun e => e.1 == t).map Prod.snd) = some (g t) := by
  induction l with
  | nil => exact absurd h (by simp)
  | cons x l ih =>
    by_cases hx : x = t
    · subst hx; simp
    · have : t ∈ l := by
        rcases List.mem_cons.1 h with e | e
        · exact absurd e.symm hx
        · exact e
      simp [hx] at ih ⊢
      exact ih this

/-- The writes of one lane among those of a bundle. -/
theorem laneRegs_map (l : List Nat) (g : Nat → RegOut) (hn : l.Nodup) (t : Nat) :
    laneRegs (l.map fun t => ⟨t, (g t).regs⟩) t = if t ∈ l then (g t).regs else [] := by
  induction l with
  | nil => rfl
  | cons x l ih =>
    obtain ⟨hx, hl⟩ := List.nodup_cons.1 hn
    have := ih hl
    unfold laneRegs at this ⊢
    by_cases h : x = t
    · subst h
      simp [hx] at this ⊢
      exact this
    · have h' : ¬ t = x := fun e => h e.symm
      simp [h, h'] at this ⊢
      exact this

/-- Register writes of lanes keep every thread. -/
theorem State.isSome_writeLanes (s : State) (ws : List LaneWrite) (prod : Nat → Reg → Tag) (q : Nat)
    (h : (Table.find? s.threads q).isSome = true) : (Table.find? (s.writeLanes ws prod).threads q).isSome = true := by
  have h1 : ∀ (ws : List LaneWrite) (s : State), (Table.find? s.threads q).isSome = true →
      (Table.find? (ws.foldl (fun s w => s.modThread w.thread fun th => th.writeAll w.regs) s).threads q).isSome = true := by
    intro ws
    induction ws with
    | nil => exact fun _ h => h
    | cons w l ih => exact fun s h => ih _ (State.isSome_modThread s _ _ _ h)
  have h2 : ∀ (cs : List Nat) (r : State), (Table.find? r.threads q).isSome = true →
      (Table.find? (cs.foldl (fun q c => State.retagCrew s q ws c prod) r).threads q).isSome = true := by
    intro cs
    induction cs with
    | nil => exact fun _ h => h
    | cons c l ih => exact fun r h => ih _ (by rw [(State.retagCrew_spec s r ws c prod).1]; exact h)
  exact h2 _ _ (h1 _ _ h)

/-- What a register word does over its bundle where it performs in every lane and raises no enabled flag: each lane receives its
result, computed before any is written, and goes on. -/
theorem State.runRegs_spec (s : State) (i : Instr) (prod : Nat → Reg → Tag) (f : State → Nat → RegOut) (h : s.Bundled i)
    (hf : ∀ t ∈ s.m.cur.lanes, (f s t).flags &&& s.trapen t = 0) :
    (∀ t ∈ s.m.cur.lanes, (s.runRegs i prod f).thread t = ((s.thread t).given (f s t)).past s.m.cur) ∧
      s.RegFrame (s.runRegs i prod f) s.m.cur.lanes := by
  obtain ⟨ha, hn, hr⟩ := h
  have hp : (s.m.cur.lanes.map fun t => (t, f s t)).filter (fun e => s.performs i e.1 e.2) = s.m.cur.lanes.map fun t => (t, f s t) := by
    rw [List.filter_eq_self]
    intro e he
    obtain ⟨t, ht, rfl⟩ := List.mem_map.1 he
    obtain ⟨_, r2, r3⟩ := hr t ht
    simp [State.performs, r3, Thread.isCont, r2, hf t ht]
  unfold State.runRegs
  simp only [ha.2.2.1, Bool.false_eq_true, if_false, hp, List.map_map, Function.comp_def]
  have hws := laneRegs_map s.m.cur.lanes (f s) hn
  obtain ⟨w1, w2, w3, w4, w5⟩ := State.writeLanes_spec s (s.m.cur.lanes.map fun t => ⟨t, (f s t).regs⟩) prod
  have w6 := State.isSome_writeLanes s (s.m.cur.lanes.map fun t => ⟨t, (f s t).regs⟩) prod
  generalize s.writeLanes (s.m.cur.lanes.map fun t => ⟨t, (f s t).regs⟩) prod = s1 at w1 w2 w3 w4 w5 w6
  have e1 : ∀ t ∈ s.m.cur.lanes, s1.thread t = (s.thread t).writeAll (f s t).regs := fun t ht => by
    rw [w1, hws, if_pos ht]
  have e2 : ∀ t, t ∉ s.m.cur.lanes → s1.thread t = s.thread t := fun t ht => by
    rw [w1, hws, if_neg ht]
    rfl
  have em : s1.m = s.m := w5.model
  obtain ⟨b1, b2, b3, b4, b5, b6⟩ := State.regLanes_spec i (s.m.cur.lanes.map fun t => (t, f s t)) (f s) s.m.cur.lanes s1 hn
    (by rw [em]; exact ha)
    (fun t ht => (hr t ht).congr (w6 t) (by rw [e1 t ht]; simp) (by rw [e1 t ht]; simp) (by rw [e1 t ht]; simp) w2 w5)
    (fun t ht => outs_find _ _ t ht)
    (fun t ht => by rw [State.trapen_congr (by rw [e1 t ht]; simp) w2 w5]; exact hf t ht)
  unfold State.runLanes
  rw [em]
  refine ⟨fun t ht => ?_, fun q hq => ?_, fun c => ?_, State.sameCtxs_trans (State.sameCtxs_of_eq w3) b5, b4.trans w4, w5.trans b6⟩
  · rw [b1 t ht, e1 t ht, em]
    simp [Thread.given]
  · rw [b2 q hq, e2 q hq]
  · obtain ⟨tags, e⟩ := w2 c
    exact ⟨tags, by rw [← e, State.crew, State.crew, b3]⟩

end Sys2Proof.Machine
end

