-- ==== Sys2Proof/Laws/Lanes.lean ====
section
/-! SUPPORT. What a word does whose bundle is one thread: the effect of its lane, then the advance, the transfer or the fault. -/

namespace Sys2Proof.Machine

/-- What becomes of the effect of a lane in a thread that stands alone. -/
def State.laneEnd (s : State) (i : Instr) (t : Nat) : LaneRes → State
  | .done r => r.advance t
  | .goto r pc => r.jump t pc
  | .placed r => r
  | .early c v => s.early t c v
  | .late r c v => r.late t c v
  | .block r => r.blockAt i t
  | .stall r id c a => if (s.gridOf t).status != .live then s.blockAt i t else r.stallAt i t id c a
  | .freeze => s.early t freezeCode 0

/-- A word over a bundle of one thread. -/
theorem State.runLanes_solo {s : State} {i : Instr} {t : Nat} (h : s.Solo i t) (f : State → Nat → LaneRes) :
    s.runLanes i f = s.laneEnd i t (f s t) := by
  obtain ⟨ha, hl, r1, r2, r3⟩ := h
  have h3 := ha.2.2.1
  obtain ⟨th, hth⟩ := Option.isSome_iff_exists.1 r1
  obtain ⟨hp, _, hw⟩ := State.pair_alone ha t
  unfold State.runLanes
  rw [hl]
  simp only [List.foldl_cons, List.foldl_nil]
  unfold State.runLane
  simp only [hth, Option.isNone_some, Bool.false_eq_true, if_false, r3, Thread.isCont, r2, Option.isSome_none, Bool.false_and, hw, h3, hp,
    Bool.or_self, Bool.false_or]
  cases f s t <;> rfl

/-- A bundle of one thread is a bundle. -/
theorem State.Solo.bundled {s : State} {i : Instr} {t : Nat} (h : s.Solo i t) : s.Bundled i := by
  obtain ⟨ha, hl, hr⟩ := h
  refine ⟨ha, by rw [hl]; simp, fun q hq => ?_⟩
  rw [hl, List.mem_singleton] at hq
  exact hq ▸ hr

/-- Frames compose. -/
theorem State.turnFrame_refl (s : State) (t : Nat) : s.TurnFrame s t :=
  ⟨fun _ _ => rfl, fun _ => ⟨_, rfl⟩, s.sameCtxs_refl, rfl, s.sameRest_refl⟩

theorem State.TurnFrame.trans {a b c : State} {t : Nat} (h : a.TurnFrame b t) (k : b.TurnFrame c t) : a.TurnFrame c t :=
  ⟨fun q hq => (k.threads q hq).trans (h.threads q hq), fun x => by
    obtain ⟨l, e⟩ := h.crews x
    obtain ⟨m, f⟩ := k.crews x
    exact ⟨m, by rw [f, e]⟩, State.sameCtxs_trans h.ctxs k.ctxs, k.eng.trans h.eng, h.rest.trans k.rest⟩

theorem State.turnFrame_modThread (s : State) (t : Nat) (f : Thread → Thread) : s.TurnFrame (s.modThread t f) t :=
  ⟨fun _ hq => State.thread_modThread_ne _ _ hq, fun _ => ⟨_, rfl⟩, State.sameCtxs_of_eq rfl, rfl, State.sameRest_modThread _ _ _⟩

theorem State.turnFrame_of_eqs {s s' : State} {t : Nat} (h1 : ∀ q, q ≠ t → s'.thread q = s.thread q) (h2 : s'.crews = s.crews)
    (h3 : s.SameCtxs s') (h4 : s'.eng = s.eng) (h5 : s.SameRest s') : s.TurnFrame s' t :=
  ⟨h1, fun c => ⟨_, by simp only [State.crew, h2]; rfl⟩, h3, h4, h5⟩

theorem State.turnFrame_modLoop (s : State) (t c : Nat) (f : Crew → Crew) (h : ∀ x : Crew, ∃ l, f x = { x with loop := l }) :
    s.TurnFrame (s.modCrew c f) t := by
  refine ⟨fun _ _ => rfl, fun q => ?_, State.sameCtxs_of_eq rfl, rfl, State.sameRest_modCrew _ _ _⟩
  by_cases hq : q = c
  · subst hq
    rw [State.crew_modCrew_self]
    exact h _
  · rw [State.crew_modCrew_ne _ _ hq]
    exact ⟨_, rfl⟩

/-- Going on past a word, in one thread. -/
theorem State.advance_turn (s : State) (t : Nat) (h : s.m.cur.Alone) :
    (s.advance t).thread t = (s.thread t).past s.m.cur ∧ s.TurnFrame (s.advance t) t := by
  obtain ⟨a, b, c, d, e, f⟩ := State.advance_spec s t h
  exact ⟨a, State.turnFrame_of_eqs b c e d f⟩

theorem State.retire_turn (s : State) (t : Nat) :
    (s.retire t).thread t = { s.thread t with retired := (s.thread t).retired + 1 } ∧ s.TurnFrame (s.retire t) t := by
  obtain ⟨a, b, c, d, e, f, g⟩ := State.retire_spec s t
  exact ⟨by rw [State.thread_retire, if_pos rfl], State.turnFrame_of_eqs (fun q hq => by rw [State.thread_retire, if_neg hq]) b f c g⟩

theorem State.leaveLoop_turn (s : State) (t : Nat) (tg : DWord) :
    (s.leaveLoop t tg).thread t = s.thread t ∧ s.TurnFrame (s.leaveLoop t tg) t := by
  unfold State.leaveLoop
  split
  · exact ⟨rfl, s.turnFrame_refl t⟩
  · split
    · exact ⟨rfl, s.turnFrame_refl t⟩
    · exact ⟨rfl, State.turnFrame_modLoop _ _ _ _ fun x => ⟨_, rfl⟩⟩

/-- A transfer of a thread that stands alone: it is at the target, its guard ended. -/
theorem State.jump_turn (s : State) (t : Nat) (tg : DWord) (h : s.m.cur.Alone) :
    (s.jump t tg).thread t = (s.thread t).jumped tg ∧ s.TurnFrame (s.jump t tg) t := by
  obtain ⟨e, f⟩ := State.leaveLoop_turn s t tg
  have hm := f.rest.model
  unfold State.jump
  dsimp only
  generalize s.leaveLoop t tg = r at e f hm
  obtain ⟨_, hp, hw⟩ := State.pair_alone (s := r) (by rw [hm]; exact h) t
  simp only [hp, hw, Bool.false_eq_true, if_false]
  obtain ⟨a, b⟩ := State.retire_turn (r.modThread t fun th => { th with pc := tg, guard := Guard.none }) t
  refine ⟨?_, (f.trans (State.turnFrame_modThread r t _)).trans b⟩
  rw [a, State.thread_modThread_self, e]
  rfl

/-! ## Words of several threads that act each on their own -/

theorem State.isSome_retire (s : State) (t q : Nat) (h : (Table.find? s.threads q).isSome = true) :
    (Table.find? (s.retire t).threads q).isSome = true := by
  rw [(State.retire_spec s t).1]
  exact State.isSome_modThread _ _ _ _ h

theorem State.isSome_jump (s : State) (t q : Nat) (tg : DWord) (h : (Table.find? s.threads q).isSome = true) :
    (Table.find? (s.jump t tg).threads q).isSome = true := by
  have hl : (Table.find? (s.leaveLoop t tg).threads q).isSome = true := by
    unfold State.leaveLoop
    split
    · exact h
    · split <;> exact h
  unfold State.jump
  dsimp only
  split
  · exact State.isSome_retire _ _ _ hl
  · split <;> exact State.isSome_retire _ _ _ (State.isSome_modThread _ _ _ _ hl)

/-- Crews that differ in their loop buffers only. -/
theorem State.Runs.turn {s s' : State} {i : Instr} {t q : Nat} (h : s.Runs i t) (ht : t ≠ q)
    (he : (Table.find? s.threads t).isSome = true → (Table.find? s'.threads t).isSome = true) (f : s.TurnFrame s' q) : s'.Runs i t := by
  have e := f.threads t ht
  refine ⟨he h.1, (congrArg Thread.cont e).trans h.2.1, ?_⟩
  rw [State.issueCheck_congr i (State.wordGuard_congr f.rest.model (congrArg Thread.guard e)) (congrArg Thread.crew e) (fun c => ?_) (fun c => ?_) f.rest.teams f.rest.grids]
  · exact h.2.2
  · obtain ⟨l, e⟩ := f.crews c
    rw [e]
  · obtain ⟨l, e⟩ := f.crews c
    rw [e]

/-- A word each of whose lanes changes its own thread by `h`, and loop buffers. -/
theorem State.lanes_turn {s : State} {i : Instr} {f : State → Nat → LaneRes} (h : Nat → Thread → Thread) (hb : s.Bundled i)
    (step : ∀ (r : State) (t : Nat), t ∈ s.m.cur.lanes → r.m = s.m → r.Runs i t → r.thread t = s.thread t →
      (r.runLane i f t).thread t = h t (r.thread t) ∧ r.TurnFrame (r.runLane i f t) t ∧
      ∀ q, (Table.find? r.threads q).isSome = true → (Table.find? (r.runLane i f t).threads q).isSome = true) :
    s.TurnsFrame (s.runLanes i f) s.m.cur.lanes ∧ ∀ t ∈ s.m.cur.lanes, (s.runLanes i f).thread t = h t (s.thread t) := by
  obtain ⟨_, hn, hr⟩ := hb
  have key : ∀ (l : List Nat) (r : State), l.Nodup → (∀ t ∈ l, t ∈ s.m.cur.lanes) → r.m = s.m → (∀ t ∈ l, r.Runs i t) →
      (∀ t ∈ l, r.thread t = s.thread t) →
      let u := l.foldl (fun s t => s.runLane i f t) r
      r.TurnsFrame u l ∧ ∀ t ∈ l, u.thread t = h t (s.thread t) := by
    intro l
    induction l with
    | nil =>
      intro r _ _ _ _ _
      exact ⟨⟨fun _ _ => rfl, fun _ => ⟨_, rfl⟩, r.sameCtxs_refl, rfl, r.sameRest_refl⟩, fun t ht => absurd ht (by simp)⟩
    | cons x l ih =>
      intro r hn hm hmod hr he
      obtain ⟨hx, hl⟩ := List.nodup_cons.1 hn
      have hxm : x ∈ x :: l := List.mem_cons_self
      obtain ⟨a1, a2, a3⟩ := step r x (hm x hxm) hmod (hr x hxm) (he x hxm)
      rw [List.foldl_cons]
      have hne : ∀ t ∈ l, t ≠ x := fun t ht e => hx (e ▸ ht)
      obtain ⟨b1, b2⟩ := ih (r.runLane i f x) hl (fun t ht => hm t (List.mem_cons_of_mem _ ht)) (a2.rest.model.trans hmod)
        (fun t ht => (hr t (List.mem_cons_of_mem _ ht)).turn (hne t ht) (a3 t) a2)
        (fun t ht => (a2.threads t (hne t ht)).trans (he t (List.mem_cons_of_mem _ ht)))
      refine ⟨⟨fun q hq => ?_, fun c => ?_, State.sameCtxs_trans a2.ctxs b1.ctxs, b1.eng.trans a2.eng, a2.rest.trans b1.rest⟩,
        fun t ht => ?_⟩
      · rw [b1.threads q (fun h => hq (List.mem_cons_of_mem _ h)), a2.threads q (fun h => hq (h ▸ hxm))]
      · obtain ⟨l1, e1⟩ := a2.crews c
        obtain ⟨l2, e2⟩ := b1.crews c
        exact ⟨l2, by rw [e2, e1]⟩
      · rcases List.mem_cons.1 ht with rfl | ht
        · rw [b1.threads t hx, a1, he t hxm]
        · exact b2 t ht
  exact key s.m.cur.lanes s hn (fun _ h => h) rfl hr (fun _ _ => rfl)

/-- One lane of a word that runs, outside a pair. -/
theorem State.runLane_alone {s : State} {i : Instr} {t : Nat} (ha : s.m.cur.Alone) (hr : s.Runs i t) (f : State → Nat → LaneRes) :
    s.runLane i f t = s.laneEnd i t (f s t) := by
  have h3 := ha.2.2.1
  obtain ⟨r1, r2, r3⟩ := hr
  obtain ⟨th, hth⟩ := Option.isSome_iff_exists.1 r1
  obtain ⟨hp, _, hw⟩ := State.pair_alone ha t
  unfold State.runLane
  simp only [hth, Option.isNone_some, Bool.false_eq_true, if_false, r3, Thread.isCont, r2, Option.isSome_none, Bool.false_and, hw, h3, hp,
    Bool.or_self, Bool.false_or]
  cases f s t <;> rfl

/-! ## Reading registers, and results -/

/-- Outside a pair a word reads the registers as they stand. -/
theorem State.src_alone {s : State} (h : s.m.cur.Alone) (t : Nat) : s.src t = s.thread t := by
  simp [State.src, h.2.2.2.2.2.1]

theorem State.kReg_alone {s : State} (h : s.m.cur.Alone) (t : Nat) (n : BitVec 5) : s.kReg t n =
    if (s.crewOf t).index = 0 then (s.teamOf t).kLead[n.toNat]'n.isLt else (s.teamOf t).kView[n.toNat]'n.isLt := by
  simp only [State.kReg, h.2.2.2.2.2.2.1, State.teamOf]
  rfl

/-- A register word whose meaning is `runRegs` gives `f`, where `h` computes `f` and no enabled flag is raised. -/
theorem State.Bundled.results {s : State} {i : Instr} {prod : Nat → Reg → Tag} {f : Nat → RegOut} {h : State → Nat → RegOut}
    (hb : s.Bundled i) (hg : ∀ t, h s t = f t) (hf : s.Quiet f) (he : exec i s = .next (s.runRegs i prod h)) :
    ∃ u, exec i s = .next u ∧ s.Results u f := by
  have hg' : h s = f := funext hg
  obtain ⟨a, b⟩ := State.runRegs_spec s i prod h hb (by intro t ht; rw [hg']; exact hf t ht)
  exact ⟨_, he, fun t ht => by rw [a t ht, hg'], b⟩

/-- Results without flags raise none that is enabled. -/
theorem State.quiet_of_flags {s : State} {f : Nat → RegOut} (h : ∀ t, (f t).flags = 0) : s.Quiet f := fun t _ => by
  rw [h t]
  simp

end Sys2Proof.Machine
end

