-- ==== Sys2Proof/Laws/Outside.lean ====
section
/-! SUPPORT. What the memory system leaves alone: its functions change contexts' counts, caches, translation, main memory and the
device's registers, and outside them only what the forks of threads have recorded (06 R148). -/

namespace Sys2Proof.Machine

/-- The parts of a state that lie outside the memory system. -/
structure Outside where
  cycle   : Nat
  handle  : Nat
  age     : Nat
  threads : Table Thread
  crews   : Table Crew
  teams   : Table Team
  grids   : Table Grid
  eng     : Engines
  fixer   : Fixer
  queues  : Table Queue
  fab     : Fabric
  trust   : Trust
  harts   : Table Hart
  m       : Model

/-- What the model adds to the machine, but for the free values taken and the mark of a home that is not ready. -/
def Model.bare (m : Model) : Model := { m with free := 0, unready := false }

/-- The parts of a state that lie outside the memory system. -/
def State.outside (s : State) : Outside :=
  ⟨s.cycle, s.handle, s.age, s.threads, s.crews, s.teams, s.grids, s.eng, s.fixer, s.queues, s.fab, s.trust, s.harts, s.m.bare⟩

theorem State.outside_modCtx (s : State) (k : Nat) (f : Ctx → Ctx) : (s.modCtx k f).outside = s.outside := rfl
theorem State.outside_modCore (s : State) (k : Nat) (f : Core → Core) : (s.modCore k f).outside = s.outside := rfl
theorem State.outside_modDie (s : State) (k : Nat) (f : Die → Die) : (s.modDie k f).outside = s.outside := rfl
theorem State.outside_count (s : State) (k i n : Nat) : (s.count k i n).outside = s.outside := rfl

theorem State.outside_setPhysByte (s : State) (pa : Nat) (b : Byte) : (s.setPhysByte pa b).outside = s.outside := by
  unfold State.setPhysByte; split <;> rfl

theorem State.outside_setPhys (s : State) (pa : Nat) (l : List Byte) : (s.setPhys pa l).outside = s.outside := by
  induction l generalizing s pa with
  | nil => rfl
  | cons b r ih => exact (ih _ _).trans (s.outside_setPhysByte pa b)

/-- Beyond the memory system, nothing has changed but what the threads' forks have recorded. -/
structure State.Noted (s s' : State) : Prop where
  threads : ∀ t, ∃ recs, s'.thread t = { s.thread t with fork := { (s.thread t).fork with recs := recs } }
  rest : { s'.outside with threads := [] } = { s.outside with threads := [] }

theorem State.noted_of_outside {s s' : State} (h : s'.outside = s.outside) : s.Noted s' := by
  refine ⟨fun t => ⟨(s.thread t).fork.recs, ?_⟩, by rw [h]⟩
  rw [State.thread, show s'.threads = s.threads from congrArg Outside.threads h]
  rfl

theorem State.noted_refl (s : State) : s.Noted s := State.noted_of_outside rfl

theorem State.Noted.trans {a b c : State} (h : a.Noted b) (k : b.Noted c) : a.Noted c := by
  refine ⟨fun t => ?_, k.rest.trans h.rest⟩
  obtain ⟨x, e⟩ := h.threads t
  obtain ⟨y, f⟩ := k.threads t
  exact ⟨y, by rw [f, e]⟩

theorem State.Noted.crews {s s' : State} (h : s.Noted s') : s'.crews = s.crews := congrArg Outside.crews h.rest
theorem State.Noted.teams {s s' : State} (h : s.Noted s') : s'.teams = s.teams := congrArg Outside.teams h.rest
theorem State.Noted.grids {s s' : State} (h : s.Noted s') : s'.grids = s.grids := congrArg Outside.grids h.rest
theorem State.Noted.m {s s' : State} (h : s.Noted s') : s'.m = { s.m with free := s'.m.free, unready := s'.m.unready } := by
  have e : s'.m.bare = s.m.bare := congrArg Outside.m h.rest
  calc s'.m = { s'.m.bare with free := s'.m.free, unready := s'.m.unready } := rfl
    _ = { s.m.bare with free := s'.m.free, unready := s'.m.unready } := by rw [e]
    _ = _ := rfl
theorem State.Noted.eng {s s' : State} (h : s.Noted s') : s'.eng = s.eng := congrArg Outside.eng h.rest
theorem State.Noted.cycle {s s' : State} (h : s.Noted s') : s'.cycle = s.cycle := congrArg Outside.cycle h.rest

/-- A fold of steps that leave the outside alone leaves it alone. -/
theorem State.noted_foldl {α : Type} (f : State → α → State) (hf : ∀ (s : State) (a : α), s.Noted (f s a)) (l : List α) (s : State) :
    s.Noted (l.foldl f s) := by
  induction l generalizing s with
  | nil => exact s.noted_refl
  | cons a r ih => exact (hf s a).trans (ih _)

theorem State.noted_modCtx (s : State) (k : Nat) (f : Ctx → Ctx) : s.Noted (s.modCtx k f) := State.noted_of_outside rfl
theorem State.noted_modCore (s : State) (k : Nat) (f : Core → Core) : s.Noted (s.modCore k f) := State.noted_of_outside rfl
theorem State.noted_modDie (s : State) (k : Nat) (f : Die → Die) : s.Noted (s.modDie k f) := State.noted_of_outside rfl
theorem State.noted_count (s : State) (k i n : Nat) : s.Noted (s.count k i n) := State.noted_of_outside rfl
theorem State.noted_setPhys (s : State) (pa : Nat) (l : List Byte) : s.Noted (s.setPhys pa l) :=
  State.noted_of_outside (s.outside_setPhys pa l)

/-- A noted write changes the records of forks only. -/
theorem State.noted_noteFrom (s : State) (w : Option Nat) (far : Nat → Bool) (l : LineId) : s.Noted (s.noteFrom w far l) := by
  unfold State.noteFrom
  split
  · exact s.noted_refl
  · refine ⟨fun t => ?_, rfl⟩
    have key : ∀ (f : Nat × Thread → Nat × Thread),
        (∀ e, (f e).1 = e.1 ∧ ∃ r, (f e).2 = { e.2 with fork := { e.2.fork with recs := r } }) → ∀ (tb : Table Thread),
        ∃ r, Table.getD (tb.map f) t Thread.absent =
          { Table.getD tb t Thread.absent with fork := { (Table.getD tb t Thread.absent).fork with recs := r } } := by
      intro f hf tb
      induction tb with
      | nil => exact ⟨_, rfl⟩
      | cons e r ih =>
        obtain ⟨x, a⟩ := e
        obtain ⟨h1, y, h2⟩ := hf (x, a)
        by_cases h : x = t
        · refine ⟨y, ?_⟩
          simp only [Table.getD, List.map_cons] at h1 ⊢
          rw [show f (x, a) = (x, (f (x, a)).2) from Prod.ext h1 rfl]
          simp [Table.find?, h]
          subst h
          exact h2
        · obtain ⟨z, h3⟩ := ih
          refine ⟨z, ?_⟩
          simp only [Table.getD, List.map_cons] at h1 h3 ⊢
          rw [show f (x, a) = (x, (f (x, a)).2) from Prod.ext h1 rfl]
          simp only [Table.find?, h, if_false]
          exact h3
    refine key _ (fun e => ?_) s.threads
    split
    · exact ⟨rfl, _, rfl⟩
    · exact ⟨rfl, _, rfl⟩

theorem State.noted_noteWrite (s : State) (w : Option Nat) (l : LineId) : s.Noted (s.noteWrite w l) := s.noted_noteFrom _ _ _

theorem State.noted_noteWrites (s : State) (w : Option Nat) (st : Store) (off n : Nat) : s.Noted (s.noteWrites w st off n) := by
  unfold State.noteWrites
  exact State.noted_foldl _ (fun s a => s.noted_noteWrite w a) _ _

/-! ## Logs and towers -/

theorem State.noted_notReady (s : State) : s.Noted s.notReady := State.noted_of_outside rfl

theorem State.noted_needHome (s : State) (pa : Nat) : s.Noted (s.needHome pa) := by
  unfold State.needHome
  split
  · exact s.noted_refl
  · exact s.noted_notReady

theorem State.noted_appendOp (s : State) (l : List Byte) : s.Noted (s.appendOp l) := by
  unfold State.appendOp
  extract_lets l2 ok s1
  have : s.Noted s1 := by
    unfold s1; split
    · exact ((s.noted_needHome _).trans (State.noted_setPhys _ _ _)).trans (State.noted_noteWrites _ _ _ _ _)
    · exact s.noted_refl
  exact this.trans (State.noted_of_outside rfl)

theorem State.noted_alarm (s : State) (k : Option Nat) : s.Noted (s.alarm k) := by
  unfold State.alarm
  generalize (FaultRec.event (k.getD 0) false true).bytes false = l
  exact State.Noted.trans (b := { s with ctl := { s.ctl with alarmCnt := satInc s.ctl.alarmCnt 1 } })
    (State.noted_of_outside rfl) (State.noted_appendOp _ l)

theorem State.noted_towerCount (s : State) (t j : Nat) : s.Noted (s.towerCount t j) := State.noted_of_outside rfl
theorem State.noted_setPoison (s : State) (u : Nat) : s.Noted (s.setPoison u) := State.noted_of_outside rfl
theorem State.noted_clearPoison (s : State) (u : Nat) : s.Noted (s.clearPoison u) := State.noted_of_outside rfl

theorem State.noted_integrityFailure (s : State) (k t : Nat) : s.Noted (s.integrityFailure k t) := by
  unfold State.integrityFailure
  dsimp only
  refine State.Noted.trans (State.Noted.trans ?_ (State.noted_modCtx _ _ _)) (State.noted_modCtx _ _ _)
  exact (s.noted_towerCount t 2).trans (State.noted_alarm _ _)

theorem State.noted_ecc (s : State) (u : Nat) : s.Noted (s.ecc u).2 := by
  unfold State.ecc
  dsimp only
  split
  · exact s.noted_refl
  · split
    · exact s.noted_refl
    · split
      · exact s.noted_refl
      · exact State.noted_of_outside rfl

theorem State.noted_unitRead (s : State) (k u : Nat) (b : Bool) : s.Noted (s.unitRead k u b).1 := by
  unfold State.unitRead
  have h := s.noted_ecc u
  generalize s.ecc u = e at h
  obtain ⟨o, s1⟩ := e
  dsimp only at h ⊢
  split
  · exact (h.trans (s1.noted_setPoison u)).trans (State.noted_towerCount _ _ _)
  · have h2 : s.Noted (if o.fixes then s1.towerCount (towerOf (64 * u)) 0 else s1) := by
      split
      · exact h.trans (s1.noted_towerCount _ _)
      · exact h
    generalize (if o.fixes then s1.towerCount (towerOf (64 * u)) 0 else s1) = s2 at h2
    split
    · exact h2.trans (State.noted_of_outside rfl)
    · exact (h2.trans (s2.noted_setPoison u)).trans (State.noted_integrityFailure _ _ _)

theorem State.noted_towerRead (s : State) (k u : Nat) : s.Noted (s.towerRead k u).1 := by
  unfold State.towerRead
  split
  · exact s.noted_refl
  · exact s.noted_unitRead _ _ _

theorem State.noted_homeRead (s : State) (k pa n : Nat) : s.Noted (s.homeRead k pa n).1 := by
  unfold State.homeRead
  have h0 := s.noted_needHome pa
  generalize s.needHome pa = s0 at h0
  dsimp only
  split
  · next o _ =>
    have := h0.trans (s0.noted_towerRead k (o / 64))
    split
    · next h => rw [h] at this; exact this
    · next h => rw [h] at this; exact this.trans (State.noted_of_outside rfl)
  · split <;> exact h0

theorem State.noted_refuseWriteBack (s : State) (k : Nat) : s.Noted (s.refuseWriteBack k) :=
  (s.noted_modCtx _ _).trans (State.noted_appendOp _ _)

theorem State.noted_homeWrite (s : State) (k pa : Nat) (l : List Byte) (b : Bool) : s.Noted (s.homeWrite k pa l b).1 := by
  unfold State.homeWrite
  have h0 := s.noted_needHome pa
  generalize s.needHome pa = s0 at h0
  dsimp only
  split
  · next o _ =>
    split
    · exact h0
    · have hr : ∀ c : Bool, s.Noted (if c then (s0, none) else s0.towerRead k (o / 64)).1 := by
        intro c; cases c
        · exact h0.trans (s0.noted_towerRead _ _)
        · exact h0
      have := hr (l.length == 64 || s0.mem.poison.contains (o / 64))
      split
      · next h =>
        rw [h] at this
        split
        · exact this
        · exact this.trans (State.noted_setPhys _ _ _)
      · next s1 h =>
        rw [h] at this
        have h2 : s.Noted (s1.setPhys pa l) := this.trans (State.noted_setPhys _ _ _)
        generalize s1.setPhys pa l = s2 at h2
        have h3 : s.Noted (if l.length == 64 && b then s2.clearPoison (o / 64) else s2) := by
          split
          · exact h2.trans (s2.noted_clearPoison _)
          · exact h2
        generalize (if l.length == 64 && b then s2.clearPoison (o / 64) else s2) = s3 at h3
        split <;> exact h3.trans (State.noted_of_outside rfl)
  · split
    · exact h0
    · exact h0.trans (s0.noted_setPhys _ _)

theorem State.noted_homeWriteRuns (s : State) (k : Nat) (l : List (Nat × List Byte)) : s.Noted (s.homeWriteRuns k l) := by
  induction l generalizing s with
  | nil => exact s.noted_refl
  | cons e r ih => exact (s.noted_homeWrite _ _ _ _).trans (ih _)

/-! ## L2 and L1 -/

theorem State.noted_l2Flush (s : State) (d : Nat) (l : L2Line) : s.Noted (s.l2Flush d l) := by
  unfold State.l2Flush
  split
  · exact s.noted_refl
  · split
    · exact s.noted_refuseWriteBack _
    · exact (s.noted_homeWriteRuns _ _).trans (State.noted_noteFrom _ _ _ _)

theorem State.noted_l2Clean (s : State) (d k line : Nat) : s.Noted (s.l2Clean d k line) := by
  unfold State.l2Clean
  split
  · exact (s.noted_l2Flush _ _).trans (State.noted_modDie _ _ _)
  · exact s.noted_refl

theorem State.noted_l2Drop (s : State) (d line : Nat) : s.Noted (s.l2Drop d line) := by
  unfold State.l2Drop
  exact (State.noted_foldl _ (fun s l => s.noted_l2Flush d l) _ _).trans (State.noted_modDie _ _ _)

theorem State.noted_invalidateOthers (s : State) (d line : Nat) : s.Noted (s.invalidateOthers d line) := by
  unfold State.invalidateOthers
  extract_lets others wrote s1
  have : s.Noted s1 := State.noted_foldl _ (fun s _ => s.noted_l2Drop _ _) _ _
  split
  · exact this.trans (State.noted_modDie _ _ _)
  · exact this

theorem State.noted_l2WriteBack (s : State) (d k line : Nat) : s.Noted (s.l2WriteBack d k line) :=
  (s.noted_invalidateOthers _ _).trans (State.noted_l2Clean _ _ _ _)

theorem State.noted_dropEverywhere (s : State) (line : Nat) : s.Noted (s.dropEverywhere line) :=
  State.noted_foldl _ (fun s _ => s.noted_l2Drop _ _) _ _

theorem State.noted_l1Push (s : State) (c k line : Nat) : s.Noted (s.l1Push c k line) := by
  unfold State.l1Push
  split
  · split
    · exact s.noted_refl
    · dsimp only
      exact ((s.noted_modDie _ _).trans (State.noted_modCore _ _ _)).trans (State.noted_noteFrom _ _ _ _)
  · exact s.noted_refl

theorem State.noted_noteLoss (s : State) (c : Nat) (l : L1Line) : s.Noted (s.noteLoss c l) := by
  unfold State.noteLoss
  split
  · exact s.noted_refl
  · split
    · exact s.noted_refl
    · exact s.noted_noteFrom _ _ _

theorem State.noted_l1Drop (s : State) (c k line : Nat) : s.Noted (s.l1Drop c k line) := by
  unfold State.l1Drop
  split
  · exact (s.noted_noteLoss _ _).trans (State.noted_modCore _ _ _)
  · exact s.noted_refl

theorem State.noted_l2Evict (s : State) (d : Nat) (v : L2Line) : s.Noted (s.l2Evict d v) := by
  unfold State.l2Evict
  exact ((State.noted_foldl _ (fun s c => (s.noted_l1Push _ _ _).trans (State.noted_l1Drop _ _ _ _)) _ _).trans
    (State.noted_l2WriteBack _ _ _ _)).trans (State.noted_modDie _ _ _)

theorem State.noted_l2Trim (s : State) (d line : Nat) : s.Noted (s.l2Trim d line) := by
  unfold State.l2Trim
  dsimp only
  split
  · exact s.noted_refl
  · split
    · exact s.noted_l2Evict _ _
    · exact s.noted_refl

theorem State.noted_l2Fill (s : State) (d k pa : Nat) : s.Noted (s.l2Fill d k pa).1 := by
  unfold State.l2Fill
  dsimp only
  split
  · exact s.noted_count _ _ _
  · have := (s.noted_count k 0x13 1).trans ((s.count k 0x13 1).noted_homeRead k (pa / 32 * 32) 32)
    split
    · next h => rw [h] at this; exact this
    · next h => rw [h] at this; exact (this.trans (State.noted_modDie _ _ _)).trans (State.noted_l2Trim _ _ _)

theorem State.noted_l2Note (s : State) (d k line c : Nat) : s.Noted (s.l2Note d k line c) := by
  unfold State.l2Note
  refine State.Noted.trans ?_ (State.noted_l2Trim _ _ _)
  exact s.noted_modDie _ _

theorem State.noted_l1WriteBack (s : State) (c k line : Nat) : s.Noted (s.l1WriteBack c k line) :=
  (s.noted_l1Push _ _ _).trans (State.noted_l2Trim _ _ _)

theorem State.noted_l1Trim (s : State) (c : Nat) : s.Noted (s.l1Trim c) :=
  State.noted_foldl _ (fun s _ => (s.noted_l1WriteBack _ _ _).trans (State.noted_l1Drop _ _ _ _)) _ _

theorem State.noted_l1Read (s : State) (c k pa n : Nat) : s.Noted (s.l1Read c k pa n).1 := by
  unfold State.l1Read
  split
  · exact s.noted_refl
  · dsimp only
    split
    · exact s.noted_count _ _ _
    · have := (s.noted_count k 0x11 1).trans ((s.count k 0x11 1).noted_l2Fill (dieOf c) k pa)
      split
      · next h => rw [h] at this; exact this
      · next h =>
        rw [h] at this
        exact ((this.trans (State.noted_modCore _ _ _)).trans (State.noted_l2Note _ _ _ _ _)).trans (State.noted_l1Trim _ _)

theorem State.noted_l1Write (s : State) (c k pa : Nat) (l : List Byte) (b : Bool) : s.Noted (s.l1Write c k pa l b) := by
  unfold State.l1Write
  exact ((s.noted_modCore _ _).trans (State.noted_l2Note _ _ _ _ _)).trans (State.noted_l1Trim _ _)

theorem State.noted_l1Update (s : State) (c k pa : Nat) (l : List Byte) : s.Noted (s.l1Update c k pa l) := by
  unfold State.l1Update
  split
  · exact (s.noted_noteLoss _ _).trans (State.noted_modCore _ _ _)
  · exact s.noted_refl

theorem State.noted_pushL1 (s : State) (c k pa : Nat) : s.Noted (s.pushL1 c k pa) := s.noted_l1WriteBack _ _ _

theorem State.noted_l2Read (s : State) (c k pa n : Nat) : s.Noted (s.l2Read c k pa n).1 := by
  unfold State.l2Read
  split
  · exact s.noted_refl
  · dsimp only
    have := (s.noted_pushL1 c k pa).trans ((s.pushL1 c k pa).noted_l2Fill (dieOf c) k pa)
    split
    · next h => rw [h] at this; exact this
    · next h => rw [h] at this; exact this.trans (State.noted_l1Update _ _ _ _ _)

theorem State.noted_clearPoisons (s : State) (pa n : Nat) : s.Noted (s.clearPoisons pa n) :=
  State.noted_foldl _ (fun s _ => s.noted_clearPoison _) _ _

theorem State.noted_l2Write (s : State) (c k pa : Nat) (l : List Byte) : s.Noted (s.l2Write c k pa l) := by
  unfold State.l2Write
  extract_lets s1 d k' ln cells s2 s3
  have h : s.Noted s3 := (((s.noted_pushL1 c k pa).trans (State.noted_modDie _ _ _)).trans (State.noted_l2Trim _ _ _)).trans
    (State.noted_l1Update _ _ _ _ _)
  split
  · exact (h.trans (State.noted_clearPoisons _ _ _)).trans (State.noted_l2WriteBack _ _ _ _)
  · exact h

theorem State.noted_pushHome (s : State) (c k pa : Nat) : s.Noted (s.pushHome c k pa) :=
  (s.noted_pushL1 _ _ _).trans (State.noted_l2WriteBack _ _ _ _)

theorem State.noted_homeLoad (s : State) (c k pa n : Nat) : s.Noted (s.homeLoad c k pa n).1 := by
  unfold State.homeLoad
  have := (s.noted_pushHome c k pa).trans ((s.pushHome c k pa).noted_homeRead k pa n)
  split
  · next h => rw [h] at this; exact this
  · next h =>
    rw [h] at this
    dsimp only
    refine State.Noted.trans ?_ (State.noted_l1Update _ _ _ _ _)
    split
    · exact this.trans (State.noted_modDie _ _ _)
    · exact this

theorem State.noted_homeStore (s : State) (c k pa : Nat) (l : List Byte) : s.Noted (s.homeStore c k pa l).1 := by
  unfold State.homeStore
  dsimp only
  have := ((s.noted_pushHome c k pa).trans (State.noted_invalidateOthers _ _ _)).trans
    (((s.pushHome c k pa).invalidateOthers (dieOf c) (pa / 128)).noted_homeWrite k pa l true)
  split
  · next h => rw [h] at this; exact this
  · next h =>
    rw [h] at this
    refine State.Noted.trans ?_ (State.noted_l1Update _ _ _ _ _)
    split
    · exact this.trans (State.noted_modDie _ _ _)
    · exact this

/-- A read of global memory leaves the outside alone, whatever its scope. -/
theorem State.noted_globalRead (s : State) (c k pa n : Nat) (sc : Scope) : s.Noted (s.globalRead c k pa n sc).1 := by
  unfold State.globalRead
  split
  · exact s.noted_refl
  · split
    · exact s.noted_l1Read ..
    · exact s.noted_l1Read ..
    · exact s.noted_l2Read ..
    · exact s.noted_l2Read ..
    · exact s.noted_homeLoad ..

/-- A write of global memory leaves the outside alone, whatever its scope. -/
theorem State.noted_globalWrite (s : State) (c k pa : Nat) (l : List Byte) (sc : Scope) :
    s.Noted (s.globalWrite c k pa l sc).1 := by
  unfold State.globalWrite
  split
  · exact s.noted_refl
  · split
    · exact s.noted_refl
    · split
      · exact s.noted_l1Write c k pa l false
      · exact s.noted_l1Write c k pa l true
      · exact s.noted_l2Write c k pa l
      · exact s.noted_l2Write c k pa l
      · exact s.noted_homeStore c k pa l

/-! ## Release and acquire -/

theorem State.noted_release (s : State) (c : Nat) (sc : Scope) : s.Noted (s.release c sc) := by
  unfold State.release
  extract_lets r s1 s2
  have h1 : s.Noted s1 := by
    unfold s1; split
    · exact s.noted_modCore _ _
    · exact s.noted_refl
  have h2 : s.Noted s2 := by
    unfold s2
    split
    · exact h1.trans (State.noted_foldl _ (fun s _ => s.noted_l1WriteBack _ _ _) _ _)
    · exact h1
  split
  · refine h2.trans (State.noted_foldl _ (fun s l => ?_) _ _)
    split
    · exact s.noted_refl
    · exact s.noted_l2WriteBack _ _ _
  · exact h2

theorem State.noted_promote (s : State) (c pa : Nat) (sc : Scope) : s.Noted (s.promote c pa sc) :=
  State.noted_foldl _ (fun s c => (s.noted_release _ _).trans (State.noted_foldl _ (fun s _ => s.noted_l1Drop _ _ _) _ _)) _ _

theorem State.noted_acquire (s : State) (c : Nat) (sc : Scope) : s.Noted (s.acquire c sc) := by
  unfold State.acquire
  split
  · exact ((State.noted_foldl _ (fun s _ => s.noted_noteLoss _ _) _ s).trans (State.noted_modCore _ _ _)).trans
      (State.noted_modDie _ _ _)
  · exact s.noted_refl

/-! ## Translation -/

theorem State.noted_readPte (s : State) (pa : Nat) : s.Noted (s.readPte pa).1 := by
  unfold State.readPte
  have := s.noted_homeRead 0 (pa / 8 * 8) 8
  split
  · next h => rw [h] at this; exact this
  · next h => rw [h] at this; exact this

theorem State.noted_walk (s : State) (k root va l table : Nat) : s.Noted (s.walk k root va l table).1 := by
  induction l generalizing s table with
  | zero =>
    unfold State.walk
    have := s.noted_readPte (table * 4096 + 8 * (va / 2 ^ (12 + 9 * 0) % 512))
    split
    · next h => rw [h] at this; exact this
    · next h =>
      rw [h] at this
      repeat' split
      all_goals first | exact this | (rename_i h; cases h)
  | succ n ih =>
    unfold State.walk
    have := s.noted_readPte (table * 4096 + 8 * (va / 2 ^ (12 + 9 * (n + 1)) % 512))
    split
    · next h => rw [h] at this; exact this
    · next h =>
      rw [h] at this
      repeat' split
      all_goals first | exact this | (rename_i h; cases h; exact this.trans (ih _ _))

theorem State.noted_walkFor (s : State) (c k va : Nat) (kd : Kind) : s.Noted (s.walkFor c k va kd).1 := by
  unfold State.walkFor
  dsimp only
  split
  · exact s.noted_refl
  · have := s.noted_walk k (s.root k).toNat va 4 ((s.root k).toNat % 2 ^ 44)
    split
    · next h => rw [h] at this; exact this
    · next h =>
      rw [h] at this
      split
      · exact this.trans (State.noted_of_outside rfl)
      · exact this

/-- A translation leaves the outside alone. -/
theorem State.noted_translate (s : State) (c k va : Nat) (kd : Kind) : s.Noted (s.translate c k va kd).1 := by
  unfold State.translate
  dsimp only
  split
  · split
    · exact s.noted_refl
    · exact s.noted_walkFor ..
  · split
    · split
      · exact State.noted_of_outside rfl
      · exact s.noted_walkFor ..
    · exact s.noted_walkFor ..

end Sys2Proof.Machine
end

