-- ==== Sys2Proof/Laws/PerInstr.lean ====
section
/-! SUPPORT. Statements made of each instruction by itself: the word of an instruction has 32 bits (02 R37). -/

set_option Elab.async false

namespace Sys2Proof.Laws

theorem atomOp_code_le (x : AtomOp) : x.code ≤ 27 := by cases x <;> decide
theorem cmp_code_le (x : Cmp) : x.code ≤ 5 := by cases x <;> decide
theorem cvtTy_code_le (x : CvtTy) : x.code ≤ 11 := by cases x <;> decide
theorem fCmpRel_code_le (x : FCmpRel) : x.code ≤ 6 := by cases x <;> decide
theorem fTy_code_le (x : FTy) : x.code ≤ 3 := by cases x <;> decide
theorem fopOp_code_le (x : FopOp) : x.code ≤ 4 := by cases x <;> decide
theorem forkSel_code_le (x : ForkSel) : x.code ≤ 6 := by cases x <;> decide
theorem funFn_code_le (x : FunFn) : x.code ≤ 8 := by cases x <;> decide
theorem funTy_code_le (x : FunTy) : x.code ≤ 2 := by cases x <;> decide
theorem iTy_code_le (x : ITy) : x.code ≤ 3 := by cases x <;> decide
theorem iopFn_code_le (x : IopFn) : x.code ≤ 23 := by cases x <;> decide
theorem plopFn_code_le (x : PlopFn) : x.code ≤ 5 := by cases x <;> decide
theorem pstatSel_code_le (x : PstatSel) : x.code ≤ 3 := by cases x <;> decide
theorem reduxOp_code_le (x : ReduxOp) : x.code ≤ 2 := by cases x <;> decide
theorem reduxTy_code_le (x : ReduxTy) : x.code ≤ 2 := by cases x <;> decide
theorem rm_code_le (x : Rm) : x.code ≤ 3 := by cases x <;> decide
theorem scope_code_le (x : Scope) : x.code ≤ 5 := by cases x <;> decide
theorem shKind_code_le (x : ShKind) : x.code ≤ 3 := by cases x <;> decide
theorem shflKind_code_le (x : ShflKind) : x.code ≤ 3 := by cases x <;> decide
theorem specialValue_code_le (x : SpecialValue) : x.code ≤ 16 := by cases x <;> decide
theorem waitCond_code_le (x : WaitCond) : x.code ≤ 1 := by cases x <;> decide
theorem width_code_le (x : Width) : x.code ≤ 4 := by cases x <;> decide

theorem bitN_le (b : Bool) : bitN b ≤ 1 := by cases b <;> decide

namespace EncodedWidth

/-- The word an instruction encodes to has 32 bits; an event has none. -/
def Statement (i : Instr) : Prop := ∀ w, encode i = some w → w < 2 ^ 32

theorem pb (p : PReg) (n : BitVec 3) (m : BitVec 8) : Statement (.pb p n m) := by
  intro word h
  simp only [encode, encPb, Option.some.injEq] at h
  have := p.isLt
  have := n.isLt
  have := m.isLt
  omega
theorem iop (ch : Bool) (d : Reg) (a : Reg) (b : Reg) (w64 : Bool) (f : IopFn) : Statement (.iop ch d a b w64 f) := by
  intro word h
  simp only [encode, encIop, Option.some.injEq] at h
  have := bitN_le ch
  have := d.isLt
  have := a.isLt
  have := b.isLt
  have := bitN_le w64
  have := iopFn_code_le f
  omega
theorem addi (ch : Bool) (d : Reg) (a : Reg) (i : BitVec 13) : Statement (.addi ch d a i) := by
  intro word h
  simp only [encode, encAddi, Option.some.injEq] at h
  have := bitN_le ch
  have := d.isLt
  have := a.isLt
  have := i.isLt
  omega
theorem andi (ch : Bool) (d : Reg) (a : Reg) (i : BitVec 13) : Statement (.andi ch d a i) := by
  intro word h
  simp only [encode, encAndi, Option.some.injEq] at h
  have := bitN_le ch
  have := d.isLt
  have := a.isLt
  have := i.isLt
  omega
theorem ori (ch : Bool) (d : Reg) (a : Reg) (i : BitVec 13) : Statement (.ori ch d a i) := by
  intro word h
  simp only [encode, encOri, Option.some.injEq] at h
  have := bitN_le ch
  have := d.isLt
  have := a.isLt
  have := i.isLt
  omega
theorem xori (ch : Bool) (d : Reg) (a : Reg) (i : BitVec 13) : Statement (.xori ch d a i) := by
  intro word h
  simp only [encode, encXori, Option.some.injEq] at h
  have := bitN_le ch
  have := d.isLt
  have := a.isLt
  have := i.isLt
  omega
theorem shi (ch : Bool) (d : Reg) (a : Reg) (k : ShKind) (w64 : Bool) (amt : BitVec 6) : Statement (.shi ch d a k w64 amt) := by
  intro word h
  simp only [encode, encShi, Option.some.injEq] at h
  have := bitN_le ch
  have := d.isLt
  have := a.isLt
  have := shKind_code_le k
  have := bitN_le w64
  have := amt.isLt
  omega
theorem movi (ch : Bool) (d : Reg) (i : BitVec 19) : Statement (.movi ch d i) := by
  intro word h
  simp only [encode, encMovi, Option.some.injEq] at h
  have := bitN_le ch
  have := d.isLt
  have := i.isLt
  omega
theorem movhi (ch : Bool) (d : Reg) (i : BitVec 19) : Statement (.movhi ch d i) := by
  intro word h
  simp only [encode, encMovhi, Option.some.injEq] at h
  have := bitN_le ch
  have := d.isLt
  have := i.isLt
  omega
theorem icmp (ch : Bool) (p : PReg) (a : Reg) (b : Reg) (r : Cmp) (t : ITy) : Statement (.icmp ch p a b r t) := by
  intro word h
  simp only [encode, encIcmp, Option.some.injEq] at h
  have := bitN_le ch
  have := p.isLt
  have := a.isLt
  have := b.isLt
  have := cmp_code_le r
  have := iTy_code_le t
  omega
theorem icmpi (ch : Bool) (p : PReg) (a : Reg) (r : Cmp) (t : ITy) (i : BitVec 10) : Statement (.icmpi ch p a r t i) := by
  intro word h
  simp only [encode, encIcmpi, Option.some.injEq] at h
  have := bitN_le ch
  have := p.isLt
  have := a.isLt
  have := cmp_code_le r
  have := iTy_code_le t
  have := i.isLt
  omega
theorem plop (ch : Bool) (d : PReg) (x : PReg) (y : PReg) (f : PlopFn) : Statement (.plop ch d x y f) := by
  intro word h
  simp only [encode, encPlop, Option.some.injEq] at h
  have := bitN_le ch
  have := d.isLt
  have := x.isLt
  have := y.isLt
  have := plopFn_code_le f
  omega
theorem sel (ch : Bool) (d : Reg) (a : Reg) (b : Reg) (p : PReg) (w64 : Bool) : Statement (.sel ch d a b p w64) := by
  intro word h
  simp only [encode, encSel, Option.some.injEq] at h
  have := bitN_le ch
  have := d.isLt
  have := a.isLt
  have := b.isLt
  have := p.isLt
  have := bitN_le w64
  omega
theorem xmovMov (ch : Bool) (d : Reg) (a : Reg) : Statement (.xmovMov ch d a) := by
  intro word h
  simp only [encode, encXmovMov, Option.some.injEq] at h
  have := bitN_le ch
  have := d.isLt
  have := a.isLt
  omega
theorem xmovRds (ch : Bool) (d : Reg) (s : SpecialValue) : Statement (.xmovRds ch d s) := by
  intro word h
  simp only [encode, encXmovRds, Option.some.injEq] at h
  have := bitN_le ch
  have := d.isLt
  have := specialValue_code_le s
  omega
theorem xmovRdk (ch : Bool) (d : Reg) (k : BitVec 5) : Statement (.xmovRdk ch d k) := by
  intro word h
  simp only [encode, encXmovRdk, Option.some.injEq] at h
  have := bitN_le ch
  have := d.isLt
  have := k.isLt
  omega
theorem xmovWrk (ch : Bool) (a : Reg) (k : BitVec 5) : Statement (.xmovWrk ch a k) := by
  intro word h
  simp only [encode, encXmovWrk, Option.some.injEq] at h
  have := bitN_le ch
  have := a.isLt
  have := k.isLt
  omega
theorem xmovRdp (ch : Bool) (d : Reg) : Statement (.xmovRdp ch d) := by
  intro word h
  simp only [encode, encXmovRdp, Option.some.injEq] at h
  have := bitN_le ch
  have := d.isLt
  omega
theorem xmovWrp (ch : Bool) (a : Reg) : Statement (.xmovWrp ch a) := by
  intro word h
  simp only [encode, encXmovWrp, Option.some.injEq] at h
  have := bitN_le ch
  have := a.isLt
  omega
theorem xmovShape (ch : Bool) (d : Reg) (a : Reg) : Statement (.xmovShape ch d a) := by
  intro word h
  simp only [encode, encXmovShape, Option.some.injEq] at h
  have := bitN_le ch
  have := d.isLt
  have := a.isLt
  omega
theorem xmovPrec (ch : Bool) (d : Reg) (e : BitVec 3) : Statement (.xmovPrec ch d e) := by
  intro word h
  simp only [encode, encXmovPrec, Option.some.injEq] at h
  have := bitN_le ch
  have := d.isLt
  have := e.isLt
  omega
theorem lea (ch : Bool) (d : Reg) (a : Reg) (b : Reg) (s : BitVec 3) (sg : Bool) : Statement (.lea ch d a b s sg) := by
  intro word h
  simp only [encode, encLea, Option.some.injEq] at h
  have := bitN_le ch
  have := d.isLt
  have := a.isLt
  have := b.isLt
  have := s.isLt
  have := bitN_le sg
  omega
theorem fop (ch : Bool) (d : Reg) (a : Reg) (b : Reg) (o : FopOp) (t : FTy) (rm : Rm) : Statement (.fop ch d a b o t rm) := by
  intro word h
  simp only [encode, encFop, Option.some.injEq] at h
  have := bitN_le ch
  have := d.isLt
  have := a.isLt
  have := b.isLt
  have := fopOp_code_le o
  have := fTy_code_le t
  have := rm_code_le rm
  omega
theorem fma32 (ch : Bool) (d : Reg) (a : Reg) (b : Reg) (e : Reg) (neg : Bool) : Statement (.fma32 ch d a b e neg) := by
  intro word h
  simp only [encode, encFma32, Option.some.injEq] at h
  have := bitN_le ch
  have := d.isLt
  have := a.isLt
  have := b.isLt
  have := e.isLt
  have := bitN_le neg
  omega
theorem fmah (ch : Bool) (d : Reg) (a : Reg) (b : Reg) (e : Reg) (neg : Bool) : Statement (.fmah ch d a b e neg) := by
  intro word h
  simp only [encode, encFmah, Option.some.injEq] at h
  have := bitN_le ch
  have := d.isLt
  have := a.isLt
  have := b.isLt
  have := e.isLt
  have := bitN_le neg
  omega
theorem fmab (ch : Bool) (d : Reg) (a : Reg) (b : Reg) (e : Reg) (neg : Bool) : Statement (.fmab ch d a b e neg) := by
  intro word h
  simp only [encode, encFmab, Option.some.injEq] at h
  have := bitN_le ch
  have := d.isLt
  have := a.isLt
  have := b.isLt
  have := e.isLt
  have := bitN_le neg
  omega
theorem fmad (ch : Bool) (d : Reg) (a : Reg) (b : Reg) (e : Reg) (neg : Bool) : Statement (.fmad ch d a b e neg) := by
  intro word h
  simp only [encode, encFmad, Option.some.injEq] at h
  have := bitN_le ch
  have := d.isLt
  have := a.isLt
  have := b.isLt
  have := e.isLt
  have := bitN_le neg
  omega
theorem funOp (ch : Bool) (d : Reg) (a : Reg) (f : FunFn) (t : FunTy) : Statement (.funOp ch d a f t) := by
  intro word h
  simp only [encode, encFunOp, Option.some.injEq] at h
  have := bitN_le ch
  have := d.isLt
  have := a.isLt
  have := funFn_code_le f
  have := funTy_code_le t
  omega
theorem fcmp (ch : Bool) (p : PReg) (a : Reg) (b : Reg) (r : FCmpRel) (t : FTy) : Statement (.fcmp ch p a b r t) := by
  intro word h
  simp only [encode, encFcmp, Option.some.injEq] at h
  have := bitN_le ch
  have := p.isLt
  have := a.isLt
  have := b.isLt
  have := fCmpRel_code_le r
  have := fTy_code_le t
  omega
theorem cvt (ch : Bool) (d : Reg) (a : Reg) (dty : CvtTy) (sty : CvtTy) (rm : Rm) (sat : Bool) : Statement (.cvt ch d a dty sty rm sat) := by
  intro word h
  simp only [encode, encCvt, Option.some.injEq] at h
  have := bitN_le ch
  have := d.isLt
  have := a.isLt
  have := cvtTy_code_le dty
  have := cvtTy_code_le sty
  have := rm_code_le rm
  have := bitN_le sat
  omega
theorem shfl (ch : Bool) (d : Reg) (a : Reg) (b : Reg) (k : ShflKind) (imm : Bool) : Statement (.shfl ch d a b k imm) := by
  intro word h
  simp only [encode, encShfl, Option.some.injEq] at h
  have := bitN_le ch
  have := d.isLt
  have := a.isLt
  have := b.isLt
  have := shflKind_code_le k
  have := bitN_le imm
  omega
theorem voteAny (ch : Bool) (q : PReg) (p : PReg) : Statement (.voteAny ch q p) := by
  intro word h
  simp only [encode, encVoteAny, Option.some.injEq] at h
  have := bitN_le ch
  have := q.isLt
  have := p.isLt
  omega
theorem voteAll (ch : Bool) (q : PReg) (p : PReg) : Statement (.voteAll ch q p) := by
  intro word h
  simp only [encode, encVoteAll, Option.some.injEq] at h
  have := bitN_le ch
  have := q.isLt
  have := p.isLt
  omega
theorem voteBallot (ch : Bool) (d : Reg) (p : PReg) : Statement (.voteBallot ch d p) := by
  intro word h
  simp only [encode, encVoteBallot, Option.some.injEq] at h
  have := bitN_le ch
  have := d.isLt
  have := p.isLt
  omega
theorem voteElect (ch : Bool) (d : Reg) (q : PReg) (p : PReg) : Statement (.voteElect ch d q p) := by
  intro word h
  simp only [encode, encVoteElect, Option.some.injEq] at h
  have := bitN_le ch
  have := d.isLt
  have := q.isLt
  have := p.isLt
  omega
theorem redux (ch : Bool) (d : Reg) (a : Reg) (o : ReduxOp) (t : ReduxTy) : Statement (.redux ch d a o t) := by
  intro word h
  simp only [encode, encRedux, Option.some.injEq] at h
  have := bitN_le ch
  have := d.isLt
  have := a.isLt
  have := reduxOp_code_le o
  have := reduxTy_code_le t
  omega
theorem dot4 (ch : Bool) (d : Reg) (a : Reg) (b : Reg) (e : Reg) (uns : Bool) : Statement (.dot4 ch d a b e uns) := by
  intro word h
  simp only [encode, encDot4, Option.some.injEq] at h
  have := bitN_le ch
  have := d.isLt
  have := a.isLt
  have := b.isLt
  have := e.isLt
  have := bitN_le uns
  omega
theorem ld (ch : Bool) (d : Reg) (ap : BitVec 5) (w : Width) (off : BitVec 11) : Statement (.ld ch d ap w off) := by
  intro word h
  simp only [encode, encLd, Option.some.injEq] at h
  have := bitN_le ch
  have := d.isLt
  have := ap.isLt
  have := width_code_le w
  have := off.isLt
  omega
theorem lds (ch : Bool) (d : Reg) (ap : BitVec 5) (w : Width) (off : BitVec 11) : Statement (.lds ch d ap w off) := by
  intro word h
  simp only [encode, encLds, Option.some.injEq] at h
  have := bitN_le ch
  have := d.isLt
  have := ap.isLt
  have := width_code_le w
  have := off.isLt
  omega
theorem st (ch : Bool) (d : Reg) (ap : BitVec 5) (w : Width) (off : BitVec 11) : Statement (.st ch d ap w off) := by
  intro word h
  simp only [encode, encSt, Option.some.injEq] at h
  have := bitN_le ch
  have := d.isLt
  have := ap.isLt
  have := width_code_le w
  have := off.isLt
  omega
theorem lda (ch : Bool) (d : Reg) (ap : BitVec 5) (sc : Scope) (w : Width) : Statement (.lda ch d ap sc w) := by
  intro word h
  simp only [encode, encLda, Option.some.injEq] at h
  have := bitN_le ch
  have := d.isLt
  have := ap.isLt
  have := scope_code_le sc
  have := width_code_le w
  omega
theorem stl (ch : Bool) (d : Reg) (ap : BitVec 5) (sc : Scope) (w : Width) : Statement (.stl ch d ap sc w) := by
  intro word h
  simp only [encode, encStl, Option.some.injEq] at h
  have := bitN_le ch
  have := d.isLt
  have := ap.isLt
  have := scope_code_le sc
  have := width_code_le w
  omega
theorem atom (ch : Bool) (d : Reg) (ap : BitVec 5) (b : Reg) (sc : Scope) (o : AtomOp) : Statement (.atom ch d ap b sc o) := by
  intro word h
  simp only [encode, encAtom, Option.some.injEq] at h
  have := bitN_le ch
  have := d.isLt
  have := ap.isLt
  have := b.isLt
  have := scope_code_le sc
  have := atomOp_code_le o
  omega
theorem cas (ch : Bool) (d : Reg) (ap : BitVec 5) (b : Reg) (sc : Scope) (w : Width) : Statement (.cas ch d ap b sc w) := by
  intro word h
  simp only [encode, encCas, Option.some.injEq] at h
  have := bitN_le ch
  have := d.isLt
  have := ap.isLt
  have := b.isLt
  have := scope_code_le sc
  have := width_code_le w
  omega
theorem fenceAr (ch : Bool) (sc : Scope) : Statement (.fenceAr ch sc) := by
  intro word h
  simp only [encode, encFenceAr, Option.some.injEq] at h
  have := bitN_le ch
  have := scope_code_le sc
  omega
theorem fenceAcq (ch : Bool) (sc : Scope) : Statement (.fenceAcq ch sc) := by
  intro word h
  simp only [encode, encFenceAcq, Option.some.injEq] at h
  have := bitN_le ch
  have := scope_code_le sc
  omega
theorem fenceRel (ch : Bool) (sc : Scope) : Statement (.fenceRel ch sc) := by
  intro word h
  simp only [encode, encFenceRel, Option.some.injEq] at h
  have := bitN_le ch
  have := scope_code_le sc
  omega
theorem waitCnt (ch : Bool) (ldc : BitVec 4) (stc : BitVec 4) (cpc : BitVec 4) (tlc : BitVec 4) : Statement (.waitCnt ch ldc stc cpc tlc) := by
  intro word h
  simp only [encode, encWaitCnt, Option.some.injEq] at h
  have := bitN_le ch
  have := ldc.isLt
  have := stc.isLt
  have := cpc.isLt
  have := tlc.isLt
  omega
theorem mwait (ch : Bool) (d : Reg) (ap : BitVec 5) (b : Reg) (sc : Scope) (cond : WaitCond) (w : Width) : Statement (.mwait ch d ap b sc cond w) := by
  intro word h
  simp only [encode, encMwait, Option.some.injEq] at h
  have := bitN_le ch
  have := d.isLt
  have := ap.isLt
  have := b.isLt
  have := scope_code_le sc
  have := waitCond_code_le cond
  have := width_code_le w
  omega
theorem ldfeKeep (ch : Bool) (d : Reg) (ap : BitVec 5) (sc : Scope) (w : Width) : Statement (.ldfeKeep ch d ap sc w) := by
  intro word h
  simp only [encode, encLdfeKeep, Option.some.injEq] at h
  have := bitN_le ch
  have := d.isLt
  have := ap.isLt
  have := scope_code_le sc
  have := width_code_le w
  omega
theorem ldfeTake (ch : Bool) (d : Reg) (ap : BitVec 5) (sc : Scope) (w : Width) : Statement (.ldfeTake ch d ap sc w) := by
  intro word h
  simp only [encode, encLdfeTake, Option.some.injEq] at h
  have := bitN_le ch
  have := d.isLt
  have := ap.isLt
  have := scope_code_le sc
  have := width_code_le w
  omega
theorem stfeFill (ch : Bool) (d : Reg) (ap : BitVec 5) (sc : Scope) (w : Width) : Statement (.stfeFill ch d ap sc w) := by
  intro word h
  simp only [encode, encStfeFill, Option.some.injEq] at h
  have := bitN_le ch
  have := d.isLt
  have := ap.isLt
  have := scope_code_le sc
  have := width_code_le w
  omega
theorem stfePut (ch : Bool) (d : Reg) (ap : BitVec 5) (sc : Scope) (w : Width) : Statement (.stfePut ch d ap sc w) := by
  intro word h
  simp only [encode, encStfePut, Option.some.injEq] at h
  have := bitN_le ch
  have := d.isLt
  have := ap.isLt
  have := scope_code_le sc
  have := width_code_le w
  omega
theorem cctlIsync (ch : Bool) : Statement (.cctlIsync ch) := by
  intro word h
  simp only [encode, encCctlIsync, Option.some.injEq] at h
  have := bitN_le ch
  omega
theorem cctlDwb (ch : Bool) (ap : BitVec 5) (sc : Scope) : Statement (.cctlDwb ch ap sc) := by
  intro word h
  simp only [encode, encCctlDwb, Option.some.injEq] at h
  have := bitN_le ch
  have := ap.isLt
  have := scope_code_le sc
  omega
theorem cctlDinv (ch : Bool) (ap : BitVec 5) (sc : Scope) : Statement (.cctlDinv ch ap sc) := by
  intro word h
  simp only [encode, encCctlDinv, Option.some.injEq] at h
  have := bitN_le ch
  have := ap.isLt
  have := scope_code_le sc
  omega
theorem cctlPfx (ch : Bool) (ap : BitVec 5) (sc : Scope) : Statement (.cctlPfx ch ap sc) := by
  intro word h
  simp only [encode, encCctlPfx, Option.some.injEq] at h
  have := bitN_le ch
  have := ap.isLt
  have := scope_code_le sc
  omega
theorem bra (ch : Bool) (p : PReg) (s : Bool) (disp : BitVec 20) : Statement (.bra ch p s disp) := by
  intro word h
  simp only [encode, encBra, Option.some.injEq] at h
  have := bitN_le ch
  have := p.isLt
  have := bitN_le s
  have := disp.isLt
  omega
theorem jmpr (ch : Bool) (a : Reg) : Statement (.jmpr ch a) := by
  intro word h
  simp only [encode, encJmpr, Option.some.injEq] at h
  have := bitN_le ch
  have := a.isLt
  omega
theorem call (ch : Bool) (disp : BitVec 25) : Statement (.call ch disp) := by
  intro word h
  simp only [encode, encCall, Option.some.injEq] at h
  have := bitN_le ch
  have := disp.isLt
  omega
theorem callr (ch : Bool) (a : Reg) : Statement (.callr ch a) := by
  intro word h
  simp only [encode, encCallr, Option.some.injEq] at h
  have := bitN_le ch
  have := a.isLt
  omega
theorem fcall (ch : Bool) (fd : BitVec 4) (disp : BitVec 21) : Statement (.fcall ch fd disp) := by
  intro word h
  simp only [encode, encFcall, Option.some.injEq] at h
  have := bitN_le ch
  have := fd.isLt
  have := disp.isLt
  omega
theorem ret (ch : Bool) : Statement (.ret ch) := by
  intro word h
  simp only [encode, encRet, Option.some.injEq] at h
  have := bitN_le ch
  omega
theorem yieldOp (ch : Bool) : Statement (.yieldOp ch) := by
  intro word h
  simp only [encode, encYieldOp, Option.some.injEq] at h
  have := bitN_le ch
  omega
theorem exitOp (ch : Bool) : Statement (.exitOp ch) := by
  intro word h
  simp only [encode, encExitOp, Option.some.injEq] at h
  have := bitN_le ch
  omega
theorem barSync (ch : Bool) (idx : BitVec 4) : Statement (.barSync ch idx) := by
  intro word h
  simp only [encode, encBarSync, Option.some.injEq] at h
  have := bitN_le ch
  have := idx.isLt
  omega
theorem barArrive (ch : Bool) (idx : BitVec 4) : Statement (.barArrive ch idx) := by
  intro word h
  simp only [encode, encBarArrive, Option.some.injEq] at h
  have := bitN_le ch
  have := idx.isLt
  omega
theorem launchGrid (ch : Bool) (d : Reg) (a : Reg) : Statement (.launchGrid ch d a) := by
  intro word h
  simp only [encode, encLaunchGrid, Option.some.injEq] at h
  have := bitN_le ch
  have := d.isLt
  have := a.isLt
  omega
theorem cwaitAll (ch : Bool) : Statement (.cwaitAll ch) := by
  intro word h
  simp only [encode, encCwaitAll, Option.some.injEq] at h
  have := bitN_le ch
  omega
theorem cwaitFgate (ch : Bool) : Statement (.cwaitFgate ch) := by
  intro word h
  simp only [encode, encCwaitFgate, Option.some.injEq] at h
  have := bitN_le ch
  omega
theorem cwaitFstat (ch : Bool) (d : Reg) (sel : ForkSel) : Statement (.cwaitFstat ch d sel) := by
  intro word h
  simp only [encode, encCwaitFstat, Option.some.injEq] at h
  have := bitN_le ch
  have := d.isLt
  have := forkSel_code_le sel
  omega
theorem cwaitFsq (ch : Bool) : Statement (.cwaitFsq ch) := by
  intro word h
  simp only [encode, encCwaitFsq, Option.some.injEq] at h
  have := bitN_le ch
  omega
theorem tilePload (ch : Bool) (ap : BitVec 5) (sl : BitVec 3) (g : Reg) : Statement (.tilePload ch ap sl g) := by
  intro word h
  simp only [encode, encTilePload, Option.some.injEq] at h
  have := bitN_le ch
  have := ap.isLt
  have := sl.isLt
  have := g.isLt
  omega
theorem tilePloadw (ch : Bool) (ap : BitVec 5) (sl : BitVec 3) (g : Reg) : Statement (.tilePloadw ch ap sl g) := by
  intro word h
  simp only [encode, encTilePloadw, Option.some.injEq] at h
  have := bitN_le ch
  have := ap.isLt
  have := sl.isLt
  have := g.isLt
  omega
theorem tileExpose (ch : Bool) (ap : BitVec 5) (sl : BitVec 3) (tp : BitVec 5) (g : Reg) : Statement (.tileExpose ch ap sl tp g) := by
  intro word h
  simp only [encode, encTileExpose, Option.some.injEq] at h
  have := bitN_le ch
  have := ap.isLt
  have := sl.isLt
  have := tp.isLt
  have := g.isLt
  omega
theorem tileExposew (ch : Bool) (ap : BitVec 5) (sl : BitVec 3) (tp : BitVec 5) (g : Reg) : Statement (.tileExposew ch ap sl tp g) := by
  intro word h
  simp only [encode, encTileExposew, Option.some.injEq] at h
  have := bitN_le ch
  have := ap.isLt
  have := sl.isLt
  have := tp.isLt
  have := g.isLt
  omega
theorem tileTcvt (ch : Bool) (src : BitVec 5) (sl : BitVec 3) (dst : BitVec 5) (g : Reg) : Statement (.tileTcvt ch src sl dst g) := by
  intro word h
  simp only [encode, encTileTcvt, Option.some.injEq] at h
  have := bitN_le ch
  have := src.isLt
  have := sl.isLt
  have := dst.isLt
  have := g.isLt
  omega
theorem tileTdcvt (ch : Bool) (src : BitVec 5) (sl : BitVec 3) (dst : BitVec 5) (g : Reg) : Statement (.tileTdcvt ch src sl dst g) := by
  intro word h
  simp only [encode, encTileTdcvt, Option.some.injEq] at h
  have := bitN_le ch
  have := src.isLt
  have := sl.isLt
  have := dst.isLt
  have := g.isLt
  omega
theorem tileTrayz (ch : Bool) (tp : BitVec 5) (g : Reg) : Statement (.tileTrayz ch tp g) := by
  intro word h
  simp only [encode, encTileTrayz, Option.some.injEq] at h
  have := bitN_le ch
  have := tp.isLt
  have := g.isLt
  omega
theorem tileTrayrd (ch : Bool) (tp : BitVec 5) (dst : BitVec 5) (g : Reg) : Statement (.tileTrayrd ch tp dst g) := by
  intro word h
  simp only [encode, encTileTrayrd, Option.some.injEq] at h
  have := bitN_le ch
  have := tp.isLt
  have := dst.isLt
  have := g.isLt
  omega
theorem tileTrayfl (ch : Bool) (tp : BitVec 5) (g : Reg) : Statement (.tileTrayfl ch tp g) := by
  intro word h
  simp only [encode, encTileTrayfl, Option.some.injEq] at h
  have := bitN_le ch
  have := tp.isLt
  have := g.isLt
  omega
theorem tilePstat (ch : Bool) (d : Reg) (sel : PstatSel) : Statement (.tilePstat ch d sel) := by
  intro word h
  simp only [encode, encTilePstat, Option.some.injEq] at h
  have := bitN_le ch
  have := d.isLt
  have := pstatSel_code_le sel
  omega
theorem qaccQrst (ch : Bool) (q : BitVec 3) (a : Reg) (p : Reg) : Statement (.qaccQrst ch q a p) := by
  intro word h
  simp only [encode, encQaccQrst, Option.some.injEq] at h
  have := bitN_le ch
  have := q.isLt
  have := a.isLt
  have := p.isLt
  omega
theorem qaccQgen (ch : Bool) (q : BitVec 3) (d : Reg) (a : Reg) : Statement (.qaccQgen ch q d a) := by
  intro word h
  simp only [encode, encQaccQgen, Option.some.injEq] at h
  have := bitN_le ch
  have := q.isLt
  have := d.isLt
  have := a.isLt
  omega
theorem qaccQapp (ch : Bool) (q : BitVec 3) (a : Reg) (b : Reg) : Statement (.qaccQapp ch q a b) := by
  intro word h
  simp only [encode, encQaccQapp, Option.some.injEq] at h
  have := bitN_le ch
  have := q.isLt
  have := a.isLt
  have := b.isLt
  omega
theorem qaccQcnt (ch : Bool) (q : BitVec 3) (d : Reg) : Statement (.qaccQcnt ch q d) := by
  intro word h
  simp only [encode, encQaccQcnt, Option.some.injEq] at h
  have := bitN_le ch
  have := q.isLt
  have := d.isLt
  omega
theorem qaccQaplReg (ch : Bool) (q : BitVec 3) (d : Reg) (a : Reg) : Statement (.qaccQaplReg ch q d a) := by
  intro word h
  simp only [encode, encQaccQaplReg, Option.some.injEq] at h
  have := bitN_le ch
  have := q.isLt
  have := d.isLt
  have := a.isLt
  omega
theorem qaccQapltReg (ch : Bool) (q : BitVec 3) (d : Reg) (a : Reg) : Statement (.qaccQapltReg ch q d a) := by
  intro word h
  simp only [encode, encQaccQapltReg, Option.some.injEq] at h
  have := bitN_le ch
  have := q.isLt
  have := d.isLt
  have := a.isLt
  omega
theorem qaccQaprReg (ch : Bool) (q : BitVec 3) (d : Reg) (a : Reg) : Statement (.qaccQaprReg ch q d a) := by
  intro word h
  simp only [encode, encQaccQaprReg, Option.some.injEq] at h
  have := bitN_le ch
  have := q.isLt
  have := d.isLt
  have := a.isLt
  omega
theorem qaccQaprtReg (ch : Bool) (q : BitVec 3) (d : Reg) (a : Reg) : Statement (.qaccQaprtReg ch q d a) := by
  intro word h
  simp only [encode, encQaccQaprtReg, Option.some.injEq] at h
  have := bitN_le ch
  have := q.isLt
  have := d.isLt
  have := a.isLt
  omega
theorem qaccQaplTile (ch : Bool) (q : BitVec 3) (ap : BitVec 5) (g : Reg) : Statement (.qaccQaplTile ch q ap g) := by
  intro word h
  simp only [encode, encQaccQaplTile, Option.some.injEq] at h
  have := bitN_le ch
  have := q.isLt
  have := ap.isLt
  have := g.isLt
  omega
theorem qaccQapltTile (ch : Bool) (q : BitVec 3) (ap : BitVec 5) (g : Reg) : Statement (.qaccQapltTile ch q ap g) := by
  intro word h
  simp only [encode, encQaccQapltTile, Option.some.injEq] at h
  have := bitN_le ch
  have := q.isLt
  have := ap.isLt
  have := g.isLt
  omega
theorem qaccQaprTile (ch : Bool) (q : BitVec 3) (ap : BitVec 5) (g : Reg) : Statement (.qaccQaprTile ch q ap g) := by
  intro word h
  simp only [encode, encQaccQaprTile, Option.some.injEq] at h
  have := bitN_le ch
  have := q.isLt
  have := ap.isLt
  have := g.isLt
  omega
theorem qaccQaprtTile (ch : Bool) (q : BitVec 3) (ap : BitVec 5) (g : Reg) : Statement (.qaccQaprtTile ch q ap g) := by
  intro word h
  simp only [encode, encQaccQaprtTile, Option.some.injEq] at h
  have := bitN_le ch
  have := q.isLt
  have := ap.isLt
  have := g.isLt
  omega
theorem qaccQsave (ch : Bool) (q : BitVec 3) (ap : BitVec 5) : Statement (.qaccQsave ch q ap) := by
  intro word h
  simp only [encode, encQaccQsave, Option.some.injEq] at h
  have := bitN_le ch
  have := q.isLt
  have := ap.isLt
  omega
theorem qaccQload (ch : Bool) (q : BitVec 3) (ap : BitVec 5) : Statement (.qaccQload ch q ap) := by
  intro word h
  simp only [encode, encQaccQload, Option.some.injEq] at h
  have := bitN_le ch
  have := q.isLt
  have := ap.isLt
  omega
theorem qaccQspill (ch : Bool) (q : BitVec 3) : Statement (.qaccQspill ch q) := by
  intro word h
  simp only [encode, encQaccQspill, Option.some.injEq] at h
  have := bitN_le ch
  have := q.isLt
  omega
theorem qaccQclr (ch : Bool) (q : BitVec 3) : Statement (.qaccQclr ch q) := by
  intro word h
  simp only [encode, encQaccQclr, Option.some.injEq] at h
  have := bitN_le ch
  have := q.isLt
  omega
theorem xferCopy (ch : Bool) (d : Reg) (a : Reg) (b : Reg) : Statement (.xferCopy ch d a b) := by
  intro word h
  simp only [encode, encXferCopy, Option.some.injEq] at h
  have := bitN_le ch
  have := d.isLt
  have := a.isLt
  have := b.isLt
  omega
theorem xferCopy2d (ch : Bool) (d : Reg) (a : Reg) (b : Reg) : Statement (.xferCopy2d ch d a b) := by
  intro word h
  simp only [encode, encXferCopy2d, Option.some.injEq] at h
  have := bitN_le ch
  have := d.isLt
  have := a.isLt
  have := b.isLt
  omega
theorem xferHalo (ch : Bool) (d : Reg) (a : Reg) (b : Reg) : Statement (.xferHalo ch d a b) := by
  intro word h
  simp only [encode, encXferHalo, Option.some.injEq] at h
  have := bitN_le ch
  have := d.isLt
  have := a.isLt
  have := b.isLt
  omega
theorem xferBxfer (ch : Bool) (d : Reg) (a : Reg) (b : Reg) : Statement (.xferBxfer ch d a b) := by
  intro word h
  simp only [encode, encXferBxfer, Option.some.injEq] at h
  have := bitN_le ch
  have := d.isLt
  have := a.isLt
  have := b.isLt
  omega
theorem xferBxferOne (ch : Bool) (d : Reg) (a : Reg) (b : Reg) : Statement (.xferBxferOne ch d a b) := by
  intro word h
  simp only [encode, encXferBxferOne, Option.some.injEq] at h
  have := bitN_le ch
  have := d.isLt
  have := a.isLt
  have := b.isLt
  omega
theorem xferBxmc (ch : Bool) (d : Reg) (a : Reg) (b : Reg) : Statement (.xferBxmc ch d a b) := by
  intro word h
  simp only [encode, encXferBxmc, Option.some.injEq] at h
  have := bitN_le ch
  have := d.isLt
  have := a.isLt
  have := b.isLt
  omega
theorem xferBxmcOne (ch : Bool) (d : Reg) (a : Reg) (b : Reg) : Statement (.xferBxmcOne ch d a b) := by
  intro word h
  simp only [encode, encXferBxmcOne, Option.some.injEq] at h
  have := bitN_le ch
  have := d.isLt
  have := a.isLt
  have := b.isLt
  omega
theorem xferRatom (ch : Bool) (d : Reg) (ap : BitVec 5) (o : AtomOp) : Statement (.xferRatom ch d ap o) := by
  intro word h
  simp only [encode, encXferRatom, Option.some.injEq] at h
  have := bitN_le ch
  have := d.isLt
  have := ap.isLt
  have := atomOp_code_le o
  omega
theorem xferArmc (ch : Bool) (a : Reg) (b : Reg) : Statement (.xferArmc ch a b) := by
  intro word h
  simp only [encode, encXferArmc, Option.some.injEq] at h
  have := bitN_le ch
  have := a.isLt
  have := b.isLt
  omega
theorem xferArmcZ (ch : Bool) (a : Reg) (b : Reg) : Statement (.xferArmcZ ch a b) := by
  intro word h
  simp only [encode, encXferArmcZ, Option.some.injEq] at h
  have := bitN_le ch
  have := a.isLt
  have := b.isLt
  omega
theorem xferAcwait (ch : Bool) (d : Reg) (a : Reg) : Statement (.xferAcwait ch d a) := by
  intro word h
  simp only [encode, encXferAcwait, Option.some.injEq] at h
  have := bitN_le ch
  have := d.isLt
  have := a.isLt
  omega
theorem sysSeatq (ch : Bool) (d : Reg) : Statement (.sysSeatq ch d) := by
  intro word h
  simp only [encode, encSysSeatq, Option.some.injEq] at h
  have := bitN_le ch
  have := d.isLt
  omega
theorem sysPlace (ch : Bool) (d : Reg) (a : Reg) (b : Reg) (rp : Bool) : Statement (.sysPlace ch d a b rp) := by
  intro word h
  simp only [encode, encSysPlace, Option.some.injEq] at h
  have := bitN_le ch
  have := d.isLt
  have := a.isLt
  have := b.isLt
  have := bitN_le rp
  omega
theorem sysPlaceRs (ch : Bool) (d : Reg) (a : Reg) (b : Reg) (rp : Bool) : Statement (.sysPlaceRs ch d a b rp) := by
  intro word h
  simp only [encode, encSysPlaceRs, Option.some.injEq] at h
  have := bitN_le ch
  have := d.isLt
  have := a.isLt
  have := b.isLt
  have := bitN_le rp
  omega
theorem sysPreempt (ch : Bool) (d : Reg) (a : Reg) : Statement (.sysPreempt ch d a) := by
  intro word h
  simp only [encode, encSysPreempt, Option.some.injEq] at h
  have := bitN_le ch
  have := d.isLt
  have := a.isLt
  omega
theorem sysPreemptAt (ch : Bool) (d : Reg) (a : Reg) (b : Reg) : Statement (.sysPreemptAt ch d a b) := by
  intro word h
  simp only [encode, encSysPreemptAt, Option.some.injEq] at h
  have := bitN_le ch
  have := d.isLt
  have := a.isLt
  have := b.isLt
  omega
theorem sysReset (ch : Bool) (d : Reg) (a : Reg) : Statement (.sysReset ch d a) := by
  intro word h
  simp only [encode, encSysReset, Option.some.injEq] at h
  have := bitN_le ch
  have := d.isLt
  have := a.isLt
  omega
theorem sysCkpt (ch : Bool) (d : Reg) (a : Reg) (b : Reg) : Statement (.sysCkpt ch d a b) := by
  intro word h
  simp only [encode, encSysCkpt, Option.some.injEq] at h
  have := bitN_le ch
  have := d.isLt
  have := a.isLt
  have := b.isLt
  omega
theorem sysCkptRs (ch : Bool) (d : Reg) (a : Reg) (b : Reg) : Statement (.sysCkptRs ch d a b) := by
  intro word h
  simp only [encode, encSysCkptRs, Option.some.injEq] at h
  have := bitN_le ch
  have := d.isLt
  have := a.isLt
  have := b.isLt
  omega
theorem sysScrub (ch : Bool) (d : Reg) (a : Reg) (b : Reg) : Statement (.sysScrub ch d a b) := by
  intro word h
  simp only [encode, encSysScrub, Option.some.injEq] at h
  have := bitN_le ch
  have := d.isLt
  have := a.isLt
  have := b.isLt
  omega
theorem sysRcpt (ch : Bool) (d : Reg) (a : Reg) (b : Reg) (l : Bool) : Statement (.sysRcpt ch d a b l) := by
  intro word h
  simp only [encode, encSysRcpt, Option.some.injEq] at h
  have := bitN_le ch
  have := d.isLt
  have := a.isLt
  have := b.isLt
  have := bitN_le l
  omega
theorem sysCtrrd (ch : Bool) (d : Reg) (a : Reg) (b : Reg) : Statement (.sysCtrrd ch d a b) := by
  intro word h
  simp only [encode, encSysCtrrd, Option.some.injEq] at h
  have := bitN_le ch
  have := d.isLt
  have := a.isLt
  have := b.isLt
  omega
theorem sysCtxrd (ch : Bool) (d : Reg) (a : Reg) (b : Reg) : Statement (.sysCtxrd ch d a b) := by
  intro word h
  simp only [encode, encSysCtxrd, Option.some.injEq] at h
  have := bitN_le ch
  have := d.isLt
  have := a.isLt
  have := b.isLt
  omega
theorem sysCsrr (ch : Bool) (d : Reg) (idx : BitVec 12) : Statement (.sysCsrr ch d idx) := by
  intro word h
  simp only [encode, encSysCsrr, Option.some.injEq] at h
  have := bitN_le ch
  have := d.isLt
  have := idx.isLt
  omega
theorem sysCsrw (ch : Bool) (a : Reg) (idx : BitVec 12) : Statement (.sysCsrw ch a idx) := by
  intro word h
  simp only [encode, encSysCsrw, Option.some.injEq] at h
  have := bitN_le ch
  have := a.isLt
  have := idx.isLt
  omega
theorem sysTrap (ch : Bool) (tag : BitVec 12) (n : BitVec 4) : Statement (.sysTrap ch tag n) := by
  intro word h
  simp only [encode, encSysTrap, Option.some.injEq] at h
  have := bitN_le ch
  have := tag.isLt
  have := n.isLt
  omega
theorem sysTret (ch : Bool) : Statement (.sysTret ch) := by
  intro word h
  simp only [encode, encSysTret, Option.some.injEq] at h
  have := bitN_le ch
  omega
theorem sysBrk (ch : Bool) (tag : BitVec 16) : Statement (.sysBrk ch tag) := by
  intro word h
  simp only [encode, encSysBrk, Option.some.injEq] at h
  have := bitN_le ch
  have := tag.isLt
  omega
theorem sysBpset (ch : Bool) (n : BitVec 3) (a : Reg) (b : Reg) : Statement (.sysBpset ch n a b) := by
  intro word h
  simp only [encode, encSysBpset, Option.some.injEq] at h
  have := bitN_le ch
  have := n.isLt
  have := a.isLt
  have := b.isLt
  omega
theorem sysBpclr (ch : Bool) (n : BitVec 3) : Statement (.sysBpclr ch n) := by
  intro word h
  simp only [encode, encSysBpclr, Option.some.injEq] at h
  have := bitN_le ch
  have := n.isLt
  omega
theorem sysFeatq (ch : Bool) (d : Reg) : Statement (.sysFeatq ch d) := by
  intro word h
  simp only [encode, encSysFeatq, Option.some.injEq] at h
  have := bitN_le ch
  have := d.isLt
  omega
theorem sysMgset (ch : Bool) (a : Reg) (b : Reg) : Statement (.sysMgset ch a b) := by
  intro word h
  simp only [encode, encSysMgset, Option.some.injEq] at h
  have := bitN_le ch
  have := a.isLt
  have := b.isLt
  omega
theorem issueCycle : Statement .issueCycle := by
  intro word h
  simp [encode] at h
theorem starvation (thread : Nat) : Statement (.starvation thread) := by
  intro word h
  simp [encode] at h
theorem yieldMarkExpire (thread : Nat) : Statement (.yieldMarkExpire thread) := by
  intro word h
  simp [encode] at h
theorem stallNotice (key : Nat) : Statement (.stallNotice key) := by
  intro word h
  simp [encode] at h
theorem loadDataReturn (id : Nat) : Statement (.loadDataReturn id) := by
  intro word h
  simp [encode] at h
theorem mwaitWake (thread : Nat) : Statement (.mwaitWake thread) := by
  intro word h
  simp [encode] at h
theorem fullEmptyWake (thread : Nat) : Statement (.fullEmptyWake thread) := by
  intro word h
  simp [encode] at h
theorem tileWordComplete (id : Nat) : Statement (.tileWordComplete id) := by
  intro word h
  simp [encode] at h
theorem qaccWordComplete (id : Nat) : Statement (.qaccWordComplete id) := by
  intro word h
  simp [encode] at h
theorem trayMerge (id : Nat) (line : Nat) : Statement (.trayMerge id line) := by
  intro word h
  simp [encode] at h
theorem copySectorComplete (id : Nat) (sector : Nat) : Statement (.copySectorComplete id sector) := by
  intro word h
  simp [encode] at h
theorem transferPacketArrival (pkt : FabricPacket) : Statement (.transferPacketArrival pkt) := by
  intro word h
  simp [encode] at h
theorem transferReply (req : FabricReq) (src : Nat) (incs : FabricIncs) (positive : Bool) (cause : Nat) (bytes : Nat) :
    Statement (.transferReply req src incs positive cause bytes) := by
  intro word h
  simp [encode] at h
theorem packetWriteCompletion (tag : FabricTag) (flagWrite : Bool) (off : Nat) (written : Bool) :
    Statement (.packetWriteCompletion tag flagWrite off written) := by
  intro word h
  simp [encode] at h
theorem replyBoundExpire (xid : Nat) (peer : Nat) : Statement (.replyBoundExpire xid peer) := by
  intro word h
  simp [encode] at h
theorem remoteAtomicArrival (req : FabricAtomic) : Statement (.remoteAtomicArrival req) := by
  intro word h
  simp [encode] at h
theorem ratomReply (tag : FabricTag) (positive : Bool) (cause : Nat) (value : DWord) :
    Statement (.ratomReply tag positive cause value) := by
  intro word h
  simp [encode] at h
theorem incarnationAnnouncement (src : Nat) (sinc : Nat) : Statement (.incarnationAnnouncement src sinc) := by
  intro word h
  simp [encode] at h
theorem ualinkFlitReceive (station : Nat) (tagOk : Bool) (kindOk : Bool) : Statement (.ualinkFlitReceive station tagOk kindOk) := by
  intro word h
  simp [encode] at h
theorem ethernetFrameReceive (port : Nat) (hart : Nat) (secTag : Bool) (checkOk : Bool) (frame : List Byte) (addr : Nat) : Statement (.ethernetFrameReceive port hart secTag checkOk frame addr) := by
  intro word h
  simp [encode] at h
theorem hostMemAccess (port : Nat) (stream : Nat) (addr : Nat) (write : Bool) (data : List Byte) : Statement (.hostMemAccess port stream addr write data) := by
  intro word h
  simp [encode] at h
theorem registerWrite (off : Nat) (width : Nat) (value : DWord) : Statement (.registerWrite off width value) := by
  intro word h
  simp [encode] at h
theorem queueDoorbell (q : Nat) (tail : Word) : Statement (.queueDoorbell q tail) := by
  intro word h
  simp [encode] at h
theorem queueRestart (q : Nat) : Statement (.queueRestart q) := by
  intro word h
  simp [encode] at h
theorem commandNop (q : Nat) : Statement (.commandNop q) := by
  intro word h
  simp [encode] at h
theorem commandGrid (q : Nat) : Statement (.commandGrid q) := by
  intro word h
  simp [encode] at h
theorem commandFence (q : Nat) : Statement (.commandFence q) := by
  intro word h
  simp [encode] at h
theorem completionRecordWrite (q : Nat) : Statement (.completionRecordWrite q) := by
  intro word h
  simp [encode] at h
theorem teamPlacement (grid : Nat) (team : Nat) (cluster : Nat) (cores : List Nat) : Statement (.teamPlacement grid team cluster cores) := by
  intro word h
  simp [encode] at h
theorem teamRelease (team : Nat) : Statement (.teamRelease team) := by
  intro word h
  simp [encode] at h
theorem gridRetire (grid : Nat) : Statement (.gridRetire grid) := by
  intro word h
  simp [encode] at h
theorem teamPark (team : Nat) : Statement (.teamPark team) := by
  intro word h
  simp [encode] at h
theorem preemptTargetReached (grid : Nat) : Statement (.preemptTargetReached grid) := by
  intro word h
  simp [encode] at h
theorem imageSealed (grid : Nat) : Statement (.imageSealed grid) := by
  intro word h
  simp [encode] at h
theorem haltHoldExpire (grid : Nat) : Statement (.haltHoldExpire grid) := by
  intro word h
  simp [encode] at h
theorem resetScrubComplete (id : Nat) : Statement (.resetScrubComplete id) := by
  intro word h
  simp [encode] at h
theorem scrubComplete (id : Nat) : Statement (.scrubComplete id) := by
  intro word h
  simp [encode] at h
theorem ckptComplete (id : Nat) (flashOk : Bool) : Statement (.ckptComplete id flashOk) := by
  intro word h
  simp [encode] at h
theorem pageFaultResponse (value : DWord) : Statement (.pageFaultResponse value) := by
  intro word h
  simp [encode] at h
theorem pageFaultBoundExpire (id : Nat) : Statement (.pageFaultBoundExpire id) := by
  intro word h
  simp [encode] at h
theorem pageFaultRepost (id : Nat) : Statement (.pageFaultRepost id) := by
  intro word h
  simp [encode] at h
theorem shootdownRequest (identity : Nat) : Statement (.shootdownRequest identity) := by
  intro word h
  simp [encode] at h
theorem shootdownFinish : Statement .shootdownFinish := by
  intro word h
  simp [encode] at h
theorem receiveMappingWrite (id : Nat) : Statement (.receiveMappingWrite id) := by
  intro word h
  simp [encode] at h
theorem faultLogReset (key : Nat) (isSize : Bool) (value : DWord) : Statement (.faultLogReset key isSize value) := by
  intro word h
  simp [encode] at h
theorem fabricEnable : Statement .fabricEnable := by
  intro word h
  simp [encode] at h
theorem domainTableWrite (k : Nat) (value : Word) : Statement (.domainTableWrite k value) := by
  intro word h
  simp [encode] at h
theorem hseatWrite (hart : Nat) (value : DWord) : Statement (.hseatWrite hart value) := by
  intro word h
  simp [encode] at h
theorem replayEventDelivery (hart : Nat) : Statement (.replayEventDelivery hart) := by
  intro word h
  simp [encode] at h
theorem mailboxExtend (dig : BitVec 256) (cmd : Word) : Statement (.mailboxExtend dig cmd) := by
  intro word h
  simp [encode] at h
theorem featureLock (value : Word) : Statement (.featureLock value) := by
  intro word h
  simp [encode] at h
theorem featureLockTimeout : Statement .featureLockTimeout := by
  intro word h
  simp [encode] at h
theorem deviceReset (boot : BootImages) : Statement (.deviceReset boot) := by
  intro word h
  simp [encode] at h
theorem railsStable : Statement .railsStable := by
  intro word h
  simp [encode] at h
theorem functionReady (isCore : Bool) (n : Nat) : Statement (.functionReady isCore n) := by
  intro word h
  simp [encode] at h
theorem getVersion (port : Nat) : Statement (.getVersion port) := by
  intro word h
  simp [encode] at h
theorem getCapabilities (port : Nat) : Statement (.getCapabilities port) := by
  intro word h
  simp [encode] at h
theorem negotiateAlgorithms (port : Nat) (supported : Bool) : Statement (.negotiateAlgorithms port supported) := by
  intro word h
  simp [encode] at h
theorem getDigests (port : Nat) : Statement (.getDigests port) := by
  intro word h
  simp [encode] at h
theorem getCertificate (port : Nat) (slot : Nat) : Statement (.getCertificate port slot) := by
  intro word h
  simp [encode] at h
theorem challenge (port : Nat) (nonce : List Byte) : Statement (.challenge port nonce) := by
  intro word h
  simp [encode] at h
theorem getMeasurements (port : Nat) (block : Nat) : Statement (.getMeasurements port block) := by
  intro word h
  simp [encode] at h
theorem keyExchange (port : Nat) (requesterKey : List Byte) : Statement (.keyExchange port requesterKey) := by
  intro word h
  simp [encode] at h
theorem finish (session : Nat) (mutualAuth : Bool) : Statement (.finish session mutualAuth) := by
  intro word h
  simp [encode] at h
theorem keyUpdate (session : Nat) : Statement (.keyUpdate session) := by
  intro word h
  simp [encode] at h
theorem endSession (session : Nat) : Statement (.endSession session) := by
  intro word h
  simp [encode] at h
theorem createContext (session : Nat) (cs : List Byte) (consent : Nat) (harts : Nat) (audkeys : List (List Byte)) : Statement (.createContext session cs consent harts audkeys) := by
  intro word h
  simp [encode] at h
theorem contextInfo (session : Nat) (key : Nat) : Statement (.contextInfo session key) := by
  intro word h
  simp [encode] at h
theorem countReport (session : Nat) (key : Nat) (index : Nat) : Statement (.countReport session key index) := by
  intro word h
  simp [encode] at h
theorem sealRecord (session : Nat) (key : Nat) (header : List Byte) (body : List Byte) : Statement (.sealRecord session key header body) := by
  intro word h
  simp [encode] at h
theorem bindStream (session : Nat) (key : Nat) (port : Nat) (stream : Nat) : Statement (.bindStream session key port stream) := by
  intro word h
  simp [encode] at h
theorem debugResume (key : Nat) (loc : Nat) : Statement (.debugResume key loc) := by
  intro word h
  simp [encode] at h
theorem debugStep (key : Nat) (loc : Nat) : Statement (.debugStep key loc) := by
  intro word h
  simp [encode] at h
theorem debugResumeAll (key : Nat) : Statement (.debugResumeAll key) := by
  intro word h
  simp [encode] at h
theorem debugDetach (key : Nat) : Statement (.debugDetach key) := by
  intro word h
  simp [encode] at h
theorem debugStopRequest (key : Nat) : Statement (.debugStopRequest key) := by
  intro word h
  simp [encode] at h
theorem csassignWrite (die : Nat) (value : Word) : Statement (.csassignWrite die value) := by
  intro word h
  simp [encode] at h
theorem contactSheetSample (die : Nat) (core : Nat) : Statement (.contactSheetSample die core) := by
  intro word h
  simp [encode] at h
theorem contactSheetDrain (die : Nat) : Statement (.contactSheetDrain die) := by
  intro word h
  simp [encode] at h
theorem patrolScrubStep (tower : Nat) : Statement (.patrolScrubStep tower) := by
  intro word h
  simp [encode] at h
theorem glitchDetect : Statement .glitchDetect := by
  intro word h
  simp [encode] at h
theorem tamperDetect : Statement .tamperDetect := by
  intro word h
  simp [encode] at h
theorem ucieTagFailure : Statement .ucieTagFailure := by
  intro word h
  simp [encode] at h
theorem powerLimitExceeded : Statement .powerLimitExceeded := by
  intro word h
  simp [encode] at h
theorem dieOvertemp (die : Nat) : Statement (.dieOvertemp die) := by
  intro word h
  simp [encode] at h
theorem forcedCapLift (die : Option Nat) : Statement (.forcedCapLift die) := by
  intro word h
  simp [encode] at h
theorem storeComplete (id : Nat) : Statement (.storeComplete id) := by
  intro word h
  simp [encode] at h
theorem xferCommandAccept (id : Nat) : Statement (.xferCommandAccept id) := by
  intro word h
  simp [encode] at h
theorem stationUpOrDown (station : Nat) (up : Bool) : Statement (.stationUpOrDown station up) := by
  intro word h
  simp [encode] at h
theorem hostPortUpOrDown (port : Nat) (up : Option DWord) : Statement (.hostPortUpOrDown port up) := by
  intro word h
  simp [encode] at h
theorem ideKeySetup (session : Nat) (port : Nat) (stream : Nat) : Statement (.ideKeySetup session port stream) := by
  intro word h
  simp [encode] at h
theorem secureAssociationInstall (port : Nat) : Statement (.secureAssociationInstall port) := by
  intro word h
  simp [encode] at h
theorem hrecWrite (hart : Nat) (value : DWord) : Statement (.hrecWrite hart value) := by
  intro word h
  simp [encode] at h
theorem hrlheadWrite (hart : Nat) (w : LogWrite) : Statement (.hrlheadWrite hart w) := by
  intro word h
  simp [encode] at h
theorem timeOrCycleRead (hart : Nat) (live : DWord) : Statement (.timeOrCycleRead hart live) := by
  intro word h
  simp [encode] at h
theorem nvmeCompletion (hart : Nat) (queue : Nat) (payload : List Byte) (addr : Nat) : Statement (.nvmeCompletion hart queue payload addr) := by
  intro word h
  simp [encode] at h

end EncodedWidth

end Sys2Proof.Laws
end

