-- ==== Sys2Proof/Laws/Trap.lean ====
section
/-! SUPPORT. What taking an exception does (14 R267-R269): the delivery of a record changes memory and logs, and of the threads only
what their forks have recorded; the trap then sets the thread's trap registers. -/

namespace Sys2Proof.Machine

/-! ## Device accesses and the logs -/

theorem State.noted_deviceTranslate (s : State) (k va : Nat) (kd : Kind) : s.Noted (s.deviceTranslate k va kd).1 := by
  unfold State.deviceTranslate
  dsimp only
  split
  · exact s.noted_refl
  · split
    · exact s.noted_refl
    · have := s.noted_walk k (s.root k).toNat (va % 2 ^ 57) 4 ((s.root k).toNat % 2 ^ 44)
      split
      · next h => rw [h] at this; exact this
      · next h =>
        rw [h] at this
        split <;> exact this

theorem State.noted_agentWrite (s : State) (k pa : Nat) (l : List Byte) : s.Noted (s.agentWrite k pa l).1 := by
  unfold State.agentWrite
  split
  · exact s.noted_refl
  · dsimp only
    have := (s.noted_dropEverywhere (pa / 128)).trans ((s.dropEverywhere (pa / 128)).noted_homeWrite k pa l true)
    split
    · next h => rw [h] at this; exact this
    · next h => rw [h] at this; exact this.trans (State.noted_noteWrites _ _ _ _ _)

theorem State.noted_deviceWrite (s : State) (k va : Nat) (l : List Byte) : s.Noted (s.deviceWrite k va l).1 := by
  unfold State.deviceWrite
  have := s.noted_deviceTranslate k va .store
  split
  · next h => rw [h] at this; exact this
  · next h => rw [h] at this; exact this.trans (State.noted_agentWrite _ _ _ _)

theorem State.noted_appendOwner (s : State) (k : Nat) (l : List Byte) : s.Noted (s.appendOwner k l) := by
  unfold State.appendOwner
  split
  · exact s.noted_refl
  · split
    · exact State.noted_of_outside rfl
    · next c _ _ =>
      have := s.noted_deviceWrite k (c.flog.slot 64) l
      split
      · next h => rw [h] at this; exact this.trans (State.noted_of_outside rfl)
      · next h => rw [h] at this; exact this.trans (State.noted_of_outside rfl)

theorem State.outside_trace (s : State) (d ty k e q sq i : Nat) (v : DWord) : (s.trace d ty k e q sq i v).outside = s.outside := by
  unfold State.trace
  split
  · rfl
  · split
    · rfl
    · split <;> rfl

/-- The delivery of a thread's record: the thread keeps it. -/
theorem State.deliver_spec (s : State) (t : Nat) (r : FaultRec) : ∃ s1, s.Noted s1 ∧
    s.deliver t r = s1.modThread t fun th => { th with lastRec := some r } := by
  unfold State.deliver
  dsimp only
  refine ⟨_, ?_, rfl⟩
  refine State.Noted.trans ?_ (State.noted_of_outside (State.outside_trace _ _ _ _ _ _ _ _ _))
  refine State.Noted.trans ?_ (State.noted_appendOp _ _)
  cases (s.gridOf t).seat
  · exact s.noted_appendOp _
  · exact State.noted_appendOwner _ _ _
  · exact s.noted_refl

/-- Taking an exception in a thread that has a handler and is not in it (14 R267-R269). -/
theorem State.trap_handled (s : State) (t cause : Nat) (val recPc resume : DWord) (one deferred : Bool)
    (h : (s.thread t).trap.tvec ≠ 0) (hi : (s.thread t).trap.inh = false) :
    ∃ recs r, (s.trap t cause val recPc resume one deferred).thread t = { s.thread t with
        pc := (s.thread t).trap.tvec, guard := Guard.none, wait := (s.thread t).trapWait, wait2 := none
        fork := { (s.thread t).fork with recs := recs }, lastRec := some r
        trap := { (s.thread t).trap with
          tepc := resume, tcause := BitVec.ofNat 32 (cause + (if deferred then 512 else 0)), tval := val
          tguard := (s.thread t).guard, inh := true, one := one && !(s.thread t).halfDone
          bps := cause == Cause.breakpoint } } ∧
      (∀ q, q ≠ t → ∃ recs, (s.trap t cause val recPc resume one deferred).thread q =
        { s.thread q with fork := { (s.thread q).fork with recs := recs } }) ∧
      r = { s.recordOf t with cause := cause, handled := true, halted := false, deferred := deferred, pc := recPc, val := val } ∧
      (s.trap t cause val recPc resume one deferred).crews = s.crews ∧
      (s.trap t cause val recPc resume one deferred).teams = s.teams ∧
      (s.trap t cause val recPc resume one deferred).grids = s.grids ∧
      (s.trap t cause val recPc resume one deferred).eng = s.eng ∧
      ∃ fr un, (s.trap t cause val recPc resume one deferred).m = { s.m with free := fr, unready := un } := by
  have hh : ((s.thread t).trap.tvec != 0 && !(s.thread t).trap.inh) = true := by
    simp only [hi, Bool.not_false, Bool.and_true, bne_iff_ne]
    exact h
  unfold State.trap
  dsimp only
  rw [hh]
  simp only [Bool.not_true, if_true]
  obtain ⟨s1, n, e⟩ := s.deliver_spec t { s.recordOf t with
    cause := cause, handled := true, halted := false, deferred := deferred, pc := recPc, val := val }
  rw [e]
  obtain ⟨recs, e1⟩ := n.threads t
  refine ⟨recs, _, ?_, ?_, rfl, n.crews, n.teams, n.grids, n.eng, _, _, n.m⟩
  · rw [State.thread_modThread_self, State.thread_modThread_self, e1]
    rfl
  · intro q hq
    rw [State.thread_modThread_ne _ _ hq, State.thread_modThread_ne _ _ hq]
    exact n.threads q

/-- A fault found at issue in a thread that has a handler: it takes the trap at its word. -/
theorem State.early_trap {s : State} {i : Instr} {t : Nat} (h : s.Solo i t) (cause : Nat) (val : DWord) (hc : cause < 0x200) :
    s.early t cause val = s.trap t cause val s.m.cur.pc s.m.cur.pc false false := by
  obtain ⟨⟨h1, h2, h3, h4, _⟩, hl, r1, r2, r3⟩ := h
  unfold State.early
  simp only [h3, h4, Bool.false_eq_true, if_false, Thread.isCont, r2, Option.isSome_none]
  rw [if_neg (by unfold holdCode; omega), if_neg (by unfold trayCode; omega), if_neg (by unfold stallCode; omega)]

/-- A trap at the word in issue, in the terms of the statements. -/
theorem State.trap_trapped {s : State} {t : Nat} (cause : Nat) (val : DWord) (h : (s.thread t).handles) :
    let u := s.trap t cause val s.m.cur.pc s.m.cur.pc false false
    s.TrapFrame u t ∧ (s.thread t).Trapped (u.thread t) s.m.cur cause val ∧ (u.thread t).fstat = (s.thread t).fstat := by
  obtain ⟨recs, r, a, b, c, d, e, f, g, k⟩ := State.trap_handled s t cause val s.m.cur.pc s.m.cur.pc false false h.1 h.2
  refine ⟨⟨b, d, e, f, ⟨_, g⟩, k⟩, ?_, by rw [a]⟩
  rw [a]
  constructor <;> simp

end Sys2Proof.Machine
end

