-- ==== Sys2Proof/Machine/Seal.lean ====
section
/-! DEFINITION. The bytes of a context image (20 R361-R365): its sections, each from a multiple of 64 bytes on, and what the
fixer seals of them under the context's image key (24 R405, R413). State keeps an image as the records it holds, from which
these bytes follow (log 14). -/

namespace Sys2Proof.Machine

/-- Bytes filled up with zeros to a multiple of 64. -/
def pad64 (l : List Byte) : List Byte := l ++ List.replicate ((64 - l.length % 64) % 64) 0

/-- Bytes cut or filled up with zeros to a length. -/
def padTo (n : Nat) (l : List Byte) : List Byte := l.take n ++ List.replicate (n - l.length) 0

/-! ## The launch record (17 R325, R326; 03 R89) -/

/-- A fork descriptor record: COUNT, registers, modes, constants. -/
def ForkDesc.bytes (f : ForkDesc) : List Byte :=
  let at' (i : Nat) : Reg × Nat × Word := f.rets.getD i (0, 0, 0)
  let four := List.range 4
  leBytes 1 f.rets.length ++ four.flatMap (fun i => leBytes 1 (at' i).1.toNat)
    ++ leBytes 1 (four.foldl (fun n i => n + (at' i).2.1 * 4 ^ i) 0) ++ leBytes 2 0
    ++ four.flatMap (fun i => leBytes 4 (at' i).2.2.toNat) ++ leBytes 8 0

/-- The 128-byte header of a grid's record, as a plain body has it. -/
def Grid.headBytes (g : Grid) : List Byte :=
  let l := g.lr
  leBytes 2 1 ++ leBytes 2 (g.key + 2 ^ 11 * g.aud) ++ leBytes 1 g.seat.code ++ leBytes 1 l.policy ++ leBytes 1 l.regs
    ++ leBytes 1 l.qacc ++ leBytes 2 l.tx ++ leBytes 2 l.ty ++ leBytes 2 l.tz ++ leBytes 1 l.ncores ++ leBytes 1 l.scratch
    ++ leBytes 4 l.slice ++ leBytes 2 l.counters ++ leBytes 1 l.dsunits ++ leBytes 1 0 ++ leBytes 4 l.gx ++ leBytes 4 l.gy
    ++ leBytes 4 l.gz ++ leBytes 4 0 ++ leBytes 16 l.feat.toNat ++ leBytes 4 896 ++ leBytes 4 0 ++ leBytes 12 0 ++ leBytes 52 0

/-- The 896-byte plain body of a record. -/
def LaunchRec.bodyBytes (l : LaunchRec) : List Byte :=
  leBytes 8 l.codebase.toNat ++ leBytes 8 l.entry.toNat ++ l.k.toList.flatMap (fun x => leBytes 8 x.toNat)
    ++ l.slots.toList.flatMap (fun x => leBytes 8 x.toNat) ++ leBytes 2 l.barmask ++ leBytes 1 l.trapen.toNat
    ++ leBytes 1 l.forks.length ++ leBytes 12 0 ++ padTo 32 (l.barcnt.flatMap (leBytes 2))
    ++ padTo 512 (l.forks.flatMap ForkDesc.bytes)

/-! ## Crews (20 R363-R365) -/

/-- Operands of a copy as read at issue: 32 bytes. -/
def CopyOp.operands (o : CopyOp) : List Byte :=
  leBytes 8 o.src.toNat ++ leBytes 8 o.dst.toNat ++
    match o.instr with
    | .xferCopy .. => leBytes 4 o.width ++ leBytes 12 0
    | _ => leBytes 4 o.width ++ leBytes 4 (o.rows + 2 ^ 24 * (o.halo.map Prod.fst).getD 0) ++ leBytes 4 o.sstr ++ leBytes 4 o.dstr

/-- A copy entry of 64 bytes (20 R364): `lane` issued a .ONE form, `passed` says that the recorded phase is over. -/
def CopyOp.bytes (o : CopyOp) (lane : Nat) (passed : Bool) : List Byte :=
  let p := o.pending.map Prod.snd
  leBytes 4 ((encode o.instr).getD 0) ++ leBytes 1 lane ++ leBytes 3 0 ++ o.operands ++ leBytes 4 o.resume
    ++ leBytes 2 ((p.map Prod.fst).getD 0) ++ leBytes 1 ((if o.halo.isSome then 1 else 0) + if passed then 2 else 0)
    ++ leBytes 1 o.dreg.toNat ++ leBytes 8 ((p.map Prod.snd).getD 0).toNat ++ leBytes 8 0

/-- A thread record of 256 bytes (20 R365). -/
def Thread.bytes (th : Thread) : List Byte :=
  let code (w : Wait) : Nat := match w with
    | .bar b => b + 16
    | .cwait => 32
    | _ => 0
  let bar : Nat := code th.wait + ((th.wait2.map fun w => code w.1).getD 0)
  let f := th.fork
  leBytes 8 th.pc.toNat ++ padTo 128 (th.stack.flatMap fun x => leBytes 8 x.toNat) ++ leBytes 1 th.stack.length
    ++ leBytes 1 th.prec ++ leBytes 2 th.spill ++ leBytes 2 (th.p ||| 1).toNat ++ leBytes 1 th.fstat.toNat ++ leBytes 1 bar
    ++ leBytes 4 th.guard.word ++ leBytes 4 th.trap.tguard.word ++ leBytes 8 th.trap.tvec.toNat ++ leBytes 8 th.trap.tepc.toNat
    ++ leBytes 4 th.trap.tcause.toNat ++ leBytes 4 th.trap.tstat ++ leBytes 8 th.trap.tval.toNat
    ++ leBytes 8 th.trap.tscr.toNat
    ++ [f.opened, f.commit, f.sqpred, f.sqmem, f.sqother, f.plain].flatMap (fun x => leBytes 4 x.toNat)
    ++ leBytes 8 th.retired.toNat ++ leBytes 32 0

/-- The data of a register in the size its tag gives: a value, a base with its stride, or 32 lanes (01 R17, 20 R363). -/
def CrewImg.regBytes (x : CrewImg) (r : Reg) : List Byte :=
  let lane (i : Nat) : Word := match x.threads.find? fun th => th.lane == i && th.live with
    | some th => th.rv r
    | none => 0
  match x.crew.tags[r.toNat]'r.isLt with
  | .u => leBytes 4 (((x.threads.find? fun th => th.live).map fun th => (th.rv r).toNat).getD 0)
  | .a b st => leBytes 4 b.toNat ++ leBytes 4 st.toNat
  | .g => (List.range 32).flatMap fun i => leBytes 4 (lane i).toNat

/-- A crew record of a launch, with the barriers of its team (20 R363). -/
def CrewImg.bytes (x : CrewImg) (l : LaunchRec) (bars : Vector Barrier 16) : List Byte :=
  let live := x.threads.filter (·.live)
  let tags := (List.range 16).flatMap fun i =>
    leBytes 1 ((List.range 4).foldl (fun n j => n + (x.crew.tags.toList.getD (4 * i + j) .u).code * 4 ^ j) 0)
  let laneOf (o : CopyOp) : Nat := match o.one with
    | some h => (((x.crew.threads.zip x.threads).find? fun e => e.1 == h).map fun e => e.2.lane).getD 0
    | none => 0
  let passed (o : CopyOp) : Bool := match o.halo with
    | some (b, n) => decide (n < ((bars.toList.getD b ⟨0, false, 0⟩).done))
    | none => false
  padTo 64 (leBytes 4 (live.foldl (fun n th => n + 2 ^ th.lane) 0) ++ leBytes 1 l.regs ++ leBytes 1 x.copies.length
      ++ leBytes 2 0 ++ tags)
    ++ x.copies.flatMap (fun o => o.bytes (laneOf o) (passed o))
    ++ pad64 ((List.range (l.regs - 1)).flatMap fun i => x.regBytes (BitVec.ofNat 6 (i + 1)))
    ++ live.flatMap Thread.bytes
    ++ (x.threads.zip x.slices).flatMap fun e => if e.1.live then e.2.readAll 0 l.slice else []

/-! ## Teams (20 R362) -/

/-- A plate image of 67,200 bytes. -/
def Plate.bytes (p : Plate) : List Byte :=
  padTo 64 (leBytes 4 (p.word false)) ++ padTo 65536 p.codes ++ padTo 1024 p.scales
    ++ padTo 64 (p.supers.flatMap fun w => leBytes 4 w.toNat)
    ++ padTo 512 (p.outliers.flatMap fun e => leBytes 4 e.1 ++ leBytes 4 e.2.toNat)

/-- A core part: the scratchpad, its full-empty bits, the accumulators, and the plate where it is held. -/
def CorePart.bytes (p : CorePart) (l : LaunchRec) : List Byte :=
  p.scratch.readAll 0 (8192 * l.scratch)
    ++ (List.range (64 * l.scratch)).flatMap (fun i =>
      leBytes 1 ((List.range 8).foldl (fun n j => n + if p.full.contains (8 * i + j) then 2 ^ j else 0) 0))
    ++ (p.accs.toList.take l.qacc).flatMap Acc.image ++ if l.feat.getLsbD 3 then p.plate.bytes else []

/-- A team record of a grid. -/
def TeamImg.bytes (x : TeamImg) (l : LaunchRec) : List Byte :=
  let t := x.team
  let parts := t.cores.flatMap fun c => (t.part c).bytes l
  let crews := x.crews.flatMap fun c => c.bytes l t.bars
  leBytes 4 t.index ++ leBytes 1 t.cores.length ++ leBytes 1 x.crews.length ++ leBytes 1 (if l.feat.getLsbD 3 then 1 else 0)
    ++ leBytes 1 t.comps.length ++ leBytes 8 (512 + parts.length + crews.length)
    ++ t.kLead.toList.flatMap (fun k => leBytes 8 k.toNat)
    ++ t.bars.toList.flatMap (fun b => leBytes 4 (b.count % 2 ^ 16 + if b.phase then 2 ^ 31 else 0))
    ++ padTo 128 (t.comps.flatMap fun e => leBytes 8 e.2.addr.toNat ++ leBytes 4 e.2.cfg.toNat ++ leBytes 1 e.1 ++ leBytes 3 0)
    ++ leBytes 48 0 ++ parts ++ crews

/-! ## Grids and the image (20 R361) -/

/-- The grid record of a grid; `parent` is the identifier of its parent. -/
def GridImg.bytes (x : GridImg) (parent : Nat) : List Byte :=
  let g := x.grid
  leBytes 4 g.id.toNat ++ leBytes 4 parent ++ leBytes 1 g.nest ++ leBytes 3 0 ++ leBytes 4 g.nextTeam
    ++ leBytes 4 x.teams.length ++ leBytes 4 0 ++ leBytes 8 (g.queue + 2 ^ 12 * (g.seq % 2 ^ 48)) ++ leBytes 32 0
    ++ g.headBytes ++ g.lr.bodyBytes

/-- The identifier of a grid's parent, 0 for the root. -/
def Image.parentOf (i : Image) (x : GridImg) : Nat :=
  match x.grid.parent with
  | some (_, p) => ((i.grids.find? fun y => y.handle == p).map fun y => y.grid.id.toNat).getD 0
  | none => 0

/-- The plaintext of an image: the grid records, then the team records of each grid. -/
def Image.bytes (i : Image) : List Byte :=
  let body := (i.grids.flatMap fun x => x.bytes (i.parentOf x)) ++ i.grids.flatMap fun x => x.teams.flatMap fun t => t.bytes x.grid.lr
  let aud := (i.grids.head?.map fun g => g.grid.aud).getD 0
  leBytes 2 1 ++ leBytes 2 (i.key + 2 ^ 11 * aud) ++ leBytes 4 i.grids.length ++ leBytes 8 (64 + body.length)
    ++ leBytes 1 i.reason ++ leBytes 47 0 ++ body

/-- The image as the fixer seals it, ciphertext and tag, under the image key of its context (24 R405). -/
def Image.cipher (i : Image) : List Byte × List Byte :=
  Config.gcmSeal (Config.hkdf i.sealed.secret "ublen-img") i.nonce [] i.bytes

/-! ## Checkpoints on flash (24 R413) -/

/-- The image of a checkpoint, sealed with its own nonce. -/
def Ckpt.cipher (c : Ckpt) : List Byte × List Byte := { c.image with nonce := c.nonce }.cipher

/-- What stands in a namespace: the header of 128 bytes with VERSION, CTXID, IMGSZ, the nonce and the tag, in that order, whose
places the spec does not give (log 53), then the sealed image. -/
def Ckpt.bytes (c : Ckpt) : List Byte :=
  padTo 128 (leBytes 4 c.version ++ leBytes 32 c.image.ctxid.toNat ++ leBytes 8 c.image.bytes.length
    ++ leBytes 12 c.nonce.toNat ++ c.cipher.2) ++ c.cipher.1

end Sys2Proof.Machine
end

