-- ==== Sys2Proof/Tests/Slice0.lean ====
section
/-! SUPPORT. Tests: words written out from the encodings of the spec and what they decode to, ill-formed terms that the checks refuse,
and for each statement a state that meets its hypotheses, with what one instruction then does there. The expected values come from
the spec's entries. -/

set_option Elab.async false
set_option maxRecDepth 8000

namespace Sys2Proof.Tests

open Sys2Proof.Machine

/-- Thread 4 of crew 3, team 2 and grid 1 stands in issue, alone. -/
def base : State :=
  let s := State.reset.withFetchWord 32 0
  s.setCur { Cur.none with pc := (s.thread 4).pc, after := (s.thread 4).pc + 4, lanes := [4] }

/-- Registers of thread 4 are given. -/
def regs (s : State) (l : List (Nat × Nat)) : State :=
  s.modThread 4 fun th => l.foldl (fun th e => th.setV (BitVec.ofNat 6 e.1) (BitVec.ofNat 32 e.2)) th

/-- The launch record of the grid is changed. -/
def lrec (s : State) (f : LaunchRec → LaunchRec) : State := s.modGrid 1 fun g => { g with lr := f g.lr }

/-- An instruction answers a next state with a property. -/
def does (i : Instr) (s : State) (f : State → Bool) : Bool :=
  match exec i s with
  | .next u => f u
  | _ => false

/-- The register r of thread 4 after an instruction. -/
def gives (i : Instr) (s : State) (r v : Nat) : Bool := does i s fun u => ((u.thread 4).rv (BitVec.ofNat 6 r)).toNat == v

/-- A trap of thread 4 with a cause, at a handler that stands at 64. -/
def trapsAt (i : Instr) (s : State) (cause : Nat) : Bool :=
  does i s fun u => (u.thread 4).pc == 64 && (u.thread 4).trap.tcause.toNat == cause && (u.thread 4).trap.inh

/-- Thread 4 has a handler at 64. -/
def handler (s : State) : State := s.modThread 4 fun th => { th with trap := { th.trap with tvec := 64 } }

/-! ## Decoding: words put together from the encodings of the opcode table, every field non-zero where it may be -/

theorem test_words_0 : decodeTableWord 32 0x03640800 = some (.pb 11 1 2) ∧
    decodeTableWord 32 0x852B95CF = some (.iop true 37 28 43 true .sar) ∧
    decodeTableWord 32 0x8795CD35 = some (.addi true 50 46 3381) ∧
    decodeTableWord 32 0x885F34D7 = some (.andi true 11 57 5335) ∧
    decodeTableWord 32 0x8B2B9A6B = some (.ori true 37 28 6763) ∧
    decodeTableWord 32 0x8D95CD35 = some (.xori true 50 46 3381) ∧
    decodeTableWord 32 0x8E5F3413 = some (.shi true 11 57 .sar true 19) ∧
    decodeTableWord 32 0x912AD35C = some (.movi true 37 185180) ∧
    decodeTableWord 32 0x939169AE = some (.movhi true 50 92590) ∧
    decodeTableWord 32 0x957CAF70 = some (.icmp true 11 57 23 .ge .n64) := by
  decide +kernel

theorem test_words_1 : decodeTableWord 32 0x96AE5D69 = some (.icmpi true 5 28 .ge .n64 361) ∧
    decodeTableWord 32 0x985CA800 = some (.plop true 2 14 5 .xor) ∧
    decodeTableWord 32 0x9A5F2BD4 = some (.sel true 11 57 23 10 true) ∧
    decodeTableWord 32 0x9D2B8000 = some (.xmovMov true 37 28) ∧
    decodeTableWord 32 0x9D9002D0 = some (.xmovRds true 50 .clock) ∧
    decodeTableWord 32 0x9C580590 = some (.xmovRdk true 11 25) ∧
    decodeTableWord 32 0x9C04A7C0 = some (.xmovWrk true 37 28) ∧
    decodeTableWord 32 0x9D900800 = some (.xmovRdp true 50) ∧
    decodeTableWord 32 0x9C016A00 = some (.xmovWrp true 11) ∧
    decodeTableWord 32 0x9D2B8C00 = some (.xmovShape true 37 28) := by
  decide +kernel

theorem test_words_2 : decodeTableWord 32 0x9D900E60 = some (.xmovPrec true 50 6) ∧
    decodeTableWord 32 0x9E5F2BA8 = some (.lea true 11 57 23 2 true) ∧
    decodeTableWord 32 0xA12B95AB = some (.fop true 37 28 43 .mul .bf16x2 .rup) ∧
    decodeTableWord 32 0xA395DACD = some (.fma32 true 50 46 53 38 true) ∧
    decodeTableWord 32 0xA45F2BB5 = some (.fmah true 11 57 23 26 true) ∧
    decodeTableWord 32 0xA72B959B = some (.fmab true 37 28 43 13 true) ∧
    decodeTableWord 32 0xA995DACD = some (.fmad true 50 46 53 38 true) ∧
    decodeTableWord 32 0xAA5F3100 = some (.funOp true 11 57 .class .bf16x2) ∧
    decodeTableWord 32 0xACAE57A0 = some (.fcmp true 5 28 43 .un .bf16x2) ∧
    decodeTableWord 32 0xAF95CA44 = some (.cvt true 50 46 .n16 .s32 .rne true) := by
  decide +kernel

theorem test_words_3 : decodeTableWord 32 0xB05F2BF0 = some (.shfl true 11 57 23 .xor true) ∧
    decodeTableWord 32 0xB202E000 = some (.voteAny true 5 12) ∧
    decodeTableWord 32 0xB2017200 = some (.voteAll true 2 14) ∧
    decodeTableWord 32 0xB2584C00 = some (.voteBallot true 11 9) ∧
    decodeTableWord 32 0xB32E5E00 = some (.voteElect true 37 12 11) ∧
    decodeTableWord 32 0xB595C050 = some (.redux true 50 46 .max .f32) ∧
    decodeTableWord 32 0xB65F2BB5 = some (.dot4 true 11 57 23 26 true) ∧
    decodeTableWord 32 0xC12F234D = some (.ld true 37 28 .w128 845) ∧
    decodeTableWord 32 0xC3938DA6 = some (.lds true 50 14 .w16 1446) ∧
    decodeTableWord 32 0xC45E669A = some (.st true 11 25 .w128 1690) := by
  decide +kernel

theorem test_words_4 : decodeTableWord 32 0xC72F00A3 = some (.lda true 37 28 .sy .w64) ∧
    decodeTableWord 32 0xC99380A3 = some (.stl true 50 14 .sy .w64) ∧
    decodeTableWord 32 0xCA5E57BB = some (.atom true 11 25 23 .sy .faddbf16x2) ∧
    decodeTableWord 32 0xCD2F2BA3 = some (.cas true 37 28 43 .sy .w64) ∧
    decodeTableWord 32 0xCE0A0000 = some (.fenceAr true .sy) ∧
    decodeTableWord 32 0xCE1A0000 = some (.fenceAcq true .sy) ∧
    decodeTableWord 32 0xCE2A0000 = some (.fenceRel true .sy) ∧
    decodeTableWord 32 0xD002E560 = some (.waitCnt true 2 14 5 6) ∧
    decodeTableWord 32 0xD25E57AB = some (.mwait true 11 25 23 .sy .eq .w64) ∧
    decodeTableWord 32 0xD52F00A4 = some (.ldfeKeep true 37 28 .sy .w128) := by
  decide +kernel

theorem test_words_5 : decodeTableWord 32 0xD59380AC = some (.ldfeTake true 50 14 .sy .w128) ∧
    decodeTableWord 32 0xD65E40A4 = some (.stfeFill true 11 25 .sy .w128) ∧
    decodeTableWord 32 0xD72F00AC = some (.stfePut true 37 28 .sy .w128) ∧
    decodeTableWord 32 0xD8000000 = some (.cctlIsync true) ∧
    decodeTableWord 32 0xD815D000 = some (.cctlDwb true 11 .sy) ∧
    decodeTableWord 32 0xD822D000 = some (.cctlDinv true 5 .sy) ∧
    decodeTableWord 32 0xD8395000 = some (.cctlPfx true 18 .sy) ∧
    decodeTableWord 32 0xE170B4D7 = some (.bra true 11 true 46295) ∧
    decodeTableWord 32 0xE204A000 = some (.jmpr true 37) ∧
    decodeTableWord 32 0xE40B4D72 = some (.call true 740722) := by
  decide +kernel

theorem test_words_6 : decodeTableWord 32 0xE6016000 = some (.callr true 11) ∧
    decodeTableWord 32 0xE8A2D35C = some (.fcall true 5 185180) ∧
    decodeTableWord 32 0xEA000000 = some (.ret true) ∧
    decodeTableWord 32 0xEC000000 = some (.yieldOp true) ∧
    decodeTableWord 32 0xEE000000 = some (.exitOp true) ∧
    decodeTableWord 32 0xF0020000 = some (.barSync true 2) ∧
    decodeTableWord 32 0xF01B0000 = some (.barArrive true 11) ∧
    decodeTableWord 32 0xF2095C00 = some (.launchGrid true 37 28) ∧
    decodeTableWord 32 0xF4000000 = some (.cwaitAll true) ∧
    decodeTableWord 32 0xF4100000 = some (.cwaitFgate true) := by
  decide +kernel

theorem test_words_7 : decodeTableWord 32 0xF4297000 = some (.cwaitFstat true 37 .plain) ∧
    decodeTableWord 32 0xF4300000 = some (.cwaitFsq true) ∧
    decodeTableWord 32 0xF60595C0 = some (.tilePload true 11 1 23) ∧
    decodeTableWord 32 0xF612CAC0 = some (.tilePloadw true 5 4 43) ∧
    decodeTableWord 32 0xF6296ACC = some (.tileExpose true 18 6 21 38) ∧
    decodeTableWord 32 0xF6359BB4 = some (.tileExposew true 11 1 23 26) ∧
    decodeTableWord 32 0xF642C59A = some (.tileTcvt true 5 4 11 13) ∧
    decodeTableWord 32 0xF6596ACC = some (.tileTdcvt true 18 6 21 38) ∧
    decodeTableWord 32 0xF6658072 = some (.tileTrayz true 11 57) ∧
    decodeTableWord 32 0xF6728E56 = some (.tileTrayrd true 5 28 43) := by
  decide +kernel

theorem test_words_8 : decodeTableWord 32 0xF689005C = some (.tileTrayfl true 18 46) ∧
    decodeTableWord 32 0xF692D800 = some (.tilePstat true 11 .locks) ∧
    decodeTableWord 32 0xF80AE560 = some (.qaccQrst true 5 28 43) ∧
    decodeTableWord 32 0xF81576A0 = some (.qaccQgen true 2 46 53) ∧
    decodeTableWord 32 0xF827CAE0 = some (.qaccQapp true 3 57 23) ∧
    decodeTableWord 32 0xF83AE000 = some (.qaccQcnt true 5 28) ∧
    decodeTableWord 32 0xF844BB50 = some (.qaccQaplReg true 2 46 53) ∧
    decodeTableWord 32 0xF856E570 = some (.qaccQapltReg true 3 57 23) ∧
    decodeTableWord 32 0xF86A72B0 = some (.qaccQaprReg true 5 28 43) ∧
    decodeTableWord 32 0xF874BB50 = some (.qaccQaprtReg true 2 46 53) := by
  decide +kernel

theorem test_words_9 : decodeTableWord 32 0xF847CAE0 = some (.qaccQaplTile true 3 25 23) ∧
    decodeTableWord 32 0xF85BE560 = some (.qaccQapltTile true 5 28 43) ∧
    decodeTableWord 32 0xF86576A0 = some (.qaccQaprTile true 2 14 53) ∧
    decodeTableWord 32 0xF877CAE0 = some (.qaccQaprtTile true 3 25 23) ∧
    decodeTableWord 32 0xF88BC000 = some (.qaccQsave true 5 28) ∧
    decodeTableWord 32 0xF894E000 = some (.qaccQload true 2 14) ∧
    decodeTableWord 32 0xF8A60000 = some (.qaccQspill true 3) ∧
    decodeTableWord 32 0xF8BA0000 = some (.qaccQclr true 5) ∧
    decodeTableWord 32 0xFA0CAED4 = some (.xferCopy true 50 46 53) ∧
    decodeTableWord 32 0xFA12F95C = some (.xferCopy2d true 11 57 23) := by
  decide +kernel

theorem test_words_10 : decodeTableWord 32 0xFA295CAC = some (.xferHalo true 37 28 43) ∧
    decodeTableWord 32 0xFA3CAED4 = some (.xferBxfer true 50 46 53) ∧
    decodeTableWord 32 0xFA32F95E = some (.xferBxferOne true 11 57 23) ∧
    decodeTableWord 32 0xFA495CAC = some (.xferBxmc true 37 28 43) ∧
    decodeTableWord 32 0xFA4CAED6 = some (.xferBxmcOne true 50 46 53) ∧
    decodeTableWord 32 0xFA52F3B0 = some (.xferRatom true 11 25 .faddbf16x2) ∧
    decodeTableWord 32 0xFA602570 = some (.xferArmc true 37 28) ∧
    decodeTableWord 32 0xFA6032B9 = some (.xferArmcZ true 50 46) ∧
    decodeTableWord 32 0xFA72F900 = some (.xferAcwait true 11 57) ∧
    decodeTableWord 32 0xFC094000 = some (.sysSeatq true 37) := by
  decide +kernel

theorem test_words_11 : decodeTableWord 32 0xFC1CAED6 = some (.sysPlace true 50 46 53 true) ∧
    decodeTableWord 32 0xFC12F95F = some (.sysPlaceRs true 11 57 23 true) ∧
    decodeTableWord 32 0xFC295C00 = some (.sysPreempt true 37 28) ∧
    decodeTableWord 32 0xFC2CAED5 = some (.sysPreemptAt true 50 46 53) ∧
    decodeTableWord 32 0xFC32F900 = some (.sysReset true 11 57) ∧
    decodeTableWord 32 0xFC495CAC = some (.sysCkpt true 37 28 43) ∧
    decodeTableWord 32 0xFC4CAED5 = some (.sysCkptRs true 50 46 53) ∧
    decodeTableWord 32 0xFC52F95C = some (.sysScrub true 11 57 23) ∧
    decodeTableWord 32 0xFC695CAD = some (.sysRcpt true 37 28 43 true) ∧
    decodeTableWord 32 0xFC7CAED4 = some (.sysCtrrd true 50 46 53) := by
  decide +kernel

theorem test_words_12 : decodeTableWord 32 0xFC82F95C = some (.sysCtxrd true 11 57 23) ∧
    decodeTableWord 32 0xFC9948B8 = some (.sysCsrr true 37 2232) ∧
    decodeTableWord 32 0xFCAC88B8 = some (.sysCsrw true 50 2232) ∧
    decodeTableWord 32 0xFCB05CB9 = some (.sysTrap true 1483 9) ∧
    decodeTableWord 32 0xFCC00000 = some (.sysTret true) ∧
    decodeTableWord 32 0xFCD04D72 = some (.sysBrk true 19826) ∧
    decodeTableWord 32 0xFCE0F95C = some (.sysBpset true 3 57 23) ∧
    decodeTableWord 32 0xFCF14000 = some (.sysBpclr true 5) ∧
    decodeTableWord 32 0xFD0C8000 = some (.sysFeatq true 50) ∧
    decodeTableWord 32 0xFD100BE4 = some (.sysMgset true 11 57) := by
  decide +kernel
/-! Words that the spec writes out, with what it says they are. -/

/-- 02 and 03: the walk of the formats, the fillers. -/
theorem test_spec_words_0 : decodeTableWord 32 0x86286064 = some (.addi true 5 3 100) ∧
    decodeTableWord 32 0x40391004 = some (.ld false 7 4 .w32 4) ∧
    decodeTableWord 32 0x02640400 = some (.pb 3 1 1) ∧
    decodeTableWord 32 0x603FFFFA = some (.bra false 1 true 0xFFFFA) ∧
    decodeTableWord 32 0x06000000 = some (.addi false 0 0 0) ∧
    decodeTableWord 32 0x60100001 = some (.bra false 0 true 1) := by decide +kernel

/-- 04, 05, 06. -/
theorem test_spec_words_1 : decodeTableWord 32 0x0420C440 = some (.iop false 4 6 8 true .add) ∧
    decodeTableWord 32 0x4A308220 = some (.atom false 6 2 2 .co .add32) ∧
    decodeTableWord 32 0x4A390329 = some (.atom false 7 4 3 .co .incw32) ∧
    decodeTableWord 32 0x5000FFF0 = some (.waitCnt false 0 15 15 15) ∧
    decodeTableWord 32 0x58000000 = some (.cctlIsync false) ∧
    decodeTableWord 32 0x68000003 = some (.fcall false 0 3) ∧
    decodeTableWord 32 0x74211000 = some (.cwaitFstat false 4 .commit) ∧
    decodeTableWord 32 0x74100000 = some (.cwaitFgate false) ∧
    decodeTableWord 32 0x74300000 = some (.cwaitFsq false) ∧
    decodeTableWord 32 0x6A000000 = some (.ret false) ∧
    decodeTableWord 32 0x6C000000 = some (.yieldOp false) ∧
    decodeTableWord 32 0x6E000000 = some (.exitOp false) := by decide +kernel

/-- 09, 12, 21. -/
theorem test_spec_words_2 : decodeTableWord 32 0x2020A300 = some (.fop false 4 5 6 .add .f32 .rne) ∧
    decodeTableWord 32 0x22412516 = some (.fma32 false 8 9 10 11 false) ∧
    decodeTableWord 32 0x2841461C = some (.fmad false 8 10 12 14 false) ∧
    decodeTableWord 32 0x2A20A200 = some (.funOp false 4 5 .rsq .f32) ∧
    decodeTableWord 32 0x2C418880 = some (.fcmp false 2 3 4 .lt .f32) ∧
    decodeTableWord 32 0x2E20B440 = some (.cvt false 4 5 .f32 .s32 .rne false) ∧
    decodeTableWord 32 0x3620A30E = some (.dot4 false 4 5 6 7 false) ∧
    decodeTableWord 32 0x2271AD9D = some (.fma32 false 14 13 27 14 true) ∧
    decodeTableWord 32 0x20308284 = some (.fop false 6 4 5 .add .f16x2 .rne) ∧
    decodeTableWord 32 0x2E38D500 = some (.cvt false 7 6 .f32 .f16 .rne false) ∧
    decodeTableWord 32 0x0E40C810 = some (.shi false 8 6 .shr false 16) ∧
    decodeTableWord 32 0x70000000 = some (.barSync false 0) ∧
    decodeTableWord 32 0x40616000 = some (.ld false 12 5 .w128 0) := by decide +kernel

/-- 10, 11, 13. -/
theorem test_spec_words_3 : decodeTableWord 32 0x7622B30C = some (.tileExpose false 5 3 6 6) ∧
    decodeTableWord 32 0x76022140 = some (.tilePload false 4 2 5) ∧
    decodeTableWord 32 0x7663000C = some (.tileTrayz false 6 6) ∧
    decodeTableWord 32 0x78004000 = some (.qaccQrst false 0 8 0) ∧
    decodeTableWord 32 0x78102020 = some (.qaccQgen false 0 4 1) ∧
    decodeTableWord 32 0x782020A0 = some (.qaccQapp false 0 4 5) ∧
    decodeTableWord 32 0x7A028420 = some (.xferCopy false 10 4 8) ∧
    decodeTableWord 32 0x7A510700 = some (.xferRatom false 4 3 .add64) := by decide +kernel

/-- 14, 21, 25. -/
theorem test_spec_words_4 : decodeTableWord 32 0x7C210621 = some (.sysPreemptAt false 4 6 8) ∧
    decodeTableWord 32 0x7C910000 = some (.sysCsrr false 4 0) ∧
    decodeTableWord 32 0x7C118210 = some (.sysPlace false 6 2 4 false) ∧
    decodeTableWord 32 0x7C118C11 = some (.sysPlaceRs false 6 12 4 false) ∧
    decodeTableWord 32 0x7C808828 = some (.sysCtxrd false 2 8 10) ∧
    decodeTableWord 32 0x7C71020C = some (.sysCtrrd false 4 2 3) ∧
    decodeTableWord 32 0x7CE08818 = some (.sysBpset false 2 8 6) ∧
    decodeTableWord 32 0x7CB00052 = some (.sysTrap false 5 2) ∧
    decodeTableWord 32 0x7CC00000 = some (.sysTret false) ∧
    decodeTableWord 32 0x1C100400 = some (.xmovRdk false 2 0) := by decide +kernel

/-! ## Ill-formed terms: one for each check -/

theorem test_ill_fields : (Instr.shi false 1 2 .shl false 32).wellFormed = false ∧ (Instr.shi false 1 2 .shl false 31).wellFormed = true ∧
    (Instr.fop false 1 2 3 .min .f32 .rz).wellFormed = false ∧ (Instr.cvt false 1 2 .s32 .s32 .rne false).wellFormed = false ∧
    (Instr.cvt false 1 2 .f32 .s32 .rne true).wellFormed = false ∧ (Instr.cvt false 1 2 .s16 .s32 .rz false).wellFormed = false ∧
    (Instr.lds false 1 2 .w32 0).wellFormed = false ∧ (Instr.lda false 1 2 .cr .w128).wellFormed = false ∧
    (Instr.stl false 1 2 .cr .w128).wellFormed = false ∧ (Instr.cas false 1 2 3 .cr .w16).wellFormed = false ∧
    (Instr.mwait false 1 2 3 .cr .eq .w8).wellFormed = false ∧ (Instr.qaccQgen false 0 0 1).wellFormed = false ∧
    (Instr.qaccQapp false 0 0 1).wellFormed = false ∧ (Instr.qaccQaplReg false 0 1 0).wellFormed = false ∧
    (Instr.qaccQapltReg false 0 0 1).wellFormed = false ∧ (Instr.qaccQaprReg false 0 1 0).wellFormed = false ∧
    (Instr.qaccQaprtReg false 0 0 1).wellFormed = false ∧ (Instr.sysCsrr false 1 0x006).wellFormed = false ∧
    (Instr.sysCsrw false 1 0xC0B).wellFormed = false := by decide

theorem test_ill_zeros : (Instr.iop false 1 2 3 false .neg).wellFormed = false ∧ (Instr.iop false 1 2 0 false .neg).wellFormed = true ∧
    (Instr.plop false 1 2 3 .not).wellFormed = false ∧ (Instr.plop false 1 2 0 .mov).wellFormed = true := by decide

theorem test_ill_events : (Instr.stationUpOrDown 48 true).wellFormed = false ∧ (Instr.stationUpOrDown 47 true).wellFormed = true ∧
    (Instr.ualinkFlitReceive 48 true true).wellFormed = false ∧ (Instr.secureAssociationInstall 32).wellFormed = false ∧
    (Instr.ethernetFrameReceive 32 0 true true [] 0).wellFormed = false ∧ (Instr.hostMemAccess 2 0 0 false []).wellFormed = false ∧
    (Instr.hostPortUpOrDown 2 none).wellFormed = false ∧ (Instr.ideKeySetup 0 0 16).wellFormed = false ∧
    (Instr.bindStream 0 0 0 16).wellFormed = false ∧ (Instr.queueDoorbell 4095 0).wellFormed = false ∧
    (Instr.commandNop 4095).wellFormed = false ∧ (Instr.domainTableWrite 2048 0).wellFormed = false ∧
    (Instr.hseatWrite 16 0).wellFormed = false ∧ (Instr.nvmeCompletion 16 0 [] 0).wellFormed = false ∧
    (Instr.csassignWrite 8 0).wellFormed = false ∧ (Instr.contactSheetSample 0 192).wellFormed = false ∧
    (Instr.patrolScrubStep 8).wellFormed = false ∧ (Instr.functionReady true 192).wellFormed = false ∧
    (Instr.functionReady false 36).wellFormed = false ∧ (Instr.incarnationAnnouncement 1024 0).wellFormed = false ∧
    (Instr.registerWrite 0 3 0).wellFormed = false := by decide

/-! ## Registers of the lanes -/

def ints : State := regs base [(1, 5), (2, 0xFFFFFFFE), (4, 0xFFFFFFFF), (5, 0), (6, 1), (7, 2), (9, 0x80000000), (10, 33)]

theorem wit_integer : ints.Bundled (.addi false 3 2 0x1FFF) ∧ ints.Bundled (.iop false 8 4 6 true .add) ∧
    ints.Bundled (.sel false 3 1 2 1 false) ∧ ints.Bundled (.lea false 8 4 2 2 true) := by decide +kernel

theorem test_immediate : gives (.addi false 3 2 0x1FFF) ints 3 0xFFFFFFFD ∧ gives (.andi false 3 2 0x1FFF) ints 3 0x1FFE ∧
    gives (.ori false 3 1 0x1000) ints 3 0x1005 ∧ gives (.xori false 3 1 0x1FFF) ints 3 0x1FFA ∧
    gives (.movi false 3 0x40000) ints 3 0xFFFC0000 ∧ gives (.movhi false 1 0x7FFFF) ints 1 0xFFFFE005 ∧
    gives (.shi false 3 9 .sar false 31) ints 3 0xFFFFFFFF ∧ gives (.shi false 8 4 .shl true 33) ints 9 0xFFFFFFFE := by
  decide +kernel

theorem test_iop : gives (.iop false 8 4 6 true .add) ints 8 0 ∧ gives (.iop false 8 4 6 true .add) ints 9 3 ∧
    gives (.iop false 3 9 10 false .sar) ints 3 0xC0000000 ∧ gives (.iop false 3 9 0 false .abs) ints 3 0x80000000 ∧
    gives (.iop false 3 9 9 false .addss) ints 3 0x80000000 ∧ gives (.iop false 3 0 0 false .clz) ints 3 32 ∧
    gives (.iop false 3 2 2 false .mulhs) ints 3 0 ∧ gives (.iop false 3 2 2 false .mulhn) ints 3 0xFFFFFFFC ∧
    gives (.iop false 3 1 10 false .rol) ints 3 10 := by
  decide +kernel

theorem test_moves : gives (.lea false 8 4 2 2 true) ints 8 0xFFFFFFF7 ∧ gives (.lea false 8 4 2 2 true) ints 9 0 ∧
    gives (.sel false 3 1 2 0 false) ints 3 5 ∧ gives (.sel false 3 1 2 1 false) ints 3 0xFFFFFFFE ∧
    gives (.xmovMov false 3 2) ints 3 0xFFFFFFFE ∧ gives (.xmovRdp false 3) ints 3 1 ∧
    gives (.xmovRdk false 8 3) (base.modTeam 2 fun t => { t with kLead := t.kLead.set 3 77 }) 8 77 ∧
    gives (.xmovRds false 3 .seat) base 3 0 ∧ gives (.xmovShape false 3 2) (base.modCrew 3 fun c => { c with
      tags := c.tags.set 2 (.a 1 1) }) 3 1 ∧ gives (.xmovPrec false 3 7) base 3 4 ∧ gives (.cwaitFstat false 3 .plain) base 3 0 := by
  decide +kernel

theorem test_predicates : does (.icmp false 2 2 1 .lt .s32) ints (fun u => (u.thread 4).rp 2) ∧
    does (.icmp false 2 2 1 .lt .n32) ints (fun u => !(u.thread 4).rp 2) ∧
    does (.icmpi false 2 1 .ge .s32 0x3FF) ints (fun u => (u.thread 4).rp 2) ∧
    does (.icmpi false 2 1 .ge .n32 0x3FF) ints (fun u => !(u.thread 4).rp 2) ∧
    does (.plop false 2 0 1 .andn) ints (fun u => (u.thread 4).rp 2) ∧
    does (.xmovWrp false 1) ints (fun u => (u.thread 4).p.toNat % 2 ^ 16 == 5) := by
  decide +kernel

theorem wit_predicates : ints.Bundled (.icmp false 2 4 6 .lt .s64) ∧ ints.Bundled (.icmpi false 2 1 .ge .s32 0x3FF) ∧
    ints.Bundled (.plop false 2 0 1 .andn) ∧ ints.Bundled (.xmovWrp false 1) := by decide +kernel

theorem wit_iop : (31 : Nat) < 32 ∧ (63 : Nat) < 64 ∧ iopResult .abs (0x80000000 : BitVec 32) 0 31 = 0x80000000 := by decide +kernel

theorem wit_discarded : (4 : Reg) ≠ 0 ∧ (4 : Reg).toNat % 4 = 0 ∧ (62 : Reg).toNat % 2 = 0 ∧ (15 : PReg) ≠ 0 ∧
    ((ints.thread 4).writeAll (quadWrites 60 1 2 3 4)).rv 63 = 4 ∧ ((ints.thread 4).writeAll (pairWrites 62 (2 ^ 32))).rv 63 = 1 ∧
    ((ints.thread 4).writeAll (pairWrites 0 5)).rv 1 = 5 := by decide +kernel

theorem wit_info : base.Bundled (.xmovRds false 4 .clock) ∧ base.Bundled (.xmovShape false 3 2) ∧ base.Bundled (.xmovPrec false 3 7) ∧
    base.Bundled (.cwaitFstat false 3 .status) ∧ (let g := base.gridOf 4; 0 < g.lr.tx ∧ 0 < g.lr.ty ∧ (base.thread 4).index < 2 ^ 32 ∧
      (base.teamOf 4).index < 2 ^ 32 ∧ 0 < g.lr.gx ∧ 0 < g.lr.gy ∧ (base.crewOf 4).core < 192) := by decide +kernel

/-- Threads 4 and 5 of crew 3, lanes 0 and 1, thread 4 alone in issue. -/
def two : State :=
  let s := { base with threads := Table.set base.threads 5 (Thread.launch 3 1 1 0) }
  s.modCrew 3 fun c => { c with threads := [4, 5], tags := c.tags.set 3 (.a 5 10) }

theorem wit_tags : base.Bundled (.addi false 3 0 7) ∧ base.Bundled (.xmovMov false 3 2) ∧ two.Bundled (.addi false 3 0 5) ∧
    (Table.find? two.crews 3).isSome = true ∧ two.liveOf 3 = [4, 5] := by decide +kernel

/-- The tag of register r of crew 3 after an instruction. -/
def tagged (i : Instr) (s : State) (r : Reg) (t : Tag) : Bool := does i s fun u => (u.crew 3).tags[r.toNat]'r.isLt == t

theorem test_tags : tagged (.addi false 3 0 7) base 3 .u ∧ tagged (.addi false 3 0 5) two 3 (.a 5 10) ∧
    tagged (.addi false 3 0 6) two 3 .g ∧ tagged (.addi false 4 0 0) two 4 .u ∧ tagged (.addi false 4 0 1) two 4 .g ∧
    tagged (.xmovMov false 2 3) (two.setCur { two.m.cur with lanes := [4, 5] }) 2 (.a 5 10) := by decide +kernel

/-! ## Floating-point words -/

def floats : State := regs base [(2, 0x3F800000), (3, 0x40000000), (4, 0), (5, 0x3FF00000), (6, 0), (7, 0x40000000), (8, 0x3C003C00),
  (10, 0x3F803F80), (11, 0x7F800000), (12, 0x01020304), (13, 0xFF)]

theorem wit_float : floats.Bundled (.fop false 14 2 3 .add .f32 .rne) ∧
    floats.Quiet (fun t => elemOut .f32 14 (List.zipWith (fopElem .add (ftyFmt .f32) .rne) (elems (floats.thread t) .f32 2)
      (elems (floats.thread t) .f32 3))) ∧ floats.Bundled (.dot4 false 14 12 13 1 false) := by decide +kernel

theorem test_float : gives (.fop false 14 2 3 .add .f32 .rne) floats 14 0x40400000 ∧
    gives (.fop false 14 8 8 .mul .f16x2 .rne) floats 14 0x3C003C00 ∧ gives (.fma32 false 14 2 3 2 true) floats 14 0xBF800000 ∧
    gives (.fmah false 14 8 8 8 false) floats 14 0x40004000 ∧ gives (.fmab false 14 10 10 10 false) floats 14 0x40004000 ∧
    gives (.fmad false 14 4 6 4 false) floats 15 0x40080000 ∧ gives (.funOp false 14 3 .rcp .f32) floats 14 0x3F000000 ∧
    gives (.cvt false 14 3 .s32 .f32 .rne false) floats 14 2 ∧ gives (.dot4 false 14 12 13 1 false) floats 14 0xFFFFFFFC ∧
    does (.fcmp false 3 2 3 .lt .f32) floats (fun u => (u.thread 4).rp 3) := by decide +kernel

/-- Every floating-point trap is enabled, and thread 4 has a handler. -/
def enabled : State := handler (lrec floats fun l => { l with trapen := 31 })

theorem wit_float_trap : enabled.Solo (.fop false 14 11 11 .sub .f32 .rne) 4 ∧ (enabled.thread 4).handles ∧
    (elemOut .f32 14 (List.zipWith (fopElem .sub (ftyFmt .f32) .rne) (elems (enabled.thread 4) .f32 11)
      (elems (enabled.thread 4) .f32 11))).flags &&& enabled.trapen 4 ≠ 0 ∧
    trapsAt (.fop false 14 11 11 .sub .f32 .rne) enabled 0x040 ∧
    does (.fop false 14 11 11 .sub .f32 .rne) enabled (fun u => (u.thread 4).fstat == 16 && (u.thread 4).trap.tval == 16) := by
  decide +kernel

/-! ## Crew-wide words, guards and transfers -/

/-- Threads 4 and 5 both in issue, v2 holding 3 and 4, p1 true in thread 5. -/
def pair : State :=
  let s := (two.modThread 4 fun th => th.setV 2 3).modThread 5 fun th => { th.setV 2 4 with pc := (two.thread 4).pc, p := 3 }
  s.setCur { s.m.cur with lanes := [4, 5] }

theorem wit_crew : pair.Bundled (.shfl false 3 2 1 .xor true) ∧ pair.Bundled (.voteElect false 3 2 1) ∧
    pair.Bundled (.redux false 3 2 .add .n32) ∧
    pair.Quiet (fun t => ⟨regWrites 3 (BitVec.ofNat 32 (pair.reduxResult (pair.thread t).crew 2 .add .n32).1), [],
      (pair.reduxResult (pair.thread t).crew 2 .add .n32).2⟩) := by decide +kernel

theorem wit_redux : pair.m.cur.Alone ∧ ((pair.liveOf 3).map fun t => (pair.thread t).lane).Nodup ∧
    (∀ t ∈ pair.liveOf 3, (pair.thread t).lane < 32) ∧ pair.liveOf 3 ≠ [] := by decide +kernel

theorem test_crew : gives (.shfl false 3 2 1 .xor true) pair 3 4 ∧ gives (.shfl false 3 2 1 .up true) pair 3 3 ∧
    gives (.voteBallot false 3 1) pair 3 2 ∧ gives (.voteElect false 3 2 1) pair 3 1 ∧ gives (.redux false 3 2 .add .n32) pair 3 7 ∧
    does (.voteAny false 2 1) pair (fun u => (u.thread 4).rp 2) ∧ does (.voteAll false 2 1) pair (fun u => !(u.thread 4).rp 2) := by
  decide +kernel

theorem wit_guards : pair.Bundled (.pb 1 3 0b1010) ∧ (0 : Nat) < 4 ∧ (4 : Nat) ≤ 8 ∧ (3 : Nat) + 1 = 4 ∧
    does (.pb 1 3 0b1010) pair (fun u => (u.thread 5).guard == ⟨true, true, 4, 0, 10⟩ && (u.thread 4).guard == ⟨true, false, 4, 0, 10⟩) := by
  decide +kernel

def jump : State := handler (regs base [(2, 0x1000), (4, 0x1002), (6, 0xFFFC), (8, 7)])

theorem wit_branches : jump.Bundled (.bra false 0 true 0xFFFFF) ∧ jump.Bundled (.jmpr false 2) ∧
    (∀ t ∈ jump.m.cur.lanes, ((jump.thread t).rx 2).toNat % 4 = 0) ∧ jump.Solo (.callr false 4) 4 ∧
    ((jump.thread 4).rx 4).toNat % 4 ≠ 0 ∧ (jump.thread 4).handles := by decide +kernel

theorem test_branches : does (.bra false 0 true 0xFFFFE) jump (fun u => (u.thread 4).pc == (jump.thread 4).pc - 4) ∧
    does (.bra false 0 false 0xFFFFE) jump (fun u => (u.thread 4).pc == (jump.thread 4).pc + 4) ∧
    does (.jmpr false 2) jump (fun u => (u.thread 4).pc == 0x1000) ∧ trapsAt (.jmpr false 4) jump fetchMisaligned := by decide +kernel

/-- Thread 4 with k addresses on its return stack, in a slice of 256 bytes. -/
def stacked (k : Nat) : State :=
  (lrec jump fun l => { l with slice := 256 }).modThread 4 fun th => { th with stack := List.replicate k 0x2000 }

theorem wit_calls : (stacked 15).Solo (.call false 5) 4 ∧ ((stacked 15).thread 4).stack.length < 16 ∧ (stacked 1).Solo (.ret false) 4 ∧
    ((stacked 1).thread 4).fork.recs = [] ∧ ((stacked 1).thread 4).spill = 0 ∧ ((stacked 0).thread 4).handles := by decide +kernel

theorem test_calls : does (.call false 5) (stacked 15) (fun u => (u.thread 4).pc == (jump.thread 4).pc + 24 &&
      (u.thread 4).stack.getLast? == some ((jump.thread 4).pc + 4)) ∧
    does (.callr false 2) (stacked 0) (fun u => (u.thread 4).pc == 0x1000 && (u.thread 4).stack.length == 1) ∧
    does (.ret false) (stacked 1) (fun u => (u.thread 4).pc == 0x2000 && (u.thread 4).stack == []) ∧
    trapsAt (.ret false) (stacked 0) Cause.returnUnderflow := by decide +kernel

theorem wit_spill : ((stacked 16).thread 4).cont = none ∧ ((stacked 16).thread 4).stack.length = 16 ∧
    8 * (((stacked 16).thread 4).spill + 1) ≤ ((stacked 16).gridOf 4).lr.slice ∧
    (match (stacked 16).push 4 0x3000 with
      | .ok s => (match s.pop 4 with | some (a, _) => a == 0x3000 | none => false)
      | _ => false) = true := by decide +kernel

/-- A grid with a fork descriptor that names v4. -/
def forks : State := lrec (regs base [(4, 9)]) fun l => { l with forks := [⟨[(4, 2, 8)]⟩] }

theorem wit_fcall : forks.Solo (.fcall false 0 3) 4 ∧ (0 : Nat) < (forks.gridOf 4).lr.forks.length ∧ (4 : Nat) < forks.handle ∧
    (forks.gridOf 4).replay = false ∧ (forks.thread 4).fork.recs.length < 4 ∧ forks.sparesOf 4 ≠ [] := by decide +kernel

theorem test_fcall : does (.fcall false 0 3) forks (fun u => (u.thread 4).pc == (base.thread 4).pc + 16 && (u.thread 4).fork.fdepth == 1 &&
      (u.thread 5).pc == (base.thread 4).pc + 4 && (u.thread 5).isCont) ∧
    does (.fcall false 0 3) (forks.modGrid 1 fun g => { g with replay := true }) (fun u => (u.thread 4).fork.plain == 1 &&
      (u.thread 4).stack.length == 1) := by decide +kernel

/-- Thread 4 stands at the RET that closes a fork, whose continuation is thread 5; the prediction of v4 is 9. -/
def closing (v : Nat) (conflict : Bool) : State :=
  let s := (forks.modThread 4 fun th => { th.setV 4 (BitVec.ofNat 32 v) with
    stack := [0x2000], fork := { th.fork with fdepth := 1, recs := [⟨5, 0, 0, [(4, 9)], 0, 1, [], conflict⟩] } })
  let c := { Thread.launch 3 0 0 0x4000 with cont := some ⟨4, 0, 0, [], [], false⟩ }
  { s with threads := Table.set s.threads 5 (c.setV 6 1) }

theorem wit_close : (closing 9 false).Solo (.ret false) 4 ∧ ((closing 9 false).thread 4).closing.isSome = true ∧
    ((closing 9 false).gridOf 4).lr.regs ≤ 64 ∧ ((closing 9 false).thread 5).cont = some ⟨4, 0, 0, [], [], false⟩ ∧
    ((closing 8 true).thread 4).closing.isSome = true := by decide +kernel

theorem test_close : does (.ret false) (closing 9 false) (fun u => (u.thread 4).pc == 0x4000 && (u.thread 4).fork.commit == 1 &&
      (u.thread 4).rv 6 == 1 && (Table.find? u.threads 5).isNone) ∧
    does (.ret false) (closing 8 false) (fun u => (u.thread 4).pc == 0x2000 && (u.thread 4).fork.sqpred == 1) ∧
    does (.ret false) (closing 9 true) (fun u => (u.thread 4).pc == 0x2000 && (u.thread 4).fork.sqmem == 1) := by decide +kernel

theorem wit_fork_words : base.Bundled (.cwaitFgate false) ∧ base.Bundled (.yieldOp false) ∧ base.Solo (.cwaitFsq false) 4 ∧
    ((closing 9 false).thread 4).fork.recs ≠ [] ∧
    (let s := (closing 9 false).setCur { base.m.cur with lanes := [5] };
      s.m.cur.Alone ∧ (s.thread 5).isCont = true ∧ s.issueCheck (.cwaitFsq false) 5 = none ∧
      does (.cwaitFsq false) s (fun u => (Table.find? u.threads 5).isNone && (u.thread 4).fork.recs == [] &&
        (u.thread 4).fork.sqother == 1)) := by decide +kernel

theorem test_fork_words : does (.cwaitFgate false) base (fun u => (u.thread 4).pc == (base.thread 4).pc + 4) ∧
    does (.yieldOp false) pair (fun u => ((u.thread 4).mark.map Prod.fst) == some 0) ∧
    does (.cwaitFsq false) (closing 9 false) (fun u => (u.thread 4).fork.sqother == 1 && (u.thread 4).fork.fdepth == 0) := by
  decide +kernel

theorem wit_team : two.Solo (.barSync false 3) 4 ∧ 4 ∈ two.teamLive 2 ∧ (two.thread 4).wait = .ready ∧ (two.thread 4).wait2 = none ∧
    ((two.team 2).bars[barIdx 3]).count + 1 < two.barTarget 2 3 ∧ base.barTarget 2 3 ≤ ((base.team 2).bars[barIdx 3]).count + 1 ∧
    (two.crewOf 4).index = 0 ∧ (handler (base.modCrew 3 fun c => { c with index := 1 })).Solo (.xmovWrk false 2 31) 4 := by
  decide +kernel

theorem test_team : does (.barSync false 3) two (fun u => (u.thread 4).wait == .bar 3) ∧
    does (.barSync false 3) base (fun u => (u.thread 4).wait == .ready && ((u.team 2).bars[barIdx 3]).phase) ∧
    does (.barArrive false 3) two (fun u => (u.thread 4).wait == .ready && ((u.team 2).bars[barIdx 3]).count == 1) ∧
    does (.xmovWrk false 2 31) ints (fun u => (u.team 2).kLead[31] == 0xFFFFFFFE) ∧
    trapsAt (.xmovWrk false 2 31) (handler (base.modCrew 3 fun c => { c with index := 1 })) Cause.kWriter := by decide +kernel

/-- Bytes of a record: a value of n bytes at an offset. -/
def putAt (b : List Byte) (o n v : Nat) : List Byte := b.take o ++ leBytes n v ++ b.drop (o + n)

/-- A launch record of one thread in a context and a seat. -/
def record (key seat : Nat) : List Byte :=
  [(0, 2, 1), (2, 2, key), (4, 1, seat), (6, 1, 16), (8, 2, 1), (10, 2, 1), (12, 2, 1), (14, 1, 1), (24, 4, 1), (28, 4, 1), (32, 4, 1),
    (40, 8, 1), (56, 4, 896)].foldl (fun b e => putAt b e.1 e.2.1 e.2.2) (List.replicate 1024 0)

/-- The grid is the owner's of context 5, with a record at 2^41 in x2. -/
def owner : State :=
  let s := regs (base.setPhys (2 ^ 41) (record 5 1)) [(2, 0), (3, 512)]
  let s := { s with ctxs := Table.set s.ctxs 5 (Ctx.create (.owner 5 0) 3 0 [] 0 5)
                    xl := { s.xl with roots := Table.set s.xl.roots 5 (s.root 0) } }
  s.modGrid 1 fun g => { g with key := 5, seat := .owner }

theorem wit_launch : owner.Solo (.launchGrid false 8 2) 4 ∧ (owner.thread 4).index = 0 ∧ (owner.gridOf 4).nest < 10 ∧
    (match owner.place 4 0 ((owner.thread 4).rx 2) 1024 64, owner.launchRead 4 ((owner.thread 4).rx 2) 16 with
      | .ok _, .ok s1 bs => (match ((s1.acquire 0 .pk).checkRecord (.launch 5 .owner) [0] (bs.take 128) (bs.drop 128)).2 with
        | .ok _ => true
        | .error _ => false)
      | _, _ => false) = true ∧
    base.Solo (.exitOp false) 4 ∧ (base.thread 4).deferred = [] ∧ base.childrenOf 2 = [] := by decide +kernel

theorem test_launch : gives (.launchGrid false 8 2) owner 8 1 ∧ does (.launchGrid false 8 2) owner (fun u => (u.grid 5).nest == 2 &&
      (u.grid 5).parent == some (2, 1)) ∧
    trapsAt (.launchGrid false 8 2) (handler (owner.modGrid 1 fun g => { g with nest := 10 })) Cause.nestingDepth ∧
    trapsAt (.launchGrid false 8 2) (handler (owner.modThread 4 fun th => { th with index := 1 })) Cause.launchLeader ∧
    does (.exitOp false) base (fun u => !(u.thread 4).live) ∧ does (.cwaitAll false) base (fun u => (u.thread 4).wait == .ready) ∧
    does (.cwaitAll false) { base with grids := Table.set base.grids 9 { Grid.absent with parent := some (2, 1) } }
      (fun u => (u.thread 4).wait == .cwait) := by decide +kernel

/-! ## Memory -/

/-- Windows of every kind: a slice of 256 bytes, 8 KiB of scratchpad, four counters; x2 points into the scratchpad, x6 at host memory. -/
def mems : State :=
  let s := lrec (handler base) fun l => { l with slice := 256, scratch := 1, counters := 4 }
  let s := regs (s.setPhys (2 ^ 41) [0x80, 0x81, 0x82, 0x83]) [(2, 16), (3, 0xD1000000), (4, 7), (6, 0), (7, 512), (8, 0xFFFFFFFF),
    (10, 8), (11, 0xD4000000), (12, 1), (14, 17), (15, 0xD1000000)]
  (s.modGrid 1 fun g => { g with counters := some [(0, ⟨5, 0⟩), (1, ⟨6, 9⟩)] }).setLocalMem (.scratch 2 0) (Memory.writeAll [] 16 [0xFE, 0xFF, 1, 2])

theorem wit_windows : mems.place 4 0 0xD500000000000000 1 1 = .error .reservedWindow ∧
    mems.place 4 0 0xD0000000000000F9 8 8 = .error .misaligned ∧ mems.place 4 0 0xD000000000000100 8 8 = .error .windowBound ∧ mems.place 4 0 0xD0000000000000F8 8 8 = .ok (.here (.slice 4) 248) ∧
    mems.place 4 0 0xD100000000001FF9 8 8 = .error .misaligned ∧ mems.place 4 0 0xD100000000002000 8 8 = .error .windowBound ∧ mems.place 4 0 0xD100000000001FF8 8 8 = .ok (.here (.scratch 2 0) 8184) ∧
    mems.place 4 0 0xD200000001000000 1 1 = .error .windowBound ∧ mems.place 4 0 0xD400000000000020 8 8 = .error .windowBound ∧
    mems.place 4 0 0xD000000000000001 2 2 = .error .misaligned := by decide +kernel

theorem wit_canonical : mems.place 4 0 0x0100000000000000 1 1 = .error .nonCanonical ∧
    mems.place 4 0 0x0000000000000002 4 4 = .error .misaligned ∧ canonical 0x00FFFFFFFFFFFFFC = true ∧
    mems.place 4 0 0x00FFFFFFFFFFFFFC 4 4 = .ok (.global 0x00FFFFFFFFFFFFFC) ∧
    mems.place 4 0 0xFF00000000000000 1 1 = .ok (.global 0xFF00000000000000) := by decide +kernel

/-- The access of n bytes at x2 leads to offset 16 of the scratchpad, and the next entry has a fresh number. -/
theorem wit_local : mems.Local 4 (addrM (mems.thread 4) 1 .w32 0) 4 (.scratch 2 0) 16 ∧ mems.FreshId ∧
    mems.Local 4 (addrMS (mems.thread 4) 1) 4 (.scratch 2 0) 16 ∧ mems.Solo (.ld false 4 1 .w32 0) 4 := by decide +kernel

theorem wit_local_words : mems.Solo (.lds false 4 1 .w16 0) 4 ∧ mems.Solo (.lda false 4 1 .cr .w32) 4 ∧
    mems.Solo (.st false 8 1 .w32 0) 4 ∧ mems.Solo (.stl false 8 1 .cr .w32) 4 := by decide +kernel

/-- What a word's entry, the first of the table, is to write. -/
def entry (i : Instr) (s : State) (w : List (Reg × Word)) : Bool :=
  does i s fun u => u.eng.txns.map (fun e => e.2.writes) == [[⟨4, w⟩]] && (u.thread 4).pc == (s.thread 4).pc + 4

/-- Bytes of the scratchpad from offset 16 after a word. -/
def leaves (i : Instr) (s : State) (b : List Byte) : Bool := does i s fun u => (u.localMem (.scratch 2 0)).readAll 16 b.length == b

theorem test_local : entry (.ld false 4 1 .w32 0) mems [(4, 0x0201FFFE)] ∧ entry (.lds false 4 1 .w16 0) mems [(4, 0xFFFFFFFE)] ∧
    entry (.lda false 4 1 .cr .w8) mems [(4, 0xFE)] ∧ leaves (.st false 8 1 .w16 0) mems [0xFF, 0xFF, 1, 2] ∧
    leaves (.st false 8 1 .w32 1) mems [0xFE, 0xFF, 1, 2, 0xFF, 0xFF, 0xFF, 0xFF, 0] ∧
    leaves (.stl false 4 1 .cr .w8) mems [7, 0xFF, 1, 2] := by decide +kernel

theorem wit_prefetch : mems.Solo (.ld false 0 7 .w32 0) 4 ∧ mems.FreshId ∧
    does (.ld false 0 7 .w32 0) mems (fun u => u.eng.txns.length == 1 && (u.thread 4).trap.inh == false) := by decide +kernel

theorem wit_faults : mems.Solo (.ld false 4 7 .w32 0) 4 ∧ (mems.thread 4).handles ∧ (4 : Reg) ≠ 0 ∧
    mems.place 4 (mems.crewOf 4).core (addrM (mems.thread 4) 7 .w32 0) 4 4 = .error .misaligned ∧
    trapsAt (.ld false 4 7 .w32 0) mems (Why.misaligned.cause .load) ∧ trapsAt (.st false 4 7 .w32 0) mems (Why.misaligned.cause .store) := by
  decide +kernel

theorem test_faults : trapsAt (.atom false 4 7 8 .cr .add32) mems (Why.misaligned.cause .atomic) ∧
    trapsAt (.cas false 4 7 8 .cr .w32) mems (Why.misaligned.cause .atomic) ∧
    trapsAt (.mwait false 4 7 8 .cr .eq .w32) mems (Why.misaligned.cause .load) ∧
    trapsAt (.ldfeKeep false 4 7 .cr .w32) mems (Why.misaligned.cause .load) ∧
    trapsAt (.stfePut false 4 7 .cr .w32) mems (Why.misaligned.cause .store) := by decide +kernel

/-- The access of n bytes at x6 leads to global memory. -/
theorem wit_global : mems.Solo (.ld false 4 3 .w32 0) 4 ∧ mems.FreshId ∧
    (let q := mems.newId.2.reach 4 (addrM (mems.thread 4) 3 .w32 0) 4 .load;
      mems.newId.2.Global 4 (addrM (mems.thread 4) 3 .w32 0) 4 .load q.1 (2 ^ 41) ∧
      (q.1.globalRead 0 (mems.gridOf 4).accessKey (2 ^ 41) 4 .cr).2 = .ok [0x80, 0x81, 0x82, 0x83] ∧
      q.1.keyBlocked (mems.gridOf 4).accessKey = none) := by decide +kernel

theorem wit_global_store : mems.Solo (.st false 8 3 .w32 0) 4 ∧
    (let q := mems.newId.2.reach 4 (addrM (mems.thread 4) 3 .w32 0) 4 .store;
      mems.newId.2.Global 4 (addrM (mems.thread 4) 3 .w32 0) 4 .store q.1 (2 ^ 41) ∧ (2 ^ 41 : Nat) % 4 = 0 ∧
      q.1.keyBlocked (mems.gridOf 4).accessKey = none ∧ q.1.pageRetired (2 ^ 41) = false ∧ q.1.HasRoom 0 (2 ^ 41)) := by
  decide +kernel

theorem wit_global_scope : mems.Solo (.stl false 8 3 .sy .w32) 4 ∧
    (let q := mems.newId.2.reach 4 (addrMS (mems.thread 4) 3) 4 .store;
      mems.newId.2.Global 4 (addrMS (mems.thread 4) 3) 4 .store q.1 (2 ^ 41) ∧
      ((q.1.release 0 .sy).globalWrite 0 (mems.gridOf 4).accessKey (2 ^ 41) (storeBytes (mems.thread 4) .w32 8) .sy).2 = none) := by
  decide +kernel

theorem test_global : entry (.ld false 4 3 .w32 0) mems [(4, 0x83828180)] ∧ entry (.lds false 4 3 .w8 1) mems [(4, 0xFFFFFF81)] ∧
    entry (.lda false 4 3 .sy .w16) mems [(4, 0x8180)] ∧
    does (.st false 8 3 .w16 1) mems (fun u => u.seen 0 0 (2 ^ 41 + 3) == 0xFF && u.seen 0 0 (2 ^ 41 + 1) == 0x81 &&
      u.seen 1 0 (2 ^ 41 + 3) == 0x83) ∧
    does (.stl false 8 3 .sy .w16) mems (fun u => u.physByte (2 ^ 41) == 0xFF && u.physByte (2 ^ 41 + 2) == 0x82) := by
  decide +kernel

theorem wit_atomic_values : (2 ^ 32 - 1 : Nat) < 2 ^ 32 ∧ atomResult .incw32 7 7 = 0 ∧ atomResult .incw32 6 7 = 7 ∧
    atomResult .decw32 0 7 = 7 ∧ atomResult .decw32 8 7 = 7 ∧ atomResult .decw32 7 7 = 6 ∧ atomResult .add32 (2 ^ 32 - 1) 2 = 1 ∧
    atomResult .mins32 (2 ^ 32 - 1) 0 = 2 ^ 32 - 1 := by decide +kernel

theorem wit_atomics : mems.Solo (.atom false 14 1 4 .cr .add32) 4 ∧ mems.Solo (.cas false 4 1 8 .cr .w32) 4 ∧ mems.FreshId ∧
    mems.place 4 (mems.crewOf 4).core (addrMS (mems.thread 4) 5) 8 8 = .ok (.here (.counters 1) 8) ∧
    mems.lockedAt (.counters 1) 8 8 = false ∧ ((mems.grid 1).counters).isSome = true := by decide +kernel

theorem wit_atomics_global : mems.Solo (.atom false 14 3 4 .sy .add32) 4 ∧ mems.Solo (.atom false 14 5 12 .pk .add64) 4 ∧
    (let q := mems.newId.2.reach 4 (addrMS (mems.thread 4) 3) 4 .atomic;
      mems.newId.2.Global 4 (addrMS (mems.thread 4) 3) 4 .atomic q.1 (2 ^ 41) ∧
      (q.1.atomicAt 4 .phys (2 ^ 41) 4 .sy fun x => some (x + 1)).2 = .ok 0x83828180) := by decide +kernel

theorem test_atomics : leaves (.atom false 14 1 4 .cr .add32) mems [5, 0, 2, 2] ∧ entry (.atom false 14 1 4 .cr .add32) mems [(14, 0x0201FFFE)] ∧
    leaves (.cas false 4 1 8 .cr .w32) mems [0xFE, 0xFF, 1, 2] ∧
    leaves (.cas false 4 1 8 .cr .w32) (regs mems [(4, 0x0201FFFE)]) [0xFF, 0xFF, 0xFF, 0xFF] ∧
    does (.atom false 14 5 12 .pk .add64) mems (fun u => (u.counter 1 1).value == 7 && (u.counter 1 1).target == 9) ∧
    does (.atom false 14 3 4 .sy .add32) mems (fun u => u.physByte (2 ^ 41) == 0x87) := by decide +kernel

theorem wit_waits : mems.Solo (.mwait false 14 1 4 .cr .ne .w32) 4 ∧ (mems.thread 4).wait = .ready ∧
    leNat (mems.localRead (.scratch 2 0) 16 4) ≠ atomOperand (mems.thread 4) false 4 ∧ mems.Solo (.waitCnt false 0 15 0 0) 4 ∧
    (mems.thread 4).deferred = [] := by decide +kernel

theorem test_waits : entry (.mwait false 14 1 4 .cr .ne .w32) mems [(14, 0x0201FFFE)] ∧
    does (.mwait false 14 1 4 .cr .eq .w32) mems (fun u => (u.thread 4).wait != .ready && (u.thread 4).pc == (mems.thread 4).pc) ∧
    does (.waitCnt false 0 15 0 0) mems (fun u => (u.thread 4).wait == .ready) ∧
    does (.waitCnt false 0 15 0 0) { mems with eng := { mems.eng with txns := [(1, ⟨0, 0, true, [4], [], [], []⟩)] } }
      (fun u => (u.thread 4).wait != .ready) := by decide +kernel

/-- The granule at offset 16 of the scratchpad is full. -/
def full : State := mems.setFull (.scratch 2 0) 1 true

theorem wit_full : full.Solo (.ldfeTake false 14 1 .cr .w32) 4 ∧ full.isFull (.scratch 2 0) 16 = true ∧
    mems.isFull (.scratch 2 0) 16 = false ∧ full.Local 4 (addrMS (full.thread 4) 1) 4 (.scratch 2 0) 16 ∧
    mems.Solo (.stfePut false 4 1 .cr .w32) 4 := by decide +kernel

theorem test_full : entry (.ldfeKeep false 14 1 .cr .w32) full [(14, 0x0201FFFE)] ∧
    does (.ldfeTake false 14 1 .cr .w32) full (fun u => !u.isFull (.scratch 2 0) 16) ∧
    does (.ldfeTake false 14 1 .cr .w32) mems (fun u => (u.thread 4).wait != .ready) ∧
    does (.stfeFill false 4 1 .cr .w8) full (fun u => u.isFull (.scratch 2 0) 16 && (u.localMem (.scratch 2 0)).read 16 == 7) ∧
    does (.stfePut false 4 1 .cr .w8) mems (fun u => u.isFull (.scratch 2 0) 16 && (u.localMem (.scratch 2 0)).read 16 == 7) ∧
    does (.stfePut false 4 1 .cr .w8) full (fun u => (u.thread 4).wait != .ready) := by decide +kernel

/-- A dirty line and a clean one in the L1 of core 0. -/
def cached : State := match exec (.st false 8 3 .w16 1) mems with
  | .next u => (match exec (.ld false 4 3 .w32 32) u with | .next u => u.setCur mems.m.cur | _ => mems)
  | _ => mems

theorem wit_fences : cached.Solo (.fenceAr false .sy) 4 ∧ ((cached.core 0).l1.map fun l => (l.key, l.line)).Nodup ∧
    cached.Solo (.fenceRel false .cl) 4 ∧ cached.Solo (.fenceAcq false .pk) 4 ∧ (cached.core 0).l1.length = 2 ∧
    2 ≤ scopeRank .cl := by decide +kernel

theorem test_fences : does (.fenceRel false .cl) cached (fun u => (u.core 0).l1.all fun l => l.dirty == []) ∧
    does (.fenceAcq false .cl) cached (fun u => (u.core 0).l1.all fun l => l.bytes.length == 2) ∧
    does (.fenceAr false .sy) cached (fun u => u.physByte (2 ^ 41 + 3) == 0xFF) := by decide +kernel

theorem wit_cctl : cached.Solo (.cctlIsync false) 4 ∧ cached.Solo (.cctlDwb false 3 .cl) 4 ∧ cached.FreshId ∧
    cached.Solo (.cctlDinv false 3 .cl) 4 ∧ cached.Solo (.cctlPfx false 3 .cl) 4 ∧ cached.Solo (.cctlDwb false 1 .cl) 4 := by decide +kernel

theorem wit_cctl_places :
    (let q := cached.newId.2.reach 4 (addrMS (cached.thread 4) 3) 1 .store;
      q.2 = .here .phys (2 ^ 41) ∧ Store.phys.isCounter = false ∧ q.1.lockedAt .phys (2 ^ 41) 128 = false) ∧
    (cached.newId.2.reach 4 (addrMS (cached.thread 4) 1) 1 .store).2 = .here (.scratch 2 0) 16 ∧
    cached.place 4 (cached.crewOf 4).core (addrMS (cached.thread 4) 1) 1 1 = .ok (.here (.scratch 2 0) 16) := by decide +kernel

theorem test_cctl : does (.cctlIsync false) (cached.modCore 0 fun c => { c with icache := [(0, 0, 0)] }) (fun u => (u.core 0).icache == []) ∧
    does (.cctlDwb false 3 .cl) cached (fun u => (((u.core 0).line hostTag (2 ^ 34)).map fun l => l.dirty) == some []) ∧
    does (.cctlDinv false 3 .cl) cached (fun u => ((u.core 0).line hostTag (2 ^ 34)).isNone) ∧
    does (.cctlPfx false 3 .cl) mems (fun u => u.eng.txns.length == 1) := by decide +kernel

/-- A load and a store in flight. -/
def flying : State := { mems with eng := { mems.eng with nextId := 3, txns := [(1, ⟨0, 0, true, [4], [⟨4, [(14, 9)]⟩], [], []⟩),
  (2, ⟨0, 0, false, [4], [], [], []⟩)] } }

theorem wit_memory_events : (Table.find? flying.eng.txns 1).isSome = true ∧ (Table.find? flying.threads 4).isSome = true ∧
    flying.eng.muted = [] ∧ (flying.eng.txns.all fun e => flying.txnDone e.2) = true ∧ flying.entriesUsed 0 0 < 256 ∧ (flying.thread 4).fork.recs = [] ∧ gives (.loadDataReturn 1) flying 14 9 ∧
    does (.storeComplete 2) flying (fun u => (Table.find? u.eng.txns 2).isNone && (Table.find? u.eng.txns 1).isSome) := by decide +kernel

/-- Thread 4 has waited at a word, whose condition holds now. -/
def waited (i : Instr) (s : State) : State := (s.modThread 4 fun th => { th with wait := .word i 0x5000 false th.v }).setCur Cur.none

theorem wit_wakes : (let s := waited (.mwait false 14 1 8 .cr .eq .w32) (regs mems [(8, 0x0201FFFE)]);
      s.issueCheck (.mwait false 14 1 8 .cr .eq .w32) 4 = none ∧ (s.thread 4).wait2 = none ∧ s.entriesUsed 0 0 < 256 ∧ (s.crewOf 4).resident = true ∧ (s.gridOf 4).status = .live ∧
      s.Local 4 (addrMS (s.thread 4) 1) 4 (.scratch 2 0) 16 ∧
      does (.mwaitWake 4) s (fun u => (u.thread 4).wait == .ready && (u.thread 4).pc == 0x5000)) ∧
    does (.fullEmptyWake 4) (waited (.ldfeKeep false 14 1 .cr .w32) full) (fun u => (u.thread 4).wait == .ready) ∧
    does (.fullEmptyWake 4) (waited (.ldfeKeep false 14 1 .cr .w32) mems) (fun u => (u.thread 4).wait != .ready) := by decide +kernel

theorem wit_memory : Memory.wf (Memory.writeAll [] 16 [0xFE, 0, 1]) = true ∧ (Memory.writeAll [] 16 [0xFE, 0, 1]).length = 2 := by
  decide +kernel

/-! ## Plates, exposures, trays and accumulators -/

/-- Slot 0 is BF16, with no scale; x2 an image of 32 ones at offset 0 of the scratchpad, x14 at offset 64, x6 a tray in host memory, v1
the geometry of one row or column, v12 that of 32 elements of F32. -/
def tiles : State :=
  let s := lrec (handler base) fun l => { l with scratch := 1, slots := l.slots.set 0 (BitVec.ofNat 64 (2 ^ 63 + 2)) }
  let s := regs s [(1, 0x10020), (2, 0), (3, 0xD1000000), (6, 0x2000), (7, 512), (8, 0x10001), (12, 0x20), (14, 64), (15, 0xD1000000)]
  s.setLocalMem (.scratch 2 0) (Memory.writeAll [] 0 (List.flatten (List.replicate 64 [0x80, 0x3F])))

/-- The twin of core 0 belongs to the team. -/
def twins : State := tiles.modTeam 2 fun t => { t with cores := [0, 1] }

/-- The checks of ranges succeed, and nothing holds the word, of whose ranges the first `reads` are read at issue. -/
def clear (s : State) (rs : List TRange) (reads : Nat) : Bool :=
  match s.rangeChecks 4 rs Cause.tileWindow with
  | .ok (r, ps) => !r.tileHeld 4 ps (ps.take reads) false && !r.slaved 0
  | .error _ => false

theorem wit_pload : tiles.Leads (.tilePload false 1 0 1) 4 ∧ (slotOf ((tiles.gridOf 4).lr.slots[0])).v = true ∧
    ploadGeom false 2 ((tiles.thread 4).rv 1) = true ∧ tiles.holdsPlate 4 = true ∧
    clear tiles [⟨(tiles.thread 4).rx 2, operandBytes 2 32, 16, .load, [some 1]⟩] 1 = true := by decide +kernel

theorem wit_ploadw : twins.Leads (.tilePloadw false 1 0 1) 4 ∧ ploadGeom true 2 ((twins.thread 4).rv 1) = true ∧
    (twins.crewOf 4).core % 2 = 0 ∧ (twins.teamOf 4).cores.contains 1 = true := by decide +kernel

/-- The plates are loaded, and the word has completed. -/
def loaded (i : Instr) (s : State) : State := match exec i s with
  | .next u => (match exec (.tileWordComplete 1) u with | .next v => { v with
      m := s.m, threads := Table.set v.threads 4 (s.thread 4) } | _ => s)
  | _ => s

theorem test_pload : does (.tilePload false 1 0 1) tiles (fun u => (u.plateAt 4 0).k == 32 && (u.plateAt 4 0).n == 1 &&
      (u.core 0).locks.length == 1) ∧
    does (.tilePloadw false 1 0 1) twins (fun u => (u.plateAt 4 0).n == 1 && (u.plateAt 4 1).k == 32 && (u.plateAt 4 1).n == 0) := by
  decide +kernel

theorem wit_expose : (let s := loaded (.tilePload false 1 0 1) tiles;
      s.Leads (.tileExpose false 7 0 3 8) 4 ∧ (s.plateAt 4 0).k ≠ 0 ∧ trayGeom ((s.thread 4).rv 8) = true ∧
      (s.plateAt 4 0).n ≤ 32 * 1 ∧ clear s [⟨(s.thread 4).rx 14, 64, 16, .load, [some 1]⟩,
        trayRange (s.thread 4) 3 ((s.thread 4).rv 8) .store] 1 = true) := by decide +kernel

/-- Thirty-two products of ones make 32.0. -/
theorem test_expose : does (.tileExpose false 7 0 3 8) (loaded (.tilePload false 1 0 1) tiles) (fun u =>
      (u.eng.tiles.flatMap fun e => e.2.trays.flatMap fun p => p.partials.map Prod.snd) == [0x42000000]) ∧
    does (.tileExposew false 7 0 3 8) (loaded (.tilePloadw false 1 0 1) (regs twins [(1, 0x20020)])) (fun u =>
      (u.eng.tiles.flatMap fun e => e.2.trays.flatMap fun p => p.partials.map Prod.snd) == [0x42000000, 0x42000000]) := by
  decide +kernel

theorem wit_cvt : tiles.Leads (.tileTcvt false 1 0 7 12) 4 ∧ tiles.Leads (.tileTdcvt false 1 0 7 12) 4 ∧
    cvtGeom 2 ((tiles.thread 4).rv 12) = true ∧
    clear tiles [⟨(tiles.thread 4).rx 2, wideBytes 0 32, 16, .load, tileWindows⟩,
      ⟨(tiles.thread 4).rx 14, operandBytes 2 32, 16, .store, tileWindows⟩] 1 = true ∧
    clear tiles [⟨(tiles.thread 4).rx 2, operandBytes 2 32, 16, .load, tileWindows⟩,
      ⟨(tiles.thread 4).rx 14, wideBytes 0 32, 16, .store, tileWindows⟩] 1 = true := by decide +kernel

/-- The bytes that the word in flight is to write. -/
def writesTo (i : Instr) (s : State) (f : List Byte → Bool) : Bool :=
  does i s fun u => f (u.eng.tiles.flatMap fun e => e.2.writes.flatMap (·.bytes))

theorem test_cvt : writesTo (.tileTdcvt false 1 0 7 12) tiles (fun b => b.take 4 == leBytes 4 0x3F800000 && b.length == 128) ∧
    writesTo (.tileTcvt false 1 0 7 12) tiles (fun b => b.take 2 == [0x80, 0x3F] && b.length == 64) := by decide +kernel

theorem wit_trays : tiles.Leads (.tileTrayz false 3 8) 4 ∧
    (match tiles.traySpots 4 ((tiles.thread 4).rv 8) [trayRange (tiles.thread 4) 3 ((tiles.thread 4).rv 8) .store] with
      | .ok _ => true
      | .error _ => false) = true ∧
    (match tiles.traySpots 4 ((tiles.thread 4).rv 8) [trayRange (tiles.thread 4) 3 ((tiles.thread 4).rv 8) .load,
        ⟨(tiles.thread 4).rx 14, 128, 16, .store, tileWindows⟩] with
      | .ok (_, ps) => ps.length == 2
      | .error _ => false) = true ∧ tiles.tilesOf 3 = [] := by decide +kernel

theorem test_trays : writesTo (.tileTrayz false 3 8) tiles (fun b => b == List.replicate 128 0) ∧
    does (.tileTrayfl false 3 8) tiles (fun u => (u.eng.tiles.flatMap fun e => e.2.flush.map Prod.snd) == [2 ^ 34 + 64]) ∧
    does (.tileTrayrd false 3 7 8) tiles (fun u => (u.eng.tiles.map fun e => (e.2.writes.length, e.2.copyOut.map fun c => (c.2.1, c.2.2))) ==
      [(0, some (.scratch 2 0, 64))]) ∧ gives (.tilePstat false 9 .dropped) tiles 9 0 := by
  decide +kernel

/-- v1 holds 1.0, v2 a configuration of one row, v4 a τ of 2.0; x6 a chain of panels in the scratchpad. -/
def accs : State :=
  regs (lrec (handler base) fun l => { l with scratch := 8 }) [(1, 0x3F800000), (2, 1), (4, 0x40000000), (6, 0), (7, 0xD1000000), (8, 1),
    (14, 0x4000), (15, 0xD1000000)]

/-- The state after a word that completes at once, back in issue. -/
def then' (i : Instr) (s : State) : State := match exec i s with
  | .next u => { u with m := s.m, threads := Table.set u.threads 4 { u.thread 4 with pc := (s.thread 4).pc } }
  | _ => s

def reset1 : State := then' (.qaccQrst false 0 2 6) accs
def block1 : State := then' (.qaccQapp false 0 1 4) reset1

theorem wit_accumulators : accs.Leads (.qaccQrst false 0 2 6) 4 ∧ accs.lanesLive 4 1 = true ∧ (0 : Nat) < (accs.gridOf 4).lr.qacc ∧
    reset1.Leads (.qaccQapp false 0 1 4) 4 ∧ (reset1.qaccOf 4 0).n ≠ 0 ∧ (reset1.qaccOf 4 0).k < 32 ∧
    ((reset1.qaccOf 4 0).append (reset1.readVec 4 1 1) ((reset1.thread 4).rv 4).toNat).2 &&& reset1.trapen 4 = 0 := by decide +kernel

theorem test_accumulators : does (.qaccQrst false 0 2 6) accs (fun u => (u.qaccOf 4 0).n == 1) ∧
    does (.qaccQapp false 0 1 4) reset1 (fun u => (u.qaccOf 4 0).k == 1) ∧ gives (.qaccQcnt false 0 9) block1 9 0x10001 ∧
    does (.qaccQclr false 0) block1 (fun u => (u.qaccOf 4 0).k == 0 && (u.qaccOf 4 0).n == 1) ∧
    does (.qaccQspill false 0) reset1 (fun u => u.eng.tiles.length == 0) := by decide +kernel

theorem wit_images : block1.Leads (.qaccQspill false 0) 4 ∧ (block1.qaccOf 4 0).k ≠ 0 ∧ (block1.qaccOf 4 0).pc < 15 ∧
    clear block1 [(block1.qaccOf 4 0).panelRange 0 .store] 0 = true ∧
    clear block1 [⟨(block1.thread 4).rx 14, imageBytes, 16, .store, panelWindows⟩] 0 = true := by decide +kernel

theorem wit_reflectors : reset1.Leads (.qaccQgen false 0 10 1) 4 ∧ (reset1.qaccOf 4 0).base + (reset1.qaccOf 4 0).k < 1 ∧
    (qgen 1 0 (reset1.readVec 4 1 1)).2.2.2 &&& reset1.trapen 4 = 0 ∧ block1.Leads (.qaccQaplReg false 0 10 1) 4 ∧
    (applyQ 1 false (block1.qaccOf 4 0).block [] (block1.readVec 4 1 1)).2 &&& block1.trapen 4 = 0 := by decide +kernel

/-- With one row of 1.0 and τ = 2.0, Q = I - τ v v' takes 1.0 to -1.0; the reflector of a column that is 1.0 has
β = -1.0 and τ = 2.0. -/
theorem test_reflectors : gives (.qaccQaplReg false 0 10 1) block1 10 0xBF800000 ∧ gives (.qaccQapltReg false 0 10 1) block1 10 0xBF800000 ∧
    gives (.qaccQaprReg false 0 10 1) block1 10 0xBF800000 ∧ gives (.qaccQaprtReg false 0 10 1) block1 10 0xBF800000 ∧
    gives (.qaccQgen false 0 10 1) reset1 11 0x40000000 := by decide +kernel

/-- A tile of one column at offset 0x4000 of the scratchpad holds 1.0. -/
def tile1 : State := block1.setLocalMem (.scratch 2 0) (Memory.writeAll [] 0x4000 (leBytes 4 0x3F800000))

theorem wit_tile_forms : tile1.Leads (.qaccQaplTile false 0 7 8) 4 ∧ ((tile1.thread 4).rv 8).toNat = 1 ∧
    clear tile1 [⟨(tile1.thread 4).rx 14, 4, 16, .store, [some 1]⟩] 1 = true := by decide +kernel

theorem test_tile_forms : writesTo (.qaccQaplTile false 0 7 8) tile1 (· == leBytes 4 0xBF800000) ∧
    writesTo (.qaccQapltTile false 0 7 8) tile1 (· == leBytes 4 0xBF800000) ∧
    writesTo (.qaccQaprTile false 0 7 8) tile1 (· == leBytes 4 0xBF800000) ∧
    writesTo (.qaccQaprtTile false 0 7 8) tile1 (· == leBytes 4 0xBF800000) := by decide +kernel

/-! ## Copies and transfers -/

/-- x4, x6 are a source at offset 0 of the scratchpad and a destination in host memory, in the quad y4; v8 a length of 16 in the quad y8
whose words are a geometry of one row of 16 bytes at barrier 1; y12 a transfer of 16 bytes; y16 a selector of peer 1. -/
def copies : State :=
  let s := lrec (handler base) fun l => { l with scratch := 1, counters := 2 }
  let s := regs s [(4, 0), (5, 0xD1000000), (6, 0), (7, 512), (8, 16), (9, 0x1000001), (12, 0), (13, 0xD1000000), (15, 16), (16, 1),
    (20, 0), (21, 0xD2000000), (22, 32), (23, 0xD1000000), (24, 8), (25, 0xD4000000), (26, 3), (28, 16), (29, 1)]
  (s.modGrid 1 fun g => { g with counters := some [(1, ⟨2, 1⟩)] }).modFab fun f => { f with groups := [(2, ⟨0, [1, 3]⟩)] }

theorem wit_copies : copies.copyFull 4 = false ∧ copies.Leads (.xferCopy false 10 4 8) 4 ∧
    copies.xChecks 4 [⟨quadPair (copies.thread 4) 4 false, 16, 16, .load, copyWindows⟩,
      ⟨quadPair (copies.thread 4) 4 true, 16, 16, .store, copyWindows⟩] = none ∧
    copyGeomOk (copies.thread 4) 28 false = true ∧ copyGeomOk (copies.thread 4) 8 true = true ∧
    copies.inShare 4 ⟨quadPair (copies.thread 4) 20 false, 16, 16, .load, [some 2]⟩ = true ∧
    copyGeomOk (copies.thread 4) 12 false = false ∧ copies.Solo (.xferCopy2d false 10 4 12) 4 ∧ (copies.thread 4).handles := by
  decide +kernel

theorem test_copies : does (.xferCopy false 10 4 8) copies (fun u => u.eng.copies.map (fun e => (e.2.width, e.2.rows)) == [(16, 1)]) ∧
    does (.xferCopy2d false 10 4 28) copies (fun u => u.eng.copies.map (fun e => e.2.halo) == [none]) ∧
    does (.xferHalo false 10 20 8) copies (fun u => u.eng.copies.map (fun e => e.2.halo) == [some (1, 0)]) ∧
    trapsAt (.xferCopy false 10 4 16) copies Cause.copyGeometry := by decide +kernel

theorem wit_transfers : copies.copyFull 4 = false ∧ xferGeomOk (copies.thread 4) 12 16 false = true ∧
    copies.xChecks 4 [⟨quadPair (copies.thread 4) 12 false, 16, 16, .load, copyWindows⟩] = none ∧
    copies.Leads (.xferBxfer false 10 12 16) 4 ∧ ratomSelOk (copies.thread 4) 8 = true ∧ copies.Leads (.xferRatom false 10 8 .add32) 4 := by
  decide +kernel

theorem wit_multicast : (let s := regs copies [(16, 2), (18, 0), (19, 512)];
    xferGeomOk (s.thread 4) 12 16 true = true ∧ s.xChecks 4 [⟨quadPair (s.thread 4) 12 false, 16, 16, .load, copyWindows⟩] = none ∧
      s.xChecks 4 [⟨quadPair (s.thread 4) 16 true, 8, 4, .store, [none, some 1]⟩] = none ∧
      does (.xferBxmc false 10 12 16) s (fun u => u.eng.xfers.map (fun e => e.2.members.map (·.peer)) == [[1, 3]]) ∧
      does (.xferBxmcOne false 10 12 16) s (fun u => u.eng.xfers.map (fun e => e.2.one) == [some 4])) := by decide +kernel

theorem test_transfers : does (.xferBxfer false 10 12 16) copies (fun u => u.eng.xfers.map (fun e => e.2.members.map (·.peer)) == [[1]]) ∧
    does (.xferBxferOne false 10 12 16) copies (fun u => u.eng.xfers.map (fun e => e.2.one) == [some 4]) ∧
    does (.xferRatom false 10 8 .add32) copies (fun u => u.eng.ratoms.map (fun e => e.2.lanes.map fun l => (l.peer, l.off)) == [[(1, 0)]]) := by
  decide +kernel

theorem wit_counters : copies.counterAt 4 ((copies.thread 4).rx 24) .store matches .ok (1, 1) ∧ ((copies.grid 1).counters).isSome = true ∧
    copies.Leads (.xferArmc false 24 26) 4 ∧ copies.Leads (.xferAcwait false 10 24) 4 ∧
    (copies.counter 1 1).target.toNat ≤ (copies.counter 1 1).value.toNat ∧ windowOf ((copies.thread 4).rx 6) = none ∧
    canonical ((copies.thread 4).rx 6) = true := by decide +kernel

theorem test_counters : does (.xferArmc false 24 26) copies (fun u => u.counter 1 1 == ⟨2, 3⟩) ∧
    does (.xferArmcZ false 24 26) copies (fun u => u.counter 1 1 == ⟨0, 3⟩) ∧ gives (.xferAcwait false 10 24) copies 10 2 ∧
    does (.xferAcwait false 10 24) (then' (.xferArmc false 24 26) copies) (fun u => (u.thread 4).wait != .ready) ∧
    trapsAt (.xferArmc false 6 26) copies Cause.transferWindow := by decide +kernel

/-! ## System words -/

/-- Image 7 and receipt 9 are held; x2 names grid 1 of key 0, x4 a page of device memory and x6 its length. -/
def system : State :=
  let s := regs (handler base) [(2, 0), (3, 1), (4, 0x1000), (6, 0x1000), (8, 7), (9, 9), (10, 1), (12, 0), (13, 512), (14, 0x80000002),
    (16, 0), (17, 0x40000000), (20, 0xFFF), (22, 5), (24, 0xC01), (26, 64), (30, 0x2000)]
  { s.setPhys (2 ^ 41) (record 0 0) with fixer := { s.fixer with images := [(7, ⟨0, 0, [], State.reset.ctxidOf 0, State.reset.sealOf 0, 5⟩)] } }

theorem wit_sys_reads : system.SysSolo (.sysCsrr false 40 0x8B8) 4 ∧ csrGrants 0x8B8 (system.gridOf 4).seat false = true ∧
    owner.SysSolo (.sysCtrrd false 40 4 6) 4 ∧ (owner.gridOf 4).seat ≠ .operator := by decide +kernel

theorem test_sys_reads : gives (.sysSeatq false 40) system 40 0x304 ∧ gives (.sysFeatq false 40) system 40 0x1FF ∧
    gives (.sysCsrr false 40 0x8B8) system 40 2400 ∧ gives (.sysCtrrd false 40 2 6) (regs owner [(2, 5), (6, 0xC01)]) 40 0 ∧
    does (.sysCtxrd false 40 2 6) ((regs owner [(2, 5), (3, 1), (6, 0), (7, 0x40000000)]).modGrid 1 fun g => { g with status := .halted 9 })
      (fun u => (u.thread 4).rx 40 == (owner.thread 4).pc) ∧
    trapsAt (.sysCsrr false 40 0x8B8) (handler owner) Cause.seatDenied ∧
    trapsAt (.sysCtrrd false 40 2 6) system Cause.seatDenied := by decide +kernel

theorem wit_csr_values : (system.thread 4).stack.length < 2 ^ 16 ∧ (system.thread 4).retired.toNat < 2 ^ 64 := by decide +kernel

theorem wit_csr_writes : system.SysSolo (.sysCsrw false 10 0x000) 4 ∧ csrGrants 0x820 .operator true = true ∧
    csrGrants 0x410 .owner true = true ∧ csrGrants 0x410 .operator true = false ∧ owner.SysSolo (.sysCsrw false 4 0x7FF) 4 ∧
    rxOk (owner.rxMap 5 31) true 0x1000 = true ∧ owner.rxBusy 5 31 = false ∧ (owner.ctx? 5).isSome = true := by decide +kernel

theorem test_csr_writes : does (.sysCsrw false 22 0x000) system (fun u => (u.thread 4).fstat == 5) ∧
    trapsAt (.sysCsrw false 4 0x000) system Cause.reservedField ∧
    does (.sysCsrw false 4 0x021) system (fun u => (u.thread 4).trap.tepc == 0x1000) ∧
    does (.sysCsrw false 20 0x820) system (fun u => u.ctl.alarmPol == 0xFFF) ∧
    does (.sysCsrw false 22 0x802) system (fun u => u.fab.freply == 5) ∧
    trapsAt (.sysCsrw false 4 0x410) system Cause.seatDenied ∧
    does (.sysCsrw false 4 0x410) (regs owner [(4, 0x1000)]) (fun u => ((u.ctx? 5).map fun c => c.flog.base) == some 0x1000) ∧
    does (.sysCsrw false 4 0x7FF) (regs owner [(4, 0x1000)]) (fun u => (u.rxMap 5 31).l == 0x1000) := by decide +kernel

theorem wit_operator : system.SysSolo (.sysPlace false 40 12 10 true) 4 ∧ system.fixerReady = true ∧
    (match system.fixerReads 0 ((system.thread 4).rx 12) with
      | (r, .ok (h, b)) => ((r.checkRecord .place (clustersOf 1) h b).2 matches .ok _)
      | _ => false) = true ∧
    placeHeld system true ((system.thread 4).rx 8) = false ∧ (system.ctx? 0).isSome = true ∧
    system.gridById 0 1 = some 1 ∧ (system.grid 1).status = .live ∧ (system.grid 1).armed = none := by decide +kernel

theorem test_place : does (.sysPlace false 40 12 10 true) system (fun u => (u.thread 4).rv 40 == 1 && (u.grid 5).replay &&
      (u.grid 5).clusters == [0] && u.fixer.nextGridId == 2) ∧
    gives (.sysPlaceRs false 40 22 10 false) system 41 Cause.contextAbsent ∧
    does (.sysPlaceRs false 40 8 10 false) system (fun u => (Table.find? u.fixer.images 7).isNone) := by decide +kernel

theorem test_stops : does (.sysPreempt false 40 2) system (fun u => (u.grid 1).status == .stopping 1 && u.eng.sys.length == 1) ∧
    gives (.sysPreempt false 40 22) system 41 Cause.contextAbsent ∧
    does (.sysPreemptAt false 40 2 4) system (fun u => (u.grid 1).armed == some (0x1000, 1)) ∧
    gives (.sysReset false 40 22) system 41 Cause.contextAbsent ∧
    does (.sysReset false 40 22) { system with ctxs := Table.set system.ctxs 5 (Ctx.create (.owner 5 0) 3 0 [] 0 5) }
      (fun u => u.eng.sys.map (fun e => e.2.kind) == [.reset 5]) ∧
    does (.sysScrub false 40 4 6) system (fun u => u.eng.sys.map (fun e => e.2.kind) == [.scrub 0x1000 0x1000]) := by decide +kernel

theorem wit_checkpoint : system.SysSolo (.sysCkpt false 40 8 10) 4 ∧ 2 ≤ system.consentOf 0 ∧ system.flashUsable 1 = true ∧
    does (.sysCkpt false 40 8 10) system (fun u => u.eng.sys.map (fun e => e.2.kind) == [.ckpt 7 1]) ∧
    does (.sysCkptRs false 40 22 10) system (fun u => u.eng.sys.map (fun e => e.2.kind) == [.ckptRs 5 1]) ∧
    gives (.sysCkpt false 40 22 10) system 41 Cause.contextAbsent := by decide +kernel

theorem wit_groups : system.SysSolo (.sysMgset false 14 12) 4 ∧ windowOf ((system.thread 4).rx 12) = none ∧
    does (.sysMgset false 14 12) system (fun u => ((Table.find? u.fab.groups 2).map (·.members)) == some [0, 52, 64, 80, 96, 112, 192, 224, 256, 320, 455, 456, 457]) ∧
    does (.sysMgset false 14 12) (regs system [(14, 2)]) (fun u => (Table.find? u.fab.groups 2).isNone) ∧
    trapsAt (.sysRcpt false 40 12 9 false) system Cause.receiptAbsent := by decide +kernel

theorem wit_traps : system.SysSolo (.sysTrap false 0xFFF 15) 4 ∧ (system.thread 4).handles ∧ system.attached 4 = false ∧
    base.SysSolo (.sysTrap false 0 0) 4 ∧ (base.thread 4).trap.tvec = 0 ∧ (base.gridOf 4).status = .live ∧
    system.SysSolo (.sysBpset false 7 4 0) 4 ∧ bpOk ((system.thread 4).rx 4) ((system.thread 4).rv 0) = true ∧
    system.bpBusy (system.teamOf 4).cores 7 (system.gridOf 4).key = false := by decide +kernel

theorem test_traps : trapsAt (.sysTrap false 0xFFF 15) system 0x15F ∧ trapsAt (.sysBrk false 7) system 0x141 ∧
    does (.sysTrap false 0 0) base (fun u => (u.thread 4).halted) ∧
    does (.sysBrk false 7) (system.modCtx 0 fun c => { c with att := true }) (fun u => (u.crew 3).held == some .brk) ∧
    trapsAt (.sysTret false) system Cause.tretOutside ∧
    does (.sysTret false) (then' (.sysTrap false 0 0) system) (fun u => (u.thread 4).pc == (system.thread 4).pc + 4 &&
      !(u.thread 4).trap.inh) ∧
    does (.sysBpset false 7 4 0) system (fun u => ((Table.find? (u.core 0).comps 7).map (·.addr)) == some 0x1000) ∧
    does (.sysBpclr false 7) (then' (.sysBpset false 7 4 0) system) (fun u => (Table.find? (u.core 0).comps 7).isNone) := by decide +kernel

/-! ## Events -/

/-- The state after an instruction. -/
def ran (i : Instr) (s : State) : State := match exec i s with
  | .next u => u
  | _ => s

/-- Thread 4 has waited 4,096 cycles and is marked since cycle 0, and its precedence is to become 3. -/
def lingering (others : List Nat) : State :=
  (base.modThread 4 fun th => { th with waitCnt := 4096, mark := some (0, others), precNext := some 3 }).modCtx 0 fun c =>
    { c with stall := 2 ^ 24 }

/-- Two threads of crew 3 are held in its arrival set at one word, and one of them has moved on. -/
theorem wit_arrival : (let s := two.modCrew 3 fun c => { c with arrival := some ([4, 5], [4, 5]) };
      let same := s.modThread 4 fun th => { th with pc := (s.thread 5).pc };
      (same.thread 4).pc = (same.thread 5).pc ∧ does .issueCycle same (fun u => (u.thread 4).pc == (same.thread 4).pc)) := by decide +kernel

theorem wit_gatherer : does .issueCycle (lingering []) (fun u => u.cycle == 1 && (u.thread 4).prec == 3) ∧
    does (.starvation 4) (lingering []) (fun u => (u.thread 4).starving) ∧ does (.starvation 4) base (fun u => !(u.thread 4).starving) ∧
    does (.yieldMarkExpire 4) (lingering []) (fun u => (u.thread 4).mark == none) ∧
    does (.yieldMarkExpire 4) (lingering [5]) (fun u => (u.thread 4).mark == some (0, [5])) ∧
    does (.yieldMarkExpire 4) { lingering [5] with cycle := 64 } (fun u => (u.thread 4).mark == none) ∧
    does (.stallNotice 0) (lingering []) (fun u => ((u.ctx? 0).map fun c => (c.stall, c.noticed)) == some (0, true)) ∧
    does (.stallNotice 0) (base.modCtx 0 fun c => { c with stall := 2 ^ 24 - 1 }) (fun u =>
      ((u.ctx? 0).map fun c => (c.stall, c.noticed)) == some (2 ^ 24 - 1, false)) := by decide +kernel

/-- An exposure in flight, item 2, whose one partial of 32.0 goes to the first line of the tray. -/
def exposed : State := ran (.tileExpose false 7 0 3 8) (loaded (.tilePload false 1 0 1) tiles)

/-- The exposure after its merge. -/
def merged : State := ran (.trayMerge 2 (2 ^ 34 + 64)) exposed

theorem wit_merge : (exposed.eng.tiles.map fun e => (e.1, e.2.trays.map fun p => (p.line, p.partials))) =
      [(2, [(2 ^ 34 + 64, [(2 ^ 41 + 0x2000, 0x42000000)])])] ∧
    (exposed.eng.tiles.all fun e => !exposed.mergeWaits 2 e.2 (2 ^ 34 + 64) && (exposed.mergeFill 0 0 (2 ^ 34 + 64)).2) = true ∧
    (match (merged.die 0).line hostTag (2 ^ 34 + 64) with
      | some l => l.held && l.bytes.getAll (2 ^ 41 + 0x2000) 4 == some [0, 0, 0, 0x42]
      | none => false) = true := by decide +kernel

theorem wit_merge_fails : (let s := exposed.modCtx 0 fun c => { c with quarantined := true };
    does (.trayMerge 2 (2 ^ 34 + 64)) s (fun u => (u.eng.tiles.map fun e => (e.2.trays.length, e.2.failed)) ==
      [(0, some (BitVec.ofNat 64 (2 ^ 41 + 0x2000)))])) := by decide +kernel

theorem wit_completion : does (.tileWordComplete 2) exposed (fun u => u.eng.tiles.length == 1) ∧
    does (.qaccWordComplete 2) merged (fun u => u.eng.tiles.length == 1) ∧
    does (.tileWordComplete 2) merged (fun u => u.eng.tiles.length == 0 && (u.core 0).locks.length == 0) ∧
    (let s := ran (.tileTdcvt false 1 0 7 12) tiles;
      does (.tileWordComplete 1) s (fun u => (u.localMem (.scratch 2 0)).readAll 64 8 == [0, 0, 0x80, 0x3F, 0, 0, 0x80, 0x3F])) ∧
    (let s := ran (.qaccQaplTile false 0 7 8) tile1;
      s.eng.tiles.map (·.2.qacc) = [true] ∧ does (.qaccWordComplete 1) s (fun u => u.eng.tiles.length == 0 &&
        (u.localMem (.scratch 2 0)).readAll 0x4000 4 == leBytes 4 0xBF800000)) := by decide +kernel

/-- A copy of sixteen bytes, item 1, and the same after an engine has accepted it. -/
def copying : State := ran (.xferCopy false 10 4 8) copies
def accepted : State := ran (.xferCommandAccept 1) copying

theorem wit_copy : copying.eng.copies.map (fun e => (e.1, e.2.accepted, e.2.sectors)) = [(1, false, 1)] ∧
    accepted.eng.copies.map (fun e => (e.1, e.2.accepted)) = [(1, true)] ∧
    does (.copySectorComplete 1 0) accepted (fun u => u.eng.copies.length == 0 && (u.thread 4).rx 10 == BitVec.ofNat 64 (2 ^ 42 + 16)) ∧
    (let s := regs copies [(8, 4096)];
      does (.copySectorComplete 1 1) (ran (.xferCommandAccept 1) (ran (.xferCopy false 10 4 8) s)) (fun u =>
        u.eng.copies.map (fun e => e.2.done) == [[1]])) := by decide +kernel

/-- A transfer to peer 1, item 1, that an engine has accepted. -/
def sent : State :=
  let s := ran (.xferBxfer false 10 12 16) copies
  { s with eng := { s.eng with xfers := s.eng.xfers.map fun e => (e.1, { e.2 with accepted := true }) } }

/-- The one transfer's number. -/
def xid : Nat := copies.fab.nextXid

theorem wit_one_xfer : sent.eng.xfers.map (fun e => (e.1, e.2.members, e.2.xid)) = [(1, [⟨1, sent.incOf 1, none⟩], xid)] ∧
    sent.eng.ratoms = [] ∧ (sent.eng.xfers.all fun e => e.2.accepted && e.2.srcFail == none && !e.2.mc) = true ∧
    (sent.eng.xfers.map fun e => sent.opTakers e.2.crew e.2.one) = [[4]] ∧ sent.eng.muted = [] ∧ sent.Takes 4 := by decide +kernel

/-- x10 of thread 4 after an event that ends the transfer. -/
def word10 (i : Instr) (s : State) (v : DWord) : Bool := does i s fun u => u.eng.xfers.length == 0 && (u.thread 4).rx 10 == v

/-- The tag of a completion from peer 1 in an incarnation, for a transfer of this package. -/
def back (inc x : Nat) : FabricTag := ⟨⟨0, 0, x⟩, 1, ⟨inc, sent.ownInc⟩⟩

/-- A reply with that tag. -/
def replied (inc : Nat) (pos : Bool) (cause bytes : Nat) : Instr := .transferReply (back inc xid).req 1 (back inc xid).incs pos cause bytes

theorem wit_replies : word10 (replied (sent.incOf 1) true 0 16) sent (BitVec.ofNat 64 (2 ^ 53 + 16)) ∧
    word10 (replied (sent.incOf 1) false 5 8) sent (BitVec.ofNat 64 (2 ^ 42 + 5 * 2 ^ 32 + 8)) ∧
    does (replied (sent.incOf 1 + 1) true 0 16) sent (fun u => u.fab.stale == 1 && u.eng.xfers.length == 1) ∧
    does (.packetWriteCompletion (back (sent.incOf 1) xid) false 0 true) sent (fun u => u.eng.xfers.map (fun e => e.2.acks) == [[(1, 0, true)]]) ∧
    does (.packetWriteCompletion (back (sent.incOf 1) xid) false 0 true) (ran (.packetWriteCompletion (back (sent.incOf 1) xid) false 0 true) sent)
      (fun u => u.eng.xfers.map (fun e => e.2.acks) == [[(1, 0, true)]]) ∧
    does (.packetWriteCompletion (back (sent.incOf 1 + 1) xid) true 0 true) sent (fun u => u.fab.stale == 1) ∧
    does (.replyBoundExpire xid 1) { sent with cycle := sent.fab.freply.toNat * 1024 - 1 } (fun u => u.eng.xfers.length == 1) ∧
    word10 (.replyBoundExpire xid 1) { sent with cycle := sent.fab.freply.toNat * 1024 } (negativeStatus Cause.replyTimeout 0) ∧
    word10 (.replyBoundExpire xid 1) { ran (.packetWriteCompletion (back (sent.incOf 1) xid) false 0 true) sent with
      cycle := sent.fab.freply.toNat * 1024 } (negativeStatus Cause.replyTimeout 16) ∧
    word10 (.xferCommandAccept 1) (ran (.xferBxfer false 10 12 16) copies) (negativeStatus Cause.replyTimeout 0) := by decide +kernel

/-- An atomic to peer 1, item 1, that an engine has accepted. -/
def atomic : State :=
  let s := ran (.xferRatom false 10 8 .add32) copies
  { s with eng := { s.eng with ratoms := s.eng.ratoms.map fun e => (e.1, { e.2 with accepted := true }) } }

/-- The number of the atomic's one lane. -/
def lane0 : Nat := (atomic.eng.ratoms.flatMap fun e => e.2.lanes.map fun l => l.xid).headD 0

theorem wit_ratom : atomic.eng.ratoms.map (fun e => e.2.lanes.map fun l => (l.thread, l.lane, l.reply)) = [[(4, 0, none)]] ∧
    does (.ratomReply (back (sent.incOf 1) lane0) true 0 7) atomic (fun u => u.eng.ratoms.length == 0 && (u.thread 4).rv 10 == 7) ∧
    does (.ratomReply (back (sent.incOf 1) lane0) false Cause.mappingDenied 0) atomic (fun u => (u.thread 4).pc == 64 &&
      (u.thread 4).trap.tcause.toNat == Cause.mappingDenied && (u.thread 4).trap.tepc == (copies.thread 4).pc + 4) := by decide +kernel

/-- A second atomic of the thread to the same address waits for the first one's reply. -/
theorem wit_ratom_order : (let s := { atomic with eng := { atomic.eng with ratoms := atomic.eng.ratoms.flatMap fun e =>
      [e, (e.1 + 5, { e.2 with accepted := false })] } };
    (match Table.find? s.eng.ratoms 6 with
      | some o => s.ratomWaits 6 o
      | none => false) = true ∧ does (.xferCommandAccept 6) s (fun u => u.eng == s.eng)) := by decide +kernel

/-- The fabric is on, peer 1 is in incarnation 7, context 0 holds domain 9, and its mapping 2 is 4,096 bytes of host memory for writes
and atomics; one transfer to peer 1 is in flight. -/
def fabric : State :=
  (sent.modFab fun f => { f with en := true, peerv := [1], incs := [(1, 7)], domains := [(0, 0x80000009)], up := [0, 3] }).modCtx 0
    fun c => { c with rx := [(2, ⟨BitVec.ofNat 64 (2 ^ 41 + 0x8007), 0x1000, none⟩)] }

/-- A packet of four bytes for offset 0x10 of mapping 2, and an atomic there. -/
def packet : FabricPacket := ⟨0, 7, fabric.ownInc, 1, 9, 2, 3, 0x10, 0, 1, [1, 2, 3, 4], false, 0, 0⟩
def fadd : FabricAtomic := ⟨7, fabric.ownInc, 1, 9, 2, 3, 0x10, .add32, 5⟩

/-- What has left through the outbox after an event. -/
def out (i : Instr) (s : State) (l : List Out) : Bool := does i s fun u => u.m.out == s.m.out ++ l

/-- The tag of a completion of kind k that this package sends to peer 1, for transfer 3 into a mapping. -/
def told (k map : Nat) : DWord := fabric.backTag k 1 9 map 3

theorem wit_arrivals : out (.transferPacketArrival packet) fabric [.written 1 (told 0 2) 0 true, .reply 1 (told 3 2) 0 4] ∧
    does (.transferPacketArrival packet) fabric (fun u => u.physBytes (2 ^ 41 + 0x8010) 4 == [1, 2, 3, 4]) ∧
    out (.transferPacketArrival { packet with map := 3 }) fabric [.written 1 (told 0 3) 0 false, .reply 1 (told 4 3) Cause.mappingDenied 0] ∧
    out (.transferPacketArrival { packet with base := 0xFFD }) fabric [.written 1 (told 0 2) 0 false, .reply 1 (told 4 2) Cause.mappingBound 0] ∧
    out (.transferPacketArrival { packet with base := 0xFFC }) fabric [.written 1 (told 0 2) 0 true, .reply 1 (told 3 2) 0 4] ∧
    does (.transferPacketArrival { packet with dinc := 1 }) fabric (fun u => u.fab.stale == 1 && u.m == fabric.m) ∧
    does (.transferPacketArrival { packet with data := List.replicate 257 0 }) fabric (fun u => u.fab.dropped == 1 && u.m == fabric.m) ∧
    does (.transferPacketArrival { packet with kind := 2 }) fabric (fun u => u.fab.dropped == 1 && u.m == fabric.m) ∧
    does (.transferPacketArrival packet) sent (fun u => u.m == sent.m && u.fab == sent.fab) := by decide +kernel

/-- The packet again, and the packet while a range lock holds what it writes. -/
theorem wit_repeats : (let s := ran (.transferPacketArrival packet) fabric;
      s.isRepeat packet = true ∧ does (.transferPacketArrival packet) s (fun u => u.m == s.m && u.mem == s.mem)) ∧
    (let s := fabric.modCore 0 fun c => { c with locks := [⟨1, .phys, [(2 ^ 41 + 0x8000, 64)]⟩] };
      (match s.agentPut 0 (2 ^ 41 + 0x8010) [1, 2, 3, 4] with
        | .held => true
        | _ => false) = true ∧
      does (.transferPacketArrival packet) s (fun u => u.mem == s.mem && u.m.out == s.m.out && u.eng.heldPkts.length == 1)) := by
  decide +kernel

theorem wit_remote_atomic : out (.remoteAtomicArrival fadd) (fabric.setPhys (2 ^ 41 + 0x8010) [9]) [.atomReply 1 (told 3 2) 0 9] ∧
    does (.remoteAtomicArrival fadd) (fabric.setPhys (2 ^ 41 + 0x8010) [9]) (fun u => u.physBytes (2 ^ 41 + 0x8010) 2 == [14, 0]) ∧
    (fabric.engineHeld (2 ^ 41 + 0x8010) 4 = false) ∧
    out (.remoteAtomicArrival { fadd with map := 1 }) fabric [.atomReply 1 (told 4 1) Cause.mappingDenied 0] := by decide +kernel

/-- Incarnation 7 of peer 1 is that of the transfer in flight. -/
def fabric7 : State :=
  { fabric with eng := { fabric.eng with xfers := fabric.eng.xfers.map fun e => (e.1, { e.2 with members := [⟨1, 7, none⟩] }) } }

theorem wit_peers : word10 (.incarnationAnnouncement 1 8) fabric7 (negativeStatus Cause.peerReset 0) ∧
    does (.incarnationAnnouncement 1 8) fabric7 (fun u => u.incOf 1 == 8) ∧
    word10 (.stationUpOrDown 3 false) (fabric7.modFab fun f => { f with up := [3] }) (negativeStatus Cause.replyTimeout 0) ∧
    does (.stationUpOrDown 3 false) fabric7 (fun u => u.fab.up == [0] && u.eng.xfers.length == 1) ∧
    (let s := { fabric7 with eng := { fabric7.eng with xfers := fabric7.eng.xfers.map fun e => (e.1, { e.2 with flying := [(1, 3, packet)] }) } };
      out (.stationUpOrDown 3 false) s [.packet 1 0 (packetTag packet) packet]) ∧
    does (.stationUpOrDown 47 true) fabric7 (fun u => u.fab.up.contains 47) := by decide +kernel

theorem wit_flits : does (.ualinkFlitReceive 3 true true) (fabric.modFab fun f => { f with fails := [(3, 2)] }) (fun u => u.fab.fails == []) ∧
    does (.ualinkFlitReceive 3 true false) fabric (fun u => u.fab.dropped == 1) ∧
    does (.ualinkFlitReceive 3 false true) (fabric.modFab fun f => { f with fails := [(3, 1)] }) (fun u => u.fab.fails == [(3, 2)]) ∧
    does (.ualinkFlitReceive 3 false true) (fabric.modFab fun f => { f with fails := [(3, 2)] }) (fun u => u.fab.up == [0] && u.fab.downs == 1) ∧
    does (.ualinkFlitReceive 1 false true) fabric (fun u => u.fab == fabric.fab) := by decide +kernel

theorem wit_fabric : does .fabricEnable { sent with trust := { sent.trust with inc := 255 } } (fun u => u.fab.en && u.trust.inc == 0) ∧
    out .fabricEnable (sent.modFab fun f => { f with peerv := [1] }) [.announce 1 (fabricTag 5 1 (sent.incOf 1) sent.fab.peerId 0 0 0)] ∧
    does .fabricEnable (sent.modFab fun f => { f with joined := true }) (fun u => u.fab.en && u.trust.inc == 0) ∧
    does (.domainTableWrite 2047 0xFFFFFFFF) fabric (fun u => Table.find? u.fab.domains 2047 == some 0x8000FFFF) ∧
    does (.domainTableWrite 5 0x80000009) fabric (fun u => Table.find? u.fab.domains 5 == none) ∧
    does (.domainTableWrite 2048 0x80000001) fabric (fun u => u.fab == fabric.fab) := by decide +kernel

/-- A command of 64 bytes: its kind, its SEQ, its record and where its completion goes. -/
def command (kind seq record done clust : Nat) : List Byte :=
  [(0, 1, kind), (8, 8, seq), (16, 8, record), (24, 8, done), (32, 4, clust)].foldl (fun b e => putAt b e.1 e.2.1 e.2.2)
    (List.replicate 64 0)

/-- Queue 3 has a ring of sixteen entries at 2^41, and the commands of a list wait in it from entry 15 on; the record of a grid stands
4,096 bytes further. -/
def ring (cmds : List (List Byte)) : State :=
  let s := (base.setPhys (2 ^ 41 + 0x1000) (record 0 0)).setPhys (2 ^ 41 + 15 * 64) (cmds.headD [])
  s.setQueue 3 { Queue.reset with base := BitVec.ofNat 64 (2 ^ 41), size := 16, en := true, head := 15, tail := 15, clust := 1, qseq := 6 }

/-- The ring after its doorbell. -/
def rung (c : List Byte) : State := ran (.queueDoorbell 3 16) (ring [c])

/-- What a ring holds of its one command after the doorbell: its SEQ and its result. -/
def held (c : List Byte) : List (Nat × Option (Nat × Bool × Word)) := ((rung c).queue 3).cmds.map fun c => (c.seq, c.result)

theorem wit_ring : held (command 0 6 0 0 0) = [(6, none)] ∧ held (command 3 6 0 0 0) = [(6, some (Cause.launch 12, false, 0))] ∧
    ((rung (command 0 6 0 0 0)).queue 3).qseq = 7 ∧ ((rung (command 0 6 0 0 0)).queue 3).head = 16 ∧
    ((rung (command 0 5 0 0 0)).queue 3).stopped = true ∧ ((rung (command 3 6 0 0 0)).queue 3).stopped = true ∧
    (let s := (ring []).modFab fun f => { f with held := [.railsStable] };
      does (.queueDoorbell 3 16) s (fun u => u.fab.held == [.railsStable, .queueDoorbell 3 16] && u.queues == s.queues)) := by decide +kernel

theorem wit_restart : (let s := ran (.queueRestart 3) (rung (command 3 6 0 0 0)); (s.queue 3).stopped = false) ∧
    (let s := base.setQueue 3 { Queue.reset with stopped := true };
      does (.queueRestart 3) s (fun u => (u.queue 3).stopped == false) ∧ does (.queueDoorbell 3 9) s (fun u => (u.queue 3).tail == 9)) := by
  decide +kernel

/-- Commands wait in queue 3. -/
def queued (l : List Cmd) : State := (ring []).setQueue 3 { (ring []).queue 3 with cmds := l }

/-- A command as it is read. -/
def cmd (kind seq : Nat) : Cmd := ⟨seq, kind, false, 0, 0, 0, false, none, none⟩

theorem wit_commands : does (.commandNop 3) (queued [cmd 0 6]) (fun u => (u.queue 3).cmds.map (fun c => c.result) == [some (0, false, 0)]) ∧
    does (.commandNop 3) (queued [cmd 2 6]) (fun u => (u.queue 3).cmds == [cmd 2 6]) ∧
    does (.commandFence 3) (queued [cmd 2 6]) (fun u => (u.queue 3).cmds.map (fun c => c.result) == [some (0, false, 0)]) ∧
    does (.commandFence 3) (queued [{ cmd 1 5 with started := true }, cmd 2 6]) (fun u =>
      (u.queue 3).cmds.map (fun c => (c.started, c.result)) == [(true, none), (true, none)]) := by decide +kernel

/-- A grid of queue 3 has started; its handle is 5. -/
def started : State := ran (.commandGrid 3) (rung (command 1 6 (2 ^ 41 + 0x1000) (2 ^ 41 + 0x2000) 1))

theorem wit_grid : (started.queue 3).cmds.map (fun c => (c.seq, c.started, c.grid)) = [(6, true, some 5)] ∧
    (started.grid 5).id = 1 ∧ (started.grid 5).queue = 3 ∧ (started.grid 5).clusters = [0] ∧ (started.grid 5).status = .live := by
  decide +kernel

theorem wit_grid_fails : does (.commandGrid 3) (rung (command 1 6 (2 ^ 41 + 0x2000) 0 1)) (fun u =>
    (u.queue 3).cmds.map (fun c => c.result) == [some (Cause.launch 12, false, 0)] && u.grids.length == 1) := by decide +kernel

theorem wit_record : (let s := queued [{ cmd 0 6 with done := BitVec.ofNat 64 (2 ^ 41 + 0x2000), started := true, result := some (3, true, 9) }];
      does (.completionRecordWrite 3) s (fun u => (u.queue 3).cmds == [] &&
        u.physBytes (2 ^ 41 + 0x2000) 16 == [6, 0, 0, 0, 0, 0, 0, 0x80, 3, 0x80, 0, 0, 9, 0, 0, 0])) ∧
    does (.completionRecordWrite 3) (queued [{ cmd 0 6 with started := true, result := some (0, false, 0) }]) (fun u => (u.queue 3).cmds == []) ∧
    does (.completionRecordWrite 3) (queued [cmd 0 6]) (fun u => (u.queue 3).cmds == [cmd 0 6]) ∧
    does (.completionRecordWrite 3) (queued []) (fun u => (u.queue 3).cmds == []) := by decide +kernel

theorem wit_placement : started.nextWork 0 = some ⟨5, 0, none⟩ ∧
    (match started.nextWork 0 with
      | some w => (started.clustersFor w).contains 0 && (started.coresFor w 0).contains [0]
      | none => false) = true ∧ started.handle = 6 ∧
    does (.teamPlacement 5 0 0 [0]) started (fun u => (u.team 6).grid == 5 && (u.team 6).cores == [0] && (u.team 6).status == .resident &&
      (u.thread 8).live && (u.thread 8).pc == (u.grid 5).lr.codebase + (u.grid 5).lr.entry) ∧
    does (.teamPlacement 5 1 0 [0]) started (fun u => u.teams.length == 1) := by decide +kernel

/-- The only thread has exited; and then its team is gone. -/
def exited : State := ran (.exitOp false) base
def gone : State := ran (.teamRelease 2) exited

theorem wit_release : exited.teamEnded 2 = true ∧ base.teamEnded 2 = false ∧ gone.teams = [] ∧ gone.crews = [] ∧
    gone.gridEnded 1 = true ∧ base.gridEnded 1 = false ∧ (gone.grid 1).armed = none ∧
    (let s := gone.setQueue 3 { Queue.reset with cmds := [{ cmd 1 6 with started := true, grid := some 1 }] };
      does (.gridRetire 1) s (fun u => u.grids.length == 0 && (u.queue 3).cmds.map (fun c => c.result.map (fun r => (r.1, r.2.1))) == [some (0, false)])) := by
  decide +kernel

/-- The only thread waits in CWAIT.ALL for a child. -/
def parking : State := ran (.cwaitAll false) { base with grids := Table.set base.grids 9 { Grid.absent with parent := some (2, 1) } }

theorem wit_park : parking.canPark 2 = true ∧ parking.teamQuiet 2 = true ∧ parking.copiesSettled 2 = true ∧ (∀ t ∈ parking.teamLive 2, (parking.thread t).deferred = []) ∧
    base.canPark 2 = false ∧ does (.teamPark 2) parking (fun u => (u.team 2).status == .parked && !(u.crew 3).resident) ∧
    does (.teamPark 2) base (fun u => (u.team 2).status == .resident) := by decide +kernel

/-! ## Stops -/

/-- Grid 1 is armed at two retired words, of which context 0 has n. -/
def armed (n : Nat) : State :=
  (base.modGrid 1 fun g => { g with armed := some (2, 9), met := false }).modCtx 0 fun c => { c with ctr := [(0, BitVec.ofNat 64 n)] }

theorem wit_targets : does (.preemptTargetReached 1) (armed 2) (fun u => (u.grid 1).status == .stopping 9) ∧
    does (.preemptTargetReached 1) (armed 1) (fun u => (u.grid 1).status == .live) ∧
    (let s := base.modGrid 1 fun g => { g with status := .halted 9 };
      ({ s with cycle := 9 } : State).holdOver 1 = true ∧ ({ s with cycle := 8 } : State).holdOver 1 = false ∧
        does (.haltHoldExpire 1) { s with cycle := 9 } (fun u => u.grids.length == 0) ∧
        does (.haltHoldExpire 1) { s with cycle := 8 } (fun u => u.grids.length == 1)) := by decide +kernel

/-- A PREEMPT, a RESET of context 5 and a SCRUB of one page, each item 1. -/
def stopping : State := ran (.sysPreempt false 40 2) system
def resetting : State :=
  ran (.sysReset false 40 22) { system with ctxs := Table.set system.ctxs 5 (Ctx.create (.owner 5 0) 3 0 [] 0 5) }
def scrubbing : State := ran (.sysScrub false 40 4 6) system

theorem wit_seal : stopping.gridsQuiet (stopping.stopped 1) = true ∧ (stopping.grid 1).status = .stopping 1 ∧
    does (.imageSealed 1) stopping (fun u => (u.grid 1).status == .preempted stopping.fixer.nextHandle && u.eng.sys.length == 0 &&
      ((Table.find? u.fixer.images stopping.fixer.nextHandle).map (·.key)) == some 0 && u.teams.length == 0) ∧
    does (.imageSealed 1) base (fun u => (u.grid 1).status == .live) := by decide +kernel

theorem wit_reset_ends : does (.resetScrubComplete 1) resetting (fun u => (u.ctx? 5).isNone && u.eng.sys.length == 0 &&
      (Table.find? u.fixer.receipts resetting.fixer.nextHandle).map (fun r => (r.kind, r.key)) == some (1, 5)) ∧
    resetting.gridsQuiet (resetting.grids.keysWhere fun _ g => g.key == 5) = true := by decide +kernel

theorem wit_scrub_ends : scrubbing.TakeAll [4] ∧
    does (.scrubComplete 1) scrubbing (fun u => u.eng.sys.length == 0 && (Table.find? u.fixer.receipts scrubbing.fixer.nextHandle).map
      (fun r => (r.kind, r.base, r.length)) == some (0, 0x1000, 0x1000) && (u.thread 4).rx 40 == BitVec.ofNat 64 scrubbing.fixer.nextHandle) := by
  decide +kernel

/-- A checkpoint of image 7 in namespace 1, item 1. -/
def saving : State := ran (.sysCkpt false 40 8 10) system

theorem wit_checkpoints : saving.eng.sys.length = 1 ∧ saving.TakeAll [4] ∧
      does (.ckptComplete 1 true) saving (fun u => Table.find? u.trust.versions 1 == some 1 && (u.thread 4).rx 40 == 1 &&
        (Table.find? u.trust.nvme 1).map (·.version) == some 1) ∧
      does (.ckptComplete 1 false) saving (fun u => u.trust == saving.trust &&
        (u.thread 4).rx 40 == BitVec.ofNat 64 (Cause.flashFailure * 2 ^ 32)) := by decide +kernel

/-- Version v of namespace 1 holds an image of context 0, under its key of a boot, where the counter stands at 5. -/
def saved (v : Nat) (sl : SealId) : State :=
  let img : Image := ⟨0, 0, [], system.ctxidOf 0, sl, 5⟩
  ran (.sysCkptRs false 40 22 10) { system with trust := { system.trust with versions := [(1, 5)], nvme := [(1, ⟨v, img, 6⟩)] } }

theorem wit_restores : does (.ckptComplete 1 true) (saved 5 (system.sealOf 0)) (fun u => (u.thread 4).rx 40 == BitVec.ofNat 64 system.fixer.nextHandle &&
      (Table.find? u.fixer.images system.fixer.nextHandle).map (·.key) == some 0) ∧
    does (.ckptComplete 1 true) (saved 4 (system.sealOf 0)) (fun u => (u.thread 4).rx 40 == BitVec.ofNat 64 (Cause.checkpointVersion * 2 ^ 32) &&
      u.fixer == system.fixer) ∧
    does (.ckptComplete 1 true) (saved 5 (.operator 77)) (fun u => (u.thread 4).rx 40 == BitVec.ofNat 64 (Cause.imageSeal * 2 ^ 32) &&
      u.fixer == system.fixer) ∧ (saved 5 (.operator 77)).ctxs.length = 1 ∧ (system.sealOf 0).sameImageKey (system.sealOf 0) = true := by decide +kernel

/-! ## Paging, the host and harts -/

/-- Thread 4 waits on record 7, whose page is in memory now. -/
def faulted (posted : Bool) : State :=
  let s := handler base
  let s := s.modThread 4 fun th => { th with wait := .page 7 0x10C (2 ^ 41) none 0 false th.v }
  let log : LogRegs := ⟨BitVec.ofNat 64 (2 ^ 41 + 0x3000), 16, 16, 1, 0⟩
  { s with xl := { s.xl with pfbound := 2, pfr := log, pages := [(7, ⟨0, 2 ^ 29, 4, 0, false, 0, 0, 0, 0, posted, 100, []⟩)] } }

theorem wit_answers : (faulted true).threads.length = 1 ∧ does (.pageFaultResponse 7) (faulted true) (fun u => (u.thread 4).wait == .ready &&
      u.xl.pages == []) ∧
    does (.pageFaultResponse (BitVec.ofNat 64 (7 + 2 ^ 32))) (faulted true) (fun u => (u.thread 4).pc == 64 &&
      (u.thread 4).trap.tcause == 0x10C && (u.thread 4).trap.tval == BitVec.ofNat 64 (2 ^ 41)) ∧
    does (.pageFaultResponse 6) (faulted true) (fun u => u.xl == (faulted true).xl) := by decide +kernel

theorem wit_bounds : does (.pageFaultBoundExpire 7) { faulted true with cycle := 2048 } (fun u => u.xl.pages.length == 1) ∧
    does (.pageFaultBoundExpire 7) { faulted true with cycle := 2049 } (fun u => u.xl.pages.length == 0 && (u.thread 4).pc == 64) ∧
    does (.pageFaultRepost 7) { faulted false with cycle := 1123 } (fun u => u.xl.pages.all fun e => !e.2.posted) ∧
    does (.pageFaultRepost 7) { faulted false with cycle := 1124 } (fun u => (u.xl.pages.all fun e => e.2.posted) && u.xl.pfr.tail == 17 &&
      leNat (u.physBytes (2 ^ 41 + 0x3000) 4) != 0) := by decide +kernel

/-- A request to let go of every translation waits in the ring at 2^41, with an interrupt of data 9 at address 0x40; a load has left a translation. -/
def shooting (kind : Nat) : State :=
  let s := (ran (.ld false 4 3 .w32 0) mems).setPhys (2 ^ 41 + 0x4000) ([(0, 1, kind), (32, 8, 0x40), (40, 4, 9)].foldl
    (fun b e => putAt b e.1 e.2.1 e.2.2) (List.replicate 64 0))
  { s with xl := { s.xl with sdr := ⟨BitVec.ofNat 64 (2 ^ 41 + 0x4000), 1, 1, 0, 0⟩ } }

theorem wit_shootdown : ((shooting 0).core 0).tlb.length = 1 ∧
    does (.shootdownRequest 1) (shooting 0) (fun u => u.xl.shoot == some (2 ^ 41 + 0x4000, false, (shooting 0).eng.nextId) &&
      (u.core 0).tlb.length == 0 && (u.die 0).tlb.length == 0) ∧
    does (.shootdownRequest 1) (shooting 3) (fun u => u.xl.shoot == some (2 ^ 41 + 0x4000, true, (shooting 0).eng.nextId)) ∧
    does (.shootdownRequest 0) (shooting 0) (fun u => u.xl.shoot == none) := by decide +kernel

theorem wit_shootdown_ends : does .shootdownFinish (ran (.shootdownRequest 1) (shooting 0)) (fun u => u.xl.shoot == none &&
      u.physBytes (2 ^ 41 + 0x4000 + 44) 4 == [1, 0, 0, 0] && u.xl.sdr.head == 1 && u.m.out.contains (.msi 0x40 9)) ∧
    does .shootdownFinish (ran (.shootdownRequest 1) (shooting 3)) (fun u => u.physBytes (2 ^ 41 + 0x4000 + 44) 4 == [3, 0, 0, 0]) := by
  decide +kernel

theorem wit_registers : does (.registerWrite 0x10068 4 77) base (fun u => u.xl.pfbound == 77) ∧
    does (.registerWrite 0x11008 8 0x9000123456789ABC) base (fun u => u.root 1 == 0x9000023456789ABC) ∧
    does (.registerWrite 0x30014 4 0x80000003) base (fun u => Table.find? u.fab.domains 5 == some 0x80000003) ∧
    does (.registerWrite 0x400D0 4 2) base (fun u => (u.queue 3).tail == 2) ∧
    does (.faultLogReset 0 false 0x5000) base (fun u => (u.ctx? 0).map (fun c => (c.flog.base, c.flog.tail)) == some (0x5000, 0)) := by
  decide +kernel

/-- A write of RXL of mapping 3 of context 0 waits as item 9. -/
def mapping : State :=
  let s := base.modThread 4 fun th => { th with wait := .mapping 9 }
  { s with eng := { s.eng with rx := [(9, ⟨0, 3, true, 0x2000, 1, 4, 8, 1⟩)] } }

theorem wit_mapping : does (.receiveMappingWrite 9) mapping (fun u => (u.rxMap 0 3).l == 0x2000 && (u.rxMap 0 3).grid == some 1 &&
      (u.thread 4).wait == .ready && (u.thread 4).pc == 8) ∧
    (let s := { mapping with eng := { mapping.eng with heldPkts := [⟨1, { packet with map := 3 }, 0, 0, none, 0, none⟩] } };
      s.rxBusy 0 3 = true ∧ does (.receiveMappingWrite 9) s (fun u => (u.rxMap 0 3).l == 0)) := by decide +kernel

/-- Port 0 is up, and hart 2 runs. -/
def hosted (mode : Nat) : State :=
  ((base.modFab fun f => { f with ports := [0], secure := [4] }).setHart 2 { Hart.reset with released := true, mode := mode }).modCtx 0
    fun c => { c with harts := 4 }

theorem wit_host_memory : ((hosted 0).devOff 0x40).isSome = true ∧ (hosted 0).homeReady 0x40 = true ∧
    (let s := { hosted 0 with ctl := { (hosted 0).ctl with fnReady := 0 } };
      does (.hostMemAccess 0 0 0x40 false []) s (fun u => u.fab.held == [.hostMemAccess 0 0 0x40 false []])) ∧
    does (.hostMemAccess 1 0 0x40 false []) (hosted 0) (fun u => u.m == (hosted 0).m) ∧
    (let s := ran (.hostMemAccess 0 0 0x40 true (List.replicate 64 9)) (hosted 0);
      does (.hostMemAccess 0 0 0x7F true [5]) s (fun u => u.physByte 0x7F == 5 && u.m == s.m) ∧
      does (.hostMemAccess 0 0 0x7F true [5, 6]) s (fun u => u.physByte 0x7F == 9) ∧
      out (.hostMemAccess 0 0 0x47 false []) s [.hostData 0 (some (List.replicate 64 9))] ∧
      out (.hostMemAccess 0 0 0x80 false []) s [.hostData 0 none]) := by decide +kernel

theorem wit_ports : does (.hostPortUpOrDown 1 (some 0x12000)) (hosted 0) (fun u => u.fab.ports.contains 1 && u.fab.ports.contains 0 &&
      u.fab.dmwin == 0x12000) ∧ hartBlock 0 = false ∧
    does (.hostPortUpOrDown 0 none) (hosted 0) (fun u => u.fab.ports == [] && u.fab.dmwin == (hosted 0).fab.dmwin) ∧
    does (.secureAssociationInstall 31) (hosted 0) (fun u => u.fab.secure.contains 31 && u.fab.secure.contains 4) ∧
    does (.ethernetFrameReceive 5 2 true true [1] 0) (hosted 0) (fun u => u.m == (hosted 0).m && u.fab == (hosted 0).fab) ∧
    does (.ethernetFrameReceive 4 2 true false [1] 0) (hosted 0) (fun u => u.fab.ethDrop == 1 && u.m == (hosted 0).m) ∧
    out (.ethernetFrameReceive 4 2 true true [1] 0) (hosted 0) [.deliver 2 0 ⟨0xFFF, 0x332, 0⟩ [1]] ∧
    out (.nvmeCompletion 2 1 [7] 0) (hosted 0) [.deliver 2 1 ⟨0xFFF, 0x332, 0⟩ [7]] ∧
    does (.nvmeCompletion 2 1 [7] 0) (hosted 2) (fun u => (u.hart 2).dropped == 1 && u.m == (hosted 2).m) := by decide +kernel

/-- Context 5 admits hart 2; a log of hart 2 at 2^41 holds one entry. -/
def logged (kind : Nat) : State :=
  let s := (hosted 2).setPhys (2 ^ 41) ([(0, 1, kind), (1, 1, 3), (2, 2, 1), (8, 8, 0x1234), (16, 8, 0x55), (32, 1, 0xAB)].foldl
    (fun b e => putAt b e.1 e.2.1 e.2.2) (List.replicate 64 0))
  s.setHart 2 { s.hart 2 with base := BitVec.ofNat 64 (2 ^ 41), size := 4096, tail := 64 }

theorem wit_seats : (let s := { hosted 0 with ctxs := Table.set base.ctxs 5 { Ctx.create (.owner 5 0) 3 0 [] 0 5 with harts := 4 } };
    s.seatAllowed 2 0x15 = true ∧ s.seatAllowed 3 0x15 = false ∧ s.seatAllowed 2 3 = false ∧
      does (.hseatWrite 2 0x8015) s (fun u => (u.hart 2).hseat == 0x15) ∧ does (.hseatWrite 3 0x15) s (fun u => (u.hart 3).hseat == 0) ∧
      (s.hart 2).prv = 3 ∧ does (.hseatWrite 2 0x8015) (s.setHart 2 { s.hart 2 with prv := 1 }) (fun u => (u.hart 2).hseat == 0) ∧
      does (.hseatWrite 2 0x8015) (s.setHart 2 { s.hart 2 with released := false }) (fun u => (u.hart 2).hseat == 0)) := by
  decide +kernel

theorem wit_harts : does (.hrecWrite 2 1) (hosted 0) (fun u => (u.hart 2).mode == 1) ∧ does (.hrecWrite 2 3) (hosted 0) (fun u => (u.hart 2).mode == 0) ∧
    does (.hrlheadWrite 2 ⟨.head, 64⟩) (hosted 0) (fun u => (u.hart 2).head == 64) ∧
    does (.hrlheadWrite 2 ⟨.base, 0x3000⟩) (hosted 0) (fun u => (u.hart 2).base == 0x3000) ∧
    does (.hrlheadWrite 2 ⟨.base, 0x3001⟩) (hosted 0) (fun u => (u.hart 2).base == 0) ∧
    does (.hrlheadWrite 2 ⟨.size, 0x10000⟩) (hosted 0) (fun u => (u.hart 2).size == 0x10000) ∧
    does (.hrlheadWrite 2 ⟨.size, 0x8000⟩) (hosted 0) (fun u => (u.hart 2).size == 0) ∧
    does (.shootdownRequest 6) (hosted 0) (fun u => (u.hart 2).pending.contains 6) ∧
    does (.timeOrCycleRead 2 99) (hosted 0) (fun u => (u.hart 2).timer == 99 && u.m.out == (hosted 0).m.out ++ [.hartValue 2 ⟨0xFFF, 0x332, 0⟩ 99]) ∧
    does (.timeOrCycleRead 2 99) (logged 3) (fun u => (u.hart 2).timer == 0x55 && (u.hart 2).minstret == 0x1234 && (u.hart 2).head == 64) ∧
    does (.timeOrCycleRead 1 99) (hosted 0) (fun u => u.m == (hosted 0).m) ∧
    out (.replayEventDelivery 2) (logged 0) [.deliver 2 0 ⟨0xFFF, 0x332, 0⟩ [0xAB]] ∧
    does (.replayEventDelivery 2) (logged 0) (fun u => (u.hart 2).minstret == 0x1234 && (u.hart 2).pending.contains 0x55) ∧
    does (.replayEventDelivery 2) (hosted 2) (fun u => (u.hart 2).mode == 0 && (u.hart 2).ended) ∧
    does (.replayEventDelivery 2) (hosted 0) (fun u => u.m == (hosted 0).m) := by decide +kernel

/-! ## Boot, SPDM, vendor requests and debug -/

/-- Reset with the rails stable, and what a boot finds: the fuses' verdict, and the headers of its stages. -/
def booting : State := { State.reset with trust := { State.reset.trust with railsOk := true } }
def images (ok : Bool) (l : List (List Byte)) : BootImages := ⟨[1], ok, l.map fun h => ⟨h, []⟩⟩

theorem wit_boot_fails : does (.deviceReset (images false [])) booting (fun u => u.trust.failed == some 1 && u.trust.stage == 0 && u.mr 0 == 0 &&
      u.trust.boots == booting.trust.boots + 1) ∧
    does (.deviceReset (images true [[1, 2, 3]])) booting (fun u => u.trust.failed == some 2 && u.trust.stage == 1 && u.mr 1 == 0) ∧
    does (.deviceReset (images true [])) State.reset (fun u => u == State.reset) ∧ does .railsStable State.reset (fun u => u.trust.railsOk) := by
  decide +kernel

/-- Step 6 is reached, with a request. -/
def stage6 (req : BitVec 128) : State :=
  { booting with trust := { booting.trust with stage := 6, boots := 1, platform := req }, ctl := { booting.ctl with featReq := req } }

/-- Six checks that pass reach step 6; the third of a list that fails stops the chain there. -/
theorem wit_boot : (let u := booting.bootSteps 1 (List.replicate 6 ([1], true)); u.trust.stage == 6 && u.trust.failed == none && !u.ctl.locked) = true ∧
    (let u := booting.bootSteps 1 [([1], true), ([1], true), ([1], false), ([1], true)];
      u.trust.stage == 2 && u.trust.failed == some 3 && u.mr 2 == 0) = true ∧ (bootChain (images true [])).length = 6 := by decide +kernel

theorem wit_locks : does (.featureLock 1) (stage6 0x3FF) (fun u => u.ctl.neg == 0x1FF && u.trust.stage == 7 && (u.hart 15).released) ∧
    does (.featureLock 1) (stage6 0x90) (fun u => u.ctl.neg == 1) ∧ does (.featureLock 1) (stage6 0x18) (fun u => u.ctl.neg == 0x19) ∧
    does (.featureLock 0) (stage6 0x18) (fun u => !u.ctl.locked) ∧
    does .featureLockTimeout { stage6 0xC0 with cycle := 2 ^ 30 } (fun u => u.ctl.neg == 0xC1) ∧
    does .featureLockTimeout { stage6 0xC0 with cycle := 2 ^ 30 - 1 } (fun u => !u.ctl.locked) ∧
    does (.functionReady true 191) (stage6 0) (fun u => (u.core 191).ready) ∧
    does (.functionReady false 35) (stage6 0) (fun u => u.ctl.fnReady == 0x800000000) ∧
    does (.functionReady false 35) State.reset (fun u => u.ctl.fnReady == 0) := by decide +kernel

theorem wit_mailbox : (0x80000017 : Word).getLsbD 31 = true ∧ (0x80000017 : Word).toNat % 16 = 7 ∧
    (0x80000017 : Word).toNat / 2 ^ 4 % 2 ^ 4 = 1 ∧ (0x80000017 : Word).toNat / 2 ^ 8 % 2 ^ 23 = 0 ∧
    (let s := booting.setHart 2 { Hart.reset with released := true };
      s.mailboxOpen = true ∧ s.trust.mbbusy = false ∧
        does (.mailboxExtend 9 0x80000016) s (fun u => u.trust.mberr && u.trust.mr == booting.trust.mr)) ∧
    does (.mailboxExtend 9 0x80000016) booting (fun u => u.trust == booting.trust) := by decide +kernel

/-- Tower 0 is ready, and the first unit has symbol errors. -/
def errors (n : Nat) : State := { booting with ctl := { booting.ctl with fnReady := 1 }, mem := { booting.mem with symErr := [(0, n)] } }

theorem wit_patrol : (errors 1).patrolUnit 0 (Table.getD (errors 1).mem.patrol 0 0) = 0 ∧
    does (.patrolScrubStep 0) (errors 3) (fun u => u.mem.symErr == [] && Table.getD u.mem.ctr 0 0 == 1 && u.mem.poison == []) ∧
    does (.patrolScrubStep 0) (errors 4) (fun u => u.mem.poison == [0] && u.mem.retired.contains 0 && Table.getD u.mem.ctr 1 0 == 1) ∧
    (let s := { errors 0 with mem := { (errors 0).mem with poison := [0] } };
      does (.patrolScrubStep 0) s (fun u => u.mem.retired.contains 0)) ∧
    does (.patrolScrubStep 0) { errors 0 with mem := booting.mem } (fun u => Table.getD u.mem.patrol 0 0 == 1 && u.mem.poison == []) ∧
    does (.patrolScrubStep 1) (errors 4) (fun u => u.mem == (errors 4).mem) := by decide +kernel

theorem wit_power : does .powerLimitExceeded booting (fun u => u.clusterCap 23) ∧
    does (.dieOvertemp 7) booting (fun u => u.clusterCap 21 && u.clusterCap 23 && !u.clusterCap 20) ∧
    does (.forcedCapLift none) (ran .powerLimitExceeded booting) (fun u => !u.clusterCap 23) ∧
    does (.forcedCapLift (some 7)) (ran (.dieOvertemp 7) (ran (.dieOvertemp 6) booting)) (fun u => !u.clusterCap 23 && u.clusterCap 18) := by
  decide +kernel

/-- Port 1 has reached a stage; session 9 of it is open, and session 8 has finished with mutual authentication. -/
def spdm (n : Nat) : State :=
  let s := stage6 0x1FF
  let l := [(8, ⟨1, [], 0, true, true, 0⟩), (9, ⟨1, [], 0, false, false, 0⟩)]
  { s with trust := { s.trust with conn := [(1, n)], nextSess := 10, sessions := l } }

theorem wit_spdm : out (.getVersion 1) (spdm 0) [.spdm 1 4 [0, 0x13]] ∧ out (.getCapabilities 1) (spdm 0) [.spdm 1 0x7F []] ∧
    out (.getCapabilities 1) (spdm 1) [.spdm 1 0x61 capabilities] ∧ out (.negotiateAlgorithms 1 true) (spdm 2) [.spdm 1 0x63 algorithms] ∧
    out (.negotiateAlgorithms 1 true) (spdm 1) [.spdm 1 0x7F []] ∧ out (.negotiateAlgorithms 1 false) (spdm 3) [.spdm 1 0x7F []] ∧
    out (.getDigests 1) (spdm 2) [.spdm 1 0x7F []] ∧ out (.getCertificate 1 1) (spdm 3) [.spdm 1 0x7F []] ∧
    does (.getVersion 1) booting (fun u => u == booting) := by decide +kernel

theorem wit_measurements : (spdm 3).trust.boots ≠ 0 ∧ (spdm 3).trust.failed = none ∧ 6 ≤ (spdm 3).trust.stage ∧ (spdm 3).spdmStage 1 = 3 ∧
    (spdm 3).trust.fogged = false ∧
    out (.getMeasurements 2 1) { spdm 3 with trust := { (spdm 3).trust with failed := some 4 } } [.spdm 2 0x60 [4]] := by decide +kernel

theorem wit_sessions : out (.finish 9 true) (spdm 3) [.spdm 1 0x65 []] ∧
    does (.finish 9 true) (spdm 3) (fun u => (Table.find? u.trust.sessions 9).map (fun x => (x.finished, x.mutualAuth)) == some (true, true)) ∧
    does (.keyUpdate 8) (spdm 3) (fun u => (Table.find? u.trust.sessions 8).map (·.epoch) == some 1) ∧
    does (.endSession 8) (spdm 3) (fun u => (Table.find? u.trust.sessions 8).isNone) ∧
    out (.endSession 7) (spdm 3) [.spdm 2 0x7F []] ∧
    does (.endSession 7) booting (fun u => u == booting) := by decide +kernel

/-- The digest of the key of session 8 owns context 5, of which it may ask; a stream is keyed. -/
def vendor : State :=
  let s := spdm 3
  let c := Ctx.create (.owner 5 0) 3 0 [] (Session.keyHash ⟨1, [], 0, true, true, 0⟩) 5
  { s with ctxs := Table.set s.ctxs 5 c, fab := { s.fab with streams := [(18, ⟨8, none⟩)] } }

theorem wit_vendor : out (.contextInfo 9 5) vendor [.spdm 1 0x7F []] ∧ out (.bindStream 9 5 1 2) vendor [.spdm 1 0x7F []] ∧
    out (.createContext 9 [] 0 0 []) vendor [.spdm 1 0x7F []] ∧
    does (.ideKeySetup 8 1 15) vendor (fun u => Table.find? u.fab.streams 31 == some ⟨8, none⟩) ∧
    (vendor.ctx? 5).isSome = true ∧ (vendor.ctx? 1).isNone = true ∧ counterDefined 0xC0A = true ∧
    Table.find? vendor.fab.streams (16 * 1 + 2) = some ⟨8, none⟩ := by decide +kernel

/-- A header of context 5 for the owner, sealed, and a body of zeros. -/
def header5 : List Byte := putAt ((record 5 1).take 128) 56 4 sealedSize

theorem wit_seal_record : header5.length = headerSize ∧ (List.replicate plainSize (0 : Byte)).length = plainSize ∧ ctxKey header5 = 5 ∧
    seatOf header5 = some .owner ∧ ctxAud header5 = 0 ∧ headerBad header5 sealedSize true = false := by decide +kernel

/-- Session 8 owns context 5, whatever its key's digest is. -/
theorem wit_owned : ∃ c x, vendor.ctx? 5 = some c ∧ Table.find? vendor.trust.sessions 8 = some x ∧ c.ownedBy x = true ∧
    c.quarantined = false ∧ sealSeat c x header5 = true := by
  refine ⟨_, _, rfl, rfl, ?_, rfl, ?_⟩
  · simp [Ctx.ownedBy, Ctx.create]
  · have h := wit_seal_record
    simp [sealSeat, Ctx.ownedBy, Ctx.create, h.2.2.2.1, h.2.2.2.2.1]

theorem wit_fog : does .glitchDetect vendor (fun u => u.trust.fogged && u.ctxs == [] && u.eng == Engines.reset && u.keyBlocked 5 == some .fogged) ∧
    does .tamperDetect (stage6 1) (fun u => u.trust.fogged && u.threads == []) ∧
    does .ucieTagFailure base (fun u => u.trust.fogged == decide (6 ≤ base.trust.stage)) := by decide +kernel

/-- Crew 3 is held. -/
def heldCrew : State := base.modCrew 3 fun c => { c with held := some .brk }

theorem wit_debug : (heldCrew.ctxCrews 0).contains 3 = true ∧
    does (.debugResume 0 (heldCrew.crew 3).loc) heldCrew (fun u => (u.crew 3).held == none && !(u.crew 3).stepping) ∧
    does (.debugStep 0 (heldCrew.crew 3).loc) heldCrew (fun u => (u.crew 3).held == none && (u.crew 3).stepping) ∧
    does (.debugResume 0 ((heldCrew.crew 3).loc + 1)) heldCrew (fun u => u == heldCrew) ∧
    does (.debugResumeAll 0) heldCrew (fun u => (u.crew 3).held == none) ∧
    does (.debugDetach 0) (heldCrew.modCtx 0 fun c => { c with att := true }) (fun u => (u.ctx? 0).map (·.att) == some false &&
      (u.crew 3).held == none) ∧
    does (.debugStopRequest 0) heldCrew (fun u => (u.ctx? 0).map (·.stopreq) == some true && (u.crew 3).held == some .brk) := by decide +kernel

/-- A record of a contact sheet; die 0 is assigned to context 0, which samples, and holds it. -/
def record0 : TraceRec := ⟨0, 0, 0, 0, 0, 0, 0, 0⟩
def sheet (room : Bool) : State :=
  let log : LogRegs := if room then ⟨BitVec.ofNat 64 (2 ^ 41), 16, 0, 0, 0⟩ else LogRegs.zero
  (base.modDie 0 fun d => { d with csassign := 0x80000000, sheet := [record0] }).modCtx 0 fun c => { c with csctl := 1, cslog := log }

theorem wit_sheets : does (.csassignWrite 0 0x80000000) (sheet true) (fun u => (u.die 0).sheet.length == 1) ∧
    does (.csassignWrite 0 0) (sheet true) (fun u => (u.die 0).assign == none && (u.die 0).sheet.length == 0 &&
      (u.ctx? 0).map (·.cslog.lost) == some 1) ∧
    does (.csassignWrite 0 0x800) (sheet true) (fun u => (u.die 0).assign == some 0) ∧
    does (.contactSheetSample 1 0) (sheet true) (fun u => (u.die 0).sheet.length == 1 && (u.die 1).sheet.length == 0) ∧
    does (.contactSheetDrain 0) (sheet false) (fun u => (u.die 0).sheet.length == 0 && (u.ctx? 0).map (·.cslog.lost) == some 1) ∧
    does (.contactSheetDrain 0) (sheet true) (fun u => (u.die 0).sheet.length == 0 && (u.ctx? 0).map (·.cslog.tail) == some 1) ∧
    does (.contactSheetDrain 1) (sheet true) (fun u => (u.die 0).sheet.length == 1) := by decide +kernel

/-- Partition 5 of core 0 issued for thread 4 in the last cycle. -/
theorem wit_samples : (let s := (sheet true).modCore 0 fun c => { c with parts := Table.set c.parts 5 { Partition.reset with empty := false, pc := 0x99, cls := 3, stamp := (0, 2, 7, 9) } };
    does (.contactSheetSample 0 0) s (fun u => (u.die 0).sheet.map (fun x => (x.type, x.engine, x.value, x.queue, x.seq, x.info)) ==
      [(0, 0, 0, 0, 0, 0), (0, 0, 0x99, 7, 9, 5 * 2 ^ 8 + 2 * 2 ^ 11 + 2 ^ 16)])) := by
  decide +kernel

/-! ## Further clauses of the statements above -/

/-- Infinities of F16, BF16 and F64, and a signalling NaN of F32, with every trap enabled. -/
def raising : State := regs enabled [(16, 0x7C007C00), (17, 0x7F807F80), (18, 0), (19, 0x7FF00000), (20, 0x7F800001)]

theorem wit_float_traps : raising.Solo (.fmad false 14 18 18 18 true) 4 ∧ trapsAt (.fma32 false 14 11 11 11 true) raising 0x040 ∧
    trapsAt (.fmah false 14 16 16 16 true) raising 0x040 ∧ trapsAt (.fmab false 14 17 17 17 true) raising 0x040 ∧
    trapsAt (.fmad false 14 18 18 18 true) raising 0x040 ∧ trapsAt (.funOp false 14 4 .rcp .f32) raising 0x041 ∧
    trapsAt (.fcmp false 3 20 20 .eq .f32) raising 0x040 ∧ trapsAt (.cvt false 14 11 .s32 .f32 .rne false) raising 0x040 := by
  decide +kernel

theorem wit_rounding_e5 : (∃ n m e, Fmt.e5.decode 0x3C = .num n m e ∧ m ≠ 0) ∧ (0x3C : Nat) < 2 ^ Fmt.e5.w :=
  ⟨⟨false, 4, -2, by decide +kernel⟩, by decide +kernel⟩

theorem test_redux_signed : (let s := pair.modThread 5 fun th => th.setV 2 0xFFFFFFFF;
    gives (.redux false 3 2 .min .s32) s 3 0xFFFFFFFF ∧ gives (.redux false 3 2 .max .s32) s 3 3 ∧
      gives (.redux false 3 2 .max .n32) s 3 0xFFFFFFFF) := by decide +kernel

/-- A load of v4, the named return, is in flight at the RET. -/
theorem wit_close_waits : (let s := closing 9 false
    let s := { s with eng := { s.eng with nextId := 2, txns := [(1, ⟨0, 0, true, [4], [⟨4, [(4, 8)]⟩], [], []⟩)] } };
    s.Solo (.ret false) 4 ∧ (s.judgeWaits 4 ⟨5, 0, 0, [(4, 9)], 0, 1, [], false⟩) = true ∧
      (closing 9 false).judgeWaits 4 ⟨5, 0, 0, [(4, 9)], 0, 1, [], false⟩ = false ∧ (s.thread 4).wait = .ready ∧ (s.thread 4).wait2 = none ∧
      does (.ret false) s (fun u => (u.thread 4).wait != .ready && (u.thread 4).fork.recs.length == 1)) := by decide +kernel

theorem wit_more_wakes : does (.mwaitWake 4) (waited (.mwait false 14 1 4 .cr .ne .w32) mems) (fun u => (u.thread 4).wait == .ready) ∧
    does (.mwaitWake 4) (waited (.mwait false 14 1 4 .cr .eq .w32) mems) (fun u => (u.thread 4).wait != .ready) ∧
    does (.fullEmptyWake 4) (waited (.ldfeTake false 14 1 .cr .w32) full) (fun u => (u.thread 4).wait == .ready &&
      !u.isFull (.scratch 2 0) 16) ∧
    does (.fullEmptyWake 4) (waited (.stfePut false 4 1 .cr .w8) mems) (fun u => (u.thread 4).wait == .ready &&
      u.isFull (.scratch 2 0) 16) ∧
    does (.fullEmptyWake 4) (waited (.stfePut false 4 1 .cr .w8) full) (fun u => (u.thread 4).wait != .ready) := by decide +kernel

theorem wit_counter_faults : (match copies.place 4 (copies.crewOf 4).core ((copies.thread 4).rx 4) 8 8 with
      | .ok _ => true
      | .error _ => false) = true ∧ windowOf ((copies.thread 4).rx 4) = some 1 ∧
    trapsAt (.xferArmcZ false 4 26) copies Cause.transferWindow ∧ trapsAt (.xferAcwait false 10 6) copies Cause.transferWindow ∧
    trapsAt (.xferArmc false 30 26) (regs copies [(30, 4), (31, 0xD4000000)]) (Why.misaligned.cause .store) ∧
    trapsAt (.xferAcwait false 10 30) (regs copies [(30, 4), (31, 0xD4000000)]) (Why.misaligned.cause .load) ∧
    trapsAt (.xferArmcZ false 30 26) (regs copies [(30, 16), (31, 0xD4000000)]) (Why.windowBound.cause .store) := by decide +kernel

/-- The owner's thread asks for a register of its grid, whose threads stand where `still` says. -/
def asking (n : Nat) (still : Bool) (k : Nat) : State :=
  (handler (regs owner [(2, 5), (3, 1), (6, k), (7, n * 2 ^ 28), (9, 77)])).modGrid 1 fun g =>
    if still then { g with status := .halted 9 } else g

theorem wit_ctxrd : (asking 2 true 9).SysSolo (.sysCtxrd false 40 2 6) 4 ∧ ((asking 2 true 9).findThread 1 0 0).isSome = true ∧
    gives (.sysCtxrd false 40 2 6) (asking 2 true 9) 40 77 ∧ gives (.sysCtxrd false 40 2 6) (asking 3 true 0) 40 1 ∧
    gives (.sysCtxrd false 40 2 6) (asking 1 true 0) 40 0 ∧
    gives (.sysCtxrd false 40 2 6) ((asking 5 true 31).modTeam 2 fun t => { t with kLead := t.kLead.set 31 66 }) 40 66 ∧
    trapsAt (.sysCtxrd false 40 2 6) (asking 2 false 9) Cause.contextBusy := by decide +kernel

/-- A CSRW of an owner's or the operator's register at index i, of a value. -/
def writes (s : State) (i : BitVec 12) (v : Nat) (f : State → Bool) : Bool :=
  does (.sysCsrw false 4 i) (regs s [(4, v % 2 ^ 32), (5, v / 2 ^ 32)]) f

/-- A CSRW of a value that breaks the layout. -/
def refuses (s : State) (i : BitVec 12) (v : Nat) : Bool :=
  trapsAt (.sysCsrw false 4 i) (handler (regs s [(4, v % 2 ^ 32), (5, v / 2 ^ 32)])) Cause.reservedField

/-- A property of context 5. -/
def ctx5 (f : Ctx → Bool) (u : State) : Bool := ((u.ctx? 5).map f).getD false

theorem wit_owner_writes : writes owner 0x411 16 (ctx5 fun c => c.flog.size == 16) ∧ refuses owner 0x411 8 ∧ refuses owner 0x411 24 ∧
    writes owner 0x413 7 (ctx5 fun c => c.flog.head == 7) ∧ writes owner 0x416 3 (ctx5 fun c => c.halthold == 3) ∧
    writes owner 0x420 7 (ctx5 fun c => c.att && c.allhold && c.stopreq) ∧ writes owner 0x420 6 (ctx5 fun c => !c.att && !c.stopreq) ∧
    refuses owner 0x420 16 ∧ writes owner 0x421 0x30000 (fun u => (u.crew 3).held == none) ∧ writes owner 0x421 0x10000 (fun u => u.crews == owner.crews) ∧
    refuses owner 0x421 0x8000 ∧ refuses owner 0x421 0x40000 ∧ refuses owner 0x421 0x18000 := by decide +kernel

theorem wit_owner_selects : writes owner 0x422 (2 ^ 60 + 2 ^ 60 - 1) (ctx5 fun _ => false) = false ∧ refuses owner 0x422 (2 ^ 60 + 2 ^ 12) ∧
    writes owner 0x422 (2 ^ 60 + 0xFFF) (ctx5 fun c => c.dbgsel.toNat == 2 ^ 60 + 0xFFF) ∧ refuses owner 0x422 (2 ^ 57) ∧
    refuses owner 0x422 (2 ^ 61 + 2 ^ 15) ∧ refuses owner 0x422 (2 ^ 62 + 1) ∧
    writes owner 0x424 0x801 (ctx5 fun c => c.csctl == 0x801) ∧ refuses owner 0x424 0x820 ∧ refuses owner 0x424 0x701 ∧ refuses owner 0x424 1 ∧
    writes owner 0x425 0x2000 (ctx5 fun c => c.cslog.base == 0x2000) ∧ refuses owner 0x425 0x2001 ∧
    writes owner 0x426 1024 (ctx5 fun c => c.cslog.size == 1024) ∧ refuses owner 0x426 512 ∧
    writes owner 0x428 5 (ctx5 fun c => c.cslog.head == 5) := by decide +kernel

theorem wit_operator_writes : writes system 0x025 7 (fun u => (u.thread 4).trap.tguard == ⟨true, true, 1, 0, 0⟩) ∧
    refuses system 0x025 6 ∧ refuses system 0x025 (1 + 4 + 64) ∧ refuses system 0x025 (1 + 36) ∧
    writes system 0x800 5 (fun u => u.fab.peerId == 5) ∧ refuses system 0x800 0x400 ∧
    writes system 0x801 1 (fun u => u.fab.en) ∧ refuses system 0x801 2 ∧ refuses system 0x802 0 ∧ refuses system 0x820 0x10000 ∧
    writes system 0x867 0x80000005 (fun u => (u.die 7).csassign == 0x80000005) ∧ refuses system 0x860 0x800 ∧
    writes system 0x8B7 1 (fun u => Table.getD u.ctl.pwrcap 23 0 == 1) ∧ refuses system 0x8A0 2 ∧
    writes system 0x8B8 600 (fun u => u.ctl.pwrlim == 600) ∧ refuses system 0x8B8 599 ∧ refuses system 0x8B8 2401 := by decide +kernel

theorem wit_feature_requests : (let s := { system with ctl := { system.ctl with locked := false } };
    writes s 0x886 0x1FF (fun u => u.ctl.featReq.setWidth 64 == 0x1FF) ∧ writes s 0x887 3 (fun u => (u.ctl.featReq >>> 64).toNat == 3)) := by
  decide +kernel

theorem wit_unready : fabric.HostOpen ∧ (let s := { fabric7 with ctl := { fabric7.ctl with fnReady := 0 } };
    does (.stationUpOrDown 47 true) s (fun u => u.fab.up == [0, 3])) ∧
    (let s := { hosted 0 with ctl := { (hosted 0).ctl with fnReady := 0 } };
      does (.hostPortUpOrDown 1 (some 0x12000)) s (fun u => u.fab.ports == [0]) ∧
      does (.ethernetFrameReceive 4 2 true true [1] 0) s (fun u => u.m == s.m)) ∧
    does (.hostMemAccess 0 0 (2 ^ 41 + 8) true [1, 2]) (hosted 0) (fun u => u.physBytes (2 ^ 41 + 8) 2 == [1, 2]) ∧
    does (.hostMemAccess 0 0 sliceBase true [1, 2]) (hosted 0) (fun u => u.mem == (hosted 0).mem) := by decide +kernel

/-- An earlier write through BAR0 is held. -/
theorem wit_held_writes : (let s := base.modFab fun f => { f with held := [.queueDoorbell 3 1] };
    heldWrite (.queueDoorbell 3 1) = true ∧ does (.registerWrite 0x10068 4 77) s (fun u => u.xl.pfbound == s.xl.pfbound &&
      u.fab.held == [.queueDoorbell 3 1, .registerWrite 0x10068 4 77])) ∧
    does (.registerWrite 0x10068 4 77) State.reset (fun u => u == State.reset) := by decide +kernel

theorem wit_fogged : (let s := stage6 0x18; let s := { s with trust := { s.trust with fogged := true }, cycle := 2 ^ 30 };
    does (.featureLock 1) s (fun u => u == s) ∧ does .featureLockTimeout s (fun u => u == s)) ∧
    does (.patrolScrubStep 0) booting (fun u => u.mem == booting.mem) ∧
    does (.debugStopRequest 0) (base.modCtx 0 fun c => { c with att := true }) (fun u => (u.ctx? 0).map (·.stopreq) == some true) ∧
    does (.debugDetach 0) (heldCrew.modCrew 3 fun c => { c with stepping := true }) (fun u => !(u.crew 3).stepping) := by decide +kernel

/-- An event that meets a tower that is not ready waits: the sheet's log lies in device memory. -/
def unready (fn : BitVec 64) : State :=
  let s := (base.modDie 0 fun d => { d with csassign := 0x80000000, sheet := [record0] }).modCtx 0 fun c =>
    { c with csctl := 1, cslog := ⟨0x1000, 16, 0, 0, 0⟩ }
  { s.modM (fun m => { m with issueQ := [], inbox := [.contactSheetDrain 0] }) with ctl := { s.ctl with fnReady := fn } }

theorem test_unready_step : (match step (unready 0) with
      | .next u => u.m.later == [.contactSheetDrain 0] && u.m.inbox == [] && (u.die 0).sheet.length == 1
      | _ => false) = true ∧
    (match step (unready base.ctl.fnReady) with
      | .next u => u.m.later == [] && (u.die 0).sheet.length == 0
      | _ => false) = true := by decide +kernel

/-! ## Issue, the step and the encoding -/

/-- A guard covers the next word. -/
def guarded : State := (handler base).modThread 4 fun th => { th with guard := ⟨true, true, 1, 0, 1⟩ }

/-- The kernel has 40 registers. -/
def small : State := lrec (handler base) fun l => { l with regs := 40 }

theorem test_issue_checks : trapsAt (.shfl false 1 2 3 .idx false) guarded Cause.guardCover ∧ trapsAt (.pb 0 0 0) guarded Cause.guardCover ∧
    trapsAt (.addi false 40 0 1) small Cause.unallocatedRegister ∧ gives (.addi false 39 0 1) small 39 1 ∧
    trapsAt (.iop false 4 6 39 true .add) small Cause.unallocatedRegister ∧
    trapsAt (.iop false 3 6 8 true .add) small Cause.misalignedRegister ∧
    trapsAt (.sysPlace false 6 2 4 false) (handler owner) Cause.seatDenied ∧ small.issueCheck (.addi false 39 0 1) 4 = none := by decide +kernel

theorem wit_issue_checks : (encode (.shfl false 1 2 3 .idx false)).isSome = true ∧ guarded.m.cur.Alone ∧ guarded.m.cur.lanes = [4] ∧
    (Table.find? guarded.threads 4).isSome = true ∧ (guarded.thread 4).cont = none ∧ (guarded.thread 4).handles ∧
    (guarded.thread 4).guard.active = true := by decide +kernel

/-- Thread 4 is a continuation. -/
def frozen : State := (handler base).modThread 4 fun th => { th with cont := some ⟨9, 0, 0, [], [], false⟩ }

theorem test_frozen : Instr.freezes (.sysTrap false 1 2) = true ∧
    does (.sysTrap false 1 2) frozen (fun u => ((u.thread 4).cont.map (·.frozen)) == some true && (u.thread 4).pc == (frozen.thread 4).pc) := by
  decide +kernel

/-- The word ADDI v6, v6, 1 is to be fetched next. -/
def next : State := State.reset.withFetchWord 32 0x0630C001

theorem wit_step : next.trust.railsBad = false ∧ next.toDiscard = none ∧ next.m.issueQ.map (·.lanes) = [[4]] ∧
    (let b := next.m.issueQ.headD ⟨0, 0, 0, [], false⟩;
      let s0 := (next.modM fun m => { m with issueQ := [] }).leaveLoop 4 b.pc;
      let q := s0.getWords 4 b.pc (s0.thread 4).unchained;
      s0.basicReady 4 = true ∧ (s0.thread 4).pc = b.pc ∧
        (match q.2 with
          | .words w none false => w == 0x0630C001
          | _ => false) = true ∧
        decodeCause q.1.ctl.neg 0x0630C001 = .ok (.instr (.addi false 6 6 1)) ∧ (q.1.thread 4).guard.active = false ∧
        q.1.crewWhole [4] ⟨decoded q.1.ctl.neg 0x0630C001 none false, false, false⟩ = true ∧
        q.1.hits b.core (q.1.bundleKey [4]) b.pc [4] = false ∧
        (match exec (.addi false 6 6 1) (q.1.setCur { Cur.none with core := b.core, part := b.part, pc := b.pc, after := b.pc + 4, lanes := [4], probe := true }) with
          | .next p => p.m.cur.early.isEmpty
          | _ => false) = true) := by decide +kernel

theorem test_step : (match step next with
      | .next u => (u.thread 4).rv 6 == 1 && (u.thread 4).pc == (next.thread 4).pc + 4 && u.m.issueQ.isEmpty
      | _ => false) = true ∧
    (match step { State.reset with trust := { State.reset.trust with railsBad := true } } with
      | .fault .railsOutOfBand => true
      | _ => false) = true ∧
    (match step (State.reset.modM fun m => { m with inbox := [.railsStable] }) with
      | .next u => u.trust.railsOk && u.m.inbox.isEmpty
      | _ => false) = true ∧ State.reset.trust.railsBad = false ∧ State.reset.toDiscard = none ∧ State.reset.m.issueQ = [] := by decide +kernel

theorem wit_round_trip : (Instr.addi false 6 6 1).wellFormed = true ∧ encode (.addi false 6 6 1) = some 0x0630C001 ∧
    decodeWord 0x0630C001 = .ok (.addi false 6 6 1) := by decide +kernel

theorem wit_rounding : (∃ n e, Fmt.f32.decode 0x3F800000 = .num n (2 ^ 23) e) ∧ Fmt.f32.decode 0x7FC00000 = .nan false ∧
    Fmt.f32.decode 0x7F800001 = .nan true := ⟨⟨false, -23, by decide +kernel⟩, by decide +kernel, by decide +kernel⟩

theorem wit_memory_form : State.reset.Canonical := ⟨by decide +kernel, by decide +kernel⟩

theorem test_first_step : (match step State.reset with
    | .next u => u.cycle == 1
    | _ => false) = true := by decide +kernel

end Sys2Proof.Tests
end

/-! SUPPORT. The integer words and the moves into registers (04 R97-R102, R105, R106): what each gives in the lanes of its bundle,
and the words of format B (02 R53). -/

namespace Sys2Proof.Machine

/-! ## The words of format B -/

/-- The word of format B with an opcode and its fields (02 R53). -/
def formatBWord (op : Nat) (ch : Bool) (d a : Reg) (e : BitVec 13) : Nat :=
  op * 2 ^ 25 + (if ch then 2 ^ 31 else 0) + d.toNat * 2 ^ 19 + a.toNat * 2 ^ 13 + e.toNat

theorem bitN_mul (b : Bool) (n : Nat) : bitN b * n = if b then n else 0 := by
  cases b <;> simp [bitN]

theorem encode_addi (ch : Bool) (d a : Reg) (e : BitVec 13) : encode (.addi ch d a e) = some (formatBWord 3 ch d a e) := by
  simp [encode, encAddi, formatBWord, bitN_mul]

theorem encode_andi (ch : Bool) (d a : Reg) (e : BitVec 13) : encode (.andi ch d a e) = some (formatBWord 4 ch d a e) := by
  simp [encode, encAndi, formatBWord, bitN_mul]

theorem encode_ori (ch : Bool) (d a : Reg) (e : BitVec 13) : encode (.ori ch d a e) = some (formatBWord 5 ch d a e) := by
  simp [encode, encOri, formatBWord, bitN_mul]

theorem encode_xori (ch : Bool) (d a : Reg) (e : BitVec 13) : encode (.xori ch d a e) = some (formatBWord 6 ch d a e) := by
  simp [encode, encXori, formatBWord, bitN_mul]

/-! ## Words that write registers and nothing else -/

/-- A word that writes registers only raises no flag, so it gives in every lane what it computes from the state before. -/
theorem State.Bundled.ends_regs {s : State} {i : Instr} {prod : Nat → Reg → Tag} {h : State → Nat → List (Reg × Word)}
    {w : Nat → List (Reg × Word)} (hb : s.Bundled i) (he : exec i s = .next (s.runRegs i prod fun s t => .ofRegs (h s t)))
    (hw : ∀ t, h s t = w t) : s.Ends i fun u => s.Results u fun t => .ofRegs (w t) :=
  hb.results (fun t => congrArg RegOut.ofRegs (hw t)) (State.quiet_of_flags fun _ => rfl) he

section

variable {s : State} {ch : Bool} {d a b : Reg}

/-! ## Immediate forms (04 R99-R101) -/

theorem State.Bundled.ends_addi {e : BitVec 13} (hb : s.Bundled (.addi ch d a e)) :
    s.Ends (.addi ch d a e) fun u => s.Results u fun t => .ofRegs (regWrites d ((s.thread t).rv a + e.signExtend 32)) :=
  hb.ends_regs rfl fun t => by rw [State.src_alone hb.1]

theorem State.Bundled.ends_andi {e : BitVec 13} (hb : s.Bundled (.andi ch d a e)) :
    s.Ends (.andi ch d a e) fun u => s.Results u fun t => .ofRegs (regWrites d ((s.thread t).rv a &&& e.setWidth 32)) :=
  hb.ends_regs rfl fun t => by rw [State.src_alone hb.1]

theorem State.Bundled.ends_ori {e : BitVec 13} (hb : s.Bundled (.ori ch d a e)) :
    s.Ends (.ori ch d a e) fun u => s.Results u fun t => .ofRegs (regWrites d ((s.thread t).rv a ||| e.setWidth 32)) :=
  hb.ends_regs rfl fun t => by rw [State.src_alone hb.1]

theorem State.Bundled.ends_xori {e : BitVec 13} (hb : s.Bundled (.xori ch d a e)) :
    s.Ends (.xori ch d a e) fun u => s.Results u fun t => .ofRegs (regWrites d ((s.thread t).rv a ^^^ e.setWidth 32)) :=
  hb.ends_regs rfl fun t => by rw [State.src_alone hb.1]

theorem State.Bundled.ends_movi {m : BitVec 19} (hb : s.Bundled (.movi ch d m)) :
    s.Ends (.movi ch d m) fun u => s.Results u fun _ => .ofRegs (regWrites d (m.signExtend 32)) :=
  hb.ends_regs rfl fun _ => rfl

theorem State.Bundled.ends_movhi {m : BitVec 19} (hb : s.Bundled (.movhi ch d m)) :
    s.Ends (.movhi ch d m) fun u => s.Results u fun t =>
      .ofRegs (regWrites d (BitVec.ofNat 32 (m.toNat * 2 ^ 13 + ((s.thread t).rv d).toNat % 2 ^ 13))) :=
  hb.ends_regs rfl fun t => by rw [State.src_alone hb.1]

theorem State.Bundled.ends_shi {k : ShKind} {w64 : Bool} {amt : BitVec 6} (hb : s.Bundled (.shi ch d a k w64 amt)) :
    s.Ends (.shi ch d a k w64 amt) fun u => s.Results u fun t =>
      .ofRegs (if w64 then pairWrites d (iopResult (shKindFn k) ((s.thread t).rx a) 0 amt.toNat)
        else regWrites d (iopResult (shKindFn k) ((s.thread t).rv a) 0 amt.toNat)) :=
  hb.ends_regs rfl fun t => by rw [State.src_alone hb.1]

/-! ## Register forms (04 R97, R98, R102, R105) -/

theorem State.Bundled.ends_iop {w64 : Bool} {f : IopFn} (hb : s.Bundled (.iop ch d a b w64 f)) :
    s.Ends (.iop ch d a b w64 f) fun u => s.Results u fun t => .ofRegs (iopLane (s.thread t) d a b w64 f) :=
  hb.ends_regs rfl fun t => by rw [State.src_alone hb.1]

/-- Scaling the index of LEA multiplies it by the power of two (04 R102). -/
theorem leaResult_eq_mul (base : DWord) (idx : Word) (sh : Nat) (sg : Bool) : leaResult base idx sh sg =
    base + (if sg then idx.signExtend 64 else idx.setWidth 64) * BitVec.ofNat 64 (2 ^ sh) := by
  have hp : BitVec.twoPow 64 sh = BitVec.ofNat 64 (2 ^ sh) := BitVec.eq_of_toNat_eq (by rw [BitVec.toNat_twoPow, BitVec.toNat_ofNat])
  rw [leaResult, BitVec.shiftLeft_eq_mul_twoPow, hp]

theorem State.Bundled.ends_lea {sh : BitVec 3} {sg : Bool} (hb : s.Bundled (.lea ch d a b sh sg)) :
    s.Ends (.lea ch d a b sh sg) fun u => s.Results u fun t => .ofRegs (pairWrites d ((s.thread t).rx a +
      (if sg then ((s.thread t).rv b).signExtend 64 else ((s.thread t).rv b).setWidth 64) * BitVec.ofNat 64 (2 ^ sh.toNat))) :=
  hb.ends_regs rfl fun t => by rw [State.src_alone hb.1, leaResult_eq_mul]

theorem State.Bundled.ends_sel {p : PReg} {w64 : Bool} (hb : s.Bundled (.sel ch d a b p w64)) :
    s.Ends (.sel ch d a b p w64) fun u => s.Results u fun t =>
      .ofRegs (if w64 then pairWrites d (if (s.thread t).rp p then (s.thread t).rx a else (s.thread t).rx b)
        else regWrites d (if (s.thread t).rp p then (s.thread t).rv a else (s.thread t).rv b)) :=
  hb.ends_regs rfl fun t => by rw [State.src_alone hb.1, apply_ite (s.thread t).rx, apply_ite (s.thread t).rv]

/-! ## Moves into registers (04 R106) -/

theorem State.Bundled.ends_xmovMov (hb : s.Bundled (.xmovMov ch d a)) :
    s.Ends (.xmovMov ch d a) fun u => s.Results u fun t => .ofRegs (regWrites d ((s.thread t).rv a)) :=
  hb.ends_regs rfl fun t => by rw [State.src_alone hb.1]

theorem State.Bundled.ends_xmovRdk {k : BitVec 5} (hb : s.Bundled (.xmovRdk ch d k)) :
    s.Ends (.xmovRdk ch d k) fun u => s.Results u fun t => .ofRegs (pairWrites d (if (s.crewOf t).index = 0
      then ((s.teamOf t).kLead)[k.toNat]'k.isLt else ((s.teamOf t).kView)[k.toNat]'k.isLt)) :=
  hb.ends_regs rfl fun t => by rw [State.kReg_alone hb.1]

/-- The predicates of a thread as a word, p0 among them as true. -/
def Thread.predWord (th : Thread) : Word := (th.p ||| 1).setWidth 32

/-- Bit i of the predicates' word is pi, and no other bit is set. -/
theorem Thread.getLsbD_predWord (th : Thread) (i : Nat) :
    th.predWord.getLsbD i = (decide (i < 16) && th.rp (BitVec.ofNat 4 i)) := by
  obtain rfl | h0 := Nat.eq_zero_or_pos i
  · simp [Thread.predWord, Thread.rp]
  have h1 : ¬ i = 0 := h0.ne'
  by_cases hi : i < 16
  · have hn : (BitVec.ofNat 4 i).toNat = i := by rw [BitVec.toNat_ofNat, Nat.mod_eq_of_lt hi]
    have hz : BitVec.ofNat 4 i ≠ 0#4 := fun h => h1 (by rw [← hn, h, BitVec.toNat_zero])
    simp [Thread.predWord, Thread.rp, hi, hn, hz, h1, show i < 32 by omega]
  · simp [Thread.predWord, hi, h1, BitVec.getLsbD_of_ge th.p i (by omega)]

theorem State.Bundled.ends_xmovRdp (hb : s.Bundled (.xmovRdp ch d)) :
    s.Ends (.xmovRdp ch d) fun u => s.Results u fun t => .ofRegs (regWrites d (s.thread t).predWord) :=
  hb.ends_regs rfl fun t => by rw [State.src_alone hb.1]; rfl

end

/-- Settles O1: each word is a register word without flags, so `runRegs_spec` gives its result in every lane. -/
theorem integerWords : Obligations.IntegerWords := by
  unfold Obligations.IntegerWords
  constructor
  · intro s ch d a e m k w64 amt
    exact ⟨⟨encode_addi ch d a e, encode_andi ch d a e, encode_ori ch d a e, encode_xori ch d a e⟩,
      State.Bundled.ends_addi, State.Bundled.ends_andi, State.Bundled.ends_ori, State.Bundled.ends_xori,
      State.Bundled.ends_movi, State.Bundled.ends_movhi, State.Bundled.ends_shi⟩
  · intro s ch d a b w64 f sh sg p k
    refine ⟨State.Bundled.ends_iop, State.Bundled.ends_lea, State.Bundled.ends_sel, State.Bundled.ends_xmovMov,
      State.Bundled.ends_xmovRdk, fun hb => ?_⟩
    obtain ⟨u, he, hr⟩ := hb.ends_xmovRdp
    exact ⟨u, fun t => (s.thread t).predWord, he, fun t => (s.thread t).getLsbD_predWord, hr⟩

end Sys2Proof.Machine

/-! SUPPORT. FGATE and FSQ (06 R155, R157) and YIELD (04 R109): words whose lanes each go on after a change of their own thread, and
what a squash discards. -/

namespace Sys2Proof.Machine

/-! ## A change of one thread -/

/-- A thread has changed by `h`; every other thread and the rest are as they were, and no thread has gone. -/
structure State.Turned (s u : State) (t : Nat) (h : Thread → Thread) : Prop where
  thread : u.thread t = h (s.thread t)
  frame : s.TurnFrame u t
  kept : ∀ q, (Table.find? s.threads q).isSome = true → (Table.find? u.threads q).isSome = true

theorem State.turned_refl (s : State) (t : Nat) : s.Turned s t id := ⟨rfl, s.turnFrame_refl t, fun _ h => h⟩

theorem State.Turned.trans {a b c : State} {t : Nat} {f g : Thread → Thread} (h : a.Turned b t f) (k : b.Turned c t g) :
    a.Turned c t (g ∘ f) :=
  ⟨by rw [k.thread, h.thread]; rfl, h.frame.trans k.frame, fun q hq => k.kept q (h.kept q hq)⟩

theorem State.turned_modThread (s : State) (t : Nat) (f : Thread → Thread) : s.Turned (s.modThread t f) t f :=
  ⟨s.thread_modThread_self t f, s.turnFrame_modThread t f, fun q => s.isSome_modThread t q f⟩

theorem State.turned_advance {s : State} (ha : s.m.cur.Alone) (t : Nat) : s.Turned (s.advance t) t (·.past s.m.cur) :=
  ⟨(s.advance_turn t ha).1, (s.advance_turn t ha).2, s.isSome_advance t⟩

/-! ## Words whose lanes each go on after a change of their own thread -/

theorem State.turnsFrame_refl (s : State) (ts : List Nat) : s.TurnsFrame s ts :=
  ⟨fun _ _ => rfl, fun _ => ⟨_, rfl⟩, s.sameCtxs_refl, rfl, s.sameRest_refl⟩

theorem State.TurnFrame.cons {a b c : State} {t : Nat} {ts : List Nat} (h : a.TurnFrame b t) (k : b.TurnsFrame c ts) :
    a.TurnsFrame c (t :: ts) where
  threads q hq := by
    obtain ⟨h1, h2⟩ := not_or.1 (mt List.mem_cons.2 hq)
    rw [k.threads q h2, h.threads q h1]
  crews x := by
    obtain ⟨_, e⟩ := h.crews x
    obtain ⟨m, f⟩ := k.crews x
    exact ⟨m, by rw [f, e]⟩
  ctxs := State.sameCtxs_trans h.ctxs k.ctxs
  eng := k.eng.trans h.eng
  rest := h.rest.trans k.rest

section

variable {i : Instr} {f : State → Nat → LaneRes}

/-- A lane whose effect changes its own thread goes on after the word. -/
theorem State.Runs.turned_runLane {s u : State} {t : Nat} {h : Thread → Thread} (hr : s.Runs i t) (ha : s.m.cur.Alone)
    (hf : f s t = .done u) (hu : s.Turned u t h) : s.Turned (s.runLane i f t) t fun th => (h th).past s.m.cur := by
  rw [State.runLane_alone ha hr, hf]
  have hm : u.m = s.m := hu.frame.rest.model
  have hk := hu.trans (State.turned_advance (by rw [hm]; exact ha) t)
  rw [hm] at hk
  exact hk

/-- The lanes of a word each of which changes its own thread by `h`. The effect may read what no lane changes, as YIELD reads the
cycle, so it is asked for in every state that agrees with the first outside threads, crews and contexts. -/
theorem State.foldl_runLane_done (h : Nat → Thread → Thread) (l : List Nat) (s : State) (hn : l.Nodup) (ha : s.m.cur.Alone)
    (hr : ∀ t ∈ l, s.Runs i t) (hf : ∀ r t, s.SameRest r → ∃ u, f r t = .done u ∧ r.Turned u t (h t)) :
    s.TurnsFrame (l.foldl (fun s t => s.runLane i f t) s) l ∧
      ∀ t ∈ l, (l.foldl (fun s t => s.runLane i f t) s).thread t = (h t (s.thread t)).past s.m.cur := by
  induction l generalizing s with
  | nil => exact ⟨s.turnsFrame_refl [], fun t ht => absurd ht List.not_mem_nil⟩
  | cons x l ih =>
    obtain ⟨hx, hl⟩ := List.nodup_cons.1 hn
    obtain ⟨u, hu, hc⟩ := hf s x s.sameRest_refl
    obtain ⟨e, k, p⟩ := (hr x List.mem_cons_self).turned_runLane ha hu hc
    have hne : ∀ t ∈ l, t ≠ x := fun t ht e => hx (e ▸ ht)
    have hm := k.rest.model
    obtain ⟨b, d⟩ := ih _ hl (by rw [hm]; exact ha)
      (fun t ht => (hr t (List.mem_cons_of_mem _ ht)).turn (hne t ht) (p t) k) fun r t hs => hf r t (k.rest.trans hs)
    refine ⟨k.cons b, fun t ht => ?_⟩
    rw [List.foldl_cons]
    rcases List.mem_cons.1 ht with rfl | ht
    · rw [b.threads t hx, e]
    · rw [d t ht, k.threads t (hne t ht), hm]

theorem State.Bundled.runLanes_done {s : State} (hb : s.Bundled i) (h : Nat → Thread → Thread)
    (hf : ∀ r t, s.SameRest r → ∃ u, f r t = .done u ∧ r.Turned u t (h t)) :
    s.TurnsFrame (s.runLanes i f) s.m.cur.lanes ∧
      ∀ t ∈ s.m.cur.lanes, (s.runLanes i f).thread t = (h t (s.thread t)).past s.m.cur :=
  State.foldl_runLane_done h s.m.cur.lanes s hb.2.1 hb.1 hb.2.2 hf

/-- A lane whose effect places its thread, in a thread that may be a continuation, at a word at which none freezes. -/
theorem State.runLane_placed {s u : State} {t : Nat} (ha : s.m.cur.Alone) (ht : (Table.find? s.threads t).isSome = true)
    (hc : s.issueCheck i t = none) (hz : i.freezes = false) (hf : f s t = .placed u) : s.runLane i f t = u := by
  have hp : s.m.cur.probe = false := ha.2.2.1
  have hi : (Table.find? s.threads t).isNone = false := by rw [← Option.not_isSome, ht]; rfl
  simp [State.runLane, hi, hc, hz, hf, hp, (State.pair_alone ha t).2.2]

end

/-! ## What a squash discards (06 R150) -/

theorem State.chargeSlot_rest (s : State) (key i : Nat) :
    (s.chargeSlot key i).threads = s.threads ∧ s.SameRest (s.chargeSlot key i) := by
  have h : s.SameRest ((s.count key 1 1).count key i 1) := (s.sameRest_count _ _ _).trans (State.sameRest_count _ _ _ _)
  unfold State.chargeSlot
  dsimp only
  split
  · exact ⟨rfl, h.trans (State.sameRest_count _ _ _ _)⟩
  · exact ⟨rfl, h⟩

theorem State.foldl_chargeSlot_rest {α : Type} (key i : α → Nat) (l : List α) (s : State) :
    (l.foldl (fun s e => s.chargeSlot (key e) (i e)) s).threads = s.threads ∧
      s.SameRest (l.foldl (fun s e => s.chargeSlot (key e) (i e)) s) := by
  induction l generalizing s with
  | nil => exact ⟨rfl, s.sameRest_refl⟩
  | cons e l ih =>
    obtain ⟨h1, h2⟩ := s.chargeSlot_rest (key e) (i e)
    obtain ⟨k1, k2⟩ := ih (s.chargeSlot (key e) (i e))
    exact ⟨k1.trans h1, h2.trans k2⟩

/-- Closing the slots of a fork charges contexts and changes no thread. -/
theorem State.closeSlots_rest (s : State) (c : Nat) (b : Bool) :
    (s.closeSlots c b).threads = s.threads ∧ s.SameRest (s.closeSlots c b) := by
  unfold State.closeSlots
  extract_lets upd done r
  obtain ⟨h1, h2⟩ := State.foldl_chargeSlot_rest (fun e => e.1) (fun e => if e.2.2 then 2 else 3) done r
  exact ⟨h1, State.SameRest.trans (b := r) ⟨rfl, rfl, rfl, rfl, rfl, rfl, rfl, rfl, rfl, rfl, rfl, rfl, rfl, rfl⟩ h2⟩

/-- A state in which a continuation's thread is gone and its slots are closed. -/
def State.dropCont (s : State) (c : Nat) : State := ({ s with threads := Table.erase s.threads c } : State).closeSlots c false

theorem State.dropCont_threads (s : State) (c : Nat) : (s.dropCont c).threads = Table.erase s.threads c :=
  (State.closeSlots_rest _ c false).1

@[simp] theorem State.dropCont_m (s : State) (c : Nat) : (s.dropCont c).m = s.m := (State.closeSlots_rest _ c false).2.model

theorem State.find?_dropCont_self (s : State) (c : Nat) : Table.find? (s.dropCont c).threads c = none := by
  rw [s.dropCont_threads, Table.find?_erase_self]

theorem State.thread_dropCont_ne (s : State) {c q : Nat} (h : q ≠ c) : (s.dropCont c).thread q = s.thread q := by
  simp only [State.thread, Table.getD, s.dropCont_threads, Table.find?_erase_ne _ h]

theorem State.find?_modThread_ne (s : State) {t q : Nat} (f : Thread → Thread) (h : q ≠ t) :
    Table.find? (s.modThread t f).threads q = Table.find? s.threads q := Table.find?_set_ne _ _ h

theorem State.find?_advance_ne (s : State) {t q : Nat} (h : q ≠ t) :
    Table.find? (s.advance t).threads q = Table.find? s.threads q := by
  unfold State.advance
  dsimp only
  rw [(State.retire_spec _ t).1, State.find?_modThread_ne _ _ h, State.find?_modThread_ne _ _ h]

theorem State.squashInner_nil {s : State} {t : Nat} (h : (s.thread t).fork.recs = []) (why : SquashWhy) :
    s.squashInner t why = s := by
  simp [State.squashInner, h]

/-- A thread that has lost one fork, with the forks that stay. -/
def Thread.loseFork (th : Thread) (recs : List Fork) (why : SquashWhy) : Thread :=
  { th with fork := ({ th.fork with recs := recs, fdepth := th.fork.fdepth - 1 }).count why }

theorem State.squashInner_cons {s : State} {t : Nat} {f : Fork} {l : List Fork} (h : (s.thread t).fork.recs = f :: l)
    (why : SquashWhy) :
    s.squashInner t why = (s.dropCont f.cont).modThread t fun th => th.loseFork l why := by
  simp only [State.squashInner, h]
  rfl

theorem State.squashCont_cont {s : State} {c : Nat} {k : Cont} (h : (s.thread c).cont = some k) (why : SquashWhy) :
    s.squashCont c why = ((s.lowerInner c (s.thread k.owner).fork.recs).dropCont c).modThread k.owner fun th =>
      th.loseFork (th.fork.recs.filter fun f => f.cont != c) why := by
  simp only [State.squashCont, h]
  rfl

/-- Lowering the depth of inner continuations changes no other thread. -/
theorem State.thread_lowerInner (s : State) (c q : Nat) (recs : List Fork) (h : ∀ f ∈ recs, f.cont ≠ q) :
    (s.lowerInner c recs).thread q = s.thread q := by
  have hl : ∀ f ∈ recs.takeWhile fun f => f.cont != c, f.cont ≠ q := fun f hf => h f ((List.takeWhile_prefix _).subset hf)
  unfold State.lowerInner
  generalize recs.takeWhile (fun f => f.cont != c) = l at hl
  induction l generalizing s with
  | nil => rfl
  | cons f l ih =>
    obtain ⟨hf, hl⟩ := List.forall_mem_cons.1 hl
    rw [List.foldl_cons, ih _ hl, State.thread_modThread_ne _ _ hf.symm]

/-! ## FGATE, YIELD and FSQ -/

/-- The threads that a YIELD waits for: those of its partition that were ready and unmarked (17 R340). -/
def State.yieldOthers (s : State) : List Nat :=
  (s.partThreads s.m.cur.core s.m.cur.part).filter fun t =>
    !s.m.cur.lanes.contains t && (s.thread t).mark.isNone && (s.setCur Cur.none).ready t

section

variable {s : State} {ch : Bool} {t : Nat}

/-- FGATE has no effect beyond retiring (06 R155). -/
theorem State.Bundled.ends_cwaitFgate (hb : s.Bundled (.cwaitFgate ch)) :
    s.Ends (.cwaitFgate ch) fun u => s.TurnsFrame u s.m.cur.lanes ∧
      ∀ q ∈ s.m.cur.lanes, u.thread q = (s.thread q).past s.m.cur :=
  ⟨_, rfl, hb.runLanes_done (fun _ => id) fun r t _ => ⟨r, rfl, r.turned_refl t⟩⟩

/-- YIELD marks each thread with the cycle and the threads that have yet to issue (04 R109, 17 R340). -/
theorem State.Bundled.ends_yieldOp (hb : s.Bundled (.yieldOp ch)) :
    s.Ends (.yieldOp ch) fun u => s.TurnsFrame u s.m.cur.lanes ∧
      ∀ q ∈ s.m.cur.lanes, ∃ m, u.thread q = { (s.thread q).past s.m.cur with mark := some (s.cycle, m) } := by
  obtain ⟨hf, ht⟩ := hb.runLanes_done (fun _ th => { th with mark := some (s.cycle, s.yieldOthers) }) fun r t hr =>
    ⟨_, rfl, by rw [← hr.cycle]; exact r.turned_modThread t fun th => { th with mark := some (r.cycle, s.yieldOthers) }⟩
  exact ⟨_, rfl, hf, fun q hq => ⟨s.yieldOthers, ht q hq⟩⟩

/-- FSQ in a lane: a continuation squashes its own fork and is gone; any other thread squashes its innermost open fork. -/
def fsqLane (s : State) (t : Nat) : LaneRes :=
  if (s.thread t).isCont then .placed (s.squashCont t .other) else .done (s.squashInner t .other)

theorem exec_cwaitFsq_eq_runLanes (s : State) (ch : Bool) : exec (.cwaitFsq ch) s = .next (s.runLanes (.cwaitFsq ch) fsqLane) := rfl

theorem fsqLane_of_cont_some {k : Cont} (h : (s.thread t).cont = some k) : fsqLane s t = .placed (s.squashCont t .other) :=
  if_pos (by rw [Thread.isCont, h]; rfl)

theorem fsqLane_of_cont_none (h : (s.thread t).cont = none) : fsqLane s t = .done (s.squashInner t .other) :=
  if_neg (by rw [Thread.isCont, h]; decide)

/-- FSQ in a thread that is no continuation squashes the innermost open fork, and the thread goes on (06 R157). -/
theorem State.Solo.exec_cwaitFsq (hs : s.Solo (.cwaitFsq ch) t) :
    exec (.cwaitFsq ch) s = .next ((s.squashInner t .other).advance t) := by
  have ⟨_, _, _, hc, _⟩ := hs
  rw [exec_cwaitFsq_eq_runLanes, State.runLanes_solo hs, fsqLane_of_cont_none hc, State.laneEnd]

theorem State.Solo.ends_cwaitFsq_nil (hs : s.Solo (.cwaitFsq ch) t) (h : (s.thread t).fork.recs = []) :
    s.Ends (.cwaitFsq ch) fun u => s.TurnFrame u t ∧ u.thread t = (s.thread t).past s.m.cur := by
  obtain ⟨ht, hf⟩ := s.advance_turn t hs.1
  exact ⟨s.advance t, by rw [hs.exec_cwaitFsq, State.squashInner_nil h], hf, ht⟩

theorem State.Solo.ends_cwaitFsq_cons (hs : s.Solo (.cwaitFsq ch) t) {f : Fork} {l : List Fork}
    (h : (s.thread t).fork.recs = f :: l) (hne : f.cont ≠ t) :
    s.Ends (.cwaitFsq ch) fun u => Table.find? u.threads f.cont = none ∧
      u.thread t = ((s.thread t).loseFork l .other).past s.m.cur := by
  refine ⟨_, hs.exec_cwaitFsq, ?_, ?_⟩
  · rw [State.find?_advance_ne _ hne, State.squashInner_cons h, State.find?_modThread_ne _ _ hne, State.find?_dropCont_self]
  · have hm : (s.squashInner t .other).m = s.m := by rw [State.squashInner_cons h, State.modThread_m, State.dropCont_m]
    rw [(State.advance_turn _ t (by rw [hm]; exact hs.1)).1, hm, State.squashInner_cons h, State.thread_modThread_self,
      State.thread_dropCont_ne _ hne.symm]

/-- FSQ in a continuation squashes its own fork, and the continuation is gone (06 R157). -/
theorem State.ends_cwaitFsq_cont {k : Cont} (ha : s.m.cur.Alone) (hl : s.m.cur.lanes = [t])
    (ht : (Table.find? s.threads t).isSome = true) (hc : s.issueCheck (.cwaitFsq ch) t = none)
    (hk : (s.thread t).cont = some k) (hne : k.owner ≠ t) (ho : ∀ f ∈ (s.thread k.owner).fork.recs, f.cont ≠ k.owner) :
    s.Ends (.cwaitFsq ch) fun u => Table.find? u.threads t = none ∧
      u.thread k.owner = (s.thread k.owner).loseFork ((s.thread k.owner).fork.recs.filter fun f => f.cont != t) .other := by
  refine ⟨s.squashCont t .other, ?_, ?_, ?_⟩
  · rw [exec_cwaitFsq_eq_runLanes, State.runLanes, hl, List.foldl_cons, List.foldl_nil,
      State.runLane_placed ha ht hc rfl (fsqLane_of_cont_some hk)]
  · rw [State.squashCont_cont hk, State.find?_modThread_ne _ _ hne.symm, State.find?_dropCont_self]
  · rw [State.squashCont_cont hk, State.thread_modThread_self, State.thread_dropCont_ne _ hne, State.thread_lowerInner _ _ _ _ ho]

end

/-- Settles O15: FGATE and YIELD by the change of each lane's own thread, FSQ by what the squash of its case discards. -/
theorem forkControl : Obligations.ForkControl := by
  unfold Obligations.ForkControl
  intro s ch t
  exact ⟨State.Bundled.ends_cwaitFgate, State.Bundled.ends_yieldOp, State.Solo.ends_cwaitFsq_nil,
    fun hs f l h hne => hs.ends_cwaitFsq_cons h hne,
    fun k ha hl ht hc hk hne ho => State.ends_cwaitFsq_cont ha hl ht hc hk hne ho⟩

end Sys2Proof.Machine
